-- ==== Sys2Proof/Word.lean ====
section
/-! DEFINITION. The word and index types of the 7216: bytes, array coordinates, line and beat numbers, time. -/

namespace Sys2Proof

/-- Eight bits: a register byte, or one byte of a line. -/
abbrev Byte := BitVec 8

/-- A bank, 0 to 15 (R1, R2). -/
abbrev Bank := Fin 16

/-- A logical row of a bank, 0 to 8191 (R1). -/
abbrev LogicalRow := Fin 8192

/-- A physical row of a bank, 0 to 8207; rows 8192 to 8207 are the spares (R2). -/
abbrev PhysicalRow := Fin 8208

/-- A spare of a bank, 0 to 15 (R2). -/
abbrev SpareIndex := Fin 16

/-- A slot of a bank's remap table, 0 to 15 (R81). -/
abbrev Slot := Fin 16

/-- A check word in a row, 0 to 127 (R2, R22). -/
abbrev WordInRow := Fin 128

/-- A sweep index, logical row × 16 + bank, 0 to 131,071 (R112). -/
abbrev SweepIndex := Fin 131072

/-- A beat address, 0 to 33,554,431 (R1, R144). -/
abbrev BeatAddress := BitVec 25

/-- A line number, 0 to 4,194,303 (R1, R124). -/
abbrev Line := BitVec 22

/-- A moment, or a length of time, in ns. Every window of the manual is a rational number of ns, and a band change
multiplies a remainder by 1/8 (R63), so time is exact. -/
abbrev Time := Rat

/-- A device time, whole milliseconds modulo 2^32 (R173). -/
abbrev DeviceTime := BitVec 32

end Sys2Proof
end

