-- ==== Sys2Proof/Syntax.lean ====
section
/-! DEFINITION. The commands of the block: one constructor of `Instr` for each row of spec/opcode_table.json, and the types of their operands. -/

namespace Sys2Proof

/-- The beat count of a request, which encodes 1, 2, 4 and 8 and no other value (R144). -/
inductive BeatCount
  | one | two | four | eight
deriving DecidableEq, Repr

/-- The number of beats a beat count encodes (R144). -/
def BeatCount.toNat : BeatCount → Nat
  | .one => 1
  | .two => 2
  | .four => 4
  | .eight => 8

/-- One beat of write data with its byte enables. Enable i and data bits 8i to 8i + 7 belong to byte i of the beat
(DESIGN CHOICE, log 15, unsafe). -/
structure WriteBeat where
  enables : BitVec 4
  data : BitVec 32
deriving DecidableEq, Repr

/-- A request of the system port (R144). The fields that R144 says are absent or without effect are not held. -/
inductive Request
  | read (address : BeatAddress) (beats : BeatCount)
  | write (address : BeatAddress) (beats : BeatCount) (data : List WriteBeat)
  | flush
deriving DecidableEq, Repr

/-- A change of stored bits of one check word (R26): bits 0 to 63 of `changed` are its data bits, bits 64 to 71 those of
its check byte. -/
structure BitChange where
  bank : Bank
  row : PhysicalRow
  word : WordInRow
  changed : BitVec 72
deriving DecidableEq, Repr

/-- What follows an address byte of the maintenance link: bytes written, or a number of bytes read (R181). -/
inductive LinkBody
  | write (bytes : List Byte)
  | read (count : Nat)
deriving DecidableEq, Repr

/-- One START or repeated START of a link transaction: the 7-bit address, and what follows in the direction it gives
(R181). -/
structure LinkSegment where
  address : BitVec 7
  body : LinkBody
deriving DecidableEq, Repr

/-- The commands of the block, one constructor per row of spec/opcode_table.json, in the table's order. -/
inductive Instr
  /-- POWER_ON_RESET (R182): the rise of PWRGOOD, with the level of LADDR[1:0]. -/
  | powerOnReset (laddr : BitVec 2)
  /-- POWER_LOSS (R182): the fall of PWRGOOD. -/
  | powerLoss
  /-- RESET_N_FALL (R156). -/
  | resetNFall
  /-- RESET_N_RISE (R156). -/
  | resetNRise
  /-- REQUEST_OFFER (R147): a request is offered on SQ. -/
  | requestOffer (request : Request)
  /-- REQUEST_ACCEPT (R146). -/
  | requestAccept
  /-- SQ_LOWERED (R146). -/
  | sqLowered
  /-- RESPONSE_TAKEN (R149): SRT is seen high. -/
  | responseTaken
  /-- CHANNEL_GRANT (R17), with the bit changes the array has suffered before it (R26, log 6). -/
  | channelGrant (changes : List BitChange)
  /-- T_OPEN_EXPIRY (R6) on a bank. -/
  | tOpenExpiry (bank : Bank)
  /-- T_MINOPEN_EXPIRY (R7) on a bank. -/
  | tMinOpenExpiry (bank : Bank)
  /-- T_CLOSE_EXPIRY (R7) on a bank. -/
  | tCloseExpiry (bank : Bank)
  /-- T_IDLE_EXPIRY (R8) on a bank. -/
  | tIdleExpiry (bank : Bank)
  /-- T_RF_EXPIRY (R10) on a bank. -/
  | tRfExpiry (bank : Bank)
  /-- INTERVAL_EXPIRY (R54) of a bank. -/
  | intervalExpiry (bank : Bank)
  /-- POLL_TIMER_EXPIRY (R34). -/
  | pollTimerExpiry
  /-- T_SENSE_EXPIRY (R159), with the reading in °C and whether its parity is good. -/
  | tSenseExpiry (reading : Int) (parityGood : Bool)
  /-- SCRUB_STEP_TIMER_EXPIRY (R100). -/
  | scrubStepTimerExpiry
  /-- DRAIN_AGE_REACHED (R129) by the FILLING entry of a line. -/
  | drainAgeReached (line : Line)
  /-- LINE_READ_COMPLETE (R151). -/
  | lineReadComplete
  /-- DRAIN_COMPLETE (R135). -/
  | drainComplete
  /-- ROW_FILL_COMPLETE (R121). -/
  | rowFillComplete
  /-- FILL_STEP_COMPLETE (R117). -/
  | fillStepComplete
  /-- SCRUB_GROUP_STEP_COMPLETE (R106). -/
  | scrubGroupStepComplete
  /-- MIGRATE_STEP_COMPLETE (R88). -/
  | migrateStepComplete
  /-- HOLD_ENTER (R166). -/
  | holdEnter
  /-- T_WAKE_EXPIRY (R170). -/
  | tWakeExpiry
  /-- HOLD (R165): the command on the link. -/
  | hold
  /-- WAKE (R165). -/
  | wake
  /-- ACK (R180), of the causes in COMMAND_ARG. -/
  | ack
  /-- CLEAR_ERRORS (R177). -/
  | clearErrors
  /-- CLEAR_SUSPECTS (R79). -/
  | clearSuspects
  /-- RETIRE (R78), of the row in RETIRE_BANK and RETIRE_ROW. -/
  | retire
  /-- PORT_RESTART (R156). -/
  | portRestart
  /-- LIMIT (R67): a write of the register. -/
  | limit (value : Byte)
  /-- IDLE_CLOSE (R8). -/
  | idleClose (value : Byte)
  /-- DRAIN_AGE (R130). -/
  | drainAge (value : Byte)
  /-- SCRUB_STEP (R101). -/
  | scrubStep (value : Byte)
  /-- CE_THRESHOLD (R77). -/
  | ceThreshold (value : Byte)
  /-- ALERT_MASK (R179). -/
  | alertMask (value : Byte)
  /-- RECORD_SELECT (R187): table and index. -/
  | recordSelect (table : Byte) (index : Byte)
  /-- REGISTER_WRITE (R184): a whole link transaction, from its START to its STOP. -/
  | registerWrite (segments : List LinkSegment)
  /-- DEVICE_TIME_TICK (R173). -/
  | deviceTimeTick
deriving DecidableEq, Repr

end Sys2Proof
end

