-- ==== Sys2Proof/Decode.lean ====
section
/-! DEFINITION. Decoding of a command from the opcode table's bits: the table gives no bits for any row, so no word spells a command. -/

namespace Sys2Proof

/-- The command that a word spells by the table's bits. spec/opcode_table.json gives every row an empty list of fields
and no fixed bits (spec/98_reader.md counts 43 rows unread), so there is none. -/
def decodeTableWord (_nbits _w : Nat) : Option Instr := none

end Sys2Proof
end

