-- ==== Sys2Proof/Config.lean ====
section
/-! DEFINITION. What is fixed for the machine: the named windows and sizes of the manual, the step of idle time, and the free values the manual leaves open. -/

namespace Sys2Proof.Config

/-- T_OPEN, row open to first word access: 15 ns (00_scope, R6). -/
def tOpen : Time := 15

/-- T_MINOPEN, row open to the earliest close: 36 ns (00_scope, R7). -/
def tMinOpen : Time := 36

/-- T_CLOSE, close to bank closed: 15 ns (00_scope, R7). -/
def tClose : Time := 15

/-- T_RF, refresh command to bank free: 300 ns (00_scope, R10). -/
def tRf : Time := 300

/-- T_SENSE, sensor read: 400 ns (00_scope, R12). -/
def tSense : Time := 400

/-- T_WAKE, hold exit to port ready: 2 µs (00_scope, R164). -/
def tWake : Time := 2000

/-- The period of the poll timer: 32 ms (R34). -/
def pollPeriod : Time := 32000000

/-- One millisecond of device time (R173). -/
def millisecond : Time := 1000000

/-- One unit of SCRUB_STEP: 100 µs (R100). -/
def scrubUnit : Time := 100000

/-- One unit of DRAIN_AGE: 0.5 µs (R130). -/
def drainUnit : Time := 500

/-- One unit of IDLE_CLOSE: 50 ns (R8). -/
def idleUnit : Time := 50

/-- The time that passes in a step on an empty queue (DESIGN CHOICE, log 2, unsafe: moments of outside events lie on
this grid between the ends of windows). -/
def idleTick : Time := 1 / 2

/-- Entries of the write buffer (R124). -/
def bufferSize : Nat := 8

/-- Requests the intake queue holds (R146, R148). -/
def intakeSize : Nat := 12

/-- Entries of the suspect list (R72). -/
def suspectSize : Nat := 8

/-- Records of the error table (R174). -/
def errorSize : Nat := 16

/-- The set of the check bytes in `cols`, as a bit mask. -/
def columnSet (cols : List Byte) : Nat := cols.foldl (fun m c => m ||| (1 <<< c.toNat)) 0

/-- No two of the bytes differ by a byte of the set `forbidden`. -/
def separated : List Byte → Nat → Bool
  | [], _ => true
  | c :: rest, forbidden =>
    rest.all (fun d => !(forbidden.testBit (c ^^^ d).toNat)) && separated rest forbidden

/-- One code that meets R26, found by search. It shows that such a code exists, and no definition computes with it. -/
def someColumns : List Byte :=
  [15, 21, 22, 27, 28, 39, 43, 45, 46, 51, 52, 57, 58, 63, 71, 75, 77, 78, 83, 84, 89, 90] ++
  [95, 97, 98, 100, 104, 111, 112, 117, 118, 123, 124, 135, 139, 141, 142, 147, 148, 153, 154] ++
  [159, 161, 162, 164, 168, 175, 176, 181, 182, 187, 188, 193, 194, 196, 200, 207, 208, 213] ++
  [214, 219, 220, 224, 231] ++ [1, 2, 4, 8, 16, 32, 64, 128]

/-- A linear check-word code of the kind R23 to R26 describe, by the change of syndrome each of the 72 stored bits
makes: columns 0 to 63 for the data bits, 64 to 71 for the bits of the check byte. The manual does not give the matrix;
what it says of it is: the check byte's own bits are unit columns (R23); no column is zero or the complement pattern
(R24); two columns differ by neither zero, nor a column, nor the complement pattern, so that two changed bits of a
valid word are never CLEAN or CORRECTED, and a poison word with one changed bit is POISONED (R26). -/
structure Code where
  columns : List Byte := someColumns
  length_eq : columns.length = 72 := by decide +kernel
  check_columns : columns.drop 64 = [1, 2, 4, 8, 16, 32, 64, 128] := by decide +kernel
  nonzero : ∀ c ∈ columns, c ≠ 0 ∧ c ≠ 0xFF := by decide +kernel
  separate : separated columns (columnSet columns ||| 1 ||| (1 <<< 255)) = true := by decide +kernel
deriving Inhabited

/-- The code of the part: a free value, any code that meets R26 (log 5, safe). -/
opaque code : Code

/-- The register index taken from an index byte above 0x3F, which R181 does not give: a free value (log 13, safe). -/
opaque indexAbove3F : Byte → BitVec 6

end Sys2Proof.Config
end

