-- ==== Sys2Proof/Machine/Operands.lean ====
section
/-! DEFINITION. Where operands fall: sweep indexes, lines, beats and words of an address, and the bytes of a line. -/

namespace Sys2Proof.Machine

/-- The later of two moments. -/
def later (a b : Time) : Time := if a ≤ b then b else a

/-- The sweep index of a logical row: row × 16 + bank (R112). -/
def sweepIndex (b : Bank) (r : LogicalRow) : SweepIndex := ⟨r.val * 16 + b.val, by omega⟩

/-- The bank of a sweep index: index mod 16 (R46). -/
def sweepBank (i : SweepIndex) : Bank := ⟨i.val % 16, by omega⟩

/-- The logical row of a sweep index: index div 16 (R46). -/
def sweepRow (i : SweepIndex) : LogicalRow := ⟨i.val / 16, by omega⟩

/-- The ordinary physical row of a logical row has the same number (R2). -/
def ordinaryRow (r : LogicalRow) : PhysicalRow := ⟨r.val, by omega⟩

/-- The physical row of a spare: 8192 plus its index (R2). -/
def spareRow (t : SpareIndex) : PhysicalRow := ⟨8192 + t.val, by omega⟩

/-- The bank of a line: (line div 32) mod 16 (R1). -/
def lineBank (n : Line) : Bank := ⟨n.toNat / 32 % 16, by omega⟩

/-- The logical row of a line: line div 512 (R1). -/
def lineRow (n : Line) : LogicalRow := ⟨n.toNat / 512, by have := n.isLt; omega⟩

/-- The line in row of a line: line mod 32 (R1). -/
def lineInRow (n : Line) : Nat := n.toNat % 32

/-- The group of a line in its row: (line in row) div 4 (R1, R133). -/
def lineGroup (n : Line) : Nat := lineInRow n / 4

/-- Word k of a line is word 4 × (line in row) + k of its row (R1, R131). -/
def lineWord (n : Line) (k : Fin 4) : WordInRow :=
  ⟨4 * (n.toNat % 32) + k.val, by omega⟩

/-- The line of a beat address: address div 8 (R144). -/
def beatLine (a : BeatAddress) : Line := BitVec.ofNat 22 (a.toNat / 8)

/-- `start`, the first beat of a request in its line: address mod 8 (R144). -/
def beatStart (a : BeatAddress) : Nat := a.toNat % 8

/-- The 16 banks in order. -/
def allBanks : List Bank := List.finRange 16

/-- A mask of whole bytes: eight bits set for each bit of `v` that is set, byte i for bit i. -/
def spread (n : Nat) (v : BitVec n) : BitVec (8 * n) :=
  (List.range n).foldl
    (fun m i => if v.getLsbD i then m ||| ((0xFF#(8 * n)) <<< (8 * i)) else m) 0

/-- `new` in the bytes that `valid` names, and `old` in the others. Byte i of a value is its bits 8i to 8i + 7. -/
def mergeBytes (n : Nat) (valid : BitVec n) (new old : BitVec (8 * n)) : BitVec (8 * n) :=
  (new &&& spread n valid) ||| (old &&& ~~~(spread n valid))

/-- Bytes of a line, some of them given: byte i is given when `valid` bit i is set (R124, R136). -/
structure LineBytes where
  valid : BitVec 32
  data : BitVec 256
deriving DecidableEq, Repr

/-- No byte of a line given. -/
def LineBytes.empty : LineBytes := ⟨0, 0⟩

/-- The bytes of `new`, and under them those of `old` (R125, R136). -/
def LineBytes.over (new old : LineBytes) : LineBytes :=
  { valid := new.valid ||| old.valid, data := mergeBytes 32 new.valid new.data old.data }

/-- The line beat of beat k of a request: (start + k) mod 8 (R144). -/
def lineBeat (address : BeatAddress) (k : Nat) : Nat := (beatStart address + k) % 8

/-- The line bytes of a request's beats: beat k is line bytes 4 × line beat to 4 × line beat + 3 (R125, R144). -/
def neededBytes (address : BeatAddress) (beats : BeatCount) : BitVec 32 :=
  (List.range beats.toNat).foldl (fun m k => m ||| ((0xF#32) <<< (4 * lineBeat address k))) 0

/-- What one beat of write data puts on its line (R125). -/
def beatBytes (address : BeatAddress) (k : Nat) (beat : WriteBeat) : LineBytes :=
  let p := lineBeat address k
  let valid := beat.enables.zeroExtend 32 <<< (4 * p)
  { valid, data := (beat.data.zeroExtend 256 <<< (32 * p)) &&& spread 32 valid }

/-- The bytes a WRITE writes, a later beat over an earlier one (R125). -/
def writtenBytes (address : BeatAddress) (beats : BeatCount) (data : List WriteBeat) : LineBytes :=
  ((data.take beats.toNat).zipIdx).foldl (fun acc x => (beatBytes address x.2 x.1).over acc) LineBytes.empty

/-- The eight `valid` flags of word k of a line, line bytes 8k to 8k + 7 (R131). -/
def wordValid (valid : BitVec 32) (k : Fin 4) : Byte := valid.extractLsb' (8 * k.val) 8

/-- The eight data bytes of word k of a line (R1, R131). -/
def wordData (data : BitVec 256) (k : Fin 4) : BitVec 64 := data.extractLsb' (64 * k.val) 64

/-- The four bytes of line beat p of a line (R144). -/
def beatData (data : BitVec 256) (p : Nat) : BitVec 32 := data.extractLsb' (32 * p) 32

/-- The four flags of line beat p of a line (R144, R151). -/
def beatValid (valid : BitVec 32) (p : Nat) : BitVec 4 := valid.extractLsb' (4 * p) 4

/-- The four words of a line in ascending order (R1). -/
def lineWords : List (Fin 4) := List.finRange 4

/-- The 16 words of a group: group g holds words 16g to 16g + 15 (R1). -/
def groupWords (group : Nat) : List WordInRow :=
  (List.range 16).map fun i => Fin.ofNat 128 (16 * group + i)

/-- The group of a word in row: word div 16 (R1). -/
def wordGroup (w : WordInRow) : Nat := w.val / 16

/-- All 128 words of a row (R2). -/
def rowWords : List WordInRow := List.finRange 128

end Sys2Proof.Machine
end

