-- ==== Sys2Proof/Machine/State.lean ====
section
/-! DEFINITION. The state of the 7216, block by block, as plain data; the reasons a step can stop; the state right after power-on reset. -/

namespace Sys2Proof.Machine

/-! ## Clock -/

/-- The part's clocks: the present moment in ns since power-on (log 2), device time (R173), and the moment of its next
millisecond. -/
structure Clock where
  now : Time
  deviceTime : DeviceTime
  nextMs : Time
deriving DecidableEq, Repr

/-! ## Bank engine and array channel (chapter 01) -/

/-- The states of a bank record (R5). `opened` is the manual's OPEN. -/
inductive BankState
  | closed | opening | opened | closing | refreshing
deriving DecidableEq, Repr

/-- The cause of a close that is asked for (R5, R7). -/
inductive CloseCause
  | idle | urgent | hold
deriving DecidableEq, Repr

/-- One bank record (R5), with the end of the T_OPEN, T_CLOSE or T_RF window that runs in OPENING, CLOSING or
REFRESHING (R6, R7, R10). -/
structure BankRecord where
  state : BankState
  row : Option PhysicalRow
  openedAt : Option Time
  lastAccess : Option Time
  closeWanted : Option CloseCause
  windowEnd : Option Time
deriving DecidableEq, Repr

/-- The Bank Engine: its 16 records, and IDLE_CLOSE, T_IDLE in units of 50 ns (R5, R8). -/
structure BankEngine where
  banks : Vector BankRecord 16
  idleClose : Byte
deriving DecidableEq, Repr

/-- A word a LINE-READ reads: its place in the line, and whether some of the word's needed bytes were taken from the
write buffer, which makes its reports of source READ_MERGE (R150, R152). -/
structure ReadWord where
  word : Fin 4
  merged : Bool
deriving DecidableEq, Repr

/-- What an array operation does (R14). A LINE-READ carries its words, and whether the request it serves still stands:
a port reset clears `wanted` (R13, R156). -/
inductive Work
  | lineRead (line : Line) (words : List ReadWord) (wanted : Bool)
  | lineWrite (line : Line)
  | lineMerge (line : Line)
  | rowFill (line : Line)
  | scrubStep (group : Nat)
  | migrateStep (group : Nat)
  | fillStep (group : Nat)
  | refresh
  | sense
deriving DecidableEq, Repr

/-- A granted array operation (R13): its bank (absent for SENSE), the logical row it serves, the physical rows it
visits in order as resolved at its grant, those of them still to be visited (the present one first), the moment of its
grant, and the cause of a close that is held for its completion across its own row change (R7, log 22). -/
structure Operation where
  work : Work
  bank : Option Bank
  logicalRow : Option LogicalRow
  rows : List PhysicalRow
  rowsLeft : List PhysicalRow
  grantedAt : Time
  heldClose : Option CloseCause
deriving DecidableEq, Repr

/-- One check word of the array: the 8 data bytes last written, whether they were written as poison, and the stored
bits that have changed since (R22 to R26). Bits 0 to 63 of `changed` are the data bits, 64 to 71 those of the check
byte. The stored bytes follow from these and the code (log 4). -/
structure StoredWord where
  data : BitVec 64
  poison : Bool
  changed : BitVec 72
deriving DecidableEq, Repr

/-- The array's contents: a list of (word address, stored word), addresses strictly rising, none equal to
`StoredWord.unwritten`. -/
abbrev Memory := List (Nat × StoredWord)

/-- What an unlisted address reads as: a valid word of zero data. R3 leaves the array's contents at power-on undefined
(DESIGN CHOICE, log 7, unsafe); a filled row holds such words until a drain writes them (R23). -/
def StoredWord.unwritten : StoredWord := { data := 0, poison := false, changed := 0 }

/-! ## Refresh accounting (chapter 04) -/

/-- One record of the balance table (R52). `due` is the moment at which `remaining` reaches 0 (log 9). -/
structure RefreshRecord where
  balance : Int
  pointer : Fin 513
  due : Time
deriving DecidableEq, Repr

/-- The balance table and LIMIT (R52, R67). -/
structure Refresh where
  banks : Vector RefreshRecord 16
  limit : Nat
deriving DecidableEq, Repr

/-! ## Maintenance engine (chapter 03) -/

/-- A preemptible job with its context (R46). -/
inductive Job
  | migrate (bank : Bank) (row : LogicalRow) (slot : Slot) (cursor : Nat)
  | scrub (bank : Bank) (row : LogicalRow) (nextGroup : Nat) (corrections : Nat)
  | fill (index : SweepIndex) (nextGroup : Nat)
deriving DecidableEq, Repr

/-- The Maintenance Engine: the members of the pending set that no other state decides (R33), the in-service stack, top
first (R39), and the next expiry of the poll timer (R34). -/
structure Engine where
  thermalPollPending : Bool
  scrubPending : Bool
  fillPending : Bool
  stack : List Job
  pollDue : Time
deriving DecidableEq, Repr

/-! ## Remap unit (chapter 05) -/

/-- The states of a suspect entry (R72). -/
inductive SuspectState
  | normal | queued | unrepairable
deriving DecidableEq, Repr

/-- A suspect entry (R72). -/
structure SuspectEntry where
  bank : Bank
  logicalRow : LogicalRow
  tally : Nat
  state : SuspectState
  queuedAt : Option DeviceTime
deriving DecidableEq, Repr

/-- The states of a remap entry (R81). -/
inductive RemapState
  | migrating | live
deriving DecidableEq, Repr

/-- A remap entry (R81). -/
structure RemapEntry where
  logicalRow : LogicalRow
  target : SpareIndex
  state : RemapState
  source : Option PhysicalRow
  cursor : Nat
deriving DecidableEq, Repr

/-- The states of a spare (R82). -/
inductive SpareState
  | free | inUse | dead
deriving DecidableEq, Repr

/-- The Remap Unit: remap tables (R81), spare pool (R82), suspect list in order of addition, the rows of its QUEUED
entries in the order in which they became QUEUED (R72), and CE_THRESHOLD (R77). -/
structure Remap where
  tables : Vector (Vector (Option RemapEntry) 16) 16
  spares : Vector (Vector SpareState 16) 16
  suspects : List SuspectEntry
  queuedOrder : List (Bank × LogicalRow)
  threshold : Nat
deriving DecidableEq, Repr

/-! ## Patrol scrubber and fill map (chapters 06, 07) -/

/-- The Patrol Scrubber (R99), with SCRUB_STEP in units of 100 µs and the moment of the step timer's next expiry, absent
while it is stopped (R100). -/
structure Scrubber where
  cursor : SweepIndex
  passCount : BitVec 16
  lag : Nat
  lastCorrections : Nat
  step : Byte
  stepDue : Option Time
deriving DecidableEq, Repr

/-- The Fill Map: one mark per logical row, bit i the mark of sweep index i, and the fill-done status (R112). -/
structure FillMap where
  marks : BitVec 131072
  done : Bool
deriving DecidableEq, Repr

/-! ## Write buffer (chapter 08) -/

/-- The states of a write buffer entry (R124). -/
inductive EntryState
  | filling | draining
deriving DecidableEq, Repr

/-- A write buffer entry (R124). `ageDue` records that the age trigger has held: it then holds until the entry is
chosen, whatever DRAIN_AGE becomes (R129, R130 note 1). -/
structure BufferEntry where
  line : Line
  valid : BitVec 32
  data : BitVec 256
  state : EntryState
  born : Time
  ageDue : Bool
  flushMark : Bool
  poisonWritten : Bool
deriving DecidableEq, Repr

/-- The write buffer: entries in order of allocation, oldest first, `flush_poison`, and DRAIN_AGE in units of 0.5 µs
(R124, R130). -/
structure WriteBuffer where
  entries : List BufferEntry
  flushPoison : Bool
  drainAge : Byte
deriving DecidableEq, Repr

/-! ## System port (chapter 09) -/

/-- The `kind` of a response (R145). -/
inductive ResponseKind
  | read | write | flush
deriving DecidableEq, Repr

/-- The `status` of a response (R145). -/
inductive ResponseStatus
  | ok | dataError
deriving DecidableEq, Repr

/-- One beat of a READ response: its data and `err` (R145). -/
structure ResponseBeat where
  data : BitVec 32
  err : Bool
deriving DecidableEq, Repr

/-- A response (R145). Only a READ's has beats. -/
structure Response where
  kind : ResponseKind
  status : ResponseStatus
  beats : List ResponseBeat
deriving DecidableEq, Repr

/-- The stage of the head of the intake queue (R148). READING holds what its service fixed (R150): the bytes taken from
the buffer, which of the line's bytes they are, the words to read, and whether its LINE-READ claim has been granted. -/
inductive Stage
  | reading (taken : BitVec 32) (bytes : BitVec 256) (words : List ReadWord) (granted : Bool)
  | waitingEntry
  | flushing
  | responding (response : Response)
deriving DecidableEq, Repr

/-- The system port: RESET_N, SQ, the request offered and not yet accepted, SA, the intake queue, head first, and the
stage of its head (R146, R148). -/
structure SystemPort where
  resetN : Bool
  sq : Bool
  offer : Option Request
  sa : Bool
  queue : List Request
  stage : Option Stage
deriving DecidableEq, Repr

/-! ## Thermal monitor and hold controller (chapter 10) -/

/-- The temperature bands (R158). -/
inductive Band
  | cool | normal | warm | hot | critical
deriving DecidableEq, Repr

/-- The Thermal Monitor (R158). -/
structure Thermal where
  reading : Int
  band : Band
  fault : Bool
  directNext : Bool
deriving DecidableEq, Repr

/-- The states of the Hold Controller (R164). -/
inductive HoldState
  | active | entering | hold | waking
deriving DecidableEq, Repr

/-- The Hold Controller: `hold_state`, and the end of the T_WAKE window that runs in WAKING (R164). -/
structure Hold where
  state : HoldState
  wakeEnd : Option Time
deriving DecidableEq, Repr

/-! ## Error table, alert unit, maintenance link (chapter 11) -/

/-- The `kind` of an error record (R174). -/
inductive ErrorKind
  | ce | ue | unrepairable
deriving DecidableEq, Repr

/-- The `source` of an error record (R174). -/
inductive ErrorSource
  | read | readMerge | drain | scrub | migrate | remap
deriving DecidableEq, Repr

/-- An error record (R174). -/
structure ErrorRecord where
  seq : BitVec 16
  kind : ErrorKind
  source : ErrorSource
  bank : Bank
  physicalRow : PhysicalRow
  word : Option WordInRow
  count : Nat
  firstMs : DeviceTime
  lastMs : DeviceTime
deriving DecidableEq, Repr

/-- The error table: its records in order of creation, the creation counter, and `saturated` (R174). -/
structure ErrorTable where
  records : List ErrorRecord
  counter : BitVec 16
  saturated : Bool
deriving DecidableEq, Repr

/-- The alert unit: the pending set and the mask, one bit per cause in alert bit order (R178, R188). -/
structure Alerts where
  causes : Byte
  mask : Byte
deriving DecidableEq, Repr

/-- The RESULT codes (R186). -/
inductive ResultCode
  | done | busy | range | full | notFilled | already
deriving DecidableEq, Repr

/-- The maintenance link: its target address and register index (R181), the registers that no other block holds (R185,
R186, R187), and the bytes the last transaction returned on SDA (R183, log 12). -/
structure Link where
  address : BitVec 7
  index : BitVec 6
  result : ResultCode
  command : Byte
  commandArg : Byte
  retireBank : Bank
  retireRow : LogicalRow
  selectTable : Fin 4
  selectIndex : Byte
  out : List Byte
deriving DecidableEq, Repr

/-! ## The whole machine -/

/-- The state of the 7216: whether PWRGOOD is high (R182), the blocks, and the commands that wait, first in, first
out. -/
structure State where
  powered : Bool
  clock : Clock
  bankEngine : BankEngine
  channel : Option Operation
  array : Memory
  refresh : Refresh
  engine : Engine
  remap : Remap
  scrubber : Scrubber
  fillMap : FillMap
  buffer : WriteBuffer
  port : SystemPort
  thermal : Thermal
  hold : Hold
  errors : ErrorTable
  alerts : Alerts
  link : Link
  pending : List Instr
deriving DecidableEq, Repr

/-- The reasons a step can stop with a fault: none. The manual names no event that stops the part; what it turns away,
it reports in RESULT, `err`, `status`, the error table and the alert causes. -/
inductive Fault
deriving DecidableEq, Repr

/-- The reasons a step can be refused. -/
inductive Refusal
  /-- Raised by an arm of `exec` whose command has no meaning yet. No arm is so. Safe: the machine stops. -/
  | notModelled (mnemonic : String)
deriving DecidableEq, Repr

/-- A bank record after power-on reset: CLOSED, the other fields absent (R5). -/
def BankRecord.initial : BankRecord :=
  { state := .closed, row := none, openedAt := none, lastAccess := none, closeWanted := none, windowEnd := none }

/-- The balance record of bank b after power-on reset: balance 0, pointer 0, first interval (b + 1)/16 of the NORMAL
interval, that is (b + 1) × 7812.5 ns (R52, R55). -/
def RefreshRecord.initial (b : Bank) : RefreshRecord :=
  { balance := 0, pointer := 0, due := (b.val + 1) * (15625 / 2) }

/-- The state that power-on reset makes of every block, with the link address 0x58 plus LADDR (R181, R182). The FILL job
has been pushed and stands on sweep index 0 (R38, R115); THERMAL_POLL is pending (R33). -/
def State.initial (laddr : BitVec 2) : State :=
  { powered := true
    clock := { now := 0, deviceTime := 0, nextMs := 1000000 }
    bankEngine := { banks := Vector.replicate 16 BankRecord.initial, idleClose := 4 }
    channel := none
    array := []
    refresh := { banks := Vector.ofFn RefreshRecord.initial, limit := 6 }
    engine :=
      { thermalPollPending := true, scrubPending := false, fillPending := false, stack := [.fill 0 0]
        pollDue := 32000000 }
    remap :=
      { tables := Vector.replicate 16 (Vector.replicate 16 none)
        spares := Vector.replicate 16 (Vector.replicate 16 .free)
        suspects := [], queuedOrder := [], threshold := 3 }
    scrubber :=
      { cursor := 0, passCount := 0, lag := 0, lastCorrections := 0, step := 5, stepDue := some 500000 }
    fillMap := { marks := 0, done := false }
    buffer := { entries := [], flushPoison := false, drainAge := 8 }
    port := { resetN := true, sq := false, offer := none, sa := false, queue := [], stage := none }
    thermal := { reading := 0, band := .normal, fault := false, directNext := true }
    hold := { state := .active, wakeEnd := none }
    errors := { records := [], counter := 0, saturated := false }
    alerts := { causes := 0, mask := 0 }
    link :=
      { address := 0x58 + laddr.zeroExtend 7, index := 0, result := .done, command := 0, commandArg := 0
        retireBank := 0, retireRow := 0, selectTable := 0, selectIndex := 0, out := [] }
    pending := [] }

/-- The machine right after power-on reset. The levels of LADDR (00), RESET_N (high) and SQ (low) are outside the part
(DESIGN CHOICE, log 10, unsafe). -/
def State.reset : State := State.initial 0

end Sys2Proof.Machine
end

