-- ==== Sys2Proof/Machine/Ops.lean ====
section
/-! DEFINITION. The named operations on the state that every block uses: replacing one block, reading and writing one record of a bank, moving the clock, and the outcome of a command that needs power. -/

namespace Sys2Proof.Machine

/-- `s` with the clock replaced. -/
def State.setClock (s : State) (x : Clock) : State := { s with clock := x }

/-- `s` with the Bank Engine replaced. -/
def State.setBankEngine (s : State) (x : BankEngine) : State := { s with bankEngine := x }

/-- `s` with the array channel replaced. -/
def State.setChannel (s : State) (x : Option Operation) : State := { s with channel := x }

/-- `s` with the array's contents replaced. -/
def State.setArray (s : State) (x : Memory) : State := { s with array := x }

/-- `s` with Refresh Accounting replaced. -/
def State.setRefresh (s : State) (x : Refresh) : State := { s with refresh := x }

/-- `s` with the Maintenance Engine replaced. -/
def State.setEngine (s : State) (x : Engine) : State := { s with engine := x }

/-- `s` with the Remap Unit replaced. -/
def State.setRemap (s : State) (x : Remap) : State := { s with remap := x }

/-- `s` with the Patrol Scrubber replaced. -/
def State.setScrubber (s : State) (x : Scrubber) : State := { s with scrubber := x }

/-- `s` with the Fill Map replaced. -/
def State.setFillMap (s : State) (x : FillMap) : State := { s with fillMap := x }

/-- `s` with the write buffer replaced. -/
def State.setBuffer (s : State) (x : WriteBuffer) : State := { s with buffer := x }

/-- `s` with the system port replaced. -/
def State.setPort (s : State) (x : SystemPort) : State := { s with port := x }

/-- `s` with the Thermal Monitor replaced. -/
def State.setThermal (s : State) (x : Thermal) : State := { s with thermal := x }

/-- `s` with the Hold Controller replaced. -/
def State.setHold (s : State) (x : Hold) : State := { s with hold := x }

/-- `s` with the error table replaced. -/
def State.setErrors (s : State) (x : ErrorTable) : State := { s with errors := x }

/-- `s` with the alert unit replaced. -/
def State.setAlerts (s : State) (x : Alerts) : State := { s with alerts := x }

/-- `s` with the maintenance link replaced. -/
def State.setLink (s : State) (x : Link) : State := { s with link := x }

/-- `s` with the queue of waiting commands replaced. -/
def State.setPending (s : State) (x : List Instr) : State := { s with pending := x }

/-- The bank record of bank `b` (R5). -/
def State.bank (s : State) (b : Bank) : BankRecord := s.bankEngine.banks[b]

/-- `s` with the bank record of bank `b` replaced. -/
def State.setBank (s : State) (b : Bank) (r : BankRecord) : State :=
  s.setBankEngine { s.bankEngine with banks := s.bankEngine.banks.set b r }

/-- The balance record of bank `b` (R52). -/
def State.balanceOf (s : State) (b : Bank) : RefreshRecord := s.refresh.banks[b]

/-- `s` with the balance record of bank `b` replaced. -/
def State.setBalanceOf (s : State) (b : Bank) (r : RefreshRecord) : State :=
  s.setRefresh { s.refresh with banks := s.refresh.banks.set b r }

/-- Time has passed until the moment `t`, if that is still to come: an expiry happens at the end of its window, and the
clock never goes back (log 2). -/
def State.moveTo (s : State) (t : Time) : State := s.setClock { s.clock with now := later s.clock.now t }

/-- Half a nanosecond passes: what a step does when no command waits (log 2). -/
def State.idle (s : State) : State := s.setClock { s.clock with now := s.clock.now + Config.idleTick }

/-- The outcome of a command whose effect is `f`: while PWRGOOD is low the part holds no defined state and nothing acts
on it (R182, log 11). -/
def whenPowered (f : State → State) (s : State) : Host.Outcome State Fault Refusal :=
  .next (if s.powered then f s else s)

end Sys2Proof.Machine
end

