-- ==== Sys2Proof/Machine/Codec.lean ====
section
/-! DEFINITION. The check-word codec (chapter 02): the outcome of a decode and the data it delivers, and the words a writer stores. The array's memory: reading, writing and changing check words. -/

namespace Sys2Proof.Machine

/-! ## Decoding -/

/-- The four outcomes of a decode (R25). -/
inductive DecodeOutcome
  | clean | corrected | poisoned | uncorrectable
deriving DecidableEq, Repr

/-- A decode: the outcome and the data delivered (R25). -/
structure Decoded where
  outcome : DecodeOutcome
  data : BitVec 64
deriving DecidableEq, Repr

/-- The number of stored bits of a word that differ from what was last written to it (R26). -/
def StoredWord.changedBits (w : StoredWord) : Nat := (List.range 72).countP fun i => w.changed.getLsbD i

/-- The data bytes as they stand in the array (R25). -/
def StoredWord.storedData (w : StoredWord) : BitVec 64 := w.data ^^^ w.changed.extractLsb' 0 64

/-- The syndrome of a word: its stored check byte plus the one computed from its stored data bytes, modulo 2. The code
is linear (R23), so only the changed bits count, and the complement of a poison word (R24). -/
def StoredWord.syndrome (code : Config.Code) (w : StoredWord) : Byte :=
  code.columns.zipIdx.foldl (fun syn x => if w.changed.getLsbD x.2 then syn ^^^ x.1 else syn)
    (if w.poison then 0xFF else 0)

/-- The class the stored bits fall in, by the syndrome (R25): zero is a valid word; a column, one bit away from a valid
word, in the bit of that column; the complement pattern or one column from it, a poison pattern or one bit away;
anything else UNCORRECTABLE. -/
def StoredWord.classify (code : Config.Code) (w : StoredWord) : Decoded :=
  let syn := w.syndrome code
  if syn = 0 then ⟨.clean, w.storedData⟩
  else if syn ∈ code.columns then
    ⟨.corrected, w.storedData ^^^ ((1#72 <<< code.columns.idxOf syn).extractLsb' 0 64)⟩
  else if syn = 0xFF ∨ (syn ^^^ 0xFF) ∈ code.columns then ⟨.poisoned, w.storedData⟩
  else ⟨.uncorrectable, w.storedData⟩

/-- The decode of a word by what was last written and how many bits have changed since (R26): a valid word with none or
one changed is CLEAN or CORRECTED with the written data, a poison word with none or one is POISONED. In every other
case it is the class the stored bits fall in, which the code decides (log 5). -/
def StoredWord.decode (w : StoredWord) : Decoded :=
  if w.poison then
    if w.changedBits ≤ 1 then ⟨.poisoned, w.storedData⟩ else w.classify Config.code
  else
    if w.changedBits = 0 then ⟨.clean, w.data⟩
    else if w.changedBits = 1 then ⟨.corrected, w.data⟩
    else w.classify Config.code

/-- The data is lost: the outcome is UNCORRECTABLE or POISONED (R26, R151). -/
def DecodeOutcome.lost : DecodeOutcome → Bool
  | .clean => false
  | .corrected => false
  | .poisoned => true
  | .uncorrectable => true

/-! ## Encoding -/

/-- A valid word of 8 data bytes (R23). -/
def StoredWord.valid (data : BitVec 64) : StoredWord := { data, poison := false, changed := 0 }

/-- A poison word of 8 data bytes (R24). -/
def StoredWord.poisoned (data : BitVec 64) : StoredWord := { data, poison := true, changed := 0 }

/-- What a writer that merges bytes over a decoded word stores (R28, R132), and with no bytes of its own what a
migration copies (R30): a valid word of the delivered data, or a poison word of the stored data where the data is
lost. -/
def mergedWord (valid : Byte) (new : BitVec 64) (old : Decoded) : StoredWord :=
  if old.outcome.lost then .poisoned (mergeBytes 8 valid new old.data)
  else .valid (mergeBytes 8 valid new old.data)

/-- What a scrub step writes back for a decode, if anything (R29, R105). -/
def scrubWriteBack (d : Decoded) : Option StoredWord :=
  match d.outcome with
  | .clean => none
  | .corrected => some (.valid d.data)
  | .uncorrectable => some (.poisoned d.data)
  | .poisoned => none

/-! ## The array's memory -/

/-- The address of a check word: banks, rows and words in order (R2, R22). -/
def wordAddress (b : Bank) (r : PhysicalRow) (w : WordInRow) : Nat := (b.val * 8208 + r.val) * 128 + w.val

/-- The word at an address. -/
def Memory.read : Memory → Nat → StoredWord
  | [], _ => .unwritten
  | (a, w) :: rest, k => if k = a then w else Memory.read rest k

/-- The cell for an address: none when the word is what an unlisted address reads as. -/
def Memory.cell (k : Nat) (w : StoredWord) : Memory := if w = .unwritten then [] else [(k, w)]

/-- The memory with one word written, in canonical form. -/
def Memory.write : Memory → Nat → StoredWord → Memory
  | [], k, w => Memory.cell k w
  | (a, v) :: rest, k, w =>
    if k < a then Memory.cell k w ++ (a, v) :: rest
    else if k = a then Memory.cell k w ++ rest
    else (a, v) :: Memory.write rest k w

/-- Every address of the memory is above `k`, and the addresses rise. -/
def Memory.risesFrom : Memory → Nat → Bool
  | [], _ => true
  | (a, _) :: rest, k => decide (k < a) && Memory.risesFrom rest a

/-- The addresses of the memory rise strictly. -/
def Memory.rises : Memory → Bool
  | [] => true
  | (a, _) :: rest => Memory.risesFrom rest a

/-- The canonical form of the memory: addresses strictly rising, and no entry equal to what an unlisted address reads
as. -/
def Memory.wf (m : Memory) : Bool := m.rises && m.all fun c => decide (c.2 ≠ .unwritten)

/-- The word at word `w` of physical row `r` of bank `b`. -/
def State.word (s : State) (b : Bank) (r : PhysicalRow) (w : WordInRow) : StoredWord :=
  Memory.read s.array (wordAddress b r w)

/-- `s` with one check word written. -/
def State.writeWord (s : State) (b : Bank) (r : PhysicalRow) (w : WordInRow) (v : StoredWord) : State :=
  s.setArray (Memory.write s.array (wordAddress b r w) v)

/-- A run of words written to one physical row. -/
def State.writeWords (s : State) (b : Bank) (r : PhysicalRow) (ws : List (WordInRow × StoredWord)) : State :=
  ws.foldl (fun s x => s.writeWord b r x.1 x.2) s

/-- The same words written to each of the rows in turn (R83). -/
def State.writeRows (s : State) (b : Bank) (rows : List PhysicalRow) (ws : List (WordInRow × StoredWord)) : State :=
  rows.foldl (fun s r => s.writeWords b r ws) s

/-- Words of zero data with a zero check byte, for each of the words given (R23, R116, R121). -/
def zeroWords (ws : List WordInRow) : List (WordInRow × StoredWord) := ws.map fun w => (w, .valid 0)

/-- `s` after stored bits of one check word have changed (R26). -/
def State.changeBits (s : State) (c : BitChange) : State :=
  let w := s.word c.bank c.row c.word
  s.writeWord c.bank c.row c.word { w with changed := w.changed ^^^ c.changed }

/-- `s` after the given bit changes, one after another (R26, log 6). -/
def State.changeAll (s : State) (cs : List BitChange) : State := cs.foldl State.changeBits s

end Sys2Proof.Machine
end

