-- ==== Sys2Proof/Machine/Flags.lean ====
section
/-! DEFINITION. The flags the block raises: the alert causes and ALERT_N, and the error table with its reports (chapter 11). -/

namespace Sys2Proof.Machine

/-! ## The alert unit -/

/-- The eight alert causes (R178). -/
inductive Cause
  | ue | sparesLow | sparesExhausted | overtemp | thermalFault | fillDone | tableSaturated | holdEntered
deriving DecidableEq, Repr

/-- The bit of a cause in ALERT_PENDING, ALERT_MASK and COMMAND_ARG (R188). -/
def Cause.bit : Cause → Byte
  | .ue => 0x01
  | .sparesLow => 0x02
  | .sparesExhausted => 0x04
  | .overtemp => 0x08
  | .thermalFault => 0x10
  | .fillDone => 0x20
  | .tableSaturated => 0x40
  | .holdEntered => 0x80

/-- A cause joins the pending set, whatever the mask holds (R178). -/
def State.raise (s : State) (c : Cause) : State :=
  s.setAlerts { s.alerts with causes := s.alerts.causes ||| c.bit }

/-- The pending set holds at least one cause that the mask does not hold (R179). -/
def Alerts.driven (a : Alerts) : Bool := decide (a.causes &&& ~~~a.mask ≠ 0)

/-- ALERT_N is driven low: while a cause is pending and unmasked (R179), and never while PWRGOOD is low (R182). -/
def State.alertLow (s : State) : Bool := s.powered && s.alerts.driven

/-! ## The error table -/

/-- A report to the error table (R175). -/
structure ErrorReport where
  kind : ErrorKind
  source : ErrorSource
  bank : Bank
  physicalRow : PhysicalRow
  word : Option WordInRow
deriving DecidableEq, Repr

/-- The record holds the report's key, (kind, bank, physical_row, word): R174. -/
def ErrorReport.hasKeyOf (e : ErrorReport) (r : ErrorRecord) : Bool :=
  decide (r.kind = e.kind ∧ r.bank = e.bank ∧ r.physicalRow = e.physicalRow ∧ r.word = e.word)

/-- A repeat of the key: the count rises, up to 255, and `last_ms` takes the device time (R175). -/
def ErrorRecord.repeated (r : ErrorRecord) (now : DeviceTime) : ErrorRecord :=
  { r with count := min 255 (r.count + 1), lastMs := now }

/-- The first creation number from `n` on that no record present holds (R175). One more try than there are records always
finds it. -/
def freeSeq (records : List ErrorRecord) : Nat → BitVec 16 → BitVec 16
  | 0, n => n
  | tries + 1, n => if records.any fun r => r.seq = n then freeSeq records tries (n + 1) else n

/-- The table with a new record at the end of the creation order (R175). -/
def ErrorTable.create (t : ErrorTable) (e : ErrorReport) (now : DeviceTime) : ErrorTable :=
  let seq := freeSeq t.records (t.records.length + 1) t.counter
  { t with
    records := t.records ++
      [{ seq, kind := e.kind, source := e.source, bank := e.bank, physicalRow := e.physicalRow, word := e.word
         count := 1, firstMs := now, lastMs := now }]
    counter := seq + 1 }

/-- How far a record's `last_ms` is behind the device time, modulo 2^32 (R173). -/
def ErrorRecord.age (now : DeviceTime) (r : ErrorRecord) : Nat := (now - r.lastMs).toNat

/-- The CE record with the oldest `last_ms`, the one created first among equals (R176). -/
def oldestCe (now : DeviceTime) (records : List ErrorRecord) : Option ErrorRecord :=
  records.foldl
    (fun best r =>
      if r.kind = .ce then
        match best with
        | none => some r
        | some b => if b.age now < r.age now then some r else best
      else best)
    none

/-- A report reaches the error table: a repeat is counted, a new key makes a record while there is room, and a full
table replaces its oldest CE record or drops the report (R175, R176). -/
def State.report (s : State) (e : ErrorReport) : State :=
  let t := s.errors
  let now := s.clock.deviceTime
  if t.records.any e.hasKeyOf then
    s.setErrors { t with records := t.records.map fun r => if e.hasKeyOf r then r.repeated now else r }
  else if t.records.length < Config.errorSize then s.setErrors (t.create e now)
  else
    match oldestCe now t.records with
    | some r => s.setErrors (ErrorTable.create { t with records := t.records.erase r } e now)
    | none =>
      if e.kind = .ce ∨ t.saturated = true then s
      else (s.setErrors { t with saturated := true }).raise .tableSaturated

/-- The error table emptied, with `saturated` clear and the creation counter kept (R177). -/
def ErrorTable.cleared (t : ErrorTable) : ErrorTable := { t with records := [], saturated := false }

end Sys2Proof.Machine
end

