-- ==== Sys2Proof/Machine/Banks.lean ====
section
/-! DEFINITION. The Bank Engine (chapter 01): closes asked for, held and issued, rows opened, the progress of the operation that holds the channel through its banks' windows, and its release of the channel. -/

namespace Sys2Proof.Machine

/-- The bank is in use: the operation that holds the channel touches it (R5). A REFRESH releases the channel at its issue,
and its bank is then no longer in use. -/
def State.inUse (s : State) (b : Bank) : Bool :=
  match s.channel with
  | some op => op.bank = some b
  | none => false

/-- T_MINOPEN has passed since `opened_at` (R7). -/
def BankRecord.closable (r : BankRecord) (now : Time) : Bool :=
  match r.openedAt with
  | some t => decide (t + Config.tMinOpen ≤ now)
  | none => true

/-- The bank is OPENING or OPEN: it holds a row. -/
def BankRecord.holdsRow (r : BankRecord) : Bool := decide (r.state = .opening ∨ r.state = .opened)

/-- The record of a bank whose close is issued: CLOSING, the fields of the open row absent, T_CLOSE running (R7). -/
def BankRecord.closingFrom (now : Time) : BankRecord :=
  { BankRecord.initial with state := .closing, windowEnd := some (now + Config.tClose) }

/-- The record of a bank whose row is opened: OPENING, T_OPEN running (R6). -/
def BankRecord.openingRow (p : PhysicalRow) (now : Time) : BankRecord :=
  { BankRecord.initial with
    state := .opening, row := some p, openedAt := some now, windowEnd := some (now + Config.tOpen) }

/-- The record of a bank whose refresh is issued: REFRESHING, T_RF running (R10). -/
def BankRecord.refreshingFrom (now : Time) : BankRecord :=
  { BankRecord.initial with state := .refreshing, windowEnd := some (now + Config.tRf) }

/-- A close asked for on a bank (R7). On an OPENING or OPEN bank it is issued at once if T_MINOPEN has passed and no
operation has the bank in use, and held otherwise. A held close is not doubled: a held IDLE takes a new cause, any
other keeps its own. On a CLOSING, CLOSED or REFRESHING bank it has no effect. -/
def BankRecord.ask (r : BankRecord) (cause : CloseCause) (inUse : Bool) (now : Time) : BankRecord :=
  if r.holdsRow then
    match r.closeWanted with
    | some .idle => { r with closeWanted := some cause }
    | some .urgent => r
    | some .hold => r
    | none =>
      if r.state = .opened ∧ inUse = false ∧ r.closable now = true then .closingFrom now
      else { r with closeWanted := some cause }
  else r

/-- A close asked for on bank `b` (R7). -/
def State.askClose (s : State) (cause : CloseCause) (b : Bank) : State :=
  s.setBank b ((s.bank b).ask cause (s.inUse b) s.clock.now)

/-- The close-all request: every bank OPENING or OPEN gets a close of cause HOLD (R11). -/
def State.closeAll (s : State) : State := allBanks.foldl (fun s b => s.askClose .hold b) s

/-- The close a REFRESH asks for on its OPEN bank: issued if T_MINOPEN has passed, waited for otherwise (R10). -/
def State.closeForOperation (s : State) (b : Bank) : State :=
  if (s.bank b).closable s.clock.now then s.setBank b (.closingFrom s.clock.now) else s

/-- The progress of a REFRESH on its bank (R10): issued on a CLOSED bank, whereupon the channel is released; on an OPEN
bank it closes the row; otherwise it waits. -/
def State.progressRefresh (s : State) (b : Bank) : State :=
  match (s.bank b).state with
  | .closed => (s.setBank b (.refreshingFrom s.clock.now)).setChannel none
  | .opened => s.closeForOperation b
  | .opening => s
  | .closing => s
  | .refreshing => s

/-- A held close of cause IDLE is dropped when the operation granted needs the same row; URGENT and HOLD are kept (R7). -/
def BankRecord.dropIdle (r : BankRecord) : BankRecord :=
  if r.closeWanted = some .idle then { r with closeWanted := none } else r

/-- The part of a held close that outlives the row change of the operation that has the bank in use (R7, log 22): a held
IDLE is carried out as the row change itself, URGENT and HOLD are issued at the operation's completion. -/
def outlivesChange : Option CloseCause → Option CloseCause
  | none => none
  | some .idle => none
  | some .urgent => some .urgent
  | some .hold => some .hold

/-- The row change of an operation on an OPEN bank (R9): the close is issued if T_MINOPEN has passed, and waited for
otherwise. -/
def State.changeRow (s : State) (op : Operation) (b : Bank) : State :=
  if (s.bank b).closable s.clock.now then
    (s.setChannel (some { op with heldClose := outlivesChange (s.bank b).closeWanted })).setBank b
      (.closingFrom s.clock.now)
  else s.setChannel (some op)

/-- The open of row `p` for an operation on a CLOSED bank (R6). -/
def State.openFor (s : State) (op : Operation) (b : Bank) (p : PhysicalRow) : State :=
  (s.setChannel (some { op with heldClose := none })).setBank b
    { BankRecord.openingRow p s.clock.now with closeWanted := op.heldClose }

/-- The record of a bank on whose open row an operation's word accesses end: `last_access` takes the moment (R5, R6). -/
def BankRecord.accessed (r : BankRecord) (now : Time) : BankRecord := { r with lastAccess := some now }

/-- The progress of an operation that visits rows (R6, R9): it opens its row on a CLOSED bank; on a bank OPEN on another
row it changes row; on a bank OPEN on its row its words are accessed, and if it has a further row to visit its accesses
on this one end, which take no time of their own, and it changes to that one (log 8); otherwise it waits. -/
def State.progressRows (s : State) (op : Operation) (b : Bank) : State :=
  match (s.bank b).state, op.rowsLeft with
  | .closed, p :: _ => s.openFor op b p
  | .opened, p :: rest =>
    if (s.bank b).row = some p then
      match rest with
      | [] => s.setBank b (s.bank b).dropIdle
      | q :: more =>
        (s.setBank b ((s.bank b).dropIdle.accessed s.clock.now)).changeRow { op with rowsLeft := q :: more } b
    else s.changeRow op b
  | _, _ => s

/-- The progress of the operation that holds the channel, at its grant and at each end of a window of its bank. -/
def State.progress (s : State) : State :=
  match s.channel with
  | none => s
  | some op =>
    match op.bank with
    | none => s
    | some b => if op.work = .refresh then s.progressRefresh b else s.progressRows op b

/-- The progress of the operation that has bank `b` in use, if one has. -/
def State.progressOn (s : State) (b : Bank) : State := if s.inUse b then s.progress else s

/-- A close of the bank waits for T_MINOPEN: a held one of a bank that is not in use, or the row change or REFRESH of the
operation that has it in use (R7, R9, R10). -/
def State.closeWaits (s : State) (b : Bank) : Bool :=
  decide ((s.bank b).state = .opened) &&
    match s.channel with
    | some op =>
      if op.bank = some b then decide (op.work = .refresh) || decide ((s.bank b).row ≠ op.rowsLeft.head?)
      else (s.bank b).closeWanted.isSome
    | none => (s.bank b).closeWanted.isSome

/-- The bank record at the completion of an operation (R6, R7, R8): its accesses on the last row end; a held close is
issued once T_MINOPEN has passed; with T_IDLE = 0 a close of cause IDLE is asked for. -/
def BankRecord.completed (r : BankRecord) (idleClose : Byte) (now : Time) : BankRecord :=
  let r := r.accessed now
  match r.closeWanted with
  | some _ => if r.closable now then .closingFrom now else r
  | none => if idleClose = 0 then r.ask .idle false now else r

/-- The completion of the operation that holds the channel, on bank `b`: the channel is released (R12). -/
def State.release (s : State) (b : Bank) : State :=
  (s.setChannel none).setBank b ((s.bank b).completed s.bankEngine.idleClose s.clock.now)

/-- The operation in flight whose completion can come: it holds the channel and its bank is OPEN on the last row it
visits (R12). -/
def State.ready (s : State) : Option (Operation × Bank) :=
  match s.channel with
  | none => none
  | some op =>
    match op.bank with
    | none => none
    | some b =>
      if (s.bank b).state = .opened ∧ op.rowsLeft.length = 1 ∧ (s.bank b).row = op.rowsLeft.head? then some (op, b)
      else none

/-- T_IDLE in ns (R8). -/
def BankEngine.tIdle (e : BankEngine) : Time := (e.idleClose.toNat : Time) * Config.idleUnit

/-- The moment the idle window of a bank runs from: present while it runs, on an OPEN bank that is not in use and has no
close asked for (R8). -/
def State.idleFrom (s : State) (b : Bank) : Option Time :=
  if (s.bank b).state = .opened ∧ s.inUse b = false ∧ (s.bank b).closeWanted = none then (s.bank b).lastAccess
  else none

/-- The idle window of bank `b` expires at this moment if its elapsed time equals or exceeds T_IDLE (R8). -/
def State.expireIdleOn (s : State) (b : Bank) : State :=
  match s.idleFrom b with
  | some t => if t + s.bankEngine.tIdle ≤ s.clock.now then s.askClose .idle b else s
  | none => s

/-- The same on every bank (R8). -/
def State.expireIdle (s : State) : State := allBanks.foldl State.expireIdleOn s

end Sys2Proof.Machine
end

