-- ==== Sys2Proof/Machine/Refresh.lean ====
section
/-! DEFINITION. Refresh Accounting and the Thermal Monitor (chapters 04 and 10): intervals, completions, the effective limit, URGENT closes, band changes and readings. -/

namespace Sys2Proof.Machine

/-! ## Limits and intervals -/

/-- The bank refresh interval of a band, in ns (R54). -/
def Band.interval : Band → Time
  | .cool => 250000
  | .normal => 125000
  | .warm => 62500
  | .hot => 31250
  | .critical => 31250

/-- The limit in force for a configured limit and a band (R62). -/
def effectiveLimit (limit : Nat) : Band → Nat
  | .cool => limit
  | .normal => limit
  | .warm => max 1 (limit / 2)
  | .hot => max 1 (limit / 4)
  | .critical => max 1 (limit / 4)

/-- L_eff (R62). -/
def State.leff (s : State) : Nat := effectiveLimit s.refresh.limit s.thermal.band

/-- `remaining`, the time left in a bank's current interval (R52, log 9). -/
def State.remaining (s : State) (b : Bank) : Time := later 0 ((s.balanceOf b).due - s.clock.now)

/-- The bank meets the URGENT condition: its balance is at −L_eff or below (R35, R59). -/
def State.urgent (s : State) (b : Bank) : Bool := decide ((s.balanceOf b).balance ≤ -(s.leff : Int))

/-- A close of cause URGENT is asked for on an OPENING or OPEN bank that an URGENT claim stands for (R11, R20, R59,
log 19). -/
def State.urgentClose (s : State) (b : Bank) : State := if s.urgent b then s.askClose .urgent b else s

/-- The same on every bank (R65). -/
def State.urgentCloses (s : State) : State := allBanks.foldl State.urgentClose s

/-! ## Expiries and completions -/

/-- The record of a bank whose interval expires: its balance falls by 1, and a full interval of the band in force begins
at the end of the last (R54). -/
def RefreshRecord.expired (r : RefreshRecord) (band : Band) : RefreshRecord :=
  { r with balance := r.balance - 1, due := r.due + band.interval }

/-- The record of a bank whose refresh completes: its balance rises by 1, but not above +L_eff, and its pointer advances
by 1, from 512 back to 0 (R57). -/
def RefreshRecord.completed (r : RefreshRecord) (leff : Nat) : RefreshRecord :=
  { r with balance := if r.balance < leff then r.balance + 1 else r.balance, pointer := r.pointer + 1 }

/-! ## Band changes -/

/-- The record of a bank at a band change: what remains of its interval is multiplied by the new interval over the old
(R63), and on a move to a faster band a positive balance is set to 0 (R64). Bands of one interval change nothing. -/
def RefreshRecord.rebanded (r : RefreshRecord) (old new : Band) (now : Time) : RefreshRecord :=
  if new.interval = old.interval then r
  else
    { r with
      due := now + later 0 (r.due - now) * (new.interval / old.interval)
      balance := if new.interval < old.interval ∧ 0 < r.balance then 0 else r.balance }

/-- The band is set to `new` (R63 to R65, R163). A band that equals the old is no change. OVERTEMP is raised at an entry
into CRITICAL from another band. -/
def State.setBand (s : State) (new : Band) : State :=
  let old := s.thermal.band
  if new = old then s
  else
    let s := s.setThermal { s.thermal with band := new }
    let s := s.setRefresh { s.refresh with banks := s.refresh.banks.map fun r => r.rebanded old new s.clock.now }
    let s := s.urgentCloses
    if new = .critical then s.raise .overtemp else s

/-! ## Readings -/

/-- The band a reading falls in (R158). -/
def bandOfReading (t : Int) : Band :=
  if t ≤ 40 then .cool else if t ≤ 85 then .normal else if t ≤ 95 then .warm else if t ≤ 105 then .hot else .critical

/-- The bands from the coolest, 0, to the warmest. -/
def Band.rank : Band → Nat
  | .cool => 0
  | .normal => 1
  | .warm => 2
  | .hot => 3
  | .critical => 4

/-- The lowest temperature of a band (R160). COOL, which has none, is never left for a cooler band. -/
def Band.lowest : Band → Int
  | .cool => -40
  | .normal => 41
  | .warm => 86
  | .hot => 96
  | .critical => 106

/-- The band after a reading with good parity (R160): directly, or warmer at once, or cooler at 3 °C below the lowest
temperature of the current band. -/
def Thermal.nextBand (m : Thermal) (t : Int) : Band :=
  let new := bandOfReading t
  if m.directNext then new
  else if m.band.rank < new.rank then new
  else if new.rank < m.band.rank ∧ t ≤ m.band.lowest - 3 then new
  else m.band

/-- A reading with good parity is taken (R160). -/
def State.goodReading (s : State) (t : Int) : State :=
  let new := s.thermal.nextBand t
  (s.setThermal { s.thermal with reading := t, fault := false, directNext := false }).setBand new

/-- A reading with bad parity is taken (R162). -/
def State.badReading (s : State) : State :=
  let new := if s.thermal.band = .critical then Band.critical else .hot
  ((s.setThermal { s.thermal with fault := true, directNext := true }).raise .thermalFault).setBand new

/-! ## Limit writes -/

/-- LIMIT takes a value (R67): every balance above +L_eff′ is cut to it. -/
def Refresh.withLimit (u : Refresh) (value : Nat) (band : Band) : Refresh :=
  { limit := value, banks := u.banks.map fun r => { r with balance := min r.balance (effectiveLimit value band) } }

/-- A write of LIMIT is judged (R67). Outside 1 to 12 it is refused. The value that L already holds is taken and changes
nothing, whatever the balances: R67's last sentence and Note 1 of R185 stand before R67's second case (DEDUCED, log 23).
Any other value is refused while some balance lies at or below −L_eff′, and otherwise taken. -/
def State.judgeLimit (s : State) (value : Nat) : Option State :=
  let above := allBanks.all fun b => decide (-(effectiveLimit value s.thermal.band : Int) < (s.balanceOf b).balance)
  if ¬ (1 ≤ value ∧ value ≤ 12) then none
  else if value = s.refresh.limit then some s
  else if above then some (s.setRefresh (s.refresh.withLimit value s.thermal.band))
  else none

end Sys2Proof.Machine
end

