-- ==== Sys2Proof/Machine/Remap.lean ====
section
/-! DEFINITION. The Remap Unit (chapter 05): the lookup, the suspect list and its reports, the spare pool, the start and the completion of a migration. -/

namespace Sys2Proof.Machine

/-! ## Lookup -/

/-- The slot and remap entry of a logical row, if its bank's table holds one (R81). -/
def Remap.find (u : Remap) (b : Bank) (r : LogicalRow) : Option (Slot × RemapEntry) :=
  (List.finRange 16).findSome? fun i =>
    match u.tables[b][i] with
    | some e => if e.logicalRow = r then some (i, e) else none
    | none => none

/-- The row's remap entry is MIGRATING. -/
def Remap.isMigrating (u : Remap) (b : Bank) (r : LogicalRow) : Bool :=
  match u.find b r with
  | some (_, e) => e.state = .migrating
  | none => false

/-- The physical row that a logical row is read from (R83). -/
def Remap.readRow (u : Remap) (b : Bank) (r : LogicalRow) : PhysicalRow :=
  match u.find b r with
  | none => ordinaryRow r
  | some (_, e) =>
    match e.state with
    | .migrating => e.source.getD (ordinaryRow r)
    | .live => spareRow e.target

/-- The physical rows written, in order, for a word in group `g` of a logical row (R83). -/
def Remap.writeRows (u : Remap) (b : Bank) (r : LogicalRow) (g : Nat) : List PhysicalRow :=
  match u.find b r with
  | none => [ordinaryRow r]
  | some (_, e) =>
    match e.state with
    | .migrating =>
      if g < e.cursor then [e.source.getD (ordinaryRow r), spareRow e.target]
      else [e.source.getD (ordinaryRow r)]
    | .live => [spareRow e.target]

/-! ## The suspect list -/

/-- The entry names the row. -/
def SuspectEntry.names (e : SuspectEntry) (b : Bank) (r : LogicalRow) : Bool :=
  decide (e.bank = b ∧ e.logicalRow = r)

/-- The list's entry for a row. -/
def Remap.suspect (u : Remap) (b : Bank) (r : LogicalRow) : Option SuspectEntry :=
  u.suspects.find? fun e => e.names b r

/-- The list with the entry of a row changed. -/
def Remap.updateSuspect (u : Remap) (b : Bank) (r : LogicalRow) (f : SuspectEntry → SuspectEntry) : Remap :=
  { u with suspects := u.suspects.map fun e => if e.names b r then f e else e }

/-- The tally rises by 1, up to 15 (R72, R74). -/
def SuspectEntry.tallied (e : SuspectEntry) : SuspectEntry := { e with tally := min 15 (e.tally + 1) }

/-- The entry becomes QUEUED, with `queued_at` the device time (R74, R75, R78). -/
def SuspectEntry.queue (e : SuspectEntry) (now : DeviceTime) : SuspectEntry :=
  { e with state := .queued, queuedAt := some now }

/-- The entry of a row becomes QUEUED and joins the end of the queued order (R72, R74). -/
def Remap.queueSuspect (u : Remap) (b : Bank) (r : LogicalRow) (now : DeviceTime)
    (f : SuspectEntry → SuspectEntry) : Remap :=
  { u.updateSuspect b r (fun e => (f e).queue now) with queuedOrder := u.queuedOrder ++ [(b, r)] }

/-- The NORMAL entry with the lowest tally, the oldest among equals (R76). -/
def lowestNormal (suspects : List SuspectEntry) : Option SuspectEntry :=
  suspects.foldl
    (fun best e =>
      if e.state = .normal then
        match best with
        | none => some e
        | some b => if e.tally < b.tally then some e else best
      else best)
    none

/-- Room for one more entry: as the list stands, or with the NORMAL entry that R76 names removed; none where the list is
full and holds no NORMAL entry. -/
def Remap.room (u : Remap) : Option Remap :=
  if u.suspects.length < Config.suspectSize then some u
  else (lowestNormal u.suspects).map fun e => { u with suspects := u.suspects.erase e }

/-- The list with a new entry at the end of the order of addition: NORMAL, or QUEUED and at the end of the queued
order. -/
def Remap.addSuspect (u : Remap) (b : Bank) (r : LogicalRow) (tally : Nat) (queued : Option DeviceTime) : Remap :=
  match queued with
  | none =>
    { u with
      suspects := u.suspects ++
        [{ bank := b, logicalRow := r, tally, state := .normal, queuedAt := none }] }
  | some now =>
    { u with
      suspects := u.suspects ++
        [{ bank := b, logicalRow := r, tally, state := .queued, queuedAt := some now }]
      queuedOrder := u.queuedOrder ++ [(b, r)] }

/-- A CORRECTED outcome for a row acts on the list (R74). -/
def Remap.tallyCe (u : Remap) (b : Bank) (r : LogicalRow) (now : DeviceTime) : Remap :=
  match u.suspect b r with
  | none =>
    match u.room with
    | none => u
    | some v => v.addSuspect b r 1 (if u.threshold ≤ 1 then some now else none)
  | some e =>
    if e.state = .normal ∧ u.threshold ≤ e.tallied.tally then u.queueSuspect b r now SuspectEntry.tallied
    else u.updateSuspect b r SuspectEntry.tallied

/-- An UNCORRECTABLE outcome for a row acts on the list (R75). -/
def Remap.tallyUe (u : Remap) (b : Bank) (r : LogicalRow) (now : DeviceTime) : Remap :=
  match u.suspect b r with
  | none =>
    match u.room with
    | none => u
    | some v => v.addSuspect b r u.threshold (some now)
  | some e =>
    if e.state = .normal then u.queueSuspect b r now (fun e => { e with tally := u.threshold })
    else u.updateSuspect b r SuspectEntry.tallied

/-- A report of a decode outcome to the suspect list: nothing for CLEAN and POISONED, and nothing for a row whose remap
entry is MIGRATING at the report (R73). -/
def State.reportSuspect (s : State) (b : Bank) (r : LogicalRow) (o : DecodeOutcome) : State :=
  if s.remap.isMigrating b r then s
  else
    match o with
    | .clean => s
    | .corrected => s.setRemap (s.remap.tallyCe b r s.clock.deviceTime)
    | .poisoned => s
    | .uncorrectable => s.setRemap (s.remap.tallyUe b r s.clock.deviceTime)

/-- NORMAL and UNREPAIRABLE entries removed, QUEUED entries left in their order (R79). -/
def Remap.clearSuspects (u : Remap) : Remap :=
  { u with suspects := u.suspects.filter fun e => e.state = .queued }

/-- The entry of a row leaves the list and both orders (R93). -/
def Remap.removeSuspect (u : Remap) (b : Bank) (r : LogicalRow) : Remap :=
  { u with
    suspects := u.suspects.filter fun e => !e.names b r
    queuedOrder := u.queuedOrder.filter fun k => decide (k ≠ (b, r)) }

/-- The entry of a row becomes UNREPAIRABLE, `queued_at` absent, and leaves the queued order (R86). -/
def Remap.giveUp (u : Remap) (b : Bank) (r : LogicalRow) : Remap :=
  { u.updateSuspect b r (fun e => { e with state := .unrepairable, queuedAt := none }) with
    queuedOrder := u.queuedOrder.filter fun k => decide (k ≠ (b, r)) }

/-! ## One word's reports -/

/-- The reports made for one decoded word by a requester that tallies its rows: the record, the suspect report and the
UE alert for CORRECTED and UNCORRECTABLE, nothing for CLEAN and POISONED (R106, R134, R152). -/
def State.reportWord (s : State) (source : ErrorSource) (b : Bank) (logical : LogicalRow) (physical : PhysicalRow)
    (w : WordInRow) (o : DecodeOutcome) : State :=
  match o with
  | .clean => s
  | .corrected =>
    (s.report { kind := .ce, source, bank := b, physicalRow := physical, word := some w }).reportSuspect b logical o
  | .poisoned => s
  | .uncorrectable =>
    ((s.report { kind := .ue, source, bank := b, physicalRow := physical, word := some w }).reportSuspect b
      logical o).raise .ue

/-- The reports of a migration step for one source word: the record and the UE alert; the list is not told (R89). -/
def State.reportMigrated (s : State) (b : Bank) (physical : PhysicalRow) (w : WordInRow) (o : DecodeOutcome) : State :=
  match o with
  | .clean => s
  | .corrected => s.report { kind := .ce, source := .migrate, bank := b, physicalRow := physical, word := some w }
  | .poisoned => s
  | .uncorrectable =>
    (s.report { kind := .ue, source := .migrate, bank := b, physicalRow := physical, word := some w }).raise .ue

/-! ## Spares and remap entries -/

/-- The state of a spare (R82). -/
def Remap.spare (u : Remap) (b : Bank) (t : SpareIndex) : SpareState := u.spares[b][t]

/-- The pool with the state of one spare set. -/
def Remap.setSpare (u : Remap) (b : Bank) (t : SpareIndex) (x : SpareState) : Remap :=
  { u with spares := u.spares.set b (u.spares[b].set t x) }

/-- How many spares of a bank are in a state (R82, R98). -/
def Remap.countSpares (u : Remap) (b : Bank) (x : SpareState) : Nat :=
  (List.finRange 16).countP fun t => u.spare b t = x

/-- The lowest-numbered FREE spare of a bank (R86). -/
def Remap.freeSpare (u : Remap) (b : Bank) : Option SpareIndex :=
  (List.finRange 16).find? fun t => u.spare b t = .free

/-- The lowest empty slot of a bank (R81). -/
def Remap.emptySlot (u : Remap) (b : Bank) : Option Slot :=
  (List.finRange 16).find? fun i => u.tables[b][i].isNone

/-- The tables with one slot of a bank set. -/
def Remap.setSlot (u : Remap) (b : Bank) (i : Slot) (e : Option RemapEntry) : Remap :=
  { u with tables := u.tables.set b (u.tables[b].set i e) }

/-- The remap entry a migration opens on spare `t`, and its slot (R87): a new entry in the lowest empty slot with the
ordinary row as source, or the row's LIVE entry in its slot with its spare as source. A bank with a FREE spare has an
empty slot (R81); slot 0 stands in where it has none. -/
def Remap.opened (u : Remap) (b : Bank) (r : LogicalRow) (t : SpareIndex) : Slot × RemapEntry :=
  match u.find b r with
  | none =>
    ((u.emptySlot b).getD 0,
      { logicalRow := r, target := t, state := .migrating, source := some (ordinaryRow r), cursor := 0 })
  | some (i, e) =>
    (i, { logicalRow := r, target := t, state := .migrating, source := some (spareRow e.target), cursor := 0 })

/-- The start of a migration that has a FREE spare: the spare becomes IN_USE, the entry is opened, and SPARES_LOW is
raised when 2 or fewer FREE spares are left (R86, R87). -/
def State.openMigration (s : State) (b : Bank) (r : LogicalRow) (t : SpareIndex) : State :=
  let o := s.remap.opened b r t
  let u := (s.remap.setSpare b t .inUse).setSlot b o.1 (some o.2)
  let s := s.setRemap u
  if u.countSpares b .free ≤ 2 then s.raise .sparesLow else s

/-- The start of a migration that finds no FREE spare: the entry becomes UNREPAIRABLE, a record without a word is made
of the row the lookup gives, and SPARES_EXHAUSTED is raised (R86). -/
def State.giveUpMigration (s : State) (b : Bank) (r : LogicalRow) : State :=
  let row := s.remap.readRow b r
  ((s.setRemap (s.remap.giveUp b r)).report
    { kind := .unrepairable, source := .remap, bank := b, physicalRow := row, word := none }).raise .sparesExhausted

/-- The cursor of the entry in a slot rises by 1 (R88). -/
def Remap.advance (u : Remap) (b : Bank) (i : Slot) : Remap :=
  match u.tables[b][i] with
  | some e => u.setSlot b i (some { e with cursor := e.cursor + 1 })
  | none => u

/-- The spare that a physical row is, if it is one (R2). -/
def spareOf (p : PhysicalRow) : Option SpareIndex :=
  if 8192 ≤ p.val then some (Fin.ofNat 16 (p.val - 8192)) else none

/-- The completion of a migration (R93): the entry becomes LIVE and its source absent, a source that was a spare becomes
DEAD, and the served suspect entry is removed. -/
def Remap.complete (u : Remap) (b : Bank) (r : LogicalRow) (i : Slot) : Remap :=
  match u.tables[b][i] with
  | some e =>
    let v := u.setSlot b i (some { e with state := .live, source := none })
    let w :=
      match e.source.bind spareOf with
      | some t => v.setSpare b t .dead
      | none => v
    w.removeSuspect b r
  | none => u.removeSuspect b r

end Sys2Proof.Machine
end

