-- ==== Sys2Proof/Machine/Buffer.lean ====
section
/-! DEFINITION. The write buffer (chapter 08): merging, allocation, the triggers that make an entry due, the choice of an entry to drain, the bytes offered to reads, the words a drain writes, and a port reset's discard. -/

namespace Sys2Proof.Machine

/-- The bytes an entry holds. -/
def BufferEntry.bytes (e : BufferEntry) : LineBytes := ⟨e.valid, e.data⟩

/-- The DRAINING entry, of which there is at most one (R124, R130). -/
def WriteBuffer.draining (w : WriteBuffer) : Option BufferEntry := w.entries.find? fun e => e.state = .draining

/-- The entry is the FILLING entry of a line. -/
def BufferEntry.fills (e : BufferEntry) (n : Line) : Bool := decide (e.state = .filling ∧ e.line = n)

/-- The FILLING entry of a line, of which there is at most one (R124). -/
def WriteBuffer.filling (w : WriteBuffer) (n : Line) : Option BufferEntry := w.entries.find? fun e => e.fills n

/-- The oldest FILLING entry (R126, R129). -/
def WriteBuffer.oldestFilling (w : WriteBuffer) : Option BufferEntry := w.entries.find? fun e => e.state = .filling

/-- The FILLING entry of a line changed. -/
def WriteBuffer.updateFilling (w : WriteBuffer) (n : Line) (f : BufferEntry → BufferEntry) : WriteBuffer :=
  { w with entries := w.entries.map fun e => if e.fills n then f e else e }

/-- A write's bytes merged into the FILLING entry of its line; `born` and the marks are unchanged (R125). -/
def WriteBuffer.merge (w : WriteBuffer) (n : Line) (x : LineBytes) : WriteBuffer :=
  w.updateFilling n fun e =>
    let y := x.over e.bytes
    { e with valid := y.valid, data := y.data }

/-- A new entry for a line at the end of the order (R126). -/
def WriteBuffer.allocate (w : WriteBuffer) (n : Line) (x : LineBytes) (now : Time) : WriteBuffer :=
  { w with
    entries := w.entries ++
      [{ line := n, valid := x.valid, data := x.data, state := .filling, born := now, ageDue := false
         flushMark := false, poisonWritten := false }] }

/-- The bytes of a line the buffer offers to a read: for each byte, the newest entry for the line that holds it (R136). -/
def WriteBuffer.offered (w : WriteBuffer) (n : Line) : LineBytes :=
  (w.entries.filter fun e => e.line = n).foldl (fun acc e => e.bytes.over acc) LineBytes.empty

/-- A waiting write stands at the head (R126, R148). -/
def State.waitingWrite (s : State) : Bool := decide (s.port.stage = some .waitingEntry)

/-- A FILLING entry is due while one of the five triggers holds: full, age, pressure, flush, hold (R129). -/
def State.isDue (s : State) (e : BufferEntry) : Bool :=
  decide (e.state = .filling) &&
    (decide (e.valid = BitVec.allOnes 32) || e.ageDue ||
      (s.waitingWrite && decide (s.buffer.oldestFilling = some e)) ||
      e.flushMark || decide (s.hold.state = .entering))

/-- The choice of an entry to drain (R130): while no entry is DRAINING, the oldest due entry becomes DRAINING. -/
def State.chooseEntry (s : State) : State :=
  match s.buffer.draining with
  | some _ => s
  | none =>
    match s.buffer.entries.find? s.isDue with
    | none => s
    | some e => s.setBuffer (s.buffer.updateFilling e.line fun e => { e with state := .draining })

/-- The drain age in ns (R130). -/
def WriteBuffer.age (w : WriteBuffer) : Time := (w.drainAge.toNat : Time) * Config.drainUnit

/-- FILLING entries whose time since `born` equals or exceeds the drain age become due by age (R130 note 1). -/
def State.expireAge (s : State) : State :=
  s.setBuffer
    { s.buffer with
      entries := s.buffer.entries.map fun e =>
        if e.state = .filling ∧ e.born + s.buffer.age ≤ s.clock.now then { e with ageDue := true } else e }

/-- A FLUSH is served by the buffer: `flush_poison` is cleared and every entry is marked (R138). -/
def WriteBuffer.markAll (w : WriteBuffer) : WriteBuffer :=
  { w with entries := w.entries.map fun e => { e with flushMark := true }, flushPoison := false }

/-- A port reset discards the FILLING entries, clears the mark of a kept DRAINING entry, and clears `flush_poison`
(R142). -/
def WriteBuffer.portReset (w : WriteBuffer) : WriteBuffer :=
  { w with
    entries := (w.entries.filter fun e => e.state = .draining).map fun e => { e with flushMark := false }
    flushPoison := false }

/-! ## The drain -/

/-- The word of an entry is covered in part (R131). -/
def partlyCovered (valid : BitVec 32) (k : Fin 4) : Bool :=
  decide (wordValid valid k ≠ 0 ∧ wordValid valid k ≠ 0xFF)

/-- The kind of an entry's drain: LINE-MERGE if any word is partly covered, otherwise LINE-WRITE (R131). -/
def BufferEntry.drainWork (e : BufferEntry) : Work :=
  if lineWords.any (partlyCovered e.valid) then .lineMerge e.line else .lineWrite e.line

/-- The decode of each partly covered word of an entry, in word order, read from physical row `p` (R28, R131). -/
def State.drainReads (s : State) (e : BufferEntry) (p : PhysicalRow) : List (WordInRow × Decoded) :=
  (lineWords.filter (partlyCovered e.valid)).map fun k =>
    (lineWord e.line k, (s.word (lineBank e.line) p (lineWord e.line k)).decode)

/-- The words an entry's drain writes (R131, R132): a fully covered word as a valid word of the entry's bytes; a partly
covered word merged over the word decoded in row `p`; an untouched word not at all. -/
def State.drainWrites (s : State) (e : BufferEntry) (p : PhysicalRow) : List (WordInRow × StoredWord) :=
  lineWords.filterMap fun k =>
    let v := wordValid e.valid k
    let d := wordData e.data k
    if v = 0 then none
    else if v = 0xFF then some (lineWord e.line k, .valid d)
    else some (lineWord e.line k, mergedWord v d (s.word (lineBank e.line) p (lineWord e.line k)).decode)

end Sys2Proof.Machine
end

