-- ==== Sys2Proof/Machine/Port.lean ====
section
/-! DEFINITION. The system port (chapter 09): the service of the head of the intake queue, the assembly of a READ's beats, the taking of a response, acceptance, and the port's side of a port reset. -/

namespace Sys2Proof.Machine

/-- SR is high: the head is RESPONDING (R149). -/
def SystemPort.sr (p : SystemPort) : Bool :=
  match p.stage with
  | some (.responding _) => true
  | _ => false

/-- The fill mark of a logical row is set (R112). -/
def FillMap.marked (f : FillMap) (b : Bank) (r : LogicalRow) : Bool := f.marks.getLsbD (sweepIndex b r).val

/-- `s` with the head of the intake queue in a stage. -/
def State.setStage (s : State) (x : Option Stage) : State := s.setPort { s.port with stage := x }

/-- The head's response is offered: the head is RESPONDING (R149). -/
def State.respond (s : State) (r : Response) : State := s.setStage (some (.responding r))

/-- The answer OK of a WRITE (R145, R154). -/
def writeOk : Response := { kind := .write, status := .ok, beats := [] }

/-- The answer of a FLUSH, DATA_ERROR if `flush_poison` is set (R145, R155). -/
def flushAnswer (flushPoison : Bool) : Response :=
  { kind := .flush, status := if flushPoison then .dataError else .ok, beats := [] }

/-- The beats of a READ response, in the request's beat order, from the line's bytes and from which of them were taken
from words whose data is lost (R145, R151). -/
def responseBeats (a : BeatAddress) (n : BeatCount) (data : BitVec 256) (lost : BitVec 32) : List ResponseBeat :=
  (List.range n.toNat).map fun k =>
    { data := beatData data (lineBeat a k), err := decide (beatValid lost (lineBeat a k) ≠ 0) }

/-- The response of a READ: DATA_ERROR if any beat has `err` set (R145, R151). -/
def readAnswer (a : BeatAddress) (n : BeatCount) (data : BitVec 256) (lost : BitVec 32) : Response :=
  let beats := responseBeats a n data lost
  { kind := .read, status := if beats.any ResponseBeat.err then .dataError else .ok, beats }

/-- The words of a line that hold a byte of `missing`, in ascending order, each with whether some of its bytes are in
`taken` (R150, R152). -/
def wordsToRead (missing taken : BitVec 32) : List ReadWord :=
  lineWords.filterMap fun k =>
    if wordValid missing k = 0 then none else some { word := k, merged := decide (wordValid taken k ≠ 0) }

/-- The service of a head READ (R150, R120): bytes the buffer offers are taken from it; on a row whose mark is clear the
others are zero; where the buffer offers every byte, or the mark is clear, the READ is answered at once; otherwise it
is READING, its LINE-READ claim standing. -/
def State.serveRead (s : State) (a : BeatAddress) (n : BeatCount) : State :=
  let line := beatLine a
  let needed := neededBytes a n
  let offered := s.buffer.offered line
  let taken := needed &&& offered.valid
  let missing := needed &&& ~~~offered.valid
  let bytes := offered.data &&& spread 32 taken
  if missing = 0 ∨ s.fillMap.marked (lineBank line) (lineRow line) = false then s.respond (readAnswer a n bytes 0)
  else s.setStage (some (.reading taken bytes (wordsToRead missing taken) false))

/-- The service of a head WRITE, or of a waiting write when room may have come (R125 to R127, R154). -/
def State.serveWrite (s : State) (a : BeatAddress) (n : BeatCount) (d : List WriteBeat) : State :=
  let line := beatLine a
  let x := writtenBytes a n d
  if x.valid = 0 then s.respond writeOk
  else if (s.buffer.filling line).isSome then (s.setBuffer (s.buffer.merge line x)).respond writeOk
  else if s.buffer.entries.length < Config.bufferSize then
    (s.setBuffer (s.buffer.allocate line x s.clock.now)).respond writeOk
  else s.setStage (some .waitingEntry)

/-- A FLUSH at the head is answered once no entry has `flush_mark` set (R140, R155). -/
def State.finishFlush (s : State) : State :=
  if s.port.stage = some .flushing ∧ (s.buffer.entries.any BufferEntry.flushMark) = false then
    s.respond (flushAnswer s.buffer.flushPoison)
  else s

/-- The service of a head FLUSH (R138, R155). -/
def State.serveFlush (s : State) : State := ((s.setBuffer s.buffer.markAll).setStage (some .flushing)).finishFlush

/-- The service of the head of the intake queue, which decides its first stage (R148). -/
def State.serveHead (s : State) : State :=
  match s.port.queue with
  | [] => s.setStage none
  | .read a n :: _ => s.serveRead a n
  | .write a n d :: _ => s.serveWrite a n d
  | .flush :: _ => s.serveFlush

/-- A waiting write is allocated an entry, if there is room now (R126, R135). -/
def State.serveWaiting (s : State) : State := if s.waitingWrite then s.serveHead else s

/-- The head, whose response has been taken, is removed, and the next request becomes the head and is served (R149). -/
def State.takeResponse (s : State) : State :=
  (s.setPort { s.port with queue := s.port.queue.tail, stage := none }).serveHead

/-- An offered request is accepted into the tail of the intake queue and SA rises; into an empty queue it becomes the head
and is served (R146, R148). -/
def State.accept (s : State) (r : Request) : State :=
  let t := s.setPort { s.port with offer := none, sa := true, queue := s.port.queue ++ [r] }
  if s.port.queue = [] then t.serveHead else t

/-- The moment of acceptance is come: a request is offered and the three conditions of R146 hold. -/
def State.canAccept (s : State) : Option Request :=
  if s.port.queue.length < Config.intakeSize ∧ s.port.resetN = true ∧ s.hold.state = .active then s.port.offer
  else none

/-- What a port reset does to the port (R156): the queue is emptied, the standing response withdrawn, SA falls; a claim
that has not been granted goes with its head, and a LINE-READ in flight will have no response. -/
def State.resetPort (s : State) : State :=
  let s := s.setPort { s.port with sa := false, queue := [], stage := none }
  match s.channel with
  | some op =>
    match op.work with
    | .lineRead line words _ => s.setChannel (some { op with work := .lineRead line words false })
    | _ => s
  | none => s

/-! ## LINE-READ completion -/

/-- The decode of each word a LINE-READ reads in physical row `p` (R27, R151). -/
def State.readDecodes (s : State) (line : Line) (p : PhysicalRow) (words : List ReadWord) :
    List (ReadWord × Decoded) :=
  words.map fun x => (x, (s.word (lineBank line) p (lineWord line x.word)).decode)

/-- The delivered data of the words read, each in its place in the line (R151). -/
def deliveredLine (ds : List (ReadWord × Decoded)) : BitVec 256 :=
  ds.foldl (fun (acc : BitVec 256) x => acc ||| (BitVec.zeroExtend 256 x.2.data <<< (64 * x.1.word.val))) 0

/-- The line bytes of the words whose data is lost (R151). -/
def lostBytes (ds : List (ReadWord × Decoded)) : BitVec 32 :=
  ds.foldl
    (fun (acc : BitVec 32) x => if x.2.outcome.lost then acc ||| ((0xFF#32) <<< (8 * x.1.word.val)) else acc) 0

/-- The reports of a LINE-READ, lowest word first (R152). -/
def State.reportRead (s : State) (line : Line) (p : PhysicalRow) (ds : List (ReadWord × Decoded)) : State :=
  ds.foldl
    (fun s x =>
      s.reportWord (if x.1.merged then .readMerge else .read) (lineBank line) (lineRow line) p
        (lineWord line x.1.word) x.2.outcome)
    s

/-- The beats are assembled and the response of the head READ is offered (R151). -/
def State.answerRead (s : State) (ds : List (ReadWord × Decoded)) : State :=
  match s.port.queue, s.port.stage with
  | .read a n :: _, some (.reading taken bytes _ true) =>
    let data := mergeBytes 32 taken bytes (deliveredLine ds)
    s.respond (readAnswer a n data (neededBytes a n &&& ~~~taken &&& lostBytes ds))
  | _, _ => s

end Sys2Proof.Machine
end

