-- ==== Sys2Proof/Machine/Engine.lean ====
section
/-! DEFINITION. The Maintenance Engine, the Fill Map, the Patrol Scrubber and the Hold Controller: fill marks and searches, pushes, starts, resumptions and completions of jobs (chapters 03, 06, 07), hold entry, its conditions, its abandonment and the wake (chapter 10), and a port reset as a whole. -/

namespace Sys2Proof.Machine

/-! ## The state of the stack -/

/-- The work is a step of a preemptible job. -/
def Work.isStep : Work → Bool
  | .lineRead _ _ _ => false
  | .lineWrite _ => false
  | .lineMerge _ => false
  | .rowFill _ => false
  | .scrubStep _ => true
  | .migrateStep _ => true
  | .fillStep _ => true
  | .refresh => false
  | .sense => false

/-- A step of the top is granted and in flight (R40). -/
def State.stepInFlight (s : State) : Bool :=
  match s.channel with
  | some op => op.work.isStep
  | none => false

/-- The hold state lets the engine push, resume and claim: ACTIVE or WAKING (R40, R41, R48). -/
def State.live (s : State) : Bool := decide (s.hold.state = .active ∨ s.hold.state = .waking)

/-- The level of a job (R32). -/
def Job.level : Job → Nat
  | .migrate _ _ _ _ => 3
  | .scrub _ _ _ _ => 5
  | .fill _ _ => 7

/-- The level of the top of the stack, and one that any class goes above for an empty stack (R41). -/
def Engine.topLevel (e : Engine) : Nat :=
  match e.stack with
  | [] => 8
  | j :: _ => j.level

/-- The job serves the suspect entry of a row (R36). -/
def Job.serves (j : Job) (b : Bank) (r : LogicalRow) : Bool :=
  match j with
  | .migrate b' r' _ _ => decide (b' = b ∧ r' = r)
  | .scrub _ _ _ _ => false
  | .fill _ _ => false

/-- A MIGRATE job in the stack serves the row's entry (R36). -/
def Engine.served (e : Engine) (b : Bank) (r : LogicalRow) : Bool := e.stack.any fun j => j.serves b r

/-- The row of the QUEUED entry that became QUEUED earliest among those that no job serves (R43, R86). -/
def State.firstUnserved (s : State) : Option (Bank × LogicalRow) :=
  s.remap.queuedOrder.find? fun k => !s.engine.served k.1 k.2

/-- MIGRATE is pending (R36, log 9). -/
def State.migratePending (s : State) : Bool := s.firstUnserved.isSome

/-- A SCRUB job is in the stack (R99). -/
def Engine.scrubInService (e : Engine) : Bool :=
  e.stack.any fun j =>
    match j with
    | .migrate _ _ _ _ => false
    | .scrub _ _ _ _ => true
    | .fill _ _ => false

/-! ## Fill marks and the two searches -/

/-- The first of `tries` consecutive numbers from `i` on that passes the test. -/
def firstFrom (test : Nat → Bool) : Nat → Nat → Option Nat
  | 0, _ => none
  | tries + 1, i => if test i then some i else firstFrom test tries (i + 1)

/-- The first sweep index from `i` on whose mark is clear; the search does not wrap (R115, R117). -/
def FillMap.nextClear (f : FillMap) (i : Nat) : Option SweepIndex :=
  (firstFrom (fun k => !f.marks.getLsbD k) (131072 - i) i).map (Fin.ofNat 131072)

/-- The search of a SCRUB job's start (R103): the first marked index from `cursor` on, wrapping to 0, and whether it
wrapped; none where no row is filled. -/
def FillMap.nextMarked (f : FillMap) (cursor : SweepIndex) : Option (SweepIndex × Bool) :=
  if f.marks = 0 then none
  else
    match firstFrom (fun k => f.marks.getLsbD k) (131072 - cursor.val) cursor.val with
    | some i => some (Fin.ofNat 131072 i, false)
    | none => (firstFrom (fun k => f.marks.getLsbD k) cursor.val 0).map fun i => (Fin.ofNat 131072 i, true)

/-- The fill mark of a row is set; with the last clear mark, fill done is set and FILL_DONE raised. A mark already set
stays, and nothing else changes (R113, R114). -/
def State.markRow (s : State) (i : SweepIndex) : State :=
  if s.fillMap.marks.getLsbD i.val then s
  else
    let marks := s.fillMap.marks ||| BitVec.twoPow 131072 i.val
    if marks = BitVec.allOnes 131072 then (s.setFillMap { marks, done := true }).raise .fillDone
    else s.setFillMap { s.fillMap with marks }

/-! ## The Patrol Scrubber -/

/-- The scrub cursor set, `pass_count` rising by 1 at a wrap (R99, R103, R107). -/
def Scrubber.moveTo (u : Scrubber) (i : SweepIndex) (wrapped : Bool) : Scrubber :=
  { u with cursor := i, passCount := if wrapped then u.passCount + 1 else u.passCount }

/-- The sweep index after `i`, and whether it wraps to 0 (R107). -/
def nextIndex (i : SweepIndex) : SweepIndex × Bool := (i + 1, decide (i.val = 131071))

/-- What follows every completion of a SCRUB job, with or without a row: with `lag` above 0, `lag` falls by 1 and SCRUB
becomes pending (R107). -/
def State.serveLag (s : State) : State :=
  if 0 < s.scrubber.lag then
    (s.setScrubber { s.scrubber with lag := s.scrubber.lag - 1 }).setEngine { s.engine with scrubPending := true }
  else s

/-- The completion of a row scrubbed with `corrections` words written back corrected (R107); the job has been popped. -/
def State.scrubRowDone (s : State) (corrections : Nat) : State :=
  let n := nextIndex s.scrubber.cursor
  (s.setScrubber { s.scrubber.moveTo n.1 n.2 with lastCorrections := corrections }).serveLag

/-- The step interval in ns (R100). -/
def scrubInterval (step : Byte) : Time := (step.toNat : Time) * Config.scrubUnit

/-- An expiry of the step timer (R100): SCRUB becomes pending, or `lag` rises by 1, up to 255. -/
def State.scrubExpiry (s : State) : State :=
  if s.engine.scrubPending || s.engine.scrubInService then
    s.setScrubber { s.scrubber with lag := min 255 (s.scrubber.lag + 1) }
  else s.setEngine { s.engine with scrubPending := true }

/-! ## Pushes, starts and resumptions -/

/-- `s` with the stack replaced. -/
def State.setStack (s : State) (jobs : List Job) : State := s.setEngine { s.engine with stack := jobs }

/-- A MIGRATE job is pushed for a row and starts (R43, R86, R87): with a FREE spare in its bank it opens the migration;
without one the entry becomes UNREPAIRABLE and the job is popped complete. -/
def State.pushMigrate (s : State) (b : Bank) (r : LogicalRow) : State :=
  match s.remap.freeSpare b with
  | none => s.giveUpMigration b r
  | some t => (s.openMigration b r t).setStack (.migrate b r (s.remap.opened b r t).1 0 :: s.engine.stack)

/-- A SCRUB job is pushed and starts (R43, R103): it takes the first filled row from the scrub cursor on, or is popped
complete where no row is filled (R107). -/
def State.pushScrub (s : State) : State :=
  let t := s.setEngine { s.engine with scrubPending := false }
  match s.fillMap.nextMarked s.scrubber.cursor with
  | none => t.serveLag
  | some (i, wrapped) =>
    (t.setScrubber (s.scrubber.moveTo i wrapped)).setStack
      (.scrub (sweepBank i) (sweepRow i) 0 0 :: s.engine.stack)

/-- The FILL job is pushed and starts (R43, R115). -/
def State.pushFill (s : State) : State :=
  let t := s.setEngine { s.engine with fillPending := false }
  match s.fillMap.nextClear 0 with
  | none => t
  | some i => t.setStack (.fill i 0 :: s.engine.stack)

/-- The FILL job at the top leaves the row it stands on: it takes the next index whose mark is clear, or is popped
complete where none remains (R47, R117, R118). -/
def State.fillForward (s : State) (i : SweepIndex) (rest : List Job) : State :=
  match s.fillMap.nextClear (i.val + 1) with
  | none => s.setStack rest
  | some j => s.setStack (.fill j 0 :: rest)

/-- The check of a FILL job that is the running top (R47, R118): standing on a row that has been marked, it leaves it. -/
def State.checkTop (s : State) : Option State :=
  match s.engine.stack with
  | .fill i _ :: rest => if s.fillMap.marks.getLsbD i.val then some (s.fillForward i rest) else none
  | _ => none

/-- One move of the engine, if any is due: the push of the pending class of highest level above the top, which is at its
checkpoint, or onto an empty stack (R41, R45); or else the check of the top that is resumed (R47). In ENTERING and HOLD,
and while a step is in flight, none is due (R48). -/
def State.engineMove (s : State) : Option State :=
  if s.live && !s.stepInFlight then
    match s.firstUnserved with
    | some k =>
      if 3 < s.engine.topLevel then some (s.pushMigrate k.1 k.2)
      else if s.engine.scrubPending = true ∧ 5 < s.engine.topLevel then some s.pushScrub
      else if s.engine.fillPending = true ∧ 7 < s.engine.topLevel then some s.pushFill
      else s.checkTop
    | none =>
      if s.engine.scrubPending = true ∧ 5 < s.engine.topLevel then some s.pushScrub
      else if s.engine.fillPending = true ∧ 7 < s.engine.topLevel then some s.pushFill
      else s.checkTop
  else none

/-- The engine's moves of one instant, one after another until none is due. -/
def State.engineMoves : Nat → State → State
  | 0, s => s
  | fuel + 1, s =>
    match s.engineMove with
    | none => s
    | some t => State.engineMoves fuel t

/-- The engine takes up its work (R41, R45, R49). Eight passes over QUEUED entries, one push of each class, 256
completions without a row and one check of the top are the most an instant can hold. -/
def State.engineRun (s : State) : State := State.engineMoves 300 s

/-! ## The Hold Controller -/

/-- No bank's balance is below 0 (R69). -/
def State.caughtUp (s : State) : Bool := allBanks.all fun b => decide (0 ≤ (s.balanceOf b).balance)

/-- No bank is OPENING, OPEN or CLOSING (R166). -/
def State.rowsClosed (s : State) : Bool :=
  allBanks.all fun b => decide ((s.bank b).state = .closed ∨ (s.bank b).state = .refreshing)

/-- The first four of the five entry conditions: queue empty, buffer empty, at rest, caught up (R166). -/
def State.entryReady (s : State) : Bool :=
  s.port.queue.isEmpty && s.buffer.entries.isEmpty && !s.stepInFlight && s.caughtUp

/-- The further close-all request of hold entry, made while the first four conditions hold and some bank is OPENING or
OPEN (R166). -/
def State.furtherCloseAll (s : State) : State :=
  if s.hold.state = .entering ∧ s.entryReady = true ∧ (allBanks.any fun b => (s.bank b).holdsRow) = true then s.closeAll
  else s

/-- Hold entry begins (R166): ENTERING, the close-all request, and the choice of an entry, every FILLING entry being due
(R141). The engine's step claim is withdrawn with the state (R48). -/
def State.beginEntry (s : State) : State :=
  ((s.setHold { s.hold with state := .entering }).closeAll).chooseEntry

/-- Hold entry is abandoned (R168): ACTIVE at once, and the engine takes up its work (R49). -/
def State.abandonEntry (s : State) : State := (s.setHold { s.hold with state := .active }).engineRun

/-- HOLD ends (R170): WAKING, T_WAKE starts, and the engine takes up its work (R49). -/
def State.startWake (s : State) : State :=
  (s.setHold { state := .waking, wakeEnd := some (s.clock.now + Config.tWake) }).engineRun

/-- The side of a port reset that wakes the part: begun in HOLD it ends HOLD, begun in another state it leaves the hold
state as it stands (R170, R171). -/
def State.wakeFromHold (s : State) : State := if s.hold.state = .hold then s.startWake else s

/-- A port reset (R142, R156, R170, R171), with the close-all request that an emptied queue and buffer may bring in
ENTERING (R166). -/
def State.portReset (s : State) : State :=
  (((s.resetPort).setBuffer s.buffer.portReset).wakeFromHold).furtherCloseAll

/-- An offer on SQ is seen by the Hold Controller (R147, R168, R170). -/
def State.offerSeen (s : State) : State :=
  match s.hold.state with
  | .active => s
  | .entering => s.abandonEntry
  | .hold => s.startWake
  | .waking => s

end Sys2Proof.Machine
end

