-- ==== Sys2Proof/Machine/Channel.lean ====
section
/-! DEFINITION. The array channel (chapter 01): the claims that stand, the pull-in gate, the arbiter's choice, and the grant, with the rows each kind of operation visits. -/

namespace Sys2Proof.Machine

/-- A claim on the channel (R15): its level, its bank (absent for SENSE), the logical row it serves, and the operation it
will be granted as. A refresh claim carries its bank's balance, which is read from the balance table. -/
structure Claim where
  level : Nat
  bank : Option Bank
  logicalRow : Option LogicalRow
  work : Work
deriving DecidableEq, Repr

/-! ## The claims that stand -/

/-- The system port's claim: the head is a READ whose LINE-READ has not been granted (R15, R150). -/
def State.readClaim (s : State) : Option Claim :=
  match s.port.queue, s.port.stage with
  | .read a _ :: _, some (.reading _ _ words false) =>
    some
      { level := 2, bank := some (lineBank (beatLine a)), logicalRow := some (lineRow (beatLine a))
        work := .lineRead (beatLine a) words true }
  | _, _ => none

/-- The work is a drain or the ROW-FILL that precedes one. -/
def Work.isDrain : Work → Bool
  | .lineRead _ _ _ => false
  | .lineWrite _ => true
  | .lineMerge _ => true
  | .rowFill _ => true
  | .scrubStep _ => false
  | .migrateStep _ => false
  | .fillStep _ => false
  | .refresh => false
  | .sense => false

/-- The write buffer's claim for its DRAINING entry, while neither its drain nor its ROW-FILL is in flight: a ROW-FILL
while the row's mark is clear, the drain itself otherwise (R15, R121, R122, R130, R131). -/
def State.drainClaim (s : State) : Option Claim :=
  match s.buffer.draining with
  | none => none
  | some e =>
    if (s.channel.map Operation.work).any Work.isDrain then none
    else
      some
        { level := 2, bank := some (lineBank e.line), logicalRow := some (lineRow e.line)
          work := if s.fillMap.marked (lineBank e.line) (lineRow e.line) then e.drainWork else .rowFill e.line }

/-- The engine's SENSE claim, while THERMAL_POLL is pending (R34). -/
def State.senseClaim (s : State) : Option Claim :=
  if s.engine.thermalPollPending then some { level := 1, bank := none, logicalRow := none, work := .sense } else none

/-- The claim for a job's next step, from its context (R40, R46). -/
def Job.claim : Job → Claim
  | .migrate b r _ cursor => { level := 3, bank := some b, logicalRow := some r, work := .migrateStep cursor }
  | .scrub b r g _ => { level := 5, bank := some b, logicalRow := some r, work := .scrubStep g }
  | .fill i g => { level := 7, bank := some (sweepBank i), logicalRow := some (sweepRow i), work := .fillStep g }

/-- The engine's step claim: of the top at its checkpoint, in ACTIVE and WAKING (R40, R48). -/
def State.stepClaim (s : State) : Option Claim :=
  if s.live && !s.stepInFlight then s.engine.stack.head?.map Job.claim else none

/-- Some claim of level 0 to 5 waits (R35, R61). Every bank below balance 0 has an URGENT or a DUE claim (R59). -/
def State.waiting05 (s : State) : Bool :=
  !s.caughtUp || s.senseClaim.isSome || s.readClaim.isSome || s.drainClaim.isSome ||
    s.stepClaim.any fun c => decide (c.level ≤ 5)

/-- The pull-in gate (R61, log 9). -/
def State.gateOpen (s : State) : Bool := !s.waiting05 && decide (s.hold.state ≠ .hold)

/-- The refresh claims (R52). -/
inductive RefreshClaim
  | urgent | due | pullIn
deriving DecidableEq, Repr

/-- The level of a refresh claim (R59). -/
def RefreshClaim.level : RefreshClaim → Nat
  | .urgent => 0
  | .due => 4
  | .pullIn => 6

/-- `claim`, the refresh claim a bank presents, by its balance and the pull-in gate (R59, log 9). -/
def State.claimOf (s : State) (b : Bank) : Option RefreshClaim :=
  let balance := (s.balanceOf b).balance
  if balance ≤ -(s.leff : Int) then some .urgent
  else if balance < 0 then some .due
  else if balance < s.leff ∧ s.gateOpen = true then some .pullIn
  else none

/-! ## The arbiter -/

/-- A claim on the bank is eligible: the bank is not REFRESHING (R16). -/
def State.eligibleBank (s : State) (b : Bank) : Bool := decide ((s.bank b).state ≠ .refreshing)

/-- The claim is eligible; one without a bank always is (R16). -/
def State.eligible (s : State) (c : Claim) : Bool := c.bank.all s.eligibleBank

/-- Bank `x` is ranked before bank `y` among pull-in claims by its record, CLOSED before any other, and then, as among all
refresh claims, by its balance (R19). -/
def State.ranksBefore (s : State) (kind : RefreshClaim) (x y : Bank) : Bool :=
  let closed := fun b => decide ((s.bank b).state = .closed)
  let lower := decide ((s.balanceOf x).balance < (s.balanceOf y).balance)
  if kind = .pullIn then
    if closed x = closed y then lower else closed x
  else lower

/-- The bank the arbiter takes among the eligible refresh claims of a kind: the first of R19's ranking, and the lowest
bank number among equals. -/
def State.pickBank (s : State) (kind : RefreshClaim) : Option Bank :=
  (allBanks.filter fun b => decide (s.claimOf b = some kind) && s.eligibleBank b).foldl
    (fun best b =>
      match best with
      | none => some b
      | some c => if s.ranksBefore kind b c then some b else best)
    none

/-- The claim granted among the refresh claims of a kind (R19). -/
def State.pickRefresh (s : State) (kind : RefreshClaim) : Option Claim :=
  (s.pickBank kind).map fun b => { level := kind.level, bank := some b, logicalRow := none, work := .refresh }

/-- Within level 2 the drain claim goes first: 8 entries in the buffer, a FLUSH at the head, or a waiting write (R18). -/
def State.drainFirst (s : State) : Bool :=
  decide (s.buffer.entries.length = Config.bufferSize) || decide (s.port.queue.head? = some .flush) || s.waitingWrite

/-- The claim granted within level 2 (R18). -/
def State.pickTraffic (s : State) : Option Claim :=
  let r := s.readClaim.filter s.eligible
  let d := s.drainClaim.filter s.eligible
  if s.drainFirst then d.or r else r.or d

/-- The engine's step claim, if it is eligible and of level `n`. -/
def State.pickStep (s : State) (n : Nat) : Option Claim :=
  s.stepClaim.filter fun c => decide (c.level = n) && s.eligible c

/-- The claim the arbiter grants: the eligible claim of the lowest level number (R17). -/
def State.pickClaim (s : State) : Option Claim :=
  (s.pickRefresh .urgent).or <| s.senseClaim.or <| s.pickTraffic.or <| (s.pickStep 3).or <|
    (s.pickRefresh .due).or <| (s.pickStep 5).or <| (s.pickRefresh .pullIn).or <| s.pickStep 7

/-! ## The grant -/

/-- The decode of each of a group's 16 words in physical row `p` (R29, R30). -/
def State.groupDecodes (s : State) (b : Bank) (p : PhysicalRow) (g : Nat) : List (WordInRow × Decoded) :=
  (groupWords g).map fun w => (w, (s.word b p w).decode)

/-- The words a scrub step writes back (R105). -/
def scrubWrites (ds : List (WordInRow × Decoded)) : List (WordInRow × StoredWord) :=
  ds.filterMap fun x => (scrubWriteBack x.2).map fun w => (x.1, w)

/-- The words a migration step writes to its target (R30, R88). -/
def migrateWrites (ds : List (WordInRow × Decoded)) : List (WordInRow × StoredWord) :=
  ds.map fun x => (x.1, mergedWord 0 0 x.2)

/-- The rows a scrub step visits: the rows written for its group where it has a word to write back, the row read alone
where it has none (R104, R105). -/
def State.scrubRows (s : State) (b : Bank) (r : LogicalRow) (g : Nat) : List PhysicalRow :=
  let p := s.remap.readRow b r
  if (scrubWrites (s.groupDecodes b p g)).isEmpty then [p] else s.remap.writeRows b r g

/-- The rows a migration step visits: source, then target (R88). -/
def Remap.migrateRows (u : Remap) (b : Bank) (r : LogicalRow) : List PhysicalRow :=
  match u.find b r with
  | some (_, e) => [e.source.getD (ordinaryRow r), spareRow e.target]
  | none => [ordinaryRow r]

/-- The rows an operation visits, in order, resolved at its grant (R13, R14). -/
def State.visits (s : State) (work : Work) (b : Bank) (r : LogicalRow) : List PhysicalRow :=
  match work with
  | .lineRead _ _ _ => [s.remap.readRow b r]
  | .lineWrite line => s.remap.writeRows b r (lineGroup line)
  | .lineMerge line => s.remap.writeRows b r (lineGroup line)
  | .rowFill _ => [ordinaryRow r]
  | .scrubStep g => s.scrubRows b r g
  | .migrateStep _ => s.remap.migrateRows b r
  | .fillStep _ => [ordinaryRow r]
  | .refresh => []
  | .sense => []

/-- The operation a granted claim becomes (R13, R15). -/
def State.operation (s : State) (c : Claim) : Operation :=
  let rows :=
    match c.bank, c.logicalRow with
    | some b, some r => s.visits c.work b r
    | _, _ => []
  { work := c.work, bank := c.bank, logicalRow := c.logicalRow, rows, rowsLeft := rows, grantedAt := s.clock.now
    heldClose := none }

/-- The stage of a head whose LINE-READ claim is granted. -/
def Stage.granted : Stage → Stage
  | .reading taken bytes words _ => .reading taken bytes words true
  | .waitingEntry => .waitingEntry
  | .flushing => .flushing
  | .responding r => .responding r

/-- The mark a grant leaves with the requester: THERMAL_POLL leaves the pending set (R34), and the head's LINE-READ claim
has been granted (R150). -/
def State.noteGrant (s : State) (work : Work) : State :=
  match work with
  | .lineRead _ _ _ => s.setStage (s.port.stage.map Stage.granted)
  | .lineWrite _ => s
  | .lineMerge _ => s
  | .rowFill _ => s
  | .scrubStep _ => s
  | .migrateStep _ => s
  | .fillStep _ => s
  | .refresh => s
  | .sense => s.setEngine { s.engine with thermalPollPending := false }

/-- The grant of a claim on the FREE channel (R12, R17): it becomes its operation, which opens or changes its row, closes
it for a REFRESH or issues the refresh command, as its bank's state asks (R6, R9, R10). -/
def State.grant (s : State) (c : Claim) : State :=
  let t := ((s.setChannel (some (s.operation c))).noteGrant c.work).progress
  match c.bank with
  | some b => t.urgentClose b
  | none => t

end Sys2Proof.Machine
end

