-- ==== Sys2Proof/Machine/Link.lean ====
section
/-! DEFINITION. The maintenance link (chapter 11): the register and record layouts, the bytes of a transaction, the judging of the settings at its STOP, and the commands. -/

namespace Sys2Proof.Machine

/-! ## Layouts of registers and records (R188) -/

/-- Byte `k` of a number, the least significant first (R188). -/
def byteOf (n k : Nat) : Byte := BitVec.ofNat 8 (n / 256 ^ k)

/-- A flag as a number. -/
def bit (b : Bool) : Nat := if b then 1 else 0

/-- The code of a RESULT (R186). -/
def ResultCode.code : ResultCode → Nat
  | .done => 0
  | .busy => 1
  | .range => 2
  | .full => 3
  | .notFilled => 4
  | .already => 5

/-- The code of a hold state in STATE (R188). -/
def HoldState.code : HoldState → Nat
  | .active => 0
  | .entering => 1
  | .hold => 2
  | .waking => 3

/-- The code of an error kind (R188). -/
def ErrorKind.code : ErrorKind → Nat
  | .ce => 0
  | .ue => 1
  | .unrepairable => 2

/-- The code of a source (R188). -/
def ErrorSource.code : ErrorSource → Nat
  | .read => 0
  | .readMerge => 1
  | .drain => 2
  | .scrub => 3
  | .migrate => 4
  | .remap => 5

/-- The code of a suspect state (R188). -/
def SuspectState.code : SuspectState → Nat
  | .normal => 0
  | .queued => 1
  | .unrepairable => 2

/-- The code of a remap state (R188). -/
def RemapState.code : RemapState → Nat
  | .migrating => 0
  | .live => 1

/-- STATE (R188); the code of a band is its rank. -/
def State.stateByte (s : State) : Byte :=
  BitVec.ofNat 8
    (s.hold.state.code + 4 * bit s.fillMap.done + 8 * s.thermal.band.rank + 64 * bit s.thermal.fault +
      128 * bit s.errors.saturated)

/-- The window of an error record (R188). -/
def ErrorRecord.window (r : ErrorRecord) : List Byte :=
  [BitVec.ofNat 8 (1 + 2 * r.kind.code + 8 * r.source.code + 64 * bit r.word.isSome), byteOf r.seq.toNat 0,
    byteOf r.seq.toNat 1, byteOf r.bank.val 0, byteOf r.physicalRow.val 0, byteOf r.physicalRow.val 1,
    byteOf (r.word.elim 0 Fin.val) 0, byteOf r.count 0] ++
    (List.range 4).map (byteOf r.firstMs.toNat) ++ (List.range 4).map (byteOf r.lastMs.toNat)

/-- The window of a suspect entry, with whether a MIGRATE job serves it (R188). -/
def SuspectEntry.window (e : SuspectEntry) (served : Bool) : List Byte :=
  let at' := e.queuedAt.elim 0 BitVec.toNat
  [BitVec.ofNat 8 (1 + 2 * e.state.code + 8 * bit served + 16 * bit e.queuedAt.isSome), byteOf e.bank.val 0,
    byteOf e.logicalRow.val 0, byteOf e.logicalRow.val 1, byteOf e.tally 0] ++
    (List.range 4).map (byteOf at') ++ List.replicate 7 0

/-- The window of a remap entry (R188). -/
def RemapEntry.window (e : RemapEntry) : List Byte :=
  let source := e.source.elim 0 Fin.val
  [BitVec.ofNat 8 (1 + 2 * e.state.code + 4 * bit e.source.isSome), byteOf e.target.val 0,
    byteOf e.logicalRow.val 0, byteOf e.logicalRow.val 1, byteOf source 0, byteOf source 1, byteOf e.cursor 0] ++
    List.replicate 9 0

/-- The window of a bank view (R188). -/
def State.bankView (s : State) (b : Bank) : List Byte :=
  [BitVec.ofInt 8 (s.balanceOf b).balance, byteOf (s.balanceOf b).pointer.val 0, byteOf (s.balanceOf b).pointer.val 1,
    byteOf (s.remap.countSpares b .free) 0, byteOf (s.remap.countSpares b .inUse) 0,
    byteOf (s.remap.countSpares b .dead) 0] ++ List.replicate 10 0

/-- The window of a place that holds no record: the present flag clear and every other byte 0 (R187). -/
def emptyWindow : List Byte := List.replicate 16 0

/-- The 16 bytes of the record window, for the record RECORD_SELECT names (R187, R188). -/
def State.recordWindow (s : State) : List Byte :=
  let i := s.link.selectIndex.toNat
  match s.link.selectTable with
  | 0 => (s.errors.records[i]?).elim emptyWindow ErrorRecord.window
  | 1 => (s.remap.suspects[i]?).elim emptyWindow fun e => e.window (s.engine.served e.bank e.logicalRow)
  | 2 => (s.remap.tables[Fin.ofNat 16 (i / 16)][Fin.ofNat 16 i]).elim emptyWindow RemapEntry.window
  | 3 => s.bankView (Fin.ofNat 16 i)

/-- The byte read at a register index; an index that holds no register reads as 0 (R181, R188). -/
def State.readRegister (s : State) (i : BitVec 6) : Byte :=
  match i.toNat with
  | 0x00 => s.stateByte
  | 0x01 => byteOf s.link.result.code 0
  | 0x02 => s.link.command
  | 0x03 => s.link.commandArg
  | 0x04 => s.alerts.causes
  | 0x05 => s.alerts.mask
  | 0x06 => byteOf s.refresh.limit 0
  | 0x07 => s.bankEngine.idleClose
  | 0x08 => s.buffer.drainAge
  | 0x09 => s.scrubber.step
  | 0x0A => byteOf s.remap.threshold 0
  | 0x0B => BitVec.ofInt 8 s.thermal.reading
  | 0x0C => byteOf s.scrubber.passCount.toNat 0
  | 0x0D => byteOf s.scrubber.passCount.toNat 1
  | 0x0E => byteOf s.scrubber.lastCorrections 0
  | 0x0F => byteOf s.scrubber.lag 0
  | 0x10 => byteOf s.link.retireBank.val 0
  | 0x11 => byteOf s.link.retireRow.val 0
  | 0x12 => byteOf s.link.retireRow.val 1
  | 0x13 => byteOf s.clock.deviceTime.toNat 0
  | 0x14 => byteOf s.clock.deviceTime.toNat 1
  | 0x15 => byteOf s.clock.deviceTime.toNat 2
  | 0x16 => byteOf s.clock.deviceTime.toNat 3
  | 0x17 => byteOf s.link.selectTable.val 0
  | 0x18 => s.link.selectIndex
  | n => if 0x20 ≤ n ∧ n ≤ 0x2F then s.recordWindow.getD (n - 0x20) 0 else 0

/-! ## The settings (R185) -/

/-- COMMAND_ARG: any set of causes (R185). -/
def State.judgeCommandArg (s : State) (v : Byte) : Option State := some (s.setLink { s.link with commandArg := v })

/-- ALERT_MASK: any set of causes; ALERT_N follows at once (R179). -/
def State.judgeAlertMask (s : State) (v : Byte) : Option State := some (s.setAlerts { s.alerts with mask := v })

/-- LIMIT (R67). -/
def State.judgeLimitByte (s : State) (v : Byte) : Option State := s.judgeLimit v.toNat

/-- IDLE_CLOSE: 0 to 40, applied at once to every running window (R8, R185). -/
def State.judgeIdleClose (s : State) (v : Byte) : Option State :=
  if v.toNat ≤ 40 then some (s.setBankEngine { s.bankEngine with idleClose := v }).expireIdle else none

/-- DRAIN_AGE: 1 to 127, applied at once to every FILLING entry (R130, R185). -/
def State.judgeDrainAge (s : State) (v : Byte) : Option State :=
  if 1 ≤ v.toNat ∧ v.toNat ≤ 127 then some (s.setBuffer { s.buffer with drainAge := v }).expireAge.chooseEntry else none

/-- SCRUB_STEP: every value; 0 stops the timer, clears `lag` and takes SCRUB out of the pending set, any other value
starts the timer again (R101). -/
def State.judgeScrubStep (s : State) (v : Byte) : Option State :=
  if v = 0 then
    some ((s.setScrubber { s.scrubber with step := 0, stepDue := none, lag := 0 }).setEngine
      { s.engine with scrubPending := false })
  else some (s.setScrubber { s.scrubber with step := v, stepDue := some (s.clock.now + scrubInterval v) })

/-- CE_THRESHOLD: 1 to 15; no entry is changed (R77). -/
def State.judgeThreshold (s : State) (v : Byte) : Option State :=
  if 1 ≤ v.toNat ∧ v.toNat ≤ 15 then some (s.setRemap { s.remap with threshold := v.toNat }) else none

/-- RETIRE_BANK: 0 to 15 (R185). -/
def State.judgeRetireBank (s : State) (v : Byte) : Option State :=
  if v.toNat ≤ 15 then some (s.setLink { s.link with retireBank := Fin.ofNat 16 v.toNat }) else none

/-- RETIRE_ROW: 0 to 8191, low byte first (R185, R188). -/
def State.judgeRetireRow (s : State) (v : Byte × Byte) : Option State :=
  let row := v.1.toNat + 256 * v.2.toNat
  if row ≤ 8191 then some (s.setLink { s.link with retireRow := Fin.ofNat 8192 row }) else none

/-- The number of places in a table of RECORD_SELECT (R187). -/
def tableSize : Fin 4 → Nat
  | 0 => 16
  | 1 => 8
  | 2 => 256
  | 3 => 16

/-- RECORD_SELECT: a table 0 to 3 and an index within it (R187). -/
def State.judgeRecordSelect (s : State) (v : Byte × Byte) : Option State :=
  if v.1.toNat ≤ 3 ∧ v.2.toNat < tableSize (Fin.ofNat 4 v.1.toNat) then
    some (s.setLink { s.link with selectTable := Fin.ofNat 4 v.1.toNat, selectIndex := v.2 })
  else none

/-! ## The commands (R186) -/

/-- RESULT set (R184). -/
def State.setResult (s : State) (r : ResultCode) : State := s.setLink { s.link with result := r }

/-- HOLD (R165, R166): taken in ACTIVE. -/
def State.commandHold (s : State) : ResultCode × State :=
  match s.hold.state with
  | .active => (.done, s.beginEntry)
  | .entering => (.busy, s)
  | .hold => (.busy, s)
  | .waking => (.busy, s)

/-- WAKE (R165, R168, R170): taken in ENTERING and HOLD. -/
def State.commandWake (s : State) : ResultCode × State :=
  match s.hold.state with
  | .active => (.busy, s)
  | .entering => (.done, s.abandonEntry)
  | .hold => (.done, s.startWake)
  | .waking => (.busy, s)

/-- ACK (R180): the causes named in COMMAND_ARG leave the pending set. -/
def State.commandAck (s : State) : ResultCode × State :=
  (.done, s.setAlerts { s.alerts with causes := s.alerts.causes &&& ~~~s.link.commandArg })

/-- CLEAR_ERRORS (R177). -/
def State.commandClearErrors (s : State) : ResultCode × State := (.done, s.setErrors s.errors.cleared)

/-- CLEAR_SUSPECTS (R79). -/
def State.commandClearSuspects (s : State) : ResultCode × State := (.done, s.setRemap s.remap.clearSuspects)

/-- RETIRE on (RETIRE_BANK, RETIRE_ROW), judged in the order of R78; the engine pushes the migration it makes pending, if
a push is due (R36, R41). -/
def State.commandRetire (s : State) : ResultCode × State :=
  let b := s.link.retireBank
  let r := s.link.retireRow
  let now := s.clock.deviceTime
  if s.fillMap.marked b r = false then (.notFilled, s)
  else
    match s.remap.suspect b r with
    | some e =>
      if e.state = .queued then (.already, s)
      else (.done, (s.setRemap (s.remap.queueSuspect b r now id)).engineRun)
    | none =>
      match s.remap.room with
      | some u => (.done, (s.setRemap (u.addSuspect b r 1 (some now))).engineRun)
      | none => (.full, s)

/-- PORT_RESTART (R156, R170): a port reset at the STOP; with RESET_N low it discards nothing more, and only ends HOLD
(log 17). -/
def State.commandPortRestart (s : State) : ResultCode × State :=
  (.done, if s.port.resetN then s.portReset else s.wakeFromHold)

/-- The commands COMMAND can name (R186). -/
inductive LinkCommand
  | hold | wake | ack | clearErrors | clearSuspects | retire | portRestart
deriving DecidableEq, Repr

/-- The code of a command (R186). -/
def LinkCommand.code : LinkCommand → Byte
  | .hold => 0x01
  | .wake => 0x02
  | .ack => 0x03
  | .clearErrors => 0x04
  | .clearSuspects => 0x05
  | .retire => 0x06
  | .portRestart => 0x07

/-- The command a code names, if any (R186). -/
def commandOf (code : Byte) : Option LinkCommand :=
  [.hold, .wake, .ack, .clearErrors, .clearSuspects, .retire, .portRestart].find? fun c => c.code = code

/-- A command carried out, with the code it sets (R186). -/
def State.runCommand (s : State) : LinkCommand → ResultCode × State
  | .hold => s.commandHold
  | .wake => s.commandWake
  | .ack => s.commandAck
  | .clearErrors => s.commandClearErrors
  | .clearSuspects => s.commandClearSuspects
  | .retire => s.commandRetire
  | .portRestart => s.commandPortRestart

/-! ## The STOP (R184) -/

/-- The bytes staged in a transaction with their indexes, the last staged first. -/
abbrev Staged := List (BitVec 6 × Byte)

/-- The byte staged for an index: the last one (R184). -/
def Staged.byteAt (st : Staged) (i : BitVec 6) : Option Byte := (st.find? fun x => decide (x.1 = i)).map Prod.snd

/-- The value staged for a register of two bytes, an unwritten byte at its current value; none where neither byte is
staged (R184). -/
def Staged.pairAt (st : Staged) (i : BitVec 6) (low high : Byte) : Option (Byte × Byte) :=
  if (st.byteAt i).isNone ∧ (st.byteAt (i + 1)).isNone then none
  else some ((st.byteAt i).getD low, (st.byteAt (i + 1)).getD high)

/-- The judging of a STOP so far: the state, whether a register that can be written was written, and whether a setting was
refused. -/
structure Judging where
  state : State
  written : Bool
  refused : Bool

/-- One register judged by its rule, if it was written: a setting taken changes the state, a setting refused keeps it
(R184). -/
def Judging.judge {α : Type} (x : Judging) (value : Option α) (rule : State → α → Option State) : Judging :=
  match value with
  | none => x
  | some v =>
    match rule x.state v with
    | some t => { state := t, written := true, refused := x.refused }
    | none => { state := x.state, written := true, refused := true }

/-- The settings of a transaction judged one by one in ascending order of index (R184, R188). -/
def State.judgeSettings (s : State) (st : Staged) : Judging :=
  let row := s.link.retireRow.val
  let start : Judging := { state := s, written := false, refused := false }
  (((((((((start.judge (st.byteAt 0x03) State.judgeCommandArg).judge
    (st.byteAt 0x05) State.judgeAlertMask).judge
    (st.byteAt 0x06) State.judgeLimitByte).judge
    (st.byteAt 0x07) State.judgeIdleClose).judge
    (st.byteAt 0x08) State.judgeDrainAge).judge
    (st.byteAt 0x09) State.judgeScrubStep).judge
    (st.byteAt 0x0A) State.judgeThreshold).judge
    (st.byteAt 0x10) State.judgeRetireBank).judge
    (st.pairAt 0x11 (byteOf row 0) (byteOf row 1)) State.judgeRetireRow).judge
    (st.pairAt 0x17 (byteOf s.link.selectTable.val 0) s.link.selectIndex) State.judgeRecordSelect

/-- A COMMAND judged after the settings (R184, R186): the code is kept; it is carried out unless a setting was refused or
it names no command. Every refusal of a setting has the code RANGE. -/
def Judging.command (x : Judging) (code : Byte) : State :=
  let t := x.state.setLink { x.state.link with command := code }
  if x.refused then t.setResult .range
  else
    match commandOf code with
    | none => t.setResult .range
    | some c => (t.runCommand c).2.setResult (t.runCommand c).1

/-- The STOP of a transaction: the staged bytes take effect, and RESULT is set once, or not at all where no register that
can be written was written (R184). -/
def State.stop (s : State) (st : Staged) : State :=
  let x := s.judgeSettings st
  match st.byteAt 0x02 with
  | some code => x.command code
  | none => if x.written then x.state.setResult (if x.refused then .range else .done) else x.state

/-! ## A transaction (R181, R183) -/

/-- A transaction so far: the register index, whether its index byte has come, the staged bytes, and the bytes
returned. -/
structure Transfer where
  index : BitVec 6
  named : Bool
  staged : Staged
  out : List Byte

/-- The register index an index byte sets (R181); above 0x3F it is a free value (log 13). -/
def indexOf (b : Byte) : BitVec 6 := if b.toNat < 64 then b.truncate 6 else Config.indexAbove3F b

/-- One byte written: the transaction's first sets the index (log 14), each following one is staged at the index, which
rises by 1 (R181). -/
def Transfer.writeByte (t : Transfer) (b : Byte) : Transfer :=
  if t.named then { t with index := t.index + 1, staged := (t.index, b) :: t.staged }
  else { t with index := indexOf b, named := true }

/-- The bytes after one address byte: written one by one, or read from the capture of the registers, which shows the
values from before the transaction's writes (R181, R183). -/
def Transfer.segment (s : State) (t : Transfer) (g : LinkSegment) : Transfer :=
  match g.body with
  | .write bytes => bytes.foldl Transfer.writeByte t
  | .read n =>
    { t with
      index := t.index + BitVec.ofNat 6 n
      out := t.out ++ (List.range n).map fun k => s.readRegister (t.index + BitVec.ofNat 6 k) }

/-- A whole transaction, from its START to its STOP (R181, R183, R184). What is addressed to another target is
ignored. -/
def State.transaction (s : State) (segments : List LinkSegment) : State :=
  let t :=
    (segments.filter fun g => decide (g.address = s.link.address)).foldl (Transfer.segment s)
      { index := s.link.index, named := false, staged := [], out := [] }
  (s.setLink { s.link with index := t.index, out := t.out }).stop t.staged

/-- A write transaction to this part: its index byte and the bytes after it (log 12). -/
def State.linkWrite (s : State) (index : Byte) (bytes : List Byte) : State :=
  s.transaction [{ address := s.link.address, body := .write (index :: bytes) }]

end Sys2Proof.Machine
end

