-- ==== Sys2Proof/Machine/Commands.lean ====
section
/-! DEFINITION. The meanings of the link's commands, of its settings and of a whole transaction. A row of one command or setting is the write transaction of its register alone (log 12). -/

namespace Sys2Proof.Machine

/-- HOLD (R165). -/
def execHold (s : State) : Host.Outcome State Fault Refusal := whenPowered (fun s => s.linkWrite 0x02 [0x01]) s

/-- WAKE (R165). -/
def execWake (s : State) : Host.Outcome State Fault Refusal := whenPowered (fun s => s.linkWrite 0x02 [0x02]) s

/-- ACK (R180). -/
def execAck (s : State) : Host.Outcome State Fault Refusal := whenPowered (fun s => s.linkWrite 0x02 [0x03]) s

/-- CLEAR_ERRORS (R177). -/
def execClearErrors (s : State) : Host.Outcome State Fault Refusal := whenPowered (fun s => s.linkWrite 0x02 [0x04]) s

/-- CLEAR_SUSPECTS (R79). -/
def execClearSuspects (s : State) : Host.Outcome State Fault Refusal := whenPowered (fun s => s.linkWrite 0x02 [0x05]) s

/-- RETIRE (R78). -/
def execRetire (s : State) : Host.Outcome State Fault Refusal := whenPowered (fun s => s.linkWrite 0x02 [0x06]) s

/-- PORT_RESTART (R156). -/
def execPortRestart (s : State) : Host.Outcome State Fault Refusal := whenPowered (fun s => s.linkWrite 0x02 [0x07]) s

/-- LIMIT (R67). -/
def execLimit (v : Byte) (s : State) : Host.Outcome State Fault Refusal := whenPowered (fun s => s.linkWrite 0x06 [v]) s

/-- IDLE_CLOSE (R8). -/
def execIdleClose (v : Byte) (s : State) : Host.Outcome State Fault Refusal :=
  whenPowered (fun s => s.linkWrite 0x07 [v]) s

/-- DRAIN_AGE (R130). -/
def execDrainAge (v : Byte) (s : State) : Host.Outcome State Fault Refusal :=
  whenPowered (fun s => s.linkWrite 0x08 [v]) s

/-- SCRUB_STEP (R101). -/
def execScrubStep (v : Byte) (s : State) : Host.Outcome State Fault Refusal :=
  whenPowered (fun s => s.linkWrite 0x09 [v]) s

/-- CE_THRESHOLD (R77). -/
def execCeThreshold (v : Byte) (s : State) : Host.Outcome State Fault Refusal :=
  whenPowered (fun s => s.linkWrite 0x0A [v]) s

/-- ALERT_MASK (R179). -/
def execAlertMask (v : Byte) (s : State) : Host.Outcome State Fault Refusal :=
  whenPowered (fun s => s.linkWrite 0x05 [v]) s

/-- RECORD_SELECT (R187). -/
def execRecordSelect (table index : Byte) (s : State) : Host.Outcome State Fault Refusal :=
  whenPowered (fun s => s.linkWrite 0x17 [table, index]) s

/-- REGISTER_WRITE (R184). -/
def execRegisterWrite (segments : List LinkSegment) (s : State) : Host.Outcome State Fault Refusal :=
  whenPowered (fun s => s.transaction segments) s

end Sys2Proof.Machine
end

