-- ==== Sys2Proof/Machine/Completions.lean ====
section
/-! DEFINITION. The meanings of the completions of array operations. -/

namespace Sys2Proof.Machine

/-- The decode outcomes of a group or a drain reported by a requester that tallies its rows, lowest word first (R106,
R134). -/
def State.reportAll (s : State) (source : ErrorSource) (b : Bank) (r : LogicalRow) (p : PhysicalRow)
    (ds : List (WordInRow × Decoded)) : State :=
  ds.foldl (fun s x => s.reportWord source b r p x.1 x.2.outcome) s

/-- A LINE-READ on bank `b`, in row `p`, completes (R151, R152): the channel is released, the beats are assembled and
offered to the head that waits for them, and the words are reported; a push that the reports make due is made. -/
def State.completeRead (s : State) (b : Bank) (p : PhysicalRow) (line : Line) (words : List ReadWord) (wanted : Bool) :
    State :=
  let ds := s.readDecodes line p words
  let t := s.release b
  let t := if wanted then t.answerRead ds else t
  (t.reportRead line p ds).engineRun

/-- The LINE-READ in flight completes, if its completion can come (R12). -/
def State.lineReadEnds (s : State) : State :=
  match s.ready with
  | some (op, b) =>
    match op.work, op.rows with
    | .lineRead line words wanted, p :: _ => s.completeRead b p line words wanted
    | _, _ => s
  | none => s

/-- LINE_READ_COMPLETE (R151). -/
def execLineReadComplete (s : State) : Host.Outcome State Fault Refusal := whenPowered State.lineReadEnds s

/-- Some of the words written is a poison word (R135). -/
def anyPoison (ws : List (WordInRow × StoredWord)) : Bool := ws.any fun x => x.2.poison

/-- Steps 2 to 4 of R135 on the buffer, for the DRAINING entry `e`, whose `poison_written` is clear until now: with a
FLUSH at the head, a marked entry whose drain wrote poison sets `flush_poison` (R139); the entry is removed. -/
def WriteBuffer.drained (w : WriteBuffer) (e : BufferEntry) (poison flushAtHead : Bool) : WriteBuffer :=
  { w with
    entries := w.entries.filter fun x => decide (x.state ≠ .draining)
    flushPoison := w.flushPoison || (e.flushMark && flushAtHead && (e.poisonWritten || poison)) }

/-- A drain of entry `e` on bank `b`, visiting `rows` from `p` on, completes, in the order of R135: the words are written
to every row visited (R131 to R133), the reports are made (R134), the entry leaves the buffer, a waiting write is
allocated, the next due entry is chosen, and a FLUSH is answered (R140). A push that the reports make due is made after
them, and an emptied buffer may bring a close-all request (R166). -/
def State.completeDrain (s : State) (b : Bank) (p : PhysicalRow) (rows : List PhysicalRow) (e : BufferEntry) : State :=
  let ds := s.drainReads e p
  let ws := s.drainWrites e p
  let t := (s.release b).writeRows b rows ws
  let t := t.reportAll .drain b (lineRow e.line) p ds
  let t := t.setBuffer (t.buffer.drained e (anyPoison ws) (decide (t.port.queue.head? = some .flush)))
  t.serveWaiting.chooseEntry.finishFlush.engineRun.furtherCloseAll

/-- The work is a drain, LINE-WRITE or LINE-MERGE (R14). -/
def Work.isLineDrain : Work → Bool
  | .lineRead _ _ _ => false
  | .lineWrite _ => true
  | .lineMerge _ => true
  | .rowFill _ => false
  | .scrubStep _ => false
  | .migrateStep _ => false
  | .fillStep _ => false
  | .refresh => false
  | .sense => false

/-- The drain in flight completes, if its completion can come (R12). -/
def State.drainEnds (s : State) : State :=
  match s.ready with
  | some (op, b) =>
    match op.rows, s.buffer.draining with
    | p :: _, some e => if op.work.isLineDrain then s.completeDrain b p op.rows e else s
    | _, _ => s
  | none => s

/-- DRAIN_COMPLETE (R135). -/
def execDrainComplete (s : State) : Host.Outcome State Fault Refusal := whenPowered State.drainEnds s

/-- A ROW-FILL of the row of `line`, on bank `b` in row `p`, completes (R121): all 128 words are zero, the mark is set
(R113), and a FILL job that is the running top leaves a row so marked (R118). -/
def State.completeRowFill (s : State) (b : Bank) (p : PhysicalRow) (line : Line) : State :=
  (((s.release b).writeWords b p (zeroWords rowWords)).markRow (sweepIndex (lineBank line) (lineRow line))).engineRun

/-- The ROW-FILL in flight completes, if its completion can come (R12). -/
def State.rowFillEnds (s : State) : State :=
  match s.ready with
  | some (op, b) =>
    match op.work, op.rows with
    | .rowFill line, p :: _ => s.completeRowFill b p line
    | _, _ => s
  | none => s

/-- ROW_FILL_COMPLETE (R121). -/
def execRowFillComplete (s : State) : Host.Outcome State Fault Refusal := whenPowered State.rowFillEnds s

/-- The FILL job's advance at the completion of a step (R117): `next_group` rises; at 8 the row is marked, and the job
moves to the next clear index or is complete. -/
def State.advanceFill (s : State) : State :=
  match s.engine.stack with
  | .fill i g :: rest => if g + 1 < 8 then s.setStack (.fill i (g + 1) :: rest) else (s.markRow i).fillForward i rest
  | _ => s

/-- A fill step on group `g`, on bank `b` in row `p`, completes (R116, R117). -/
def State.completeFillStep (s : State) (b : Bank) (p : PhysicalRow) (g : Nat) : State :=
  (((s.release b).writeWords b p (zeroWords (groupWords g))).advanceFill).engineRun.furtherCloseAll

/-- The fill step in flight completes, if its completion can come (R12). -/
def State.fillStepEnds (s : State) : State :=
  match s.ready with
  | some (op, b) =>
    match op.work, op.rows with
    | .fillStep g, p :: _ => s.completeFillStep b p g
    | _, _ => s
  | none => s

/-- FILL_STEP_COMPLETE (R117). -/
def execFillStepComplete (s : State) : Host.Outcome State Fault Refusal := whenPowered State.fillStepEnds s

/-- The number of words decoded CORRECTED (R44, R106). -/
def countCorrected (ds : List (WordInRow × Decoded)) : Nat :=
  ds.countP fun x => decide (x.2.outcome = .corrected)

/-- The SCRUB job's advance at the completion of a step (R106, R107): `next_group` and `corrections` rise; at 8 the row is
complete and the job is popped. -/
def State.advanceScrub (s : State) (corrected : Nat) : State :=
  match s.engine.stack with
  | .scrub b r g c :: rest =>
    if g + 1 < 8 then s.setStack (.scrub b r (g + 1) (c + corrected) :: rest)
    else (s.setStack rest).scrubRowDone (c + corrected)
  | _ => s

/-- A scrub step on group `g` of a logical row, on bank `b`, visiting `rows` from `p` on, completes: the words are written
back to every row visited (R105), the 16 outcomes reported (R106), and the context advanced. -/
def State.completeScrubStep (s : State) (b : Bank) (r : LogicalRow) (p : PhysicalRow) (rows : List PhysicalRow)
    (g : Nat) : State :=
  let ds := s.groupDecodes b p g
  let t := (s.release b).writeRows b rows (scrubWrites ds)
  (((t.reportAll .scrub b r p ds).advanceScrub (countCorrected ds)).engineRun).furtherCloseAll

/-- The scrub step in flight completes, if its completion can come (R12). -/
def State.scrubGroupEnds (s : State) : State :=
  match s.ready with
  | some (op, b) =>
    match op.work, op.rows, op.logicalRow with
    | .scrubStep g, p :: _, some r => s.completeScrubStep b r p op.rows g
    | _, _, _ => s
  | none => s

/-- SCRUB_GROUP_STEP_COMPLETE (R106). -/
def execScrubGroupStepComplete (s : State) : Host.Outcome State Fault Refusal := whenPowered State.scrubGroupEnds s

/-- The MIGRATE job's advance at the completion of a step (R88, R93): `cursor` rises in the remap entry and in the
context; at 8 the migration completes and the job is popped. -/
def State.advanceMigrate (s : State) : State :=
  match s.engine.stack with
  | .migrate b r i c :: rest =>
    let t := s.setRemap (s.remap.advance b i)
    if c + 1 < 8 then t.setStack (.migrate b r i (c + 1) :: rest)
    else (t.setRemap (t.remap.complete b r i)).setStack rest
  | _ => s

/-- The reports of a migration step, in order of word (R89). -/
def State.reportMigration (s : State) (b : Bank) (p : PhysicalRow) (ds : List (WordInRow × Decoded)) : State :=
  ds.foldl (fun s x => s.reportMigrated b p x.1 x.2.outcome) s

/-- A migration step on group `g`, on bank `b` from source row `p` to target row `q`, completes (R88, R89). -/
def State.completeMigrateStep (s : State) (b : Bank) (p q : PhysicalRow) (g : Nat) : State :=
  let ds := s.groupDecodes b p g
  let t := (s.release b).writeWords b q (migrateWrites ds)
  ((t.reportMigration b p ds).advanceMigrate.engineRun).furtherCloseAll

/-- The migration step in flight completes, if its completion can come (R12). -/
def State.migrateStepEnds (s : State) : State :=
  match s.ready with
  | some (op, b) =>
    match op.work, op.rows with
    | .migrateStep g, p :: q :: _ => s.completeMigrateStep b p q g
    | _, _ => s
  | none => s

/-- MIGRATE_STEP_COMPLETE (R88). -/
def execMigrateStepComplete (s : State) : Host.Outcome State Fault Refusal := whenPowered State.migrateStepEnds s

end Sys2Proof.Machine
end

