-- ==== Sys2Proof/Machine/Power.lean ====
section
/-! DEFINITION. The meanings of the events on PWRGOOD and RESET_N. -/

namespace Sys2Proof.Machine

/-- POWER_ON_RESET (R182): every block takes its initial state, and the link samples LADDR (R181). The level of RESET_N
and the commands that wait are outside the part (log 10). -/
def execPowerOnReset (laddr : BitVec 2) (s : State) : Host.Outcome State Fault Refusal :=
  let t := State.initial laddr
  .next ((t.setPort { t.port with resetN := s.port.resetN }).setPending s.pending)

/-- POWER_LOSS (R182): the part loses its state; SA and SR are low, ALERT_N and SDA are released. What stands in the
fields while PWRGOOD is low has no meaning, and nothing reads it (log 11). -/
def execPowerLoss (s : State) : Host.Outcome State Fault Refusal :=
  let t := { State.initial 0 with powered := false }
  .next ((t.setPort { t.port with resetN := s.port.resetN }).setPending s.pending)

/-- RESET_N_FALL (R156): a port reset begins. -/
def execResetNFall (s : State) : Host.Outcome State Fault Refusal :=
  if s.port.resetN then
    let t := s.setPort { s.port with resetN := false }
    .next (if s.powered then t.portReset else t)
  else .next s

/-- RESET_N_RISE (R156): the port accepts again under R146; the hold state is not changed (R171). -/
def execResetNRise (s : State) : Host.Outcome State Fault Refusal :=
  .next (s.setPort { s.port with resetN := true })

end Sys2Proof.Machine
end

