-- ==== Sys2Proof/Machine/Requests.lean ====
section
/-! DEFINITION. The meanings of the events on SQ and SRT, and of acceptance. -/

namespace Sys2Proof.Machine

/-- The pins at an offer (R146): SQ raised offers the request; SQ still high goes on offering the request it offers, and
none after an acceptance. -/
def SystemPort.offered (p : SystemPort) (r : Request) : SystemPort :=
  if p.sq then p else { p with sq := true, offer := some r }

/-- An offer on SQ (R146, R147): with RESET_N low it is not seen; an offer seen in ENTERING abandons hold entry and in
HOLD starts the wake. -/
def State.offer (s : State) (r : Request) : State :=
  let t := s.setPort (s.port.offered r)
  if t.port.resetN = true ∧ t.port.offer.isSome = true then t.offerSeen else t

/-- REQUEST_OFFER (R147). -/
def execRequestOffer (r : Request) (s : State) : Host.Outcome State Fault Refusal := whenPowered (fun s => s.offer r) s

/-- The acceptance of the offered request, if its moment is come, and the choice of an entry that its service may make due
(R130, R146, R148). -/
def State.acceptOffer (s : State) : State :=
  match s.canAccept with
  | some r => (s.accept r).chooseEntry
  | none => s

/-- REQUEST_ACCEPT (R146). -/
def execRequestAccept (s : State) : Host.Outcome State Fault Refusal := whenPowered State.acceptOffer s

/-- SQ falls (R146): an unaccepted request is withdrawn, and SA falls. -/
def State.lowerSq (s : State) : State := s.setPort { s.port with sq := false, offer := none, sa := false }

/-- SQ_LOWERED (R146). -/
def execSqLowered (s : State) : Host.Outcome State Fault Refusal := whenPowered State.lowerSq s

/-- SRT is seen high (R149): while SR offers a response, it is taken; the next head's service may make an entry due
(R130), and an emptied queue may bring a close-all request (R166). -/
def State.takeOffered (s : State) : State :=
  if s.port.sr then s.takeResponse.chooseEntry.furtherCloseAll else s

/-- RESPONSE_TAKEN (R149). -/
def execResponseTaken (s : State) : Host.Outcome State Fault Refusal := whenPowered State.takeOffered s

end Sys2Proof.Machine
end

