-- ==== Sys2Proof/Machine/Timers.lean ====
section
/-! DEFINITION. The meanings of the timers: refresh intervals, the thermal poll and its SENSE, the scrub step timer, the drain age, the end of the wake, hold entry's last condition, and device time. -/

namespace Sys2Proof.Machine

/-- The interval of bank `b` ends (R54): its balance falls by 1, a full interval begins, and a claim that becomes URGENT
asks for its close (R20). -/
def State.intervalEnds (s : State) (b : Bank) : State :=
  let r := s.balanceOf b
  ((s.moveTo r.due).setBalanceOf b (r.expired s.thermal.band)).urgentClose b

/-- INTERVAL_EXPIRY (R54). -/
def execIntervalExpiry (b : Bank) (s : State) : Host.Outcome State Fault Refusal :=
  whenPowered (fun s => s.intervalEnds b) s

/-- The poll timer expires (R34): THERMAL_POLL becomes pending, and the next period of 32 ms begins. -/
def State.pollEnds (s : State) : State :=
  (s.moveTo s.engine.pollDue).setEngine
    { s.engine with thermalPollPending := true, pollDue := s.engine.pollDue + Config.pollPeriod }

/-- POLL_TIMER_EXPIRY (R34). -/
def execPollTimerExpiry (s : State) : Host.Outcome State Fault Refusal := whenPowered State.pollEnds s

/-- A reading is taken by the Thermal Monitor (R160, R162). -/
def State.takeReading (s : State) (reading : Int) (parityGood : Bool) : State :=
  if parityGood then s.goodReading reading else s.badReading

/-- T_SENSE ends (R12, R159): the channel is released and the reading is handed over. -/
def State.senseEnds (s : State) (reading : Int) (parityGood : Bool) : State :=
  match s.channel with
  | some op =>
    if op.work = .sense then
      ((s.moveTo (op.grantedAt + Config.tSense)).setChannel none).takeReading reading parityGood
    else s
  | none => s

/-- T_SENSE_EXPIRY (R159). -/
def execTSenseExpiry (reading : Int) (parityGood : Bool) (s : State) : Host.Outcome State Fault Refusal :=
  whenPowered (fun s => s.senseEnds reading parityGood) s

/-- The scrub step timer expires, if it runs (R100): the next interval begins, and SCRUB becomes pending, which may push
its job (R41), or `lag` rises. -/
def State.scrubStepEnds (s : State) : State :=
  match s.scrubber.stepDue with
  | some t =>
    let u := s.moveTo t
    (u.setScrubber { u.scrubber with stepDue := some (t + scrubInterval u.scrubber.step) }).scrubExpiry.engineRun
  | none => s

/-- SCRUB_STEP_TIMER_EXPIRY (R100). -/
def execScrubStepTimerExpiry (s : State) : Host.Outcome State Fault Refusal := whenPowered State.scrubStepEnds s

/-- The FILLING entry of a line reaches its drain age (R129): it becomes due, and an entry is chosen if none is DRAINING
(R130). -/
def State.drainAgeEnds (s : State) (line : Line) : State :=
  match s.buffer.filling line with
  | some e => if e.ageDue then s else ((s.moveTo (e.born + s.buffer.age)).expireAge).chooseEntry
  | none => s

/-- DRAIN_AGE_REACHED (R129). -/
def execDrainAgeReached (line : Line) (s : State) : Host.Outcome State Fault Refusal :=
  whenPowered (fun s => s.drainAgeEnds line) s

/-- The five entry conditions hold in ENTERING (R166): the state becomes HOLD, and HOLD_ENTERED is raised. -/
def State.enterHold (s : State) : State :=
  if s.hold.state = .entering ∧ s.entryReady = true ∧ s.rowsClosed = true then
    (s.setHold { s.hold with state := .hold }).raise .holdEntered
  else s

/-- HOLD_ENTER (R166). -/
def execHoldEnter (s : State) : Host.Outcome State Fault Refusal := whenPowered State.enterHold s

/-- T_WAKE ends (R170): the state becomes ACTIVE. -/
def State.wakeEnds (s : State) : State :=
  match s.hold.state, s.hold.wakeEnd with
  | .waking, some t => (s.moveTo t).setHold { state := .active, wakeEnd := none }
  | _, _ => s

/-- T_WAKE_EXPIRY (R170). -/
def execTWakeExpiry (s : State) : Host.Outcome State Fault Refusal := whenPowered State.wakeEnds s

/-- A whole millisecond has passed (R173). -/
def State.millisecondEnds (s : State) : State :=
  let t := s.moveTo s.clock.nextMs
  t.setClock
    { t.clock with deviceTime := s.clock.deviceTime + 1, nextMs := s.clock.nextMs + Config.millisecond }

/-- DEVICE_TIME_TICK (R173). -/
def execDeviceTimeTick (s : State) : Host.Outcome State Fault Refusal := whenPowered State.millisecondEnds s

end Sys2Proof.Machine
end

