-- ==== Sys2Proof/Machine/Windows.lean ====
section
/-! DEFINITION. The meanings of the array channel's grant and of the bank windows' expiries. -/

namespace Sys2Proof.Machine

/-- A grant of the channel, if it is FREE and an eligible claim waits (R17). The bit changes are those the array has
suffered before this operation (R26, log 6). -/
def State.grantNext (s : State) (changes : List BitChange) : State :=
  match s.channel, s.pickClaim with
  | none, some c => (s.changeAll changes).grant c
  | _, _ => s

/-- CHANNEL_GRANT (R17). -/
def execChannelGrant (changes : List BitChange) (s : State) : Host.Outcome State Fault Refusal :=
  whenPowered (fun s => s.grantNext changes) s

/-- `s` at the end of the window that runs on bank `b`. -/
def State.atWindowEnd (s : State) (b : Bank) : State :=
  match (s.bank b).windowEnd with
  | some t => s.moveTo t
  | none => s

/-- The bank is OPEN on the row it has been opening (R6). -/
def BankRecord.openedRow (r : BankRecord) : BankRecord := { r with state := .opened, windowEnd := none }

/-- T_OPEN ends on bank `b` (R6): the bank is OPEN, and the operation accesses its words or goes on to its next row; the
open row may bring a close-all request (R166). -/
def State.tOpenEnds (s : State) (b : Bank) : State :=
  if (s.bank b).state = .opening then
    let t := s.atWindowEnd b
    ((t.setBank b (t.bank b).openedRow).progressOn b).furtherCloseAll
  else s

/-- T_OPEN_EXPIRY (R6). -/
def execTOpenExpiry (b : Bank) (s : State) : Host.Outcome State Fault Refusal :=
  whenPowered (fun s => s.tOpenEnds b) s

/-- T_MINOPEN ends on bank `b`, where a close waits for it (R7, R9, R10): the row change or REFRESH of the operation that
has the bank in use issues its close, and otherwise the held close is issued. -/
def State.tMinOpenEnds (s : State) (b : Bank) : State :=
  if s.closeWaits b then
    let t :=
      match (s.bank b).openedAt with
      | some o => s.moveTo (o + Config.tMinOpen)
      | none => s
    if s.inUse b then t.progress else t.setBank b (.closingFrom t.clock.now)
  else s

/-- T_MINOPEN_EXPIRY (R7). -/
def execTMinOpenExpiry (b : Bank) (s : State) : Host.Outcome State Fault Refusal :=
  whenPowered (fun s => s.tMinOpenEnds b) s

/-- T_CLOSE ends on bank `b` (R7): the bank is CLOSED, and an operation that waits for it opens its row or issues its
refresh (R6, R9, R10); the row it opens, or the bank it finds CLOSED, may bring closes (R11, R166). -/
def State.tCloseEnds (s : State) (b : Bank) : State :=
  if (s.bank b).state = .closing then
    ((((s.atWindowEnd b).setBank b .initial).progressOn b).urgentClose b).furtherCloseAll
  else s

/-- T_CLOSE_EXPIRY (R7). -/
def execTCloseExpiry (b : Bank) (s : State) : Host.Outcome State Fault Refusal :=
  whenPowered (fun s => s.tCloseEnds b) s

/-- The idle window of bank `b` ends (R8): a close of cause IDLE is asked for. -/
def State.tIdleEnds (s : State) (b : Bank) : State :=
  match s.idleFrom b with
  | some t => (s.moveTo (t + s.bankEngine.tIdle)).askClose .idle b
  | none => s

/-- T_IDLE_EXPIRY (R8). -/
def execTIdleExpiry (b : Bank) (s : State) : Host.Outcome State Fault Refusal :=
  whenPowered (fun s => s.tIdleEnds b) s

/-- T_RF ends on bank `b` (R10, R57): the bank is CLOSED, and Refresh Accounting counts the completed refresh; a debt
repaid may bring a close-all request (R166). -/
def State.tRfEnds (s : State) (b : Bank) : State :=
  if (s.bank b).state = .refreshing then
    let t := (s.atWindowEnd b).setBank b .initial
    (t.setBalanceOf b ((t.balanceOf b).completed t.leff)).furtherCloseAll
  else s

/-- T_RF_EXPIRY (R10). -/
def execTRfExpiry (b : Bank) (s : State) : Host.Outcome State Fault Refusal :=
  whenPowered (fun s => s.tRfEnds b) s

end Sys2Proof.Machine
end

