-- ==== Sys2Proof/Machine/Dispatch.lean ====
section
/-! DEFINITION. The meaning of each command: one arm per row of spec/opcode_table.json. -/

namespace Sys2Proof.Machine

def exec (i : Instr) (s : State) : Host.Outcome State Fault Refusal :=
  match i with
  | .powerOnReset laddr => Sys2Proof.Machine.execPowerOnReset laddr s
  | .powerLoss => Sys2Proof.Machine.execPowerLoss s
  | .resetNFall => Sys2Proof.Machine.execResetNFall s
  | .resetNRise => Sys2Proof.Machine.execResetNRise s
  | .requestOffer request => Sys2Proof.Machine.execRequestOffer request s
  | .requestAccept => Sys2Proof.Machine.execRequestAccept s
  | .sqLowered => Sys2Proof.Machine.execSqLowered s
  | .responseTaken => Sys2Proof.Machine.execResponseTaken s
  | .channelGrant changes => Sys2Proof.Machine.execChannelGrant changes s
  | .tOpenExpiry bank => Sys2Proof.Machine.execTOpenExpiry bank s
  | .tMinOpenExpiry bank => Sys2Proof.Machine.execTMinOpenExpiry bank s
  | .tCloseExpiry bank => Sys2Proof.Machine.execTCloseExpiry bank s
  | .tIdleExpiry bank => Sys2Proof.Machine.execTIdleExpiry bank s
  | .tRfExpiry bank => Sys2Proof.Machine.execTRfExpiry bank s
  | .intervalExpiry bank => Sys2Proof.Machine.execIntervalExpiry bank s
  | .pollTimerExpiry => Sys2Proof.Machine.execPollTimerExpiry s
  | .tSenseExpiry reading parityGood => Sys2Proof.Machine.execTSenseExpiry reading parityGood s
  | .scrubStepTimerExpiry => Sys2Proof.Machine.execScrubStepTimerExpiry s
  | .drainAgeReached line => Sys2Proof.Machine.execDrainAgeReached line s
  | .lineReadComplete => Sys2Proof.Machine.execLineReadComplete s
  | .drainComplete => Sys2Proof.Machine.execDrainComplete s
  | .rowFillComplete => Sys2Proof.Machine.execRowFillComplete s
  | .fillStepComplete => Sys2Proof.Machine.execFillStepComplete s
  | .scrubGroupStepComplete => Sys2Proof.Machine.execScrubGroupStepComplete s
  | .migrateStepComplete => Sys2Proof.Machine.execMigrateStepComplete s
  | .holdEnter => Sys2Proof.Machine.execHoldEnter s
  | .tWakeExpiry => Sys2Proof.Machine.execTWakeExpiry s
  | .hold => Sys2Proof.Machine.execHold s
  | .wake => Sys2Proof.Machine.execWake s
  | .ack => Sys2Proof.Machine.execAck s
  | .clearErrors => Sys2Proof.Machine.execClearErrors s
  | .clearSuspects => Sys2Proof.Machine.execClearSuspects s
  | .retire => Sys2Proof.Machine.execRetire s
  | .portRestart => Sys2Proof.Machine.execPortRestart s
  | .limit value => Sys2Proof.Machine.execLimit value s
  | .idleClose value => Sys2Proof.Machine.execIdleClose value s
  | .drainAge value => Sys2Proof.Machine.execDrainAge value s
  | .scrubStep value => Sys2Proof.Machine.execScrubStep value s
  | .ceThreshold value => Sys2Proof.Machine.execCeThreshold value s
  | .alertMask value => Sys2Proof.Machine.execAlertMask value s
  | .recordSelect table index => Sys2Proof.Machine.execRecordSelect table index s
  | .registerWrite segments => Sys2Proof.Machine.execRegisterWrite segments s
  | .deviceTimeTick => Sys2Proof.Machine.execDeviceTimeTick s

end Sys2Proof.Machine
end

