-- ==== Sys2Proof/Machine/Step.lean ====
section
/-! DEFINITION. One step of the block: the command at the front of its queue, or half a nanosecond of time on an empty queue; and the placing of a command spelled by a word. -/

namespace Sys2Proof.Machine

/-- One step (log 20): the command at the front of the queue is taken and executed with the queue's rest; on an empty
queue time passes. -/
def step (s : State) : Host.Outcome State Fault Refusal :=
  match s.pending with
  | [] => .next (if s.powered then s.idle else s)
  | c :: rest => exec c (s.setPending rest)

/-- `s` with the command that a word spells put at the front of its queue. The opcode table gives no bits, so no word
spells one (log 20). -/
def State.withFetchWord (s : State) (nbits w : Nat) : State :=
  match decodeTableWord nbits w with
  | some c => s.setPending (c :: s.pending)
  | none => s

end Sys2Proof.Machine
end

