-- ==== Sys2Proof/Safety.lean ====
section
/-! DEFINITION. What statements are made of: which blocks two states share, the claims that stand, and the invariants of the machine. -/

namespace Sys2Proof.Machine

/-! ## Frames -/

/-- The parts of the state, one for each field but the queue of commands. -/
inductive Block
  | powered | clock | bankEngine | channel | array | refresh | engine | remap | scrubber | fillMap | buffer | port
  | thermal | hold | errors | alerts | link
deriving DecidableEq, Repr

/-- Two states hold the same in a block. -/
def Block.agrees (s t : State) : Block → Prop
  | .powered => t.powered = s.powered
  | .clock => t.clock = s.clock
  | .bankEngine => t.bankEngine = s.bankEngine
  | .channel => t.channel = s.channel
  | .array => t.array = s.array
  | .refresh => t.refresh = s.refresh
  | .engine => t.engine = s.engine
  | .remap => t.remap = s.remap
  | .scrubber => t.scrubber = s.scrubber
  | .fillMap => t.fillMap = s.fillMap
  | .buffer => t.buffer = s.buffer
  | .port => t.port = s.port
  | .thermal => t.thermal = s.thermal
  | .hold => t.hold = s.hold
  | .errors => t.errors = s.errors
  | .alerts => t.alerts = s.alerts
  | .link => t.link = s.link

/-- `t` is `s` but for the blocks listed: every other block, and the queue of commands, holds the same. -/
def SameBut (blocks : List Block) (s t : State) : Prop :=
  t.pending = s.pending ∧ ∀ k, k ∉ blocks → k.agrees s t

/-- Every word of the array reads in `t` as in `s`, but for those that `written` names. -/
def WordsSameBut (written : Bank → PhysicalRow → WordInRow → Prop) (s t : State) : Prop :=
  ∀ b p w, ¬ written b p w → t.word b p w = s.word b p w

/-- Every bank record is as it was, but for that of bank `b`, and so is IDLE_CLOSE. -/
def BanksSameBut (b : Bank) (s t : State) : Prop :=
  t.bankEngine.idleClose = s.bankEngine.idleClose ∧ ∀ c, c ≠ b → t.bank c = s.bank c

/-- Every balance record is as it was, but for that of bank `b`, and so is LIMIT. -/
def BalancesSameBut (b : Bank) (s t : State) : Prop :=
  t.refresh.limit = s.refresh.limit ∧ ∀ c, c ≠ b → t.balanceOf c = s.balanceOf c

/-- Byte `i` of a value of whole bytes, its bits 8i to 8i + 7. -/
def byteIn {n : Nat} (x : BitVec n) (i : Nat) : Byte := x.extractLsb' (8 * i) 8

/-- The number that bytes hold, the least significant first (R188). -/
def numberOf (bytes : List Byte) : Nat := bytes.foldr (fun x n => x.toNat + 256 * n) 0

/-- Byte `i` of its line is a byte of one of the request's beats (R125, R144, R150). -/
def needsByte (a : BeatAddress) (n : BeatCount) (i : Nat) : Prop := ∃ k, k < n.toNat ∧ i / 4 = lineBeat a k

/-- `u` is `s` after what a port reset discards (R142, R156): the intake queue with its head and response, the FILLING
entries, the flush marks and `flush_poison`; SA is low, and a LINE-READ in flight is wanted no more. -/
def PortResetLeaves (s u : State) : Prop :=
  SameBut [.port, .buffer, .channel] s u ∧
  u.port.sq = s.port.sq ∧ u.port.offer = s.port.offer ∧ u.port.sa = false ∧ u.port.queue = [] ∧ u.port.stage = none ∧
  u.buffer.entries =
    ((s.buffer.entries.filter fun e => e.state = .draining).map fun e => { e with flushMark := false }) ∧
  u.buffer.flushPoison = false ∧ u.buffer.drainAge = s.buffer.drainAge ∧
  (∀ op line words wanted, s.channel = some op → op.work = .lineRead line words wanted →
    u.channel = some { op with work := .lineRead line words false }) ∧
  ((∀ op line words wanted, s.channel = some op → op.work ≠ .lineRead line words wanted) → u.channel = s.channel)

/-- The operation of kind `work` holds the channel, its bank `b` is OPEN on the last row `q` it visits, and so its
completion can come (R12). -/
def State.finishing (s : State) (op : Operation) (b : Bank) (q : PhysicalRow) : Prop :=
  s.powered = true ∧ s.channel = some op ∧ op.bank = some b ∧ op.rowsLeft = [q] ∧ (s.bank b).state = .opened ∧
  (s.bank b).row = some q

/-- `u` is `s` with the channel released at the completion of the operation on bank `b` (R12), and what else changes
lies in `blocks`. -/
def State.released (s : State) (b : Bank) (blocks : List Block) (u : State) : Prop :=
  SameBut (.bankEngine :: .channel :: blocks) s u ∧ u.channel = none ∧ BanksSameBut b s u ∧
  u.bank b = (s.bank b).completed s.bankEngine.idleClose s.clock.now

/-- `s` after the bytes of a write transaction that left the register index at `i`: nothing read, nothing judged yet
(R181). -/
def State.linkAt (s : State) (i : BitVec 6) : State := s.setLink { s.link with index := i, out := [] }

/-- `s` with the code of a command kept in COMMAND (R186). -/
def State.commandNoted (s : State) (code : Byte) : State := s.setLink { s.link with command := code }

/-- `s` after the STOP of a transaction that wrote one setting alone, judged to `t`: the setting taken, with DONE, or
refused, with RANGE (R184). -/
def State.settled (s : State) : Option State → State
  | some t => t.setResult .done
  | none => s.setResult .range

/-! ## Claims -/

/-- The claim stands (R15): SENSE, the head's READ, the drain or its ROW-FILL, the top's step, or a bank's refresh. -/
def State.stands (s : State) (c : Claim) : Prop :=
  s.senseClaim = some c ∨ s.readClaim = some c ∨ s.drainClaim = some c ∨ s.stepClaim = some c ∨
    ∃ b kind, s.claimOf b = some kind ∧
      c = { level := kind.level, bank := some b, logicalRow := none, work := .refresh }

/-- The claim a bank presents is the one R59 gives for its balance. -/
def State.claimFollows (s : State) (b : Bank) : Prop :=
  (s.claimOf b = some .urgent ↔ (s.balanceOf b).balance ≤ -(s.leff : Int)) ∧
  (s.claimOf b = some .due ↔ -(s.leff : Int) < (s.balanceOf b).balance ∧ (s.balanceOf b).balance < 0) ∧
  (s.claimOf b = some .pullIn ↔
    -(s.leff : Int) < (s.balanceOf b).balance ∧ 0 ≤ (s.balanceOf b).balance ∧ (s.balanceOf b).balance < s.leff ∧
      s.gateOpen = true)

/-- The factor of R63's table, from one band to another. -/
def bandRatio : Band → Band → Time
  | .cool, .cool => 1
  | .cool, .normal => 1 / 2
  | .cool, .warm => 1 / 4
  | .cool, .hot => 1 / 8
  | .cool, .critical => 1 / 8
  | .normal, .cool => 2
  | .normal, .normal => 1
  | .normal, .warm => 1 / 2
  | .normal, .hot => 1 / 4
  | .normal, .critical => 1 / 4
  | .warm, .cool => 4
  | .warm, .normal => 2
  | .warm, .warm => 1
  | .warm, .hot => 1 / 2
  | .warm, .critical => 1 / 2
  | .hot, .cool => 8
  | .hot, .normal => 4
  | .hot, .warm => 2
  | .hot, .hot => 1
  | .hot, .critical => 1
  | .critical, .cool => 8
  | .critical, .normal => 4
  | .critical, .warm => 2
  | .critical, .hot => 1
  | .critical, .critical => 1

/-! ## Invariants -/

/-- The array's memory has its canonical form. -/
def State.memoryOk (s : State) : Prop := s.array.wf = true

/-- Every list keeps its size: intake queue 12 (R148), write buffer 8 (R124), suspect list 8 (R72), error table 16
(R174). -/
def State.sizesOk (s : State) : Prop :=
  s.port.queue.length ≤ 12 ∧ s.buffer.entries.length ≤ 8 ∧ s.remap.suspects.length ≤ 8 ∧ s.errors.records.length ≤ 16

/-- Each job of the stack is of higher level than every job beneath it, so there is at most one of each class (R39). -/
def State.stackOk (s : State) : Prop := s.engine.stack.Pairwise fun above below => above.level < below.level

/-- Fill done is set exactly when all 131,072 marks are (R112, R114). -/
def State.fillOk (s : State) : Prop := s.fillMap.done = true ↔ ∀ i : SweepIndex, s.fillMap.marks.getLsbD i.val = true

/-- LIMIT is in its range, and no balance is above +L_eff, the upper half of R53. -/
def State.balancesOk (s : State) : Prop :=
  1 ≤ s.refresh.limit ∧ s.refresh.limit ≤ 12 ∧ ∀ b, (s.balanceOf b).balance ≤ s.leff

/-- Which optional fields a bank record holds in each state (R5); a window runs in OPENING, CLOSING and REFRESHING. -/
def BankRecord.ok (r : BankRecord) : Prop :=
  (r.row.isSome = true ↔ r.state = .opening ∨ r.state = .opened) ∧
  (r.openedAt.isSome = true ↔ r.state = .opening ∨ r.state = .opened) ∧
  (r.lastAccess.isSome = true → r.state = .opened) ∧
  (r.closeWanted.isSome = true → r.state = .opening ∨ r.state = .opened) ∧
  (r.windowEnd.isSome = true ↔ r.state = .opening ∨ r.state = .closing ∨ r.state = .refreshing)

/-- Every bank record holds the fields of its state (R5). -/
def State.banksOk (s : State) : Prop := ∀ b, (s.bank b).ok

/-- Every setting lies in its range (R185), the step timer runs exactly while SCRUB_STEP is not 0 (R100), and `lag` is at
most 255 (R99). -/
def State.settingsOk (s : State) : Prop :=
  s.bankEngine.idleClose.toNat ≤ 40 ∧ 1 ≤ s.buffer.drainAge.toNat ∧ s.buffer.drainAge.toNat ≤ 127 ∧
  1 ≤ s.remap.threshold ∧ s.remap.threshold ≤ 15 ∧ (s.scrubber.stepDue.isSome = true ↔ s.scrubber.step ≠ 0) ∧
  s.scrubber.lag ≤ 255 ∧ s.link.selectIndex.toNat < tableSize s.link.selectTable

/-- T_WAKE runs exactly in WAKING (R164). -/
def State.holdOk (s : State) : Prop := s.hold.wakeEnd.isSome = true ↔ s.hold.state = .waking

/-- The write buffer holds at most one DRAINING entry and at most one FILLING entry for a line, and every entry has a
valid byte (R124). -/
def State.bufferOk (s : State) : Prop :=
  (s.buffer.entries.Pairwise fun x y => ¬ (x.state = .draining ∧ y.state = .draining)) ∧
  (s.buffer.entries.Pairwise fun x y => ¬ (x.state = .filling ∧ y.state = .filling ∧ x.line = y.line)) ∧
  ∀ e ∈ s.buffer.entries, e.valid ≠ 0

/-- No two suspect entries name one row, and `queued_at` is present exactly in QUEUED (R72). -/
def State.suspectsOk (s : State) : Prop :=
  (s.remap.suspects.Pairwise fun x y => ¬ (x.bank = y.bank ∧ x.logicalRow = y.logicalRow)) ∧
  ∀ e ∈ s.remap.suspects, (e.queuedAt.isSome = true ↔ e.state = .queued) ∧ 1 ≤ e.tally ∧ e.tally ≤ 15

/-- The queued order names the rows of the QUEUED entries, each once (R36, R72). -/
def Remap.queuedOk (u : Remap) : Prop :=
  u.queuedOrder.Nodup ∧
  ∀ (b : Bank) (r : LogicalRow),
    (b, r) ∈ u.queuedOrder ↔ ∃ e ∈ u.suspects, e.bank = b ∧ e.logicalRow = r ∧ e.state = .queued

/-- The entry names the spare, as its target or as its source (R81). -/
def RemapEntry.namesSpare (e : RemapEntry) (t : SpareIndex) : Prop := e.target = t ∨ e.source = some (spareRow t)

/-- The fields of a remap entry by its state (R81): a MIGRATING entry reads from the ordinary row of its logical row or
from a spare other than its target, its cursor below 8; a LIVE entry has no source, and its cursor is 8. -/
def RemapEntry.ok (e : RemapEntry) : Prop :=
  match e.state with
  | .migrating =>
    e.cursor < 8 ∧ (e.source = some (ordinaryRow e.logicalRow) ∨ ∃ t, t ≠ e.target ∧ e.source = some (spareRow t))
  | .live => e.cursor = 8 ∧ e.source = none

/-- The remap tables and the spare pool (R81, R82): no two entries of a bank name one logical row or one spare, and the
IN_USE spares are exactly those that some entry names, so that none names a FREE or a DEAD one. -/
def Remap.ok (u : Remap) : Prop :=
  (∀ (b : Bank) (i : Slot) (e : RemapEntry), u.tables[b][i] = some e → e.ok) ∧
  (∀ (b : Bank) (i j : Slot) (e f : RemapEntry), u.tables[b][i] = some e → u.tables[b][j] = some f → i ≠ j →
    e.logicalRow ≠ f.logicalRow ∧ ∀ t, ¬ (e.namesSpare t ∧ f.namesSpare t)) ∧
  ∀ (b : Bank) (t : SpareIndex),
    u.spare b t = .inUse ↔ ∃ (i : Slot) (e : RemapEntry), u.tables[b][i] = some e ∧ e.namesSpare t

/-- The MIGRATE jobs of the stack and the MIGRATING entries agree (R85): each such entry has its job in the stack, and each
such job its entry, of one logical row and one cursor. -/
def State.migrationsOk (s : State) : Prop :=
  (∀ (b : Bank) (i : Slot) (e : RemapEntry), s.remap.tables[b][i] = some e → e.state = .migrating →
    Job.migrate b e.logicalRow i e.cursor ∈ s.engine.stack) ∧
  ∀ (b : Bank) (r : LogicalRow) (i : Slot) (c : Nat), Job.migrate b r i c ∈ s.engine.stack →
    ∃ e, s.remap.tables[b][i] = some e ∧ e.state = .migrating ∧ e.logicalRow = r ∧ e.cursor = c

/-- The tables and the pool are consistent, and every migration stands in both places that hold it (R81, R82, R85). -/
def State.remapOk (s : State) : Prop := s.remap.ok ∧ s.migrationsOk

/-- No two error records hold one key, and every count is 1 to 255 (R174). -/
def State.errorsOk (s : State) : Prop :=
  (s.errors.records.Pairwise fun x y =>
    ¬ (x.kind = y.kind ∧ x.bank = y.bank ∧ x.physicalRow = y.physicalRow ∧ x.word = y.word)) ∧
  ∀ r ∈ s.errors.records, 1 ≤ r.count ∧ r.count ≤ 255

end Sys2Proof.Machine
end

