-- ==== Sys2Proof/Certificates/Slice0/Obligations.lean ====
section
/-! DEFINITION. The statements about the model, for the provers. -/

section Statements

open Sys2Proof Sys2Proof.Machine

/-! ## The machine as a whole -/

/-- A step takes the command at the front of the queue and executes it with the queue's rest; on an empty queue half a
nanosecond passes, and nothing else changes (logs 2 and 20, the model's choice). -/
def Obligations.StepTakesFrontCommand : Prop :=
  (∀ (c : Instr) (rest : List Instr) (s : State), s.pending = c :: rest → step s = exec c (s.setPending rest)) ∧
  (∀ s : State, s.pending = [] → s.powered = true →
    ∃ t, step s = .next t ∧ SameBut [.clock] s t ∧ t.clock = { s.clock with now := s.clock.now + 1 / 2 }) ∧
  (∀ s : State, s.pending = [] → s.powered = false → step s = .next s)

/-- Every command, with every operand and in every state, answers a next state, and leaves the queue of waiting commands
as it is. That it does so in every state, an event without its occasion included (log 1), on ill-formed operands too
(log 21), and with the queue kept (log 20) is the model's reading; the spec says what each command does where it occurs. -/
def Obligations.EveryCommandAnswersNext : Prop :=
  ∀ (c : Instr) (s : State), ∃ t, exec c s = .next t ∧ t.pending = s.pending

/-- POWER_LOSS: SA and SR are low, ALERT_N and SDA are released, and while PWRGOOD is low no command but POWER_ON_RESET
changes anything except the level of RESET_N, which is outside the part (R182; log 11). -/
def Obligations.PowerLossAndPoweredDown : Prop :=
  (∀ s : State, ∃ t, exec .powerLoss s = .next t ∧ t.powered = false ∧ t.port.sa = false ∧ t.port.sr = false ∧
    t.alertLow = false ∧ t.link.out = [] ∧ t.port.resetN = s.port.resetN ∧ t.pending = s.pending) ∧
  (∀ (c : Instr) (s : State), s.powered = false → (∀ laddr, c ≠ .powerOnReset laddr) → c ≠ .powerLoss →
    ∃ t, exec c s = .next t ∧ SameBut [.port] s t ∧ t.port = { s.port with resetN := t.port.resetN })

/-- POWER_ON_RESET: every block takes its initial state, from every state, and the link takes the address 0x58 plus
LADDR[1:0] (R181, R182); and that initial state holds what the chapters say of each block. The levels of RESET_N, SQ and
LADDR, the moment 0 of the clock and the array's contents are the model's choice (logs 2, 7, 10). -/
def Obligations.PowerOnResetRestoresEveryBlock : Prop :=
  (∀ (laddr : BitVec 2) (s : State), ∃ t, exec (.powerOnReset laddr) s = .next t ∧ t.pending = s.pending ∧
    SameBut [.port, .link] (State.reset.setPending s.pending) t ∧
    t.port = { State.reset.port with resetN := s.port.resetN } ∧
    t.link = { State.reset.link with address := t.link.address } ∧ t.link.address.toNat = 0x58 + laddr.toNat) ∧
  let s := State.reset
  (∀ b, (s.bank b).state = .closed ∧ (s.bank b).row = none ∧ (s.bank b).openedAt = none ∧
    (s.bank b).lastAccess = none ∧ (s.bank b).closeWanted = none) ∧
  s.channel = none ∧
  (∀ b, (s.balanceOf b).balance = 0 ∧ (s.balanceOf b).pointer = 0 ∧
    s.remaining b = (b.val + 1) * (125000 : Time) / 16) ∧
  s.refresh.limit = 6 ∧ s.leff = 6 ∧ s.bankEngine.tIdle = 200 ∧
  s.engine.thermalPollPending = true ∧ s.engine.scrubPending = false ∧ s.engine.stack = [.fill 0 0] ∧
  s.engine.pollDue = 32000000 ∧
  s.remap.suspects = [] ∧ s.remap.queuedOrder = [] ∧ s.remap.threshold = 3 ∧
  (∀ (b : Bank) (i : Slot), s.remap.tables[b][i] = none) ∧ (∀ b t, s.remap.spare b t = .free) ∧
  s.scrubber.cursor = 0 ∧ s.scrubber.passCount = 0 ∧ s.scrubber.lag = 0 ∧ s.scrubber.lastCorrections = 0 ∧
  s.scrubber.stepDue = some 500000 ∧
  (∀ i : SweepIndex, s.fillMap.marks.getLsbD i.val = false) ∧ s.fillMap.done = false ∧
  s.buffer.entries = [] ∧ s.buffer.flushPoison = false ∧ s.buffer.age = 4000 ∧
  s.port.queue = [] ∧ s.port.stage = none ∧ s.port.sa = false ∧ s.port.sr = false ∧
  s.thermal = { reading := 0, band := .normal, fault := false, directNext := true } ∧ s.hold.state = .active ∧
  s.errors.records = [] ∧ s.errors.counter = 0 ∧ s.errors.saturated = false ∧
  s.alerts.causes = 0 ∧ s.alerts.mask = 0 ∧ s.alertLow = false ∧
  s.link.index = 0 ∧ s.link.result = .done ∧ s.link.command = 0 ∧ s.link.commandArg = 0 ∧ s.link.retireBank = 0 ∧
  s.link.retireRow = 0 ∧ s.link.selectTable = 0 ∧ s.link.selectIndex = 0 ∧ s.clock.deviceTime = 0

/-! ## The system port and the write buffer -/

/-- RESET_N_FALL: a port reset begins. What it discards is discarded; begun in HOLD it starts the wake, and begun in
another state it leaves the hold state, where hold entry may then ask for closes (R142, R156, R166, R170, R171); with
RESET_N low already there is no fall (log 1). RESET_N_RISE changes the level of RESET_N alone, in every hold state (R156,
R171). -/
def Obligations.ResetNFallAndRise : Prop :=
  (∀ s : State, s.powered = true →
    (s.port.resetN = true →
      ∃ u, PortResetLeaves s u ∧ u.port.resetN = false ∧
        (s.hold.state ≠ .hold → exec .resetNFall s = .next u.furtherCloseAll) ∧
        (s.hold.state = .hold →
          exec .resetNFall s =
            .next (u.setHold { state := .waking, wakeEnd := some (s.clock.now + 2000) }).engineRun)) ∧
    (s.port.resetN = false → exec .resetNFall s = .next s)) ∧
  ∀ s : State, ∃ t, exec .resetNRise s = .next t ∧ SameBut [.port] s t ∧ t.port = { s.port with resetN := true }

/-- REQUEST_OFFER: SQ raised offers the request, and SQ still high offers what it offered. The offer is seen while RESET_N
is high and a request stands unaccepted: in ACTIVE and WAKING it changes nothing more, in ENTERING it abandons the entry
at once, and in HOLD it makes the state WAKING with T_WAKE of 2 µs (R146, R147, R168, R170; log 16). SQ_LOWERED withdraws
an unaccepted request and lets SA fall (R146). -/
def Obligations.RequestOfferedOrWithdrawn : Prop :=
  (∀ (r : Request) (s : State), s.powered = true →
    let port := if s.port.sq then s.port else { s.port with sq := true, offer := some r }
    ((s.port.resetN = false ∨ port.offer = none) → exec (.requestOffer r) s = .next (s.setPort port)) ∧
    (s.port.resetN = true → port.offer.isSome = true →
      ((s.hold.state = .active ∨ s.hold.state = .waking) → exec (.requestOffer r) s = .next (s.setPort port)) ∧
      (s.hold.state = .entering →
        exec (.requestOffer r) s =
          .next ((s.setPort port).setHold { s.hold with state := .active }).engineRun) ∧
      (s.hold.state = .hold →
        exec (.requestOffer r) s =
          .next ((s.setPort port).setHold
            { state := .waking, wakeEnd := some (s.clock.now + 2000) }).engineRun))) ∧
  ∀ s : State, s.powered = true → ∃ t, exec .sqLowered s = .next t ∧ SameBut [.port] s t ∧
    t.port = { s.port with sq := false, offer := none, sa := false }

/-- REQUEST_ACCEPT: with fewer than 12 requests in the queue, RESET_N high and the state ACTIVE, the offered request joins
the tail and SA rises; a request that becomes the head is served. Otherwise nothing is accepted (R146, R148). -/
def Obligations.RequestAcceptNeedsThreeConditions : Prop :=
  ∀ s : State, s.powered = true →
    (∀ r, s.port.offer = some r → s.port.queue.length < 12 → s.port.resetN = true → s.hold.state = .active →
      ∃ u, SameBut [.port] s u ∧
        u.port = { s.port with offer := none, sa := true, queue := s.port.queue ++ [r] } ∧
        exec .requestAccept s = .next (if s.port.queue = [] then u.serveHead else u).chooseEntry) ∧
    ((s.port.offer = none ∨ 12 ≤ s.port.queue.length ∨ s.port.resetN = false ∨ s.hold.state ≠ .active) →
      exec .requestAccept s = .next s)

/-- RESPONSE_TAKEN: while the head is RESPONDING it is removed and the next request is served; with SR low nothing happens.
The service may make an entry due, and an emptied queue may bring a close-all request (R130, R149, R166). -/
def Obligations.ResponseTakenRemovesHead : Prop :=
  ∀ s : State, s.powered = true →
    (∀ r, s.port.stage = some (.responding r) →
      ∃ u, SameBut [.port] s u ∧ u.port = { s.port with queue := s.port.queue.tail, stage := none } ∧
        exec .responseTaken s = .next (u.serveHead.chooseEntry.furtherCloseAll)) ∧
    ((∀ r, s.port.stage ≠ some (.responding r)) → exec .responseTaken s = .next s)

/-- The service of a head READ (R120, R150). Where the buffer offers every needed byte, or the row is not filled, the READ
is answered OK at once, each byte of its beats the buffer's or zero. Otherwise it is READING: the bytes the buffer
offers are taken, and the words to read are those with a needed byte that it does not offer, in ascending order, each
marked where some of its bytes are taken. The place of a byte in its response beat is the model's choice (log 15). -/
def Obligations.HeadReadService : Prop :=
  ∀ (s : State) (a : BeatAddress) (n : BeatCount) (rest : List Request), s.port.queue = .read a n :: rest →
    let line := beatLine a
    let offered := s.buffer.offered line
    let atOnce := (∀ i, needsByte a n i → offered.valid.getLsbD i = true) ∨
      s.fillMap.marked (lineBank line) (lineRow line) = false
    (atOnce →
      ∃ r, s.serveHead = s.respond r ∧ r.kind = .read ∧ r.status = .ok ∧ r.beats.length = n.toNat ∧
        ∀ k, k < n.toNat → ∃ beat, r.beats[k]? = some beat ∧ beat.err = false ∧
          ∀ j, j < 4 → byteIn beat.data j =
            if offered.valid.getLsbD (4 * lineBeat a k + j) then byteIn offered.data (4 * lineBeat a k + j) else 0) ∧
    (¬ atOnce →
      ∃ taken bytes words, s.serveHead = s.setStage (some (.reading taken bytes words false)) ∧
        (∀ i, taken.getLsbD i = true ↔ needsByte a n i ∧ offered.valid.getLsbD i = true) ∧
        (∀ i, taken.getLsbD i = true → byteIn bytes i = byteIn offered.data i) ∧
        (words.Pairwise fun x y => x.word < y.word) ∧
        (∀ k : Fin 4, (∃ x ∈ words, x.word = k) ↔
          ∃ i, i / 8 = k.val ∧ needsByte a n i ∧ offered.valid.getLsbD i = false) ∧
        ∀ x ∈ words, (x.merged = true ↔ ∃ i, i / 8 = x.word.val ∧ taken.getLsbD i = true))

/-- The bytes of a WRITE's beats: a byte is written if an enable of some beat names it, and it has that beat's value (R125,
R144; the place of a byte in its beat is log 15's). The service of a head WRITE that enables a byte (R125, R126, R154):
merged into the FILLING entry of its line and
answered OK; or, with fewer than 8 entries, given a new entry at the end and answered OK; or else WAITING_ENTRY. -/
def Obligations.HeadWriteService : Prop :=
  (∀ (a : BeatAddress) (n : BeatCount) (data : List WriteBeat), data.length = n.toNat →
    let x := writtenBytes a n data
    (∀ i, x.valid.getLsbD i = true ↔
      ∃ (k : Nat) (beat : WriteBeat), data[k]? = some beat ∧ i / 4 = lineBeat a k ∧
        beat.enables.getLsbD (i % 4) = true) ∧
    ∀ i (k : Nat) (beat : WriteBeat), data[k]? = some beat → i / 4 = lineBeat a k →
      beat.enables.getLsbD (i % 4) = true → byteIn x.data i = byteIn beat.data (i % 4)) ∧
  ∀ (s : State) (a : BeatAddress) (n : BeatCount) (data : List WriteBeat) (rest : List Request),
    s.port.queue = .write a n data :: rest →
    let line := beatLine a
    let x := writtenBytes a n data
    x.valid ≠ 0 →
    ((∃ e ∈ s.buffer.entries, e.state = .filling ∧ e.line = line) →
      ∃ u, s.serveHead = u.respond writeOk ∧ SameBut [.buffer] s u ∧
        u.buffer.flushPoison = s.buffer.flushPoison ∧ u.buffer.drainAge = s.buffer.drainAge ∧
        u.buffer.entries.length = s.buffer.entries.length ∧
        ∀ (k : Nat) (e : BufferEntry), s.buffer.entries[k]? = some e →
          ∃ f, u.buffer.entries[k]? = some f ∧
            (¬ (e.state = .filling ∧ e.line = line) → f = e) ∧
            (e.state = .filling ∧ e.line = line →
              f = { e with valid := f.valid, data := f.data } ∧
              (∀ i, f.valid.getLsbD i = (x.valid.getLsbD i || e.valid.getLsbD i)) ∧
              ∀ i, i < 32 → byteIn f.data i = if x.valid.getLsbD i then byteIn x.data i else byteIn e.data i)) ∧
    ((∀ e ∈ s.buffer.entries, ¬ (e.state = .filling ∧ e.line = line)) →
      (s.buffer.entries.length < 8 →
        ∃ u, s.serveHead = u.respond writeOk ∧ SameBut [.buffer] s u ∧
          u.buffer = { s.buffer with
            entries := s.buffer.entries ++
              [{ line, valid := x.valid, data := x.data, state := .filling, born := s.clock.now, ageDue := false
                 flushMark := false, poisonWritten := false }] }) ∧
      (8 ≤ s.buffer.entries.length → s.serveHead = s.setStage (some .waitingEntry)))

/-- A WRITE that enables no byte is answered OK at its service and changes nothing else, whatever the buffer holds; it is
never a waiting write (R127). One that enables some byte of some beat is a write of the bytes it enables, those and no
others, each with its beat's value (R125, R127, R144); the place of a byte in its beat is the model's choice (log 15). -/
def Obligations.EmptyWriteIsAnsweredAtOnce : Prop :=
  ∀ (s : State) (a : BeatAddress) (n : BeatCount) (data : List WriteBeat) (rest : List Request),
    s.port.queue = .write a n data :: rest → data.length = n.toNat →
    ((∀ beat ∈ data, beat.enables = 0) →
      ∃ t, s.serveHead = t ∧ SameBut [.port] s t ∧
        t.port = { s.port with stage := some (.responding { kind := .write, status := .ok, beats := [] }) }) ∧
    ((∃ beat ∈ data, beat.enables ≠ 0) →
      let x := writtenBytes a n data
      x.valid ≠ 0 ∧
      (∀ i, x.valid.getLsbD i = true ↔
        ∃ (k : Nat) (beat : WriteBeat), data[k]? = some beat ∧ i / 4 = lineBeat a k ∧
          beat.enables.getLsbD (i % 4) = true) ∧
      ∀ i (k : Nat) (beat : WriteBeat), data[k]? = some beat → i / 4 = lineBeat a k →
        beat.enables.getLsbD (i % 4) = true → byteIn x.data i = byteIn beat.data (i % 4))

/-- The service of a head FLUSH marks every entry and clears `flush_poison`; the FLUSH is answered once no entry is marked,
at once where the buffer is empty, with DATA_ERROR if `flush_poison` is set and OK if it is clear (R138, R140, R155). -/
def Obligations.HeadFlushServiceAndAnswer : Prop :=
  (∀ (s : State) (rest : List Request), s.port.queue = .flush :: rest →
    ∃ u, SameBut [.buffer] s u ∧ u.buffer.flushPoison = false ∧ u.buffer.drainAge = s.buffer.drainAge ∧
      u.buffer.entries = (s.buffer.entries.map fun e => { e with flushMark := true }) ∧
      (s.buffer.entries ≠ [] → s.serveHead = u.setStage (some .flushing)) ∧
      (s.buffer.entries = [] → s.serveHead = u.respond { kind := .flush, status := .ok, beats := [] })) ∧
  (∀ s : State,
    (s.port.stage = some .flushing → (∀ e ∈ s.buffer.entries, e.flushMark = false) →
      s.finishFlush =
        s.respond
          { kind := .flush, status := if s.buffer.flushPoison then .dataError else .ok, beats := [] }) ∧
    ((s.port.stage ≠ some .flushing ∨ ∃ e ∈ s.buffer.entries, e.flushMark = true) → s.finishFlush = s))

/-- The buffer offers each byte of a line from the newest entry for the line that holds it, and no byte that none holds
(R136). -/
def Obligations.BufferOffersNewestByte : Prop :=
  ∀ (w : WriteBuffer) (n : Line),
    (∀ i, (w.offered n).valid.getLsbD i = true ↔ ∃ e ∈ w.entries, e.line = n ∧ e.valid.getLsbD i = true) ∧
    ∀ (pre post : List BufferEntry) (e : BufferEntry) (i : Nat), w.entries = pre ++ e :: post → e.line = n →
      e.valid.getLsbD i = true → (∀ f ∈ post, ¬ (f.line = n ∧ f.valid.getLsbD i = true)) →
      byteIn (w.offered n).data i = byteIn e.data i

/-- The choice of an entry to drain (R129, R130): while none is DRAINING, the oldest FILLING entry that is due becomes
DRAINING, and nothing else changes; with a DRAINING entry, or none due, nothing changes. DRAIN_AGE_REACHED: at `born` plus
the drain age the FILLING entry of the line is due by age, as is every other whose time has come, and an entry is chosen
(R129, R130). The model's own: the clock moves to that moment (log 2), and where the line has no FILLING entry, or it is
due by age already, nothing changes (log 1). -/
def Obligations.EntriesFallDueAndOldestIsChosen : Prop :=
  (∀ s : State, s.bufferOk →
    let due := fun e : BufferEntry =>
      e.state = .filling ∧
        (e.valid = BitVec.allOnes 32 ∨ e.ageDue = true ∨ e.flushMark = true ∨ s.hold.state = .entering ∨
          (s.port.stage = some .waitingEntry ∧ s.buffer.entries.find? (fun f => f.state = .filling) = some e))
    (∀ pre e post, s.buffer.entries = pre ++ e :: post → (∀ f ∈ s.buffer.entries, f.state = .filling) → due e →
      (∀ f ∈ pre, ¬ due f) →
      s.chooseEntry = s.setBuffer { s.buffer with entries := pre ++ { e with state := .draining } :: post }) ∧
    (((∃ f ∈ s.buffer.entries, f.state = .draining) ∨ ∀ f ∈ s.buffer.entries, ¬ due f) → s.chooseEntry = s)) ∧
  ∀ (line : Line) (s : State), s.powered = true →
    (∀ e, s.buffer.entries.find? (fun f => decide (f.state = .filling ∧ f.line = line)) = some e → e.ageDue = false →
      let now := later s.clock.now (e.born + s.buffer.drainAge.toNat * 500)
      ∃ u, exec (.drainAgeReached line) s = .next u.chooseEntry ∧ SameBut [.clock, .buffer] s u ∧
        u.clock = { s.clock with now } ∧
        u.buffer =
          { s.buffer with
            entries := s.buffer.entries.map fun f =>
              if f.state = .filling ∧ f.born + s.buffer.drainAge.toNat * 500 ≤ now then { f with ageDue := true }
              else f } ∧
        { e with ageDue := true } ∈ u.buffer.entries ∧ u.isDue { e with ageDue := true } = true) ∧
    ((∀ e ∈ s.buffer.entries, e.state = .filling → e.line = line → e.ageDue = true) →
      exec (.drainAgeReached line) s = .next s)

/-! ## The array channel -/

/-- CHANNEL_GRANT: on a FREE channel, where an eligible claim stands, one of the lowest level is granted, chosen in its
level by R18 and R19; a HELD channel, or no eligible claim, leaves everything. The bit changes of the operand come
before the grant and change the array alone: the named bits of the named words are inverted, and every other word reads
as before (R16, R17, R18, R26; log 6). -/
def Obligations.GrantTakesLowestLevel : Prop :=
  ∀ (changes : List BitChange) (s : State), s.powered = true →
    let eligible := fun c : Claim => ∀ b, c.bank = some b → (s.bank b).state ≠ .refreshing
    (s.channel = none → (∃ c, s.stands c ∧ eligible c) →
      ∃ c, s.stands c ∧ eligible c ∧ (∀ d, s.stands d → eligible d → c.level ≤ d.level) ∧
        (c.work = .refresh →
          (c.level = 0 → c.bank = s.pickBank .urgent) ∧ (c.level = 4 → c.bank = s.pickBank .due) ∧
          (c.level = 6 → c.bank = s.pickBank .pullIn)) ∧
        (∀ r d, s.readClaim = some r → s.drainClaim = some d → eligible r → eligible d → c.level = 2 →
          ((s.buffer.entries.length = 8 ∨ s.port.queue.head? = some .flush ∨ s.port.stage = some .waitingEntry) →
            c = d) ∧
          (¬ (s.buffer.entries.length = 8 ∨ s.port.queue.head? = some .flush ∨ s.port.stage = some .waitingEntry) →
            c = r)) ∧
        exec (.channelGrant changes) s = .next ((s.changeAll changes).grant c)) ∧
    ((s.channel ≠ none ∨ ∀ c, s.stands c → ¬ eligible c) → exec (.channelGrant changes) s = .next s) ∧
    SameBut [.array] s (s.changeAll changes) ∧
    (s.memoryOk → ∀ (b : Bank) (p : PhysicalRow) (w : WordInRow),
      let named := changes.filter fun c => decide (c.bank = b ∧ c.row = p ∧ c.word = w)
      (s.changeAll changes).word b p w =
        { s.word b p w with changed := named.foldl (fun bits c => bits ^^^ c.changed) (s.word b p w).changed })

/-- The claims that stand. SENSE: while THERMAL_POLL is pending (R34). The head's LINE-READ: while the head is READING and
its claim has not been granted (R150). The DRAINING entry's, while neither its drain nor its ROW-FILL is in flight: a
ROW-FILL while the row's mark is clear, else a LINE-MERGE where the entry covers some word in part, else a LINE-WRITE
(R121, R122, R131). The step of the top, from its context, while it is at its checkpoint in ACTIVE or WAKING; none in
ENTERING and HOLD (R40, R46, R48). The pull-in gate is open while none of level 0 to 5 waits, a bank below 0 waiting too,
and the state is not HOLD (R59, R61). Each bank's refresh claim follows its balance (R59). -/
def Obligations.ClaimsStandByTheirConditions : Prop :=
  ∀ s : State,
    let draining := ∃ op line, s.channel = some op ∧
      (op.work = .lineWrite line ∨ op.work = .lineMerge line ∨ op.work = .rowFill line)
    let stepping := ∃ op g, s.channel = some op ∧
      (op.work = .migrateStep g ∨ op.work = .scrubStep g ∨ op.work = .fillStep g)
    let mayStep := (s.hold.state = .active ∨ s.hold.state = .waking) ∧ ¬ stepping
    (∀ c, s.senseClaim = some c ↔
      s.engine.thermalPollPending = true ∧ c = { level := 1, bank := none, logicalRow := none, work := .sense }) ∧
    (∀ c, s.readClaim = some c ↔
      ∃ a n rest taken bytes words, s.port.queue = .read a n :: rest ∧
        s.port.stage = some (.reading taken bytes words false) ∧
        c =
          { level := 2, bank := some (lineBank (beatLine a)), logicalRow := some (lineRow (beatLine a))
            work := .lineRead (beatLine a) words true }) ∧
    (∀ e, s.buffer.entries.find? (fun f => f.state = .draining) = some e →
      let mark := s.fillMap.marks.getLsbD ((lineRow e.line).val * 16 + (lineBank e.line).val)
      let partly := ∃ k : Fin 4, wordValid e.valid k ≠ 0 ∧ wordValid e.valid k ≠ 0xFF
      (draining → s.drainClaim = none) ∧
      (¬ draining →
        ∃ work, s.drainClaim =
            some { level := 2, bank := some (lineBank e.line), logicalRow := some (lineRow e.line), work } ∧
          (mark = false → work = .rowFill e.line) ∧ (mark = true → partly → work = .lineMerge e.line) ∧
          (mark = true → ¬ partly → work = .lineWrite e.line))) ∧
    ((∀ e ∈ s.buffer.entries, e.state ≠ .draining) → s.drainClaim = none) ∧
    (mayStep →
      (∀ b r slot cursor rest, s.engine.stack = .migrate b r slot cursor :: rest →
        s.stepClaim = some { level := 3, bank := some b, logicalRow := some r, work := .migrateStep cursor }) ∧
      (∀ b r g n rest, s.engine.stack = .scrub b r g n :: rest →
        s.stepClaim = some { level := 5, bank := some b, logicalRow := some r, work := .scrubStep g }) ∧
      (∀ (i : SweepIndex) g rest, s.engine.stack = .fill i g :: rest →
        ∃ (b : Bank) (r : LogicalRow), b.val = i.val % 16 ∧ r.val = i.val / 16 ∧
          s.stepClaim = some { level := 7, bank := some b, logicalRow := some r, work := .fillStep g })) ∧
    ((¬ mayStep ∨ s.engine.stack = []) → s.stepClaim = none) ∧
    (s.gateOpen = true ↔
      s.hold.state ≠ .hold ∧ (∀ b, 0 ≤ (s.balanceOf b).balance) ∧ s.senseClaim = none ∧ s.readClaim = none ∧
        s.drainClaim = none ∧ ∀ c, s.stepClaim = some c → 5 < c.level) ∧
    ∀ b, s.claimFollows b

/-- Among the eligible refresh claims of level 0 or 4 the arbiter takes the lowest balance, and then the lowest bank
number; among those of level 6 it takes a CLOSED bank before any other, and then the same. A REFRESHING bank is passed
over (R19). -/
def Obligations.RefreshClaimsAreRanked : Prop :=
  ∀ (s : State) (kind : RefreshClaim),
    let lower := fun x y : Bank =>
      (s.balanceOf x).balance < (s.balanceOf y).balance ∨
        ((s.balanceOf x).balance = (s.balanceOf y).balance ∧ x < y)
    let closed := fun x : Bank => (s.bank x).state = .closed
    let claims := fun x : Bank => s.claimOf x = some kind ∧ (s.bank x).state ≠ .refreshing
    (∀ b, s.pickBank kind = some b →
      claims b ∧ ∀ c, claims c → c ≠ b →
        (kind ≠ .pullIn → lower b c) ∧
        (kind = .pullIn → (closed b ∧ ¬ closed c) ∨ ((closed b ↔ closed c) ∧ lower b c))) ∧
    (s.pickBank kind = none → ∀ c, ¬ claims c)

/-- The lookup finds the one slot of the bank whose entry names the logical row, and nothing where no slot does (R81,
R83). The rows an operation visits (R14, R81, R83, R88, R104, R105, R116, R121): one read from the lookup; for a line written
or scrubbed, the source, and the target too where the group lies below the cursor of a migration; a migration step
visits source and target; a ROW-FILL and a fill step the ordinary row. -/
def Obligations.RowsVisitedFollowTheLookup : Prop :=
  ∀ (s : State) (b : Bank) (r : LogicalRow) (line : Line) (words : List ReadWord) (wanted : Bool) (g : Nat),
    (s.remap.ok → ∀ (slot : Slot) (e : RemapEntry),
      s.remap.find b r = some (slot, e) ↔ s.remap.tables[b][slot] = some e ∧ e.logicalRow = r) ∧
    (s.remap.find b r = none ↔
      ∀ (slot : Slot) (e : RemapEntry), s.remap.tables[b][slot] = some e → e.logicalRow ≠ r) ∧
    s.visits (.lineRead line words wanted) b r = [s.remap.readRow b r] ∧
    s.visits (.rowFill line) b r = [ordinaryRow r] ∧ s.visits (.fillStep g) b r = [ordinaryRow r] ∧
    (s.remap.find b r = none →
      s.visits (.lineRead line words wanted) b r = [ordinaryRow r] ∧
      s.visits (.lineWrite line) b r = [ordinaryRow r] ∧ s.visits (.lineMerge line) b r = [ordinaryRow r] ∧
      s.visits (.scrubStep g) b r = [ordinaryRow r]) ∧
    (∀ slot e, s.remap.find b r = some (slot, e) → e.state = .live →
      s.visits (.lineRead line words wanted) b r = [spareRow e.target] ∧
      s.visits (.lineWrite line) b r = [spareRow e.target] ∧ s.visits (.lineMerge line) b r = [spareRow e.target] ∧
      s.visits (.scrubStep g) b r = [spareRow e.target]) ∧
    (∀ slot e source, s.remap.find b r = some (slot, e) → e.state = .migrating → e.source = some source →
      s.visits (.lineRead line words wanted) b r = [source] ∧
      s.visits (.migrateStep g) b r = [source, spareRow e.target] ∧
      (lineGroup line < e.cursor →
        s.visits (.lineWrite line) b r = [source, spareRow e.target] ∧
        s.visits (.lineMerge line) b r = [source, spareRow e.target]) ∧
      (e.cursor ≤ lineGroup line →
        s.visits (.lineWrite line) b r = [source] ∧ s.visits (.lineMerge line) b r = [source]) ∧
      ((∀ w ∈ groupWords g, (s.word b source w).decode.outcome = .clean ∨
          (s.word b source w).decode.outcome = .poisoned) →
        s.visits (.scrubStep g) b r = [source]) ∧
      ((∃ w ∈ groupWords g, (s.word b source w).decode.outcome = .corrected ∨
          (s.word b source w).decode.outcome = .uncorrectable) →
        s.visits (.scrubStep g) b r = if g < e.cursor then [source, spareRow e.target] else [source]))

/-- The grant of an operation that visits rows (R5, R6, R7, R9, R13): it holds the channel with its kind, bank, logical row
and rows; on a CLOSED bank it opens its first row, on a CLOSING bank it waits, on a bank OPEN on the row it accesses it, a
held IDLE dropped, and it changes row where it needs another, its close issued once T_MINOPEN has passed. No other bank
is touched. The model's own: the accesses on an open first row end at once, `last_access` taking that moment, and the
operation then changes to its second row (log 8); a close held on the bank but for an IDLE outlives the row change (log
22); the close of cause URGENT is asked again where a claim stands on the bank (log 19). -/
def Obligations.GrantOpensOrChangesRow : Prop :=
  ∀ (s : State) (level : Nat) (b : Bank) (r : LogicalRow) (work : Work) (p : PhysicalRow) (ps : List PhysicalRow)
    (o : Time),
    work ≠ .refresh → work ≠ .sense → s.visits work b r = p :: ps →
    let a := s.bank b
    let kept := if a.closeWanted = some .idle then none else a.closeWanted
    ∃ u op, s.grant { level, bank := some b, logicalRow := some r, work } = u.urgentClose b ∧
      SameBut [.bankEngine, .channel, .port] s u ∧ BanksSameBut b s u ∧ u.channel = some op ∧ op.work = work ∧
      op.bank = some b ∧ op.logicalRow = some r ∧ op.rows = p :: ps ∧ op.grantedAt = s.clock.now ∧
      ((∀ line words wanted, work ≠ .lineRead line words wanted) → u.port = s.port) ∧
      (∀ line words wanted taken bytes ws, work = .lineRead line words wanted →
        s.port.stage = some (.reading taken bytes ws false) →
        u.port = { s.port with stage := some (.reading taken bytes ws true) }) ∧
      (a.state = .closed →
        op.rowsLeft = p :: ps ∧ op.heldClose = none ∧
        u.bank b =
          { state := .opening, row := some p, openedAt := some s.clock.now, lastAccess := none, closeWanted := none
            windowEnd := some (s.clock.now + 15) }) ∧
      (a.state = .closing → op.rowsLeft = p :: ps ∧ op.heldClose = none ∧ u.bank b = a) ∧
      (a.state = .opened → a.openedAt = some o →
        (a.row = some p → ps = [] →
          op.rowsLeft = [p] ∧ op.heldClose = none ∧ u.bank b = { a with closeWanted := kept }) ∧
        ((a.row ≠ some p ∨ ps ≠ []) →
          op.rowsLeft = (if a.row = some p then ps else p :: ps) ∧
          (o + 36 ≤ s.clock.now →
            op.heldClose = kept ∧
            u.bank b =
              { state := .closing, row := none, openedAt := none, lastAccess := none, closeWanted := none
                windowEnd := some (s.clock.now + 15) }) ∧
          (s.clock.now < o + 36 →
            op.heldClose = none ∧ (a.row ≠ some p → u.bank b = a) ∧
            (a.row = some p → u.bank b = { a with closeWanted := kept, lastAccess := some s.clock.now }))))

/-- The grant of a REFRESH (R10) and of the SENSE (R12, R34). A REFRESH on a CLOSED bank is issued: T_RF of 300 ns runs and
the channel is released; on an OPEN bank it closes the row once T_MINOPEN has passed, and on a CLOSING bank it waits,
holding the channel. The SENSE holds the channel, and THERMAL_POLL leaves the pending set. The close of cause URGENT
asked again at a grant on a bank that an URGENT claim stands for (R11, R20) is the model's reading (log 19). -/
def Obligations.GrantOfRefreshAndSense : Prop :=
  (∀ (s : State) (level : Nat) (b : Bank) (o : Time), s.channel = none →
    ∃ u, s.grant { level, bank := some b, logicalRow := none, work := .refresh } = u.urgentClose b ∧
      SameBut [.bankEngine, .channel] s u ∧ BanksSameBut b s u ∧
      ((s.bank b).state = .closed →
        u.channel = none ∧
        u.bank b =
          { state := .refreshing, row := none, openedAt := none, lastAccess := none, closeWanted := none
            windowEnd := some (s.clock.now + 300) }) ∧
      ((s.bank b).state ≠ .closed →
        ∃ op, u.channel = some op ∧ op.work = .refresh ∧ op.bank = some b ∧ op.grantedAt = s.clock.now) ∧
      ((s.bank b).state = .closing → u.bank b = s.bank b) ∧
      ((s.bank b).state = .opened → (s.bank b).openedAt = some o →
        (o + 36 ≤ s.clock.now →
          u.bank b =
            { state := .closing, row := none, openedAt := none, lastAccess := none, closeWanted := none
              windowEnd := some (s.clock.now + 15) }) ∧
        (s.clock.now < o + 36 → u.bank b = s.bank b))) ∧
  (∀ (s : State) (level : Nat),
    ∃ u op, s.grant { level, bank := none, logicalRow := none, work := .sense } = u ∧
      SameBut [.channel, .engine] s u ∧ u.engine = { s.engine with thermalPollPending := false } ∧
      u.channel = some op ∧ op.work = .sense ∧ op.bank = none ∧ op.grantedAt = s.clock.now)

/-! ## Closes and the windows of a bank -/

/-- A close asked for on a bank, which is in use while an operation on it holds the channel (R5, R7), and the bank at the completion of an operation (R6, R7, R8). T_MINOPEN is 36 ns from
the open and T_CLOSE 15 ns; a held IDLE takes a new cause and any other cause stays; with T_IDLE = 0 a completion asks
for a close. No other bank is touched. The further close-all request of hold entry: in ENTERING, while the queue and the
buffer are empty, no step is in flight and no balance is below 0, and some bank is OPENING or OPEN, every bank gets a
close of cause HOLD, and in any other case nothing changes (R11, R166). -/
def Obligations.ClosesAreIssuedOrHeld : Prop :=
  (∀ (s : State) (cause : CloseCause) (b : Bank) (o : Time),
    let r := s.bank b
    let t := s.askClose cause b
    SameBut [.bankEngine] s t ∧ BanksSameBut b s t ∧ t.bank b = r.ask cause (s.inUse b) s.clock.now ∧
    (s.inUse b = true ↔ ∃ op, s.channel = some op ∧ op.bank = some b) ∧
    (r.state ≠ .opening → r.state ≠ .opened → t.bank b = r) ∧
    ((r.state = .opening ∨ r.state = .opened) →
      (r.closeWanted = some .idle → t.bank b = { r with closeWanted := some cause }) ∧
      ((r.closeWanted = some .urgent ∨ r.closeWanted = some .hold) → t.bank b = r) ∧
      (r.closeWanted = none → r.openedAt = some o →
        (r.state = .opened → s.inUse b = false → o + 36 ≤ s.clock.now →
          t.bank b =
            { state := .closing, row := none, openedAt := none, lastAccess := none, closeWanted := none
              windowEnd := some (s.clock.now + 15) }) ∧
        ((r.state = .opening ∨ s.inUse b = true ∨ s.clock.now < o + 36) →
          t.bank b = { r with closeWanted := some cause })))) ∧
  (∀ (r : BankRecord) (idleClose : Byte) (now o : Time), r.state = .opened → r.openedAt = some o →
    (o + 36 ≤ now → (r.closeWanted ≠ none ∨ idleClose = 0) →
      r.completed idleClose now =
        { state := .closing, row := none, openedAt := none, lastAccess := none, closeWanted := none
          windowEnd := some (now + 15) }) ∧
    (now < o + 36 → (r.closeWanted ≠ none ∨ idleClose ≠ 0) →
      r.completed idleClose now = { r with lastAccess := some now }) ∧
    (r.closeWanted = none → idleClose ≠ 0 → r.completed idleClose now = { r with lastAccess := some now }) ∧
    (now < o + 36 → r.closeWanted = none → idleClose = 0 →
      r.completed idleClose now = { r with lastAccess := some now, closeWanted := some .idle })) ∧
  ∀ s : State,
    let ready := s.hold.state = .entering ∧ s.port.queue = [] ∧ s.buffer.entries = [] ∧ s.stepInFlight = false ∧
      (∀ b, 0 ≤ (s.balanceOf b).balance) ∧ ∃ b, (s.bank b).state = .opening ∨ (s.bank b).state = .opened
    (ready →
      SameBut [.bankEngine] s s.furtherCloseAll ∧
      s.furtherCloseAll.bankEngine.idleClose = s.bankEngine.idleClose ∧
      ∀ b, s.furtherCloseAll.bank b = (s.bank b).ask .hold (s.inUse b) s.clock.now) ∧
    (¬ ready → s.furtherCloseAll = s)

/-- T_OPEN_EXPIRY: an OPENING bank becomes OPEN, and the operation that opened the row accesses its words, a held IDLE
dropped, or, with a further row to visit, changes row, its close issued once T_MINOPEN has passed (R5, R6, R7, R9); a row
opened in ENTERING may bring the close-all request (R166). The model's own: the clock moves to the end of the window (log
2); the accesses on a first row end at once, `last_access` taking that moment (log 8); a close held on the bank but for
an IDLE outlives the row change (log 22); on a bank that is not OPENING nothing changes (log 1). -/
def Obligations.TOpenExpiryOpensBank : Prop :=
  ∀ (b : Bank) (s : State) (w o : Time), s.powered = true →
    ((s.bank b).state = .opening → (s.bank b).windowEnd = some w → (s.bank b).openedAt = some o →
      let now := later s.clock.now w
      let opened := { s.bank b with state := .opened, windowEnd := none }
      let kept := if (s.bank b).closeWanted = some .idle then none else (s.bank b).closeWanted
      ∃ u, exec (.tOpenExpiry b) s = .next u.furtherCloseAll ∧ SameBut [.clock, .bankEngine, .channel] s u ∧
        u.clock = { s.clock with now } ∧ BanksSameBut b s u ∧
        (s.inUse b = false → u.channel = s.channel ∧ u.bank b = opened) ∧
        (∀ op p, s.channel = some op → op.bank = some b → op.work ≠ .refresh → (s.bank b).row = some p →
          (op.rowsLeft = [p] → u.channel = s.channel ∧ u.bank b = { opened with closeWanted := kept }) ∧
          (∀ q more, op.rowsLeft = p :: q :: more →
            (o + 36 ≤ now →
              u.channel = some { op with rowsLeft := q :: more, heldClose := kept } ∧
              u.bank b =
                { state := .closing, row := none, openedAt := none, lastAccess := none, closeWanted := none
                  windowEnd := some (now + 15) }) ∧
            (now < o + 36 →
              u.channel = some { op with rowsLeft := q :: more } ∧
              u.bank b = { opened with closeWanted := kept, lastAccess := some now })))) ∧
    ((s.bank b).state ≠ .opening → exec (.tOpenExpiry b) s = .next s)

/-- T_MINOPEN_EXPIRY: on an OPEN bank a close that waits for T_MINOPEN is issued at `opened_at` + 36 ns: a held close of a
bank not in use, the row change of an operation that needs another row, and that of a REFRESH (R7, R9, R10). A close held
on a bank whose operation accesses the very row that is open waits for the completion, whatever T_MINOPEN does (R7). The
model's own: the clock moves to the end of the window (log 2), a held close but for an IDLE outlives the row change (log
22), and where no close waits nothing changes (log 1). -/
def Obligations.TMinOpenExpiryIssuesClose : Prop :=
  ∀ (b : Bank) (s : State) (o : Time), s.powered = true →
    ((s.bank b).state = .opened → (s.bank b).openedAt = some o →
      ((s.inUse b = false ∧ (s.bank b).closeWanted ≠ none) ∨
        ∃ op, s.channel = some op ∧ op.bank = some b ∧
          (op.work = .refresh ∨ ∃ p ps, op.rowsLeft = p :: ps ∧ (s.bank b).row ≠ some p)) →
      ∃ t, exec (.tMinOpenExpiry b) s = .next t ∧ SameBut [.clock, .bankEngine, .channel] s t ∧
        t.clock = { s.clock with now := later s.clock.now (o + 36) } ∧ BanksSameBut b s t ∧
        (s.inUse b = false → t.channel = s.channel) ∧
        (∀ op, s.channel = some op → op.bank = some b →
          (op.work = .refresh → t.channel = s.channel) ∧
          (op.work ≠ .refresh →
            t.channel =
              some
                { op with
                  heldClose := if (s.bank b).closeWanted = some .idle then none else (s.bank b).closeWanted })) ∧
        t.bank b =
          { state := .closing, row := none, openedAt := none, lastAccess := none, closeWanted := none
            windowEnd := some (later s.clock.now (o + 36) + 15) }) ∧
    (((s.bank b).state ≠ .opened ∨ (s.inUse b = false ∧ (s.bank b).closeWanted = none) ∨
        ∃ op p ps, s.channel = some op ∧ op.bank = some b ∧ op.work ≠ .refresh ∧ op.rowsLeft = p :: ps ∧
          (s.bank b).row = some p) →
      exec (.tMinOpenExpiry b) s = .next s)

/-- T_CLOSE_EXPIRY: a CLOSING bank becomes CLOSED, and an operation that waits for it opens its row, or issues its refresh
and releases the channel (R6, R7, R9, R10); in ENTERING the close-all request may follow (R166). The model's own: a close
held across the row change stands on the new row (log 22); the close of cause URGENT is asked again where a claim stands
on the bank (log 19); the clock moves to the end of the window (log 2); on a bank that is not CLOSING nothing changes
(log 1). -/
def Obligations.TCloseExpiryClosesBank : Prop :=
  ∀ (b : Bank) (s : State) (w : Time), s.powered = true →
    ((s.bank b).state = .closing → (s.bank b).windowEnd = some w →
      let now := later s.clock.now w
      ∃ u, exec (.tCloseExpiry b) s = .next (u.urgentClose b).furtherCloseAll ∧
        SameBut [.clock, .bankEngine, .channel] s u ∧ u.clock = { s.clock with now } ∧ BanksSameBut b s u ∧
        (s.inUse b = false →
          u.channel = s.channel ∧
          u.bank b =
            { state := .closed, row := none, openedAt := none, lastAccess := none, closeWanted := none
              windowEnd := none }) ∧
        (∀ op, s.channel = some op → op.bank = some b → op.work = .refresh →
          u.channel = none ∧
          u.bank b =
            { state := .refreshing, row := none, openedAt := none, lastAccess := none, closeWanted := none
              windowEnd := some (now + 300) }) ∧
        (∀ op p ps, s.channel = some op → op.bank = some b → op.work ≠ .refresh → op.rowsLeft = p :: ps →
          u.channel = some { op with heldClose := none } ∧
          u.bank b =
            { state := .opening, row := some p, openedAt := some now, lastAccess := none, closeWanted := op.heldClose
              windowEnd := some (now + 15) })) ∧
    ((s.bank b).state ≠ .closing → exec (.tCloseExpiry b) s = .next s)

/-- T_IDLE_EXPIRY: where the idle window of a bank runs, on an OPEN bank that is not in use and has no close asked for, a
close of cause IDLE is asked for at its end (R8). The model's own: the clock moves to that end (log 2), and where the
window does not run nothing changes (log 1). -/
def Obligations.TIdleExpiryAsksClose : Prop :=
  ∀ (b : Bank) (s : State) (l : Time), s.powered = true →
    ((s.bank b).state = .opened → s.inUse b = false → (s.bank b).closeWanted = none →
      (s.bank b).lastAccess = some l →
      ∃ t, exec (.tIdleExpiry b) s = .next t ∧ SameBut [.clock, .bankEngine] s t ∧
        t.clock = { s.clock with now := later s.clock.now (l + s.bankEngine.idleClose.toNat * 50) } ∧
        BanksSameBut b s t ∧ t.bank b = (s.bank b).ask .idle false t.clock.now) ∧
    (((s.bank b).state ≠ .opened ∨ s.inUse b = true ∨ (s.bank b).closeWanted ≠ none ∨ (s.bank b).lastAccess = none) →
      exec (.tIdleExpiry b) s = .next s)

/-! ## Refresh accounting, timers and temperature -/

/-- T_RF_EXPIRY: a REFRESHING bank becomes CLOSED; its balance rises by 1 but not above +L_eff, its pointer advances by 1,
from 512 back to 0, and its claim follows the new balance (R10, R57, R59); a debt repaid in ENTERING may bring the
close-all request (R166). The model's own: the clock moves to the end of the window (log 2), and on a bank that is not
REFRESHING nothing changes (log 1). -/
def Obligations.TRfExpiryCountsRefresh : Prop :=
  ∀ (b : Bank) (s : State) (w : Time), s.powered = true →
    ((s.bank b).state = .refreshing → (s.bank b).windowEnd = some w → s.balancesOk →
      ∃ u, exec (.tRfExpiry b) s = .next u.furtherCloseAll ∧ SameBut [.clock, .bankEngine, .refresh] s u ∧
        u.clock = { s.clock with now := later s.clock.now w } ∧ BanksSameBut b s u ∧ BalancesSameBut b s u ∧
        u.bank b =
          { state := .closed, row := none, openedAt := none, lastAccess := none, closeWanted := none
            windowEnd := none } ∧
        ((s.balanceOf b).balance < s.leff → (u.balanceOf b).balance = (s.balanceOf b).balance + 1) ∧
        ((s.balanceOf b).balance = s.leff → (u.balanceOf b).balance = s.leff) ∧
        (u.balanceOf b).pointer.val = ((s.balanceOf b).pointer.val + 1) % 513 ∧
        (u.balanceOf b).due = (s.balanceOf b).due ∧ u.claimFollows b) ∧
    ((s.bank b).state ≠ .refreshing → exec (.tRfExpiry b) s = .next s)

/-- INTERVAL_EXPIRY: the bank's balance falls by 1, and a full interval of the band in force begins, 250 µs in COOL, 125 µs
in NORMAL, 62.5 µs in WARM and 31.25 µs in HOT and CRITICAL, whatever else the part does; the claim follows, and one
that is URGENT asks for its close (R20, R54, R59). The model's own: the clock moves to the end of the interval (log 2),
and a claim that was URGENT already asks for its close again (log 19). -/
def Obligations.IntervalExpiryLowersBalance : Prop :=
  ∀ (b : Bank) (s : State), s.powered = true →
    ∃ u, exec (.intervalExpiry b) s = .next (u.urgentClose b) ∧ SameBut [.clock, .refresh] s u ∧
      u.clock = { s.clock with now := later s.clock.now (s.balanceOf b).due } ∧ BalancesSameBut b s u ∧
      (u.balanceOf b).balance = (s.balanceOf b).balance - 1 ∧ (u.balanceOf b).pointer = (s.balanceOf b).pointer ∧
      (s.clock.now ≤ (s.balanceOf b).due →
        u.remaining b =
          match s.thermal.band with
          | .cool => 250000
          | .normal => 125000
          | .warm => 62500
          | .hot => 31250
          | .critical => 31250) ∧
      u.claimFollows b ∧
      (u.urgentClose b = if (u.balanceOf b).balance ≤ -(u.leff : Int) then u.askClose .urgent b else u)

/-- A band change (R63, R64, R65, R163): every remainder is multiplied by the factor of R63's table; on a move to a faster
band every positive balance is set to 0, and otherwise no balance changes; a bank that is then URGENT has its close
asked for; OVERTEMP is raised at an entry into CRITICAL. A pull-in in flight at the discard can raise its bank to +1. A
bank that was URGENT already asks for its close again, between HOT and CRITICAL too: the model's reading (log 19). -/
def Obligations.BandChangeScalesAndDiscards : Prop :=
  (∀ s : State, s.setBand s.thermal.band = s) ∧
  ∀ (s : State) (new : Band), new ≠ s.thermal.band → 1 ≤ s.refresh.limit →
    let t := s.setBand new
    SameBut [.bankEngine, .refresh, .thermal, .alerts] s t ∧ t.thermal = { s.thermal with band := new } ∧
    t.refresh.limit = s.refresh.limit ∧ t.bankEngine.idleClose = s.bankEngine.idleClose ∧
    (∀ b, t.remaining b = s.remaining b * bandRatio s.thermal.band new ∧
      (t.balanceOf b).pointer = (s.balanceOf b).pointer ∧
      (bandRatio s.thermal.band new < 1 → 0 < (s.balanceOf b).balance → (t.balanceOf b).balance = 0) ∧
      ((1 ≤ bandRatio s.thermal.band new ∨ (s.balanceOf b).balance ≤ 0) →
        (t.balanceOf b).balance = (s.balanceOf b).balance) ∧
      ((t.balanceOf b).balance = 0 → ((t.balanceOf b).completed t.leff).balance = 1) ∧
      t.bank b =
        if (t.balanceOf b).balance ≤ -(t.leff : Int) then (s.bank b).ask .urgent (s.inUse b) s.clock.now
        else s.bank b) ∧
    t.alerts = { s.alerts with causes := if new = .critical then s.alerts.causes ||| 0x08 else s.alerts.causes }

/-- T_SENSE_EXPIRY: the SENSE releases the channel and its reading is taken. With good parity `reading` takes the value,
`thermal_fault` and `direct_next` clear, and the band is set directly, or to a warmer band at once, or to a cooler one at
3 °C below the lowest temperature of the current band. With bad parity `thermal_fault` and `direct_next` are set,
THERMAL_FAULT is raised and the band becomes HOT, unless it is CRITICAL (R12, R158, R160, R162). The model's own: the
clock moves to the end of T_SENSE (log 2), and with no SENSE in flight nothing changes (log 1). -/
def Obligations.TSenseExpiryTakesReading : Prop :=
  ∀ (reading : Int) (parityGood : Bool) (s : State), s.powered = true → -40 ≤ reading → reading ≤ 125 →
    (∀ op, s.channel = some op → op.work = .sense →
      let falls := fun band : Band =>
        match band with
        | .cool => reading ≤ 40
        | .normal => 41 ≤ reading ∧ reading ≤ 85
        | .warm => 86 ≤ reading ∧ reading ≤ 95
        | .hot => 96 ≤ reading ∧ reading ≤ 105
        | .critical => 106 ≤ reading
      let cooler := fun band : Band =>
        match band with
        | .cool => False
        | .normal => reading ≤ 38
        | .warm => reading ≤ 83
        | .hot => reading ≤ 93
        | .critical => reading ≤ 103
      ∃ u new, exec (.tSenseExpiry reading parityGood) s = .next (u.setBand new) ∧
        SameBut [.clock, .channel, .thermal, .alerts] s u ∧ u.channel = none ∧
        u.clock = { s.clock with now := later s.clock.now (op.grantedAt + 400) } ∧
        (parityGood = true →
          u.thermal = { s.thermal with reading, fault := false, directNext := false } ∧ u.alerts = s.alerts ∧
          ∃ band, falls band ∧
            ((s.thermal.directNext = true ∨ s.thermal.band.rank < band.rank ∨ cooler s.thermal.band) → new = band) ∧
            (s.thermal.directNext = false → band.rank ≤ s.thermal.band.rank → ¬ cooler s.thermal.band →
              new = s.thermal.band)) ∧
        (parityGood = false →
          u.thermal = { s.thermal with fault := true, directNext := true } ∧
          u.alerts = { s.alerts with causes := s.alerts.causes ||| 0x10 } ∧
          new = if s.thermal.band = .critical then .critical else .hot)) ∧
    ((∀ op, s.channel = some op → op.work ≠ .sense) → exec (.tSenseExpiry reading parityGood) s = .next s)

/-- POLL_TIMER_EXPIRY makes THERMAL_POLL pending and begins the next 32 ms, in every state of the part; DEVICE_TIME_TICK
counts one millisecond of device time, modulo 2^32 (R34, R173). SCRUB_STEP_TIMER_EXPIRY: with the timer running, the next
interval begins, and SCRUB becomes pending, or, where it is pending or in service, `lag` rises by 1 up to 255; the engine
then makes a push that is due (R41, R100). The model's own: the clock moves to the end of each period (log 2), and with
the step timer stopped nothing changes (log 1). -/
def Obligations.PollScrubAndDeviceTimers : Prop :=
  (∀ s : State, s.powered = true → ∃ t, exec .pollTimerExpiry s = .next t ∧ SameBut [.clock, .engine] s t ∧
    t.clock = { s.clock with now := later s.clock.now s.engine.pollDue } ∧
    t.engine = { s.engine with thermalPollPending := true, pollDue := s.engine.pollDue + 32000000 }) ∧
  (∀ s : State, s.powered = true → ∃ t, exec .deviceTimeTick s = .next t ∧ SameBut [.clock] s t ∧
    t.clock.now = later s.clock.now s.clock.nextMs ∧ t.clock.nextMs = s.clock.nextMs + 1000000 ∧
    t.clock.deviceTime.toNat = (s.clock.deviceTime.toNat + 1) % 4294967296) ∧
  (∀ s : State, s.powered = true →
    (∀ due, s.scrubber.stepDue = some due →
      let busy := s.engine.scrubPending = true ∨ ∃ b r g c, Job.scrub b r g c ∈ s.engine.stack
      ∃ u, exec .scrubStepTimerExpiry s = .next u.engineRun ∧ SameBut [.clock, .scrubber, .engine] s u ∧
        u.clock = { s.clock with now := later s.clock.now due } ∧
        (busy →
          u.engine = s.engine ∧
          u.scrubber =
            { s.scrubber with
              stepDue := some (due + s.scrubber.step.toNat * 100000), lag := min 255 (s.scrubber.lag + 1) }) ∧
        (¬ busy →
          u.engine = { s.engine with scrubPending := true } ∧
          u.scrubber = { s.scrubber with stepDue := some (due + s.scrubber.step.toNat * 100000) })) ∧
    (s.scrubber.stepDue = none → exec .scrubStepTimerExpiry s = .next s))

/-! ## Completions of array operations -/

/-- LINE_READ_COMPLETE: the channel is released and the words read are reported, whether or not the READ still stands; a
push that the reports make due is made. Where it stands, its response is offered: each byte the one taken from the
buffer, or else the delivered byte of its word; `err` on a beat that takes a byte from a word whose data is lost; status
DATA_ERROR if any beat has `err` (R12, R13, R151, R152, R156). The place of a byte in its response beat is the model's
choice (log 15). -/
def Obligations.LineReadCompleteAnswersHead : Prop :=
  ∀ (s : State) (op : Operation) (b : Bank) (p : PhysicalRow) (line : Line) (words : List ReadWord) (wanted : Bool),
    s.finishing op b p → op.work = .lineRead line words wanted → op.rows = [p] →
    let ds := words.map fun x => (x, (s.word (lineBank line) p (lineWord line x.word)).decode)
    ∃ u, exec .lineReadComplete s = .next u.engineRun ∧
      s.released b [.port, .remap, .errors, .alerts] u ∧
      u.errors = (s.reportRead line p ds).errors ∧ u.remap = (s.reportRead line p ds).remap ∧
      u.alerts = (s.reportRead line p ds).alerts ∧
      (wanted = false → u.port = s.port) ∧
      (∀ a n rest taken bytes ws, wanted = true → s.port.queue = .read a n :: rest →
        s.port.stage = some (.reading taken bytes ws true) → (words.Pairwise fun x y => x.word < y.word) →
        ∃ r, u.port = { s.port with stage := some (.responding r) } ∧ r.kind = .read ∧
          (r.status = .dataError ↔ ∃ beat ∈ r.beats, beat.err = true) ∧ r.beats.length = n.toNat ∧
          ∀ k, k < n.toNat → ∃ beat, r.beats[k]? = some beat ∧
            (∀ j, j < 4 →
              (taken.getLsbD (4 * lineBeat a k + j) = true →
                byteIn beat.data j = byteIn bytes (4 * lineBeat a k + j)) ∧
              (∀ d ∈ ds, taken.getLsbD (4 * lineBeat a k + j) = false →
                d.1.word.val = (4 * lineBeat a k + j) / 8 →
                byteIn beat.data j = byteIn d.2.data ((4 * lineBeat a k + j) % 8))) ∧
            (beat.err = true ↔
              ∃ j d, j < 4 ∧ d ∈ ds ∧ taken.getLsbD (4 * lineBeat a k + j) = false ∧
                d.1.word.val = (4 * lineBeat a k + j) / 8 ∧
                (d.2.outcome = .uncorrectable ∨ d.2.outcome = .poisoned)))

/-- DRAIN_COMPLETE: the channel is released and the drained words stand in every row visited, the entry's own bytes where
it covers the whole word, and over the decoded bytes where it covers part, as poison where the data is lost; every other
word stays. The reports are made, the entry leaves the buffer, and a marked entry that wrote poison sets `flush_poison`
for a FLUSH at the head. Then a waiting write is served, an entry chosen, the FLUSH answered, a due push made, and a
close-all request that is due made (R131, R132, R133, R134, R135, R139). A waiting write is served as a head is, and
where none stands nothing is served (R126). -/
def Obligations.DrainCompleteWritesLine : Prop :=
  (∀ s : State,
    (s.port.stage = some .waitingEntry → s.serveWaiting = s.serveHead) ∧
    (s.port.stage ≠ some .waitingEntry → s.serveWaiting = s)) ∧
  ∀ (s : State) (op : Operation) (p q : PhysicalRow) (more : List PhysicalRow) (e : BufferEntry),
    s.memoryOk → s.finishing op (lineBank e.line) q → (op.work = .lineWrite e.line ∨ op.work = .lineMerge e.line) →
    op.rows = p :: more → s.buffer.entries.find? (fun f => f.state = .draining) = some e →
    let b := lineBank e.line
    let old := fun k : Fin 4 => (s.word b p (lineWord e.line k)).decode
    let partly := fun k : Fin 4 => wordValid e.valid k ≠ 0 ∧ wordValid e.valid k ≠ 0xFF
    let poison := ∃ k : Fin 4, partly k ∧ ((old k).outcome = .uncorrectable ∨ (old k).outcome = .poisoned)
    ∃ u, exec .drainComplete s = .next u.serveWaiting.chooseEntry.finishFlush.engineRun.furtherCloseAll ∧
      s.released b [.array, .buffer, .remap, .errors, .alerts] u ∧
      WordsSameBut
        (fun c row w => c = b ∧ row ∈ op.rows ∧ ∃ k : Fin 4, w = lineWord e.line k ∧ wordValid e.valid k ≠ 0) s u ∧
      (∀ row ∈ op.rows, ∀ k : Fin 4,
        (wordValid e.valid k = 0xFF → u.word b row (lineWord e.line k) = .valid (wordData e.data k)) ∧
        (partly k →
          ∃ bytes, u.word b row (lineWord e.line k) =
              (if (old k).outcome.lost then .poisoned bytes else .valid bytes) ∧
            ∀ i, i < 8 → byteIn bytes i =
              if (wordValid e.valid k).getLsbD i then byteIn (wordData e.data k) i else byteIn (old k).data i)) ∧
      (let reported := (lineWords.filter fun k => decide (partly k)).map fun k => (lineWord e.line k, old k)
       u.errors = (s.reportAll .drain b (lineRow e.line) p reported).errors ∧
       u.remap = (s.reportAll .drain b (lineRow e.line) p reported).remap ∧
       u.alerts = (s.reportAll .drain b (lineRow e.line) p reported).alerts) ∧
      u.buffer.entries = s.buffer.entries.filter (fun f => f.state ≠ .draining) ∧
      u.buffer.drainAge = s.buffer.drainAge ∧
      (u.buffer.flushPoison = true ↔
        s.buffer.flushPoison = true ∨
          (e.flushMark = true ∧ s.port.queue.head? = some .flush ∧ (e.poisonWritten = true ∨ poison)))

/-- ROW_FILL_COMPLETE: the channel is released, all 128 words of the row are valid words of zero and no other word changes,
the row's mark is set, and with the last clear mark fill done is set and FILL_DONE raised (R113, R114, R121). -/
def Obligations.RowFillCompleteMarksRow : Prop :=
  ∀ (s : State) (op : Operation) (b : Bank) (p : PhysicalRow) (line : Line), s.memoryOk →
    s.finishing op b p → op.work = .rowFill line → op.rows = [p] →
    let i := sweepIndex (lineBank line) (lineRow line)
    ∃ u, exec .rowFillComplete s = .next u.engineRun ∧ s.released b [.array, .fillMap, .alerts] u ∧
      WordsSameBut (fun c row _ => c = b ∧ row = p) s u ∧ (∀ w, u.word b p w = .valid 0) ∧
      (∀ j : SweepIndex, u.fillMap.marks.getLsbD j.val = (decide (j = i) || s.fillMap.marks.getLsbD j.val)) ∧
      (s.fillMap.marks.getLsbD i.val = true → u.fillMap = s.fillMap ∧ u.alerts = s.alerts) ∧
      (s.fillMap.marks.getLsbD i.val = false →
        ((∀ j : SweepIndex, j ≠ i → s.fillMap.marks.getLsbD j.val = true) →
          u.fillMap.done = true ∧ u.alerts = { s.alerts with causes := s.alerts.causes ||| 0x20 }) ∧
        ((∃ j : SweepIndex, j ≠ i ∧ s.fillMap.marks.getLsbD j.val = false) →
          u.fillMap.done = s.fillMap.done ∧ u.alerts = s.alerts))

/-- FILL_STEP_COMPLETE: the channel is released, the 16 words of the group are valid words of zero and no other word
changes. Before the eighth group the job goes on to the next group of its row; at the eighth the row is marked and the
job takes the next index whose mark is clear, or is popped where none is ahead (R113, R116, R117). -/
def Obligations.FillStepCompleteAdvances : Prop :=
  ∀ (s : State) (op : Operation) (b : Bank) (p : PhysicalRow) (i : SweepIndex) (g : Nat) (rest : List Job),
    s.memoryOk → s.finishing op b p → op.work = .fillStep g → op.rows = [p] → s.engine.stack = .fill i g :: rest →
    g < 8 →
    ∃ u, exec .fillStepComplete s = .next u.engineRun.furtherCloseAll ∧
      s.released b [.array, .fillMap, .engine, .alerts] u ∧
      WordsSameBut (fun c row w => c = b ∧ row = p ∧ w.val / 16 = g) s u ∧
      (∀ w : WordInRow, w.val / 16 = g → u.word b p w = .valid 0) ∧
      (g < 7 →
        u.fillMap = s.fillMap ∧ u.alerts = s.alerts ∧
        u.engine = { s.engine with stack := .fill i (g + 1) :: rest }) ∧
      (g = 7 →
        u.fillMap = (s.markRow i).fillMap ∧ u.alerts = (s.markRow i).alerts ∧
        (∀ j : SweepIndex, u.fillMap.marks.getLsbD j.val = (decide (j = i) || s.fillMap.marks.getLsbD j.val)) ∧
        (∀ j : SweepIndex, i < j → s.fillMap.marks.getLsbD j.val = false →
          (∀ k : SweepIndex, i < k → k < j → s.fillMap.marks.getLsbD k.val = true) →
          u.engine = { s.engine with stack := .fill j 0 :: rest }) ∧
        ((∀ j : SweepIndex, i < j → s.fillMap.marks.getLsbD j.val = true) →
          u.engine = { s.engine with stack := rest }))

/-- SCRUB_GROUP_STEP_COMPLETE: the channel is released; a word decoded CORRECTED is written back as a valid word of its
delivered data and an UNCORRECTABLE one as poison, in every row visited, and no other word changes; the 16 outcomes are
reported. Before the eighth group the job goes on; at the eighth `last_corrections` is set, the cursor moves on, the
job is popped, and with `lag` above 0 it falls by 1 and SCRUB becomes pending (R105, R106, R107). -/
def Obligations.ScrubStepCompleteWritesBack : Prop :=
  ∀ (s : State) (op : Operation) (b : Bank) (r : LogicalRow) (p q : PhysicalRow) (more : List PhysicalRow) (g n : Nat)
    (jb : Bank) (jr : LogicalRow) (rest : List Job),
    s.memoryOk → s.finishing op b q → op.work = .scrubStep g → op.logicalRow = some r → op.rows = p :: more →
    s.engine.stack = .scrub jb jr g n :: rest → g < 8 →
    let old := fun w : WordInRow => (s.word b p w).decode
    let ds := (groupWords g).map fun w => (w, old w)
    let found := (groupWords g).countP fun w => decide ((old w).outcome = .corrected)
    ∃ u, exec .scrubGroupStepComplete s = .next u.engineRun.furtherCloseAll ∧
      s.released b [.array, .engine, .remap, .scrubber, .errors, .alerts] u ∧
      WordsSameBut
        (fun c row w => c = b ∧ row ∈ op.rows ∧ w.val / 16 = g ∧
          ((old w).outcome = .corrected ∨ (old w).outcome = .uncorrectable)) s u ∧
      (∀ row ∈ op.rows, ∀ w : WordInRow, w.val / 16 = g →
        ((old w).outcome = .corrected → u.word b row w = .valid (old w).data) ∧
        ((old w).outcome = .uncorrectable → u.word b row w = .poisoned (old w).data)) ∧
      u.errors = (s.reportAll .scrub b r p ds).errors ∧ u.remap = (s.reportAll .scrub b r p ds).remap ∧
      u.alerts = (s.reportAll .scrub b r p ds).alerts ∧
      (g < 7 →
        u.scrubber = s.scrubber ∧ u.engine = { s.engine with stack := .scrub jb jr (g + 1) (n + found) :: rest }) ∧
      (g = 7 →
        u.scrubber =
          { s.scrubber with
            cursor := u.scrubber.cursor, passCount := u.scrubber.passCount, lastCorrections := n + found
            lag := s.scrubber.lag - 1 } ∧
        u.scrubber.cursor.val = (s.scrubber.cursor.val + 1) % 131072 ∧
        u.scrubber.passCount = (if s.scrubber.cursor.val = 131071 then s.scrubber.passCount + 1
          else s.scrubber.passCount) ∧
        u.engine =
          { s.engine with
            stack := rest, scrubPending := if 0 < s.scrubber.lag then true else s.engine.scrubPending })

/-- MIGRATE_STEP_COMPLETE: the channel is released; the 16 words of the group stand in the target, a word whose data is
lost as poison and any other as a valid word of its delivered data, and no other word changes; the reports of R89 are
made. Before the eighth group the cursor rises in the remap entry and in the job; at the eighth the entry becomes LIVE,
a spare source DEAD, the suspect entry is removed and the job is popped (R30, R88, R89, R93). -/
def Obligations.MigrateStepCompleteCopiesGroup : Prop :=
  ∀ (s : State) (op : Operation) (b : Bank) (p q : PhysicalRow) (g : Nat) (r : LogicalRow) (slot : Slot)
    (rest : List Job) (entry : RemapEntry),
    s.memoryOk → s.finishing op b q → op.work = .migrateStep g → op.rows = [p, q] →
    s.engine.stack = .migrate b r slot g :: rest → g < 8 → s.remap.tables[b][slot] = some entry → entry.cursor = g →
    let old := fun w : WordInRow => (s.word b p w).decode
    let ds := (groupWords g).map fun w => (w, old w)
    ∃ u, exec .migrateStepComplete s = .next u.engineRun.furtherCloseAll ∧
      s.released b [.array, .engine, .remap, .errors, .alerts] u ∧
      WordsSameBut (fun c row w => c = b ∧ row = q ∧ w.val / 16 = g) s u ∧
      (∀ w : WordInRow, w.val / 16 = g →
        u.word b q w = if (old w).outcome.lost then .poisoned (old w).data else .valid (old w).data) ∧
      u.errors = (s.reportMigration b p ds).errors ∧ u.alerts = (s.reportMigration b p ds).alerts ∧
      u.remap.threshold = s.remap.threshold ∧
      (∀ (c : Bank) (i : Slot), (c, i) ≠ (b, slot) → u.remap.tables[c][i] = s.remap.tables[c][i]) ∧
      (g < 7 →
        u.remap.suspects = s.remap.suspects ∧ u.remap.queuedOrder = s.remap.queuedOrder ∧
        u.remap.spares = s.remap.spares ∧ u.remap.tables[b][slot] = some { entry with cursor := g + 1 } ∧
        u.engine = { s.engine with stack := .migrate b r slot (g + 1) :: rest }) ∧
      (g = 7 →
        u.remap.tables[b][slot] = some { entry with cursor := 8, state := .live, source := none } ∧
        u.remap.suspects = s.remap.suspects.filter (fun e => ¬ (e.bank = b ∧ e.logicalRow = r)) ∧
        u.remap.queuedOrder = s.remap.queuedOrder.filter (fun k => k ≠ (b, r)) ∧
        (∀ c t, u.remap.spare c t =
          if c = b ∧ entry.source = some (spareRow t) then .dead else s.remap.spare c t) ∧
        u.engine = { s.engine with stack := rest })

/-! ## Decoding, reports, the engine -/

/-- The outcomes of a decode by the bits changed since the word was written (R26): a valid word with none changed is CLEAN
and with one changed is CORRECTED, with the written data; with two it is UNCORRECTABLE or POISONED; a poison word with
none or one changed is POISONED. In every case the outcome and the data are those of the class that the stored bits
fall in (R25), whatever the code of R26 is. The form of a stored word, data, poison and changed bits, is the model's
(log 4), and the code is a free value (log 5). -/
def Obligations.DecodeOutcomesByChangedBits : Prop :=
  ∀ w : StoredWord,
    (w.poison = false → w.changedBits = 0 → w.decode = ⟨.clean, w.data⟩) ∧
    (w.poison = false → w.changedBits = 1 → w.decode = ⟨.corrected, w.data⟩) ∧
    (w.poison = false → w.changedBits = 2 →
      w.decode = ⟨.uncorrectable, w.storedData⟩ ∨ w.decode = ⟨.poisoned, w.storedData⟩) ∧
    (w.poison = true → w.changedBits ≤ 1 → w.decode = ⟨.poisoned, w.storedData⟩) ∧
    w.decode = w.classify Config.code

/-- A report to the error table (R175, R176). A repeat raises the count of its record; a new key makes a record at the end,
with the first creation number from the counter on that no record holds; a full table replaces the CE record of oldest
`last_ms`, the first created among equals, or drops the report, setting `saturated` for a UE or UNREPAIRABLE and raising
TABLE_SATURATED when it was clear. CLEAR_ERRORS empties the table and clears `saturated`, with DONE, and keeps the
counter (R177). -/
def Obligations.ErrorTableReports : Prop :=
  (∀ (s : State) (e : ErrorReport), s.errors.records.length ≤ 16 →
    let t := s.report e
    let now := s.clock.deviceTime
    let keyed := fun r : ErrorRecord =>
      r.kind = e.kind ∧ r.bank = e.bank ∧ r.physicalRow = e.physicalRow ∧ r.word = e.word
    let made := fun (old : List ErrorRecord) =>
      ∃ n : Nat,
        (∀ j, j < n → ∃ r ∈ old, r.seq = s.errors.counter + BitVec.ofNat 16 j) ∧
        (∀ r ∈ old, r.seq ≠ s.errors.counter + BitVec.ofNat 16 n) ∧
        t.errors =
          { records := old ++
              [{ seq := s.errors.counter + BitVec.ofNat 16 n, kind := e.kind, source := e.source, bank := e.bank
                 physicalRow := e.physicalRow, word := e.word, count := 1, firstMs := now, lastMs := now }]
            counter := s.errors.counter + BitVec.ofNat 16 n + 1, saturated := s.errors.saturated }
    SameBut [.errors, .alerts] s t ∧
    ((∃ r ∈ s.errors.records, keyed r) →
      t.alerts = s.alerts ∧ t.errors.counter = s.errors.counter ∧ t.errors.saturated = s.errors.saturated ∧
      t.errors.records.length = s.errors.records.length ∧
      ∀ (k : Nat) (r : ErrorRecord), s.errors.records[k]? = some r →
        (¬ keyed r → t.errors.records[k]? = some r) ∧
        (keyed r → t.errors.records[k]? = some { r with count := min 255 (r.count + 1), lastMs := now })) ∧
    ((∀ r ∈ s.errors.records, ¬ keyed r) →
      (s.errors.records.length < 16 → t.alerts = s.alerts ∧ made s.errors.records) ∧
      (∀ pre r post, s.errors.records.length = 16 → s.errors.records = pre ++ r :: post → r.kind = .ce →
        (∀ x ∈ pre, x.kind = .ce → (now - x.lastMs).toNat < (now - r.lastMs).toNat) →
        (∀ x ∈ post, x.kind = .ce → (now - x.lastMs).toNat ≤ (now - r.lastMs).toNat) →
        t.alerts = s.alerts ∧ made (pre ++ post)) ∧
      (s.errors.records.length = 16 → (∀ r ∈ s.errors.records, r.kind ≠ .ce) →
        (e.kind = .ce → t = s) ∧
        (e.kind ≠ .ce →
          t.errors = { s.errors with saturated := true } ∧
          t.alerts =
            if s.errors.saturated then s.alerts else { s.alerts with causes := s.alerts.causes ||| 0x40 })))) ∧
  (∀ s : State, s.powered = true → ∃ t, exec .clearErrors s = .next t ∧ SameBut [.errors, .link] s t ∧
    t.errors = { records := [], counter := s.errors.counter, saturated := false } ∧
    t.link = { s.link with index := 3, out := [], command := 4, result := .done })

/-- The report of a decode outcome to the suspect list (R73, R74, R75, R76). CLEAN and POISONED, and any outcome for a row
that is migrating, change nothing. For a row listed, CORRECTED raises the tally by 1 up to 15, and a NORMAL entry at or
above the threshold becomes QUEUED; UNCORRECTABLE queues a NORMAL entry with the threshold as its tally, and raises the
tally of any other. For a row not listed an entry is added, in a full list in place of the NORMAL entry of lowest tally,
the oldest among equals, or not at all. -/
def Obligations.SuspectListReports : Prop :=
  ∀ (s : State) (b : Bank) (r : LogicalRow) (o : DecodeOutcome),
    let t := s.reportSuspect b r o
    let now := s.clock.deviceTime
    let names := fun e : SuspectEntry => e.bank = b ∧ e.logicalRow = r
    SameBut [.remap] s t ∧ t.remap.tables = s.remap.tables ∧ t.remap.spares = s.remap.spares ∧
    t.remap.threshold = s.remap.threshold ∧
    ((o = .clean ∨ o = .poisoned ∨ s.remap.isMigrating b r = true) → t = s) ∧
    (s.remap.isMigrating b r = false → (o = .corrected ∨ o = .uncorrectable) → s.suspectsOk →
      (∀ pre e post, s.remap.suspects = pre ++ e :: post → names e →
        let tally := min 15 (e.tally + 1)
        let queues := e.state = .normal ∧ (o = .uncorrectable ∨ s.remap.threshold ≤ tally)
        (queues →
          t.remap.suspects =
            pre ++
              { e with
                tally := if o = .uncorrectable then s.remap.threshold else tally
                state := .queued, queuedAt := some now } :: post ∧
          t.remap.queuedOrder = s.remap.queuedOrder ++ [(b, r)]) ∧
        (¬ queues →
          t.remap.suspects = pre ++ { e with tally } :: post ∧ t.remap.queuedOrder = s.remap.queuedOrder)) ∧
      ((∀ e ∈ s.remap.suspects, ¬ names e) →
        let queues := o = .uncorrectable ∨ s.remap.threshold ≤ 1
        let added : SuspectEntry :=
          { bank := b, logicalRow := r, tally := if o = .uncorrectable then s.remap.threshold else 1
            state := if queues then .queued else .normal, queuedAt := if queues then some now else none }
        let order := if queues then s.remap.queuedOrder ++ [(b, r)] else s.remap.queuedOrder
        (s.remap.suspects.length < 8 →
          t.remap.suspects = s.remap.suspects ++ [added] ∧ t.remap.queuedOrder = order) ∧
        (∀ pre e post, s.remap.suspects.length = 8 → s.remap.suspects = pre ++ e :: post → e.state = .normal →
          (∀ x ∈ pre, x.state = .normal → e.tally < x.tally) → (∀ x ∈ post, x.state = .normal → e.tally ≤ x.tally) →
          t.remap.suspects = pre ++ post ++ [added] ∧ t.remap.queuedOrder = order) ∧
        (s.remap.suspects.length = 8 → (∀ e ∈ s.remap.suspects, e.state ≠ .normal) → t = s)))

/-- What one decoded word reports (R106, R134, R152): CORRECTED a CE record and a report to the suspect list;
UNCORRECTABLE a UE record, a report to the list and the UE alert; CLEAN and POISONED nothing. A migration step's source
word reports the same but to the list (R89). The words of an operation report one after another in their order, with the
operation's bank, logical row and physical row: a drain's and a scrub step's with its own source, a migration step's as
above, and a LINE-READ's with source READ_MERGE where some needed bytes of the word came from the buffer, and READ
otherwise. -/
def Obligations.WordOutcomeReports : Prop :=
  (∀ (s : State) (source : ErrorSource) (b : Bank) (r : LogicalRow) (p : PhysicalRow) (line : Line),
    s.reportAll source b r p [] = s ∧ s.reportMigration b p [] = s ∧ s.reportRead line p [] = s ∧
    (∀ (w : WordInRow) (d : Decoded) (rest : List (WordInRow × Decoded)),
      s.reportAll source b r p ((w, d) :: rest) =
        (s.reportWord source b r p w d.outcome).reportAll source b r p rest ∧
      s.reportMigration b p ((w, d) :: rest) = (s.reportMigrated b p w d.outcome).reportMigration b p rest) ∧
    ∀ (x : ReadWord) (d : Decoded) (rest : List (ReadWord × Decoded)),
      let reported := fun source : ErrorSource =>
        s.reportWord source (lineBank line) (lineRow line) p (lineWord line x.word) d.outcome
      (x.merged = true → s.reportRead line p ((x, d) :: rest) = (reported .readMerge).reportRead line p rest) ∧
      (x.merged = false → s.reportRead line p ((x, d) :: rest) = (reported .read).reportRead line p rest)) ∧
  ∀ (s : State) (source : ErrorSource) (b : Bank) (r : LogicalRow) (p : PhysicalRow) (w : WordInRow),
    (∀ o, o = .clean ∨ o = .poisoned → s.reportWord source b r p w o = s ∧ s.reportMigrated b p w o = s) ∧
    (∃ t, s.report { kind := .ce, source, bank := b, physicalRow := p, word := some w } = t ∧
      s.reportWord source b r p w .corrected = t.reportSuspect b r .corrected) ∧
    (∃ t, s.report { kind := .ue, source, bank := b, physicalRow := p, word := some w } = t ∧
      ∃ v, v = s.reportWord source b r p w .uncorrectable ∧ v.remap = (t.reportSuspect b r .uncorrectable).remap ∧
        v.errors = t.errors ∧ v.alerts = { t.alerts with causes := t.alerts.causes ||| 0x01 } ∧
        SameBut [.remap, .errors, .alerts] s v) ∧
    s.reportMigrated b p w .corrected =
      s.report { kind := .ce, source := .migrate, bank := b, physicalRow := p, word := some w } ∧
    (∃ t, s.report { kind := .ue, source := .migrate, bank := b, physicalRow := p, word := some w } = t ∧
      SameBut [.alerts] t (s.reportMigrated b p w .uncorrectable) ∧
      (s.reportMigrated b p w .uncorrectable).alerts = { t.alerts with causes := t.alerts.causes ||| 0x01 })

/-- The engine takes up its work (R41, R43, R47, R48, R86, R87, R103, R107, R117, R118). In ENTERING and HOLD, with a step in
flight, or with nothing due, it does nothing; a pending class of lower level than the top, or of its own, waits. A QUEUED row that no job serves is pushed before any other class above a
top that is no MIGRATE job: the lowest FREE spare becomes IN_USE and the migration is opened from the ordinary row, or
from the spare of the LIVE entry; without a FREE spare the entry becomes UNREPAIRABLE and the engine goes on. Otherwise a pending SCRUB is pushed
above a FILL job or nothing, on the first filled row from the cursor on, wrapping; where no row is filled it is complete
at once, and so is each that `lag` makes pending, until `lag` is 0, `cursor`, `pass_count` and `last_corrections` left.
With no push due, a FILL job that is the top and stands on a marked row takes the next clear index, or is popped. -/
def Obligations.EngineStartsJobs : Prop :=
  ∀ s : State,
    let mayAct := (s.hold.state = .active ∨ s.hold.state = .waking) ∧ s.stepInFlight = false
    let belowMigrate := ∀ j, s.engine.stack.head? = some j → ∀ b r i c, j ≠ .migrate b r i c
    let unserved := fun k : Bank × LogicalRow => ∀ j ∈ s.engine.stack, ∀ i c, j ≠ .migrate k.1 k.2 i c
    (s.stepInFlight = true ↔
      ∃ op g, s.channel = some op ∧ (op.work = .migrateStep g ∨ op.work = .scrubStep g ∨ op.work = .fillStep g)) ∧
    (¬ mayAct → s.engineRun = s) ∧
    ((∀ k ∈ s.remap.queuedOrder, ¬ unserved k) → s.engine.scrubPending = false → s.engine.fillPending = false →
      (∀ i g rest, s.engine.stack = .fill i g :: rest → s.fillMap.marks.getLsbD i.val = false) → s.engineRun = s) ∧
    (∀ b r i c rest, s.engine.stack = .migrate b r i c :: rest → s.engineRun = s) ∧
    (∀ b r g n rest, s.engine.stack = .scrub b r g n :: rest → (∀ k ∈ s.remap.queuedOrder, ¬ unserved k) →
      s.engineRun = s) ∧
    (∀ i g rest, s.engine.stack = .fill i g :: rest → (∀ k ∈ s.remap.queuedOrder, ¬ unserved k) →
      s.engine.scrubPending = false → s.fillMap.marks.getLsbD i.val = false → s.engineRun = s) ∧
    (∀ pre k post, mayAct → belowMigrate → s.remap.queuedOrder = pre ++ k :: post → unserved k →
      (∀ x ∈ pre, ¬ unserved x) →
      (∀ spare, s.remap.spare k.1 spare = .free → (∀ x, x < spare → s.remap.spare k.1 x ≠ .free) →
        ∃ t slot, s.engineRun = t ∧ SameBut [.engine, .remap, .alerts] s t ∧
          t.engine = { s.engine with stack := .migrate k.1 k.2 slot 0 :: s.engine.stack } ∧
          t.remap.suspects = s.remap.suspects ∧ t.remap.queuedOrder = s.remap.queuedOrder ∧
          (∀ c x, t.remap.spare c x = if c = k.1 ∧ x = spare then .inUse else s.remap.spare c x) ∧
          (∀ (c : Bank) (i : Slot), (c, i) ≠ (k.1, slot) → t.remap.tables[c][i] = s.remap.tables[c][i]) ∧
          (s.remap.find k.1 k.2 = none → (∃ i : Slot, s.remap.tables[k.1][i] = none) →
            s.remap.tables[k.1][slot] = none ∧ (∀ i : Slot, i < slot → s.remap.tables[k.1][i] ≠ none) ∧
            t.remap.tables[k.1][slot] =
              some { logicalRow := k.2, target := spare, state := .migrating, source := some (ordinaryRow k.2)
                     cursor := 0 }) ∧
          (∀ i e, s.remap.find k.1 k.2 = some (i, e) →
            slot = i ∧
            t.remap.tables[k.1][slot] =
              some { logicalRow := k.2, target := spare, state := .migrating, source := some (spareRow e.target)
                     cursor := 0 }) ∧
          t.alerts =
            if s.remap.countSpares k.1 .free ≤ 3 then { s.alerts with causes := s.alerts.causes ||| 0x02 }
            else s.alerts) ∧
      ((∀ x, s.remap.spare k.1 x ≠ .free) →
        let report : ErrorReport :=
          { kind := .unrepairable, source := .remap, bank := k.1, physicalRow := s.remap.readRow k.1 k.2, word := none }
        ∃ u, s.engineMove = some u ∧
          (s.sizesOk → s.remap.queuedOk → s.settingsOk → s.stackOk → s.engineRun = u.engineRun) ∧
          SameBut [.remap, .errors, .alerts] s u ∧ u.engine = s.engine ∧ u.remap.threshold = s.remap.threshold ∧
          u.remap.tables = s.remap.tables ∧ u.remap.spares = s.remap.spares ∧
          u.remap.queuedOrder = s.remap.queuedOrder.filter (fun x => x ≠ k) ∧
          u.remap.suspects =
            (s.remap.suspects.map fun e =>
              if e.bank = k.1 ∧ e.logicalRow = k.2 then { e with state := .unrepairable, queuedAt := none } else e) ∧
          u.errors = (s.report report).errors ∧
          u.alerts = { (s.report report).alerts with causes := (s.report report).alerts.causes ||| 0x04 })) ∧
    (∀ i : SweepIndex, mayAct → (∀ k ∈ s.remap.queuedOrder, ¬ unserved k) → s.engine.scrubPending = true →
      (s.engine.stack = [] ∨ ∃ j g rest, s.engine.stack = .fill j g :: rest) → s.engine.fillPending = false →
      s.fillMap.marks.getLsbD i.val = true →
      (s.scrubber.cursor ≤ i ∧ (∀ j, s.scrubber.cursor ≤ j → j < i → s.fillMap.marks.getLsbD j.val = false) ∨
        i < s.scrubber.cursor ∧ (∀ j, s.scrubber.cursor ≤ j → s.fillMap.marks.getLsbD j.val = false) ∧
          ∀ j, j < i → s.fillMap.marks.getLsbD j.val = false) →
      ∃ t, s.engineRun = t ∧ SameBut [.engine, .scrubber] s t ∧
        t.engine =
          { s.engine with
            scrubPending := false, stack := .scrub (sweepBank i) (sweepRow i) 0 0 :: s.engine.stack } ∧
        t.scrubber =
          { s.scrubber with
            cursor := i
            passCount := if i < s.scrubber.cursor then s.scrubber.passCount + 1 else s.scrubber.passCount }) ∧
    (mayAct → (∀ k ∈ s.remap.queuedOrder, ¬ unserved k) → s.engine.scrubPending = true →
      (s.engine.stack = [] ∨ ∃ j g rest, s.engine.stack = .fill j g :: rest) → s.engine.fillPending = false →
      (∀ i : SweepIndex, s.fillMap.marks.getLsbD i.val = false) → s.scrubber.lag ≤ 255 →
      ∃ t, s.engineRun = t ∧ SameBut [.engine, .scrubber] s t ∧ t.engine = { s.engine with scrubPending := false } ∧
        t.scrubber = { s.scrubber with lag := 0 }) ∧
    (∀ (i : SweepIndex) (g : Nat) (rest : List Job), mayAct → (∀ k ∈ s.remap.queuedOrder, ¬ unserved k) →
      s.engine.scrubPending = false → s.engine.fillPending = false → s.stackOk → s.engine.stack = .fill i g :: rest →
      s.fillMap.marks.getLsbD i.val = true →
      ∃ t, s.engineRun = t ∧ SameBut [.engine] s t ∧
        (∀ j : SweepIndex, i < j → s.fillMap.marks.getLsbD j.val = false →
          (∀ k : SweepIndex, i < k → k < j → s.fillMap.marks.getLsbD k.val = true) →
          t.engine = { s.engine with stack := .fill j 0 :: rest }) ∧
        ((∀ j : SweepIndex, i < j → s.fillMap.marks.getLsbD j.val = true) →
          t.engine = { s.engine with stack := rest }))

/-! ## The hold state and the commands of the link -/

/-- HOLD_ENTER: in ENTERING, with the queue and the buffer empty, no step in flight, no balance below 0 and no bank
OPENING, OPEN or CLOSING, the state becomes HOLD and HOLD_ENTERED is raised; otherwise nothing changes (R166).
T_WAKE_EXPIRY: in WAKING the state becomes ACTIVE at the end of the window (R170). The model's own: the clock moves to
that end (log 2), and outside WAKING nothing changes (log 1). -/
def Obligations.HoldEnterAndWakeEnd : Prop :=
  (∀ s : State, s.powered = true →
    let all := s.hold.state = .entering ∧ s.port.queue = [] ∧ s.buffer.entries = [] ∧ s.stepInFlight = false ∧
      (∀ b, 0 ≤ (s.balanceOf b).balance) ∧ ∀ b, (s.bank b).state = .closed ∨ (s.bank b).state = .refreshing
    (all → ∃ t, exec .holdEnter s = .next t ∧ SameBut [.hold, .alerts] s t ∧
      t.hold = { s.hold with state := .hold } ∧ t.alerts = { s.alerts with causes := s.alerts.causes ||| 0x80 }) ∧
    (¬ all → exec .holdEnter s = .next s)) ∧
  (∀ (s : State) (w : Time), s.powered = true →
    (s.hold = { state := .waking, wakeEnd := some w } →
      ∃ t, exec .tWakeExpiry s = .next t ∧ SameBut [.clock, .hold] s t ∧
        t.hold = { state := .active, wakeEnd := none } ∧
        t.clock = { s.clock with now := later s.clock.now w }) ∧
    (s.hold.state ≠ .waking → exec .tWakeExpiry s = .next s))

/-- The commands HOLD and WAKE by the hold state (R165): HOLD is taken in ACTIVE, which becomes ENTERING, with the
close-all request (R11, R166) and the choice of an entry, every FILLING entry being due (R130, R141); WAKE is taken in
ENTERING, which becomes ACTIVE (R168), and in HOLD, which becomes WAKING with T_WAKE of 2 µs (R170), and the engine then
takes up its work (R49); each sets DONE. Every other is refused with BUSY and changes no block but the link. The command
is the transaction of COMMAND alone, which leaves the register index behind it and returns nothing (R181, log 12). -/
def Obligations.HoldAndWakeByHoldState : Prop :=
  ∀ s : State, s.powered = true →
    let noted := fun code : Byte => (s.linkAt 3).commandNoted code
    (s.hold.state = .active →
      ∃ u, exec .hold s = .next (u.chooseEntry.setResult .done) ∧ SameBut [.hold, .bankEngine] (noted 1) u ∧
        u.hold = { s.hold with state := .entering } ∧ u.bankEngine.idleClose = s.bankEngine.idleClose ∧
        ∀ b, u.bank b = (s.bank b).ask .hold (s.inUse b) s.clock.now) ∧
    (s.hold.state ≠ .active → exec .hold s = .next ((noted 1).setResult .busy)) ∧
    (s.hold.state = .entering →
      exec .wake s = .next (((noted 2).setHold { s.hold with state := .active }).engineRun.setResult .done)) ∧
    (s.hold.state = .hold →
      exec .wake s =
        .next (((noted 2).setHold
          { state := .waking, wakeEnd := some (s.clock.now + 2000) }).engineRun.setResult .done)) ∧
    ((s.hold.state = .active ∨ s.hold.state = .waking) → exec .wake s = .next ((noted 2).setResult .busy))

/-- ACK clears the causes named in COMMAND_ARG and no other, with DONE, and changes neither the mask nor anything else.
A cause raised before the ACK that names it is cleared; one raised after it stays pending (R180). -/
def Obligations.AckClearsNamedCauses : Prop :=
  (∀ s : State, s.powered = true →
    ∃ t, exec .ack s = .next t ∧ SameBut [.alerts, .link] s t ∧ t.alerts.mask = s.alerts.mask ∧
      (∀ i, t.alerts.causes.getLsbD i = (s.alerts.causes.getLsbD i && !s.link.commandArg.getLsbD i)) ∧
      t.link = { s.link with index := 3, out := [], command := 3, result := .done }) ∧
  (∀ (s : State) (c : Cause), s.powered = true → s.link.commandArg &&& c.bit ≠ 0 →
    (∃ t, exec .ack (s.raise c) = .next t ∧ t.alerts.causes &&& c.bit = 0) ∧
    (∃ t, exec .ack s = .next t ∧ t.alerts.causes &&& c.bit = 0 ∧ (t.raise c).alerts.causes &&& c.bit = c.bit))

/-- CLEAR_SUSPECTS removes every NORMAL and every UNREPAIRABLE entry, leaves the QUEUED entries in their order, sets DONE
in every hold state, and changes no remap table, spare, error record or alert cause (R79). -/
def Obligations.ClearSuspectsKeepsQueued : Prop :=
  ∀ s : State, s.powered = true →
    ∃ t, exec .clearSuspects s = .next t ∧ SameBut [.remap, .link] s t ∧
      t.remap = { s.remap with suspects := t.remap.suspects } ∧
      t.remap.suspects = s.remap.suspects.filter (fun e => e.state = .queued) ∧
      (∀ e, e ∈ t.remap.suspects ↔ e ∈ s.remap.suspects ∧ e.state ≠ .normal ∧ e.state ≠ .unrepairable) ∧
      t.link = { s.link with index := 3, out := [], command := 5, result := .done }

/-- RETIRE on the row of RETIRE_BANK and RETIRE_ROW, judged in the order of R78: an unfilled row is refused with
NOT_FILLED, a QUEUED one with ALREADY; a NORMAL or UNREPAIRABLE entry becomes QUEUED with its tally kept; a row not listed
is added, QUEUED with tally 1, in a full list in place of the NORMAL entry of lowest tally, the oldest among equals, or
refused with FULL. A RETIRE that is taken sets DONE and lets the engine push its migration. -/
def Obligations.RetireIsJudgedInOrder : Prop :=
  ∀ s : State, s.powered = true → s.suspectsOk →
    let b := s.link.retireBank
    let r := s.link.retireRow
    let names := fun e : SuspectEntry => e.bank = b ∧ e.logicalRow = r
    let filled := s.fillMap.marks.getLsbD (r.val * 16 + b.val)
    let v := (s.linkAt 3).commandNoted 6
    let refused := fun result : ResultCode => exec .retire s = .next (v.setResult result)
    let taken := fun suspects : List SuspectEntry =>
      exec .retire s =
        .next ((v.setRemap
          { s.remap with suspects, queuedOrder := s.remap.queuedOrder ++ [(b, r)] }).engineRun.setResult .done)
    let added : SuspectEntry :=
      { bank := b, logicalRow := r, tally := 1, state := .queued, queuedAt := some s.clock.deviceTime }
    (filled = false → refused .notFilled) ∧
    (filled = true →
      ((∃ e ∈ s.remap.suspects, names e ∧ e.state = .queued) → refused .already) ∧
      (∀ pre e post, s.remap.suspects = pre ++ e :: post → names e → e.state ≠ .queued →
        taken (pre ++ { e with state := .queued, queuedAt := some s.clock.deviceTime } :: post)) ∧
      ((∀ e ∈ s.remap.suspects, ¬ names e) →
        (s.remap.suspects.length < 8 → taken (s.remap.suspects ++ [added])) ∧
        (∀ pre e post, s.remap.suspects.length = 8 → s.remap.suspects = pre ++ e :: post → e.state = .normal →
          (∀ x ∈ pre, x.state = .normal → e.tally < x.tally) → (∀ x ∈ post, x.state = .normal → e.tally ≤ x.tally) →
          taken (pre ++ post ++ [added])) ∧
        (s.remap.suspects.length = 8 → (∀ e ∈ s.remap.suspects, e.state ≠ .normal) → refused .full)))

/-- PORT_RESTART sets DONE in every state. With RESET_N high it discards what a port reset discards; with RESET_N low it
discards nothing more (log 17). Taken in HOLD it starts the wake (R142, R156, R170, R171). -/
def Obligations.PortRestartActsAsPortReset : Prop :=
  ∀ s : State, s.powered = true →
    let v := (s.linkAt 3).commandNoted 7
    (s.port.resetN = true →
      ∃ u, PortResetLeaves v u ∧ u.port.resetN = true ∧
        (s.hold.state ≠ .hold → exec .portRestart s = .next (u.furtherCloseAll.setResult .done)) ∧
        (s.hold.state = .hold →
          exec .portRestart s =
            .next ((u.setHold
              { state := .waking, wakeEnd := some (s.clock.now + 2000) }).engineRun.setResult .done))) ∧
    (s.port.resetN = false →
      (s.hold.state ≠ .hold → exec .portRestart s = .next (v.setResult .done)) ∧
      (s.hold.state = .hold →
        exec .portRestart s =
          .next ((v.setHold
            { state := .waking, wakeEnd := some (s.clock.now + 2000) }).engineRun.setResult .done)))

/-! ## The settings and the transactions of the link -/

/-- LIMIT. Outside 1 to 12 it is refused with RANGE, changing nothing but RESULT. The value that L already holds is taken
with DONE and changes nothing, whatever the balances (R67, R185): that this stands before R67's second case is read from
the spec by inference (log 23). Any other value is refused with RANGE while some balance lies at or below −L_eff′, and
otherwise taken with DONE: L takes it, L_eff becomes L_eff′, every balance above +L_eff′ is cut to it, every other
balance and every pointer stays, and every claim follows its balance, none URGENT by the write (R59, R67). -/
def Obligations.LimitIsJudgedAgainstBalances : Prop :=
  ∀ (v : Byte) (s : State), s.powered = true →
    let l : Nat :=
      match s.thermal.band with
      | .cool => v.toNat
      | .normal => v.toNat
      | .warm => max 1 (v.toNat / 2)
      | .hot => max 1 (v.toNat / 4)
      | .critical => max 1 (v.toNat / 4)
    let inRange := 1 ≤ v.toNat ∧ v.toNat ≤ 12
    let above := ∀ b, -(l : Int) < (s.balanceOf b).balance
    let answered := fun result : ResultCode => { s.link with index := 7, out := [], result }
    (inRange → v.toNat = s.refresh.limit → exec (.limit v) s = .next (s.setLink (answered .done))) ∧
    (inRange → v.toNat ≠ s.refresh.limit → above →
      ∃ t, exec (.limit v) s = .next t ∧ SameBut [.refresh, .link] s t ∧ t.refresh.limit = v.toNat ∧ t.leff = l ∧
        (∀ b, (t.balanceOf b).balance = min (s.balanceOf b).balance l ∧
          (t.balanceOf b).pointer = (s.balanceOf b).pointer ∧ (t.balanceOf b).due = (s.balanceOf b).due ∧
          t.claimFollows b ∧ t.claimOf b ≠ some .urgent) ∧
        t.link = answered .done) ∧
    (¬ inRange ∨ (v.toNat ≠ s.refresh.limit ∧ ¬ above) →
      exec (.limit v) s = .next (s.setLink (answered .range)))

/-- SCRUB_STEP: every value is taken with DONE. 0 stops the timer, clears `lag` and takes SCRUB out of the pending set; any
other value starts the timer again, its first expiry one new interval after the STOP, and leaves `lag` and the pending
set. A job in service stays in the stack in both cases (R101). -/
def Obligations.ScrubStepStopsOrRestarts : Prop :=
  ∀ (v : Byte) (s : State), s.powered = true →
    ∃ t, exec (.scrubStep v) s = .next t ∧ SameBut [.scrubber, .engine, .link] s t ∧
      t.link = { s.link with index := 10, out := [], result := .done } ∧ t.engine.stack = s.engine.stack ∧
      (v = 0 →
        t.scrubber = { s.scrubber with step := 0, stepDue := none, lag := 0 } ∧
        t.engine = { s.engine with scrubPending := false }) ∧
      (v ≠ 0 →
        t.scrubber = { s.scrubber with step := v, stepDue := some (s.clock.now + v.toNat * 100000) } ∧
        t.engine = s.engine)

/-- IDLE_CLOSE 0 to 40, DRAIN_AGE 1 to 127, CE_THRESHOLD 1 to 15 and ALERT_MASK of any value are taken with DONE, and
other values are refused with RANGE (R8, R77, R130, R179, R185). An idle window and an age that the new value finds
elapsed end at once, and an entry that becomes due is chosen; no suspect entry changes; ALERT_N is low exactly while a
cause is pending that the new mask does not hold. -/
def Obligations.SettingsAreTakenInRange : Prop :=
  ∀ (v : Byte) (s : State), s.powered = true →
    let linked := fun (index : BitVec 6) (result : ResultCode) => { s.link with index, out := [], result }
    ((v.toNat ≤ 40 →
      ∃ t, exec (.idleClose v) s = .next t ∧ SameBut [.bankEngine, .link] s t ∧ t.link = linked 8 .done ∧
        t.bankEngine.idleClose = v ∧
        (∀ b, (s.bank b).state = .opened → s.inUse b = false → (s.bank b).closeWanted = none →
          s.idleFrom b = (s.bank b).lastAccess) ∧
        (∀ b, ((s.bank b).state ≠ .opened ∨ s.inUse b = true ∨ (s.bank b).closeWanted ≠ none) →
          s.idleFrom b = none) ∧
        ∀ b, t.bank b =
          match s.idleFrom b with
          | some l =>
            if l + v.toNat * 50 ≤ s.clock.now then (s.bank b).ask .idle false s.clock.now else s.bank b
          | none => s.bank b) ∧
     (40 < v.toNat → exec (.idleClose v) s = .next (s.setLink (linked 8 .range)))) ∧
    ((1 ≤ v.toNat → v.toNat ≤ 127 →
      ∃ u, exec (.drainAge v) s = .next (u.chooseEntry.setResult .done) ∧ SameBut [.buffer] (s.linkAt 9) u ∧
        u.buffer =
          { s.buffer with
            drainAge := v
            entries := s.buffer.entries.map fun f =>
              if f.state = .filling ∧ f.born + v.toNat * 500 ≤ s.clock.now then { f with ageDue := true } else f }) ∧
     ((v = 0 ∨ 127 < v.toNat) → exec (.drainAge v) s = .next (s.setLink (linked 9 .range)))) ∧
    ((1 ≤ v.toNat → v.toNat ≤ 15 →
      exec (.ceThreshold v) s =
        .next ((s.setRemap { s.remap with threshold := v.toNat }).setLink (linked 11 .done))) ∧
     ((v = 0 ∨ 15 < v.toNat) → exec (.ceThreshold v) s = .next (s.setLink (linked 11 .range)))) ∧
    ∃ t, exec (.alertMask v) s = .next t ∧ SameBut [.alerts, .link] s t ∧ t.alerts = { s.alerts with mask := v } ∧
      t.link = linked 6 .done ∧
      (t.alertLow = true ↔ ∃ c : Cause, s.alerts.causes &&& c.bit ≠ 0 ∧ v &&& c.bit = 0)

/-- RECORD_SELECT: tables 0 to 3 with an index within the table, 16, 8, 256 and 16 places, are taken with DONE, any other
selection is refused with RANGE and the old one stays; the window of a place that holds no record is 16 zero bytes
(R187). -/
def Obligations.RecordSelectIsJudged : Prop :=
  (∀ (table index : Byte) (s : State), s.powered = true →
    let allowed := table.toNat = 0 ∧ index.toNat < 16 ∨ table.toNat = 1 ∧ index.toNat < 8 ∨ table.toNat = 2 ∨
      table.toNat = 3 ∧ index.toNat < 16
    (allowed →
      ∃ t, exec (.recordSelect table index) s = .next t ∧ SameBut [.link] s t ∧
        t.link =
          { s.link with
            index := 25, out := [], result := .done, selectTable := t.link.selectTable, selectIndex := index } ∧
        t.link.selectTable.val = table.toNat) ∧
    (¬ allowed →
      ∃ t, exec (.recordSelect table index) s = .next t ∧ SameBut [.link] s t ∧
        t.link = { s.link with index := 25, out := [], result := .range })) ∧
  (∀ s : State,
    (s.link.selectTable = 0 → s.errors.records.length ≤ s.link.selectIndex.toNat →
      s.recordWindow = List.replicate 16 0) ∧
    (s.link.selectTable = 1 → s.remap.suspects.length ≤ s.link.selectIndex.toNat →
      s.recordWindow = List.replicate 16 0) ∧
    (∀ (b : Bank) (i : Slot), s.link.selectTable = 2 → s.link.selectIndex.toNat = b.val * 16 + i.val →
      s.remap.tables[b][i] = none →
      s.recordWindow = List.replicate 16 0))

/-- What a read finds at each register index, and in the record window for each table (R184, R185, R186, R187, R188): multi-byte values with
the least significant byte first, signed ones in two's complement, codes and flags at their bits, an absent field zero
with its present bit clear, and zero at every index that holds no register. -/
def Obligations.RegistersAndRecordsReadByTheirLayout : Prop :=
  ∀ s : State,
    let at' := fun i : Nat => s.readRegister (BitVec.ofNat 6 i)
    let value := fun i : Nat => (at' i).toNat
    let field := fun i n : Nat => numberOf ((s.recordWindow.drop i).take n)
    (value 0 % 4 =
        match s.hold.state with
        | .active => 0
        | .entering => 1
        | .hold => 2
        | .waking => 3) ∧
    (at' 0).getLsbD 2 = s.fillMap.done ∧
    (value 0 / 8 % 8 =
        match s.thermal.band with
        | .cool => 0
        | .normal => 1
        | .warm => 2
        | .hot => 3
        | .critical => 4) ∧
    (at' 0).getLsbD 6 = s.thermal.fault ∧ (at' 0).getLsbD 7 = s.errors.saturated ∧
    (value 1 =
        match s.link.result with
        | .done => 0
        | .busy => 1
        | .range => 2
        | .full => 3
        | .notFilled => 4
        | .already => 5) ∧
    at' 2 = s.link.command ∧ at' 3 = s.link.commandArg ∧ at' 4 = s.alerts.causes ∧ at' 5 = s.alerts.mask ∧
    value 6 = s.refresh.limit % 256 ∧ at' 7 = s.bankEngine.idleClose ∧ at' 8 = s.buffer.drainAge ∧
    at' 9 = s.scrubber.step ∧ value 0x0A = s.remap.threshold % 256 ∧
    (-128 ≤ s.thermal.reading → s.thermal.reading ≤ 127 → (at' 0x0B).toInt = s.thermal.reading) ∧
    value 0x0C + 256 * value 0x0D = s.scrubber.passCount.toNat ∧ value 0x0E = s.scrubber.lastCorrections % 256 ∧
    value 0x0F = s.scrubber.lag % 256 ∧ value 0x10 = s.link.retireBank.val ∧
    value 0x11 + 256 * value 0x12 = s.link.retireRow.val ∧
    value 0x13 + 256 * (value 0x14 + 256 * (value 0x15 + 256 * value 0x16)) = s.clock.deviceTime.toNat ∧
    value 0x17 = s.link.selectTable.val ∧ at' 0x18 = s.link.selectIndex ∧
    (∀ i, 0x19 ≤ i → i < 0x40 → (i < 0x20 ∨ 0x30 ≤ i) → at' i = 0) ∧
    s.recordWindow.length = 16 ∧ (∀ i, i < 16 → s.recordWindow[i]? = some (at' (0x20 + i))) ∧
    (∀ r, s.link.selectTable = 0 → s.errors.records[s.link.selectIndex.toNat]? = some r →
      field 0 1 % 2 = 1 ∧
      (field 0 1 / 2 % 4 =
          match r.kind with
          | .ce => 0
          | .ue => 1
          | .unrepairable => 2) ∧
      (field 0 1 / 8 % 8 =
          match r.source with
          | .read => 0
          | .readMerge => 1
          | .drain => 2
          | .scrub => 3
          | .migrate => 4
          | .remap => 5) ∧
      field 0 1 / 64 = (if r.word.isSome then 1 else 0) ∧ field 1 2 = r.seq.toNat ∧ field 3 1 = r.bank.val ∧
      field 4 2 = r.physicalRow.val ∧
      (field 6 1 =
          match r.word with
          | some w => w.val
          | none => 0) ∧
      field 7 1 = r.count % 256 ∧ field 8 4 = r.firstMs.toNat ∧ field 12 4 = r.lastMs.toNat) ∧
    (∀ e, s.link.selectTable = 1 → s.remap.suspects[s.link.selectIndex.toNat]? = some e →
      field 0 1 % 2 = 1 ∧
      (field 0 1 / 2 % 4 =
          match e.state with
          | .normal => 0
          | .queued => 1
          | .unrepairable => 2) ∧
      (field 0 1 / 8 % 2 = 1 ↔ ∃ slot cursor, Job.migrate e.bank e.logicalRow slot cursor ∈ s.engine.stack) ∧
      field 0 1 / 16 = (if e.queuedAt.isSome then 1 else 0) ∧ field 1 1 = e.bank.val ∧
      field 2 2 = e.logicalRow.val ∧ field 4 1 = e.tally % 256 ∧
      (field 5 4 =
          match e.queuedAt with
          | some m => m.toNat
          | none => 0) ∧
      field 9 7 = 0) ∧
    (∀ (b : Bank) (i : Slot) (e : RemapEntry), s.link.selectTable = 2 →
      s.link.selectIndex.toNat = b.val * 16 + i.val → s.remap.tables[b][i] = some e →
      field 0 1 % 2 = 1 ∧ (field 0 1 / 2 % 2 = 1 ↔ e.state = .live) ∧
      field 0 1 / 4 = (if e.source.isSome then 1 else 0) ∧ field 1 1 = e.target.val ∧
      field 2 2 = e.logicalRow.val ∧
      (field 4 2 =
          match e.source with
          | some p => p.val
          | none => 0) ∧
      field 6 1 = e.cursor % 256 ∧ field 7 9 = 0) ∧
    ∀ b : Bank, s.link.selectTable = 3 → s.link.selectIndex.toNat = b.val →
      let count := fun x : SpareState => (List.finRange 16).countP fun t => s.remap.spare b t = x
      (field 0 1 : Int) = (s.balanceOf b).balance % 256 ∧ field 1 2 = (s.balanceOf b).pointer.val ∧
      field 3 1 = count .free ∧ field 4 1 = count .inUse ∧ field 5 1 = count .dead ∧ field 6 10 = 0

/-- REGISTER_WRITE: a transaction to another address changes nothing but what SDA returned; COMMAND_ARG, RETIRE_BANK and
RETIRE_ROW are judged at the STOP by their ranges, one by one in ascending order; of RETIRE_ROW or RECORD_SELECT one byte
alone is judged with the other at its current value; of a byte staged twice, the index having wrapped, the last counts; a
COMMAND is carried out after the settings of its own transaction, with their new values; in a transaction with a refused
setting it is not carried out, and one that names no command is refused with RANGE, though its code reads back; a read
returns the registers from the index on, as they stood before the transaction, and leaves RESULT (R181, R183, R184, R185,
R186, R187; log 12). -/
def Obligations.RegisterWriteTakesEffectAtStop : Prop :=
  ∀ s : State, s.powered = true →
    (∀ a body, a ≠ s.link.address →
      exec (.registerWrite [{ address := a, body }]) s = .next (s.setLink { s.link with out := [] })) ∧
    (∀ arg : Byte,
      exec (.registerWrite [{ address := s.link.address, body := .write [0x03, arg] }]) s =
        .next (s.setLink { s.link with index := 4, out := [], commandArg := arg, result := .done })) ∧
    (∀ bank low high : Byte,
      let bankOk := bank.toNat ≤ 15
      let rowOk := low.toNat + 256 * high.toNat ≤ 8191
      ∃ t, exec (.registerWrite [{ address := s.link.address, body := .write [0x10, bank, low, high] }]) s = .next t ∧
        SameBut [.link] s t ∧
        t.link =
          { s.link with
            index := 0x13, out := [], retireBank := t.link.retireBank, retireRow := t.link.retireRow
            result := if bankOk ∧ rowOk then .done else .range } ∧
        (bankOk → t.link.retireBank.val = bank.toNat) ∧ (¬ bankOk → t.link.retireBank = s.link.retireBank) ∧
        (rowOk → t.link.retireRow.val = low.toNat + 256 * high.toNat) ∧
        (¬ rowOk → t.link.retireRow = s.link.retireRow)) ∧
    (∀ code arg skipped mask limit : Byte, (limit = 0 ∨ 12 < limit.toNat) →
      exec (.registerWrite
          [{ address := s.link.address, body := .write [0x02, code, arg, skipped, mask, limit] }]) s =
        .next ((s.setAlerts { s.alerts with mask }).setLink
          { s.link with index := 7, out := [], command := code, commandArg := arg, result := .range })) ∧
    (∀ low : Byte,
      ∃ t, exec (.registerWrite [{ address := s.link.address, body := .write [0x11, low] }]) s = .next t ∧
        SameBut [.link] s t ∧
        t.link = { s.link with index := 0x12, out := [], retireRow := t.link.retireRow, result := .done } ∧
        t.link.retireRow.val = low.toNat + 256 * (s.link.retireRow.val / 256)) ∧
    (∀ high : Byte,
      ∃ t, exec (.registerWrite [{ address := s.link.address, body := .write [0x12, high] }]) s = .next t ∧
        SameBut [.link] s t ∧
        t.link =
          { s.link with
            index := 0x13, out := [], retireRow := t.link.retireRow
            result := if high.toNat ≤ 31 then .done else .range } ∧
        (high.toNat ≤ 31 → t.link.retireRow.val = s.link.retireRow.val % 256 + 256 * high.toNat) ∧
        (31 < high.toNat → t.link.retireRow = s.link.retireRow)) ∧
    (∀ table : Byte,
      let allowed := table.toNat = 0 ∧ s.link.selectIndex.toNat < 16 ∨ table.toNat = 1 ∧ s.link.selectIndex.toNat < 8 ∨
        table.toNat = 2 ∨ table.toNat = 3 ∧ s.link.selectIndex.toNat < 16
      ∃ t, exec (.registerWrite [{ address := s.link.address, body := .write [0x17, table] }]) s = .next t ∧
        SameBut [.link] s t ∧
        t.link =
          { s.link with
            index := 0x18, out := [], selectTable := t.link.selectTable
            result := if allowed then .done else .range } ∧
        (allowed → t.link.selectTable.val = table.toNat) ∧ (¬ allowed → t.link.selectTable = s.link.selectTable)) ∧
    (∀ index : Byte,
      let allowed := s.link.selectTable = 0 ∧ index.toNat < 16 ∨ s.link.selectTable = 1 ∧ index.toNat < 8 ∨
        s.link.selectTable = 2 ∨ s.link.selectTable = 3 ∧ index.toNat < 16
      exec (.registerWrite [{ address := s.link.address, body := .write [0x18, index] }]) s =
        .next (s.setLink
          { s.link with
            index := 0x19, out := [], selectIndex := if allowed then index else s.link.selectIndex
            result := if allowed then .done else .range })) ∧
    (∀ (i first other last : Byte) (between : List Byte), between.length = 63 →
      exec (.registerWrite
          [{ address := s.link.address, body := .write (i :: first :: between ++ [last]) }]) s =
        exec (.registerWrite
          [{ address := s.link.address, body := .write (i :: other :: between ++ [last]) }]) s) ∧
    (∀ (first last : Byte) (between : List Byte), between.length = 63 →
      ∃ t, exec (.registerWrite
          [{ address := s.link.address, body := .write (0x03 :: first :: between ++ [last]) }]) s = .next t ∧
        t.link.commandArg = last) ∧
    (∀ arg : Byte,
      exec (.registerWrite [{ address := s.link.address, body := .write [0x02, 0x03, arg] }]) s =
        .next ((s.setAlerts { s.alerts with causes := s.alerts.causes &&& ~~~arg }).setLink
          { s.link with index := 4, out := [], command := 0x03, commandArg := arg, result := .done })) ∧
    (∀ code : Byte, (code = 0 ∨ 7 < code.toNat) →
      exec (.registerWrite [{ address := s.link.address, body := .write [0x02, code] }]) s =
        .next (s.setLink { s.link with index := 3, out := [], command := code, result := .range })) ∧
    (∀ (i : Byte) (n : Nat), i.toNat < 64 →
      ∃ t, exec (.registerWrite
          [{ address := s.link.address, body := .write [i] }, { address := s.link.address, body := .read n }]) s =
          .next t ∧
        SameBut [.link] s t ∧
        t.link = { s.link with index := t.link.index, out := t.link.out } ∧
        t.link.index.toNat = (i.toNat + n) % 64 ∧ t.link.out.length = n ∧
        ∀ k, k < n → t.link.out[k]? = some (s.readRegister (BitVec.ofNat 6 (i.toNat + k))))

/-! ## Invariants that every step keeps -/

/-- Every step keeps the array's memory in its canonical form: addresses rising, no entry that equals an unlisted word. The
form is the model's own representation of the array of R2 and R22, as is what an unlisted word reads as (log 7). -/
def Obligations.MemoryStaysCanonical : Prop :=
  ∀ s t : State, step s = .next t → s.memoryOk → t.memoryOk

/-- Every step keeps the sizes of the intake queue, 12, the write buffer, 8, the suspect list, 8, and the error table, 16
(R72, R124, R148, R174); the order of the jobs' levels in the stack, so that no class has two jobs (R39); and that fill
done is set exactly when every mark is (R112, R114). -/
def Obligations.ListsStackAndFillStayBounded : Prop :=
  ∀ s t : State, step s = .next t →
    (s.sizesOk → t.sizesOk) ∧ (s.stackOk → t.stackOk) ∧ (s.fillOk → t.fillOk)

/-- Every step keeps LIMIT in 1 to 12 and every balance at or below +L_eff (R53, upper half), every setting in its range
(R185), the suspect list free of doubles with `queued_at` exactly in QUEUED and tallies of 1 to 15 (R72), the queued order naming
the rows of the QUEUED entries, each once (R36, R72), and T_WAKE running exactly in WAKING (R164). -/
def Obligations.SettingsAndTablesStayInRange : Prop :=
  ∀ s t : State, step s = .next t →
    (s.balancesOk → t.balancesOk) ∧ (s.settingsOk → t.settingsOk) ∧
    (s.settingsOk → s.suspectsOk → t.suspectsOk) ∧ (s.suspectsOk → s.remap.queuedOk → t.remap.queuedOk) ∧ (s.holdOk → t.holdOk)

/-- Every step keeps each bank record with the fields of its state (R5). -/
def Obligations.BankRecordsStayWellFormed : Prop :=
  ∀ s t : State, step s = .next t → s.banksOk → t.banksOk

/-- Every step keeps the remap tables and the spare pool consistent: no two entries of a bank name one logical row or one
spare, the IN_USE spares are exactly those an entry names, so that none names a DEAD one, and each entry has the fields
of its state (R81, R82); and the MIGRATE jobs of the stack and the MIGRATING entries agree in row, slot and cursor (R85).
The order of the jobs' levels (R39) is a premise, itself an invariant (ListsStackAndFillStayBounded). -/
def Obligations.RemapTablesStayConsistent : Prop :=
  ∀ s t : State, step s = .next t → s.stackOk → s.remapOk → t.remapOk

/-- Every step keeps at most one DRAINING entry, at most one FILLING entry for a line and a valid byte in every entry of
the write buffer (R124), and no two error records of one key, with counts of 1 to 255 (R174). -/
def Obligations.BufferAndErrorTableStayWellFormed : Prop :=
  ∀ s t : State, step s = .next t → (s.bufferOk → t.bufferOk) ∧ (s.errorsOk → t.errorsOk)

/-- The state after power-on reset satisfies every invariant. -/
def Obligations.ResetSatisfiesInvariants : Prop :=
  let s := State.reset
  s.memoryOk ∧ s.sizesOk ∧ s.stackOk ∧ s.fillOk ∧ s.balancesOk ∧ s.settingsOk ∧ s.suspectsOk ∧ s.holdOk ∧ s.banksOk ∧
    s.bufferOk ∧ s.errorsOk ∧ s.remapOk ∧ s.remap.queuedOk

end Statements
end

