-- ==== Sys2Proof/Laws/State.lean ====
section
/-! SUPPORT. What each update of the state leaves and sets: one lemma per field per update. -/

namespace Sys2Proof.Machine

@[simp] theorem State.setClock_powered (s : State) (x : Clock) : (s.setClock x).powered = s.powered := rfl
@[simp] theorem State.setClock_clock (s : State) (x : Clock) : (s.setClock x).clock = x := rfl
@[simp] theorem State.setClock_bankEngine (s : State) (x : Clock) : (s.setClock x).bankEngine = s.bankEngine := rfl
@[simp] theorem State.setClock_channel (s : State) (x : Clock) : (s.setClock x).channel = s.channel := rfl
@[simp] theorem State.setClock_array (s : State) (x : Clock) : (s.setClock x).array = s.array := rfl
@[simp] theorem State.setClock_refresh (s : State) (x : Clock) : (s.setClock x).refresh = s.refresh := rfl
@[simp] theorem State.setClock_engine (s : State) (x : Clock) : (s.setClock x).engine = s.engine := rfl
@[simp] theorem State.setClock_remap (s : State) (x : Clock) : (s.setClock x).remap = s.remap := rfl
@[simp] theorem State.setClock_scrubber (s : State) (x : Clock) : (s.setClock x).scrubber = s.scrubber := rfl
@[simp] theorem State.setClock_fillMap (s : State) (x : Clock) : (s.setClock x).fillMap = s.fillMap := rfl
@[simp] theorem State.setClock_buffer (s : State) (x : Clock) : (s.setClock x).buffer = s.buffer := rfl
@[simp] theorem State.setClock_port (s : State) (x : Clock) : (s.setClock x).port = s.port := rfl
@[simp] theorem State.setClock_thermal (s : State) (x : Clock) : (s.setClock x).thermal = s.thermal := rfl
@[simp] theorem State.setClock_hold (s : State) (x : Clock) : (s.setClock x).hold = s.hold := rfl
@[simp] theorem State.setClock_errors (s : State) (x : Clock) : (s.setClock x).errors = s.errors := rfl
@[simp] theorem State.setClock_alerts (s : State) (x : Clock) : (s.setClock x).alerts = s.alerts := rfl
@[simp] theorem State.setClock_link (s : State) (x : Clock) : (s.setClock x).link = s.link := rfl
@[simp] theorem State.setClock_pending (s : State) (x : Clock) : (s.setClock x).pending = s.pending := rfl

@[simp] theorem State.setBankEngine_powered (s : State) (x : BankEngine) : (s.setBankEngine x).powered = s.powered := rfl
@[simp] theorem State.setBankEngine_clock (s : State) (x : BankEngine) : (s.setBankEngine x).clock = s.clock := rfl
@[simp] theorem State.setBankEngine_bankEngine (s : State) (x : BankEngine) : (s.setBankEngine x).bankEngine = x := rfl
@[simp] theorem State.setBankEngine_channel (s : State) (x : BankEngine) : (s.setBankEngine x).channel = s.channel := rfl
@[simp] theorem State.setBankEngine_array (s : State) (x : BankEngine) : (s.setBankEngine x).array = s.array := rfl
@[simp] theorem State.setBankEngine_refresh (s : State) (x : BankEngine) : (s.setBankEngine x).refresh = s.refresh := rfl
@[simp] theorem State.setBankEngine_engine (s : State) (x : BankEngine) : (s.setBankEngine x).engine = s.engine := rfl
@[simp] theorem State.setBankEngine_remap (s : State) (x : BankEngine) : (s.setBankEngine x).remap = s.remap := rfl
@[simp] theorem State.setBankEngine_scrubber (s : State) (x : BankEngine) : (s.setBankEngine x).scrubber = s.scrubber := rfl
@[simp] theorem State.setBankEngine_fillMap (s : State) (x : BankEngine) : (s.setBankEngine x).fillMap = s.fillMap := rfl
@[simp] theorem State.setBankEngine_buffer (s : State) (x : BankEngine) : (s.setBankEngine x).buffer = s.buffer := rfl
@[simp] theorem State.setBankEngine_port (s : State) (x : BankEngine) : (s.setBankEngine x).port = s.port := rfl
@[simp] theorem State.setBankEngine_thermal (s : State) (x : BankEngine) : (s.setBankEngine x).thermal = s.thermal := rfl
@[simp] theorem State.setBankEngine_hold (s : State) (x : BankEngine) : (s.setBankEngine x).hold = s.hold := rfl
@[simp] theorem State.setBankEngine_errors (s : State) (x : BankEngine) : (s.setBankEngine x).errors = s.errors := rfl
@[simp] theorem State.setBankEngine_alerts (s : State) (x : BankEngine) : (s.setBankEngine x).alerts = s.alerts := rfl
@[simp] theorem State.setBankEngine_link (s : State) (x : BankEngine) : (s.setBankEngine x).link = s.link := rfl
@[simp] theorem State.setBankEngine_pending (s : State) (x : BankEngine) : (s.setBankEngine x).pending = s.pending := rfl

@[simp] theorem State.setChannel_powered (s : State) (x : Option Operation) : (s.setChannel x).powered = s.powered := rfl
@[simp] theorem State.setChannel_clock (s : State) (x : Option Operation) : (s.setChannel x).clock = s.clock := rfl
@[simp] theorem State.setChannel_bankEngine (s : State) (x : Option Operation) : (s.setChannel x).bankEngine = s.bankEngine := rfl
@[simp] theorem State.setChannel_channel (s : State) (x : Option Operation) : (s.setChannel x).channel = x := rfl
@[simp] theorem State.setChannel_array (s : State) (x : Option Operation) : (s.setChannel x).array = s.array := rfl
@[simp] theorem State.setChannel_refresh (s : State) (x : Option Operation) : (s.setChannel x).refresh = s.refresh := rfl
@[simp] theorem State.setChannel_engine (s : State) (x : Option Operation) : (s.setChannel x).engine = s.engine := rfl
@[simp] theorem State.setChannel_remap (s : State) (x : Option Operation) : (s.setChannel x).remap = s.remap := rfl
@[simp] theorem State.setChannel_scrubber (s : State) (x : Option Operation) : (s.setChannel x).scrubber = s.scrubber := rfl
@[simp] theorem State.setChannel_fillMap (s : State) (x : Option Operation) : (s.setChannel x).fillMap = s.fillMap := rfl
@[simp] theorem State.setChannel_buffer (s : State) (x : Option Operation) : (s.setChannel x).buffer = s.buffer := rfl
@[simp] theorem State.setChannel_port (s : State) (x : Option Operation) : (s.setChannel x).port = s.port := rfl
@[simp] theorem State.setChannel_thermal (s : State) (x : Option Operation) : (s.setChannel x).thermal = s.thermal := rfl
@[simp] theorem State.setChannel_hold (s : State) (x : Option Operation) : (s.setChannel x).hold = s.hold := rfl
@[simp] theorem State.setChannel_errors (s : State) (x : Option Operation) : (s.setChannel x).errors = s.errors := rfl
@[simp] theorem State.setChannel_alerts (s : State) (x : Option Operation) : (s.setChannel x).alerts = s.alerts := rfl
@[simp] theorem State.setChannel_link (s : State) (x : Option Operation) : (s.setChannel x).link = s.link := rfl
@[simp] theorem State.setChannel_pending (s : State) (x : Option Operation) : (s.setChannel x).pending = s.pending := rfl

@[simp] theorem State.setArray_powered (s : State) (x : Memory) : (s.setArray x).powered = s.powered := rfl
@[simp] theorem State.setArray_clock (s : State) (x : Memory) : (s.setArray x).clock = s.clock := rfl
@[simp] theorem State.setArray_bankEngine (s : State) (x : Memory) : (s.setArray x).bankEngine = s.bankEngine := rfl
@[simp] theorem State.setArray_channel (s : State) (x : Memory) : (s.setArray x).channel = s.channel := rfl
@[simp] theorem State.setArray_array (s : State) (x : Memory) : (s.setArray x).array = x := rfl
@[simp] theorem State.setArray_refresh (s : State) (x : Memory) : (s.setArray x).refresh = s.refresh := rfl
@[simp] theorem State.setArray_engine (s : State) (x : Memory) : (s.setArray x).engine = s.engine := rfl
@[simp] theorem State.setArray_remap (s : State) (x : Memory) : (s.setArray x).remap = s.remap := rfl
@[simp] theorem State.setArray_scrubber (s : State) (x : Memory) : (s.setArray x).scrubber = s.scrubber := rfl
@[simp] theorem State.setArray_fillMap (s : State) (x : Memory) : (s.setArray x).fillMap = s.fillMap := rfl
@[simp] theorem State.setArray_buffer (s : State) (x : Memory) : (s.setArray x).buffer = s.buffer := rfl
@[simp] theorem State.setArray_port (s : State) (x : Memory) : (s.setArray x).port = s.port := rfl
@[simp] theorem State.setArray_thermal (s : State) (x : Memory) : (s.setArray x).thermal = s.thermal := rfl
@[simp] theorem State.setArray_hold (s : State) (x : Memory) : (s.setArray x).hold = s.hold := rfl
@[simp] theorem State.setArray_errors (s : State) (x : Memory) : (s.setArray x).errors = s.errors := rfl
@[simp] theorem State.setArray_alerts (s : State) (x : Memory) : (s.setArray x).alerts = s.alerts := rfl
@[simp] theorem State.setArray_link (s : State) (x : Memory) : (s.setArray x).link = s.link := rfl
@[simp] theorem State.setArray_pending (s : State) (x : Memory) : (s.setArray x).pending = s.pending := rfl

@[simp] theorem State.setRefresh_powered (s : State) (x : Refresh) : (s.setRefresh x).powered = s.powered := rfl
@[simp] theorem State.setRefresh_clock (s : State) (x : Refresh) : (s.setRefresh x).clock = s.clock := rfl
@[simp] theorem State.setRefresh_bankEngine (s : State) (x : Refresh) : (s.setRefresh x).bankEngine = s.bankEngine := rfl
@[simp] theorem State.setRefresh_channel (s : State) (x : Refresh) : (s.setRefresh x).channel = s.channel := rfl
@[simp] theorem State.setRefresh_array (s : State) (x : Refresh) : (s.setRefresh x).array = s.array := rfl
@[simp] theorem State.setRefresh_refresh (s : State) (x : Refresh) : (s.setRefresh x).refresh = x := rfl
@[simp] theorem State.setRefresh_engine (s : State) (x : Refresh) : (s.setRefresh x).engine = s.engine := rfl
@[simp] theorem State.setRefresh_remap (s : State) (x : Refresh) : (s.setRefresh x).remap = s.remap := rfl
@[simp] theorem State.setRefresh_scrubber (s : State) (x : Refresh) : (s.setRefresh x).scrubber = s.scrubber := rfl
@[simp] theorem State.setRefresh_fillMap (s : State) (x : Refresh) : (s.setRefresh x).fillMap = s.fillMap := rfl
@[simp] theorem State.setRefresh_buffer (s : State) (x : Refresh) : (s.setRefresh x).buffer = s.buffer := rfl
@[simp] theorem State.setRefresh_port (s : State) (x : Refresh) : (s.setRefresh x).port = s.port := rfl
@[simp] theorem State.setRefresh_thermal (s : State) (x : Refresh) : (s.setRefresh x).thermal = s.thermal := rfl
@[simp] theorem State.setRefresh_hold (s : State) (x : Refresh) : (s.setRefresh x).hold = s.hold := rfl
@[simp] theorem State.setRefresh_errors (s : State) (x : Refresh) : (s.setRefresh x).errors = s.errors := rfl
@[simp] theorem State.setRefresh_alerts (s : State) (x : Refresh) : (s.setRefresh x).alerts = s.alerts := rfl
@[simp] theorem State.setRefresh_link (s : State) (x : Refresh) : (s.setRefresh x).link = s.link := rfl
@[simp] theorem State.setRefresh_pending (s : State) (x : Refresh) : (s.setRefresh x).pending = s.pending := rfl

@[simp] theorem State.setEngine_powered (s : State) (x : Engine) : (s.setEngine x).powered = s.powered := rfl
@[simp] theorem State.setEngine_clock (s : State) (x : Engine) : (s.setEngine x).clock = s.clock := rfl
@[simp] theorem State.setEngine_bankEngine (s : State) (x : Engine) : (s.setEngine x).bankEngine = s.bankEngine := rfl
@[simp] theorem State.setEngine_channel (s : State) (x : Engine) : (s.setEngine x).channel = s.channel := rfl
@[simp] theorem State.setEngine_array (s : State) (x : Engine) : (s.setEngine x).array = s.array := rfl
@[simp] theorem State.setEngine_refresh (s : State) (x : Engine) : (s.setEngine x).refresh = s.refresh := rfl
@[simp] theorem State.setEngine_engine (s : State) (x : Engine) : (s.setEngine x).engine = x := rfl
@[simp] theorem State.setEngine_remap (s : State) (x : Engine) : (s.setEngine x).remap = s.remap := rfl
@[simp] theorem State.setEngine_scrubber (s : State) (x : Engine) : (s.setEngine x).scrubber = s.scrubber := rfl
@[simp] theorem State.setEngine_fillMap (s : State) (x : Engine) : (s.setEngine x).fillMap = s.fillMap := rfl
@[simp] theorem State.setEngine_buffer (s : State) (x : Engine) : (s.setEngine x).buffer = s.buffer := rfl
@[simp] theorem State.setEngine_port (s : State) (x : Engine) : (s.setEngine x).port = s.port := rfl
@[simp] theorem State.setEngine_thermal (s : State) (x : Engine) : (s.setEngine x).thermal = s.thermal := rfl
@[simp] theorem State.setEngine_hold (s : State) (x : Engine) : (s.setEngine x).hold = s.hold := rfl
@[simp] theorem State.setEngine_errors (s : State) (x : Engine) : (s.setEngine x).errors = s.errors := rfl
@[simp] theorem State.setEngine_alerts (s : State) (x : Engine) : (s.setEngine x).alerts = s.alerts := rfl
@[simp] theorem State.setEngine_link (s : State) (x : Engine) : (s.setEngine x).link = s.link := rfl
@[simp] theorem State.setEngine_pending (s : State) (x : Engine) : (s.setEngine x).pending = s.pending := rfl

@[simp] theorem State.setRemap_powered (s : State) (x : Remap) : (s.setRemap x).powered = s.powered := rfl
@[simp] theorem State.setRemap_clock (s : State) (x : Remap) : (s.setRemap x).clock = s.clock := rfl
@[simp] theorem State.setRemap_bankEngine (s : State) (x : Remap) : (s.setRemap x).bankEngine = s.bankEngine := rfl
@[simp] theorem State.setRemap_channel (s : State) (x : Remap) : (s.setRemap x).channel = s.channel := rfl
@[simp] theorem State.setRemap_array (s : State) (x : Remap) : (s.setRemap x).array = s.array := rfl
@[simp] theorem State.setRemap_refresh (s : State) (x : Remap) : (s.setRemap x).refresh = s.refresh := rfl
@[simp] theorem State.setRemap_engine (s : State) (x : Remap) : (s.setRemap x).engine = s.engine := rfl
@[simp] theorem State.setRemap_remap (s : State) (x : Remap) : (s.setRemap x).remap = x := rfl
@[simp] theorem State.setRemap_scrubber (s : State) (x : Remap) : (s.setRemap x).scrubber = s.scrubber := rfl
@[simp] theorem State.setRemap_fillMap (s : State) (x : Remap) : (s.setRemap x).fillMap = s.fillMap := rfl
@[simp] theorem State.setRemap_buffer (s : State) (x : Remap) : (s.setRemap x).buffer = s.buffer := rfl
@[simp] theorem State.setRemap_port (s : State) (x : Remap) : (s.setRemap x).port = s.port := rfl
@[simp] theorem State.setRemap_thermal (s : State) (x : Remap) : (s.setRemap x).thermal = s.thermal := rfl
@[simp] theorem State.setRemap_hold (s : State) (x : Remap) : (s.setRemap x).hold = s.hold := rfl
@[simp] theorem State.setRemap_errors (s : State) (x : Remap) : (s.setRemap x).errors = s.errors := rfl
@[simp] theorem State.setRemap_alerts (s : State) (x : Remap) : (s.setRemap x).alerts = s.alerts := rfl
@[simp] theorem State.setRemap_link (s : State) (x : Remap) : (s.setRemap x).link = s.link := rfl
@[simp] theorem State.setRemap_pending (s : State) (x : Remap) : (s.setRemap x).pending = s.pending := rfl

@[simp] theorem State.setScrubber_powered (s : State) (x : Scrubber) : (s.setScrubber x).powered = s.powered := rfl
@[simp] theorem State.setScrubber_clock (s : State) (x : Scrubber) : (s.setScrubber x).clock = s.clock := rfl
@[simp] theorem State.setScrubber_bankEngine (s : State) (x : Scrubber) : (s.setScrubber x).bankEngine = s.bankEngine := rfl
@[simp] theorem State.setScrubber_channel (s : State) (x : Scrubber) : (s.setScrubber x).channel = s.channel := rfl
@[simp] theorem State.setScrubber_array (s : State) (x : Scrubber) : (s.setScrubber x).array = s.array := rfl
@[simp] theorem State.setScrubber_refresh (s : State) (x : Scrubber) : (s.setScrubber x).refresh = s.refresh := rfl
@[simp] theorem State.setScrubber_engine (s : State) (x : Scrubber) : (s.setScrubber x).engine = s.engine := rfl
@[simp] theorem State.setScrubber_remap (s : State) (x : Scrubber) : (s.setScrubber x).remap = s.remap := rfl
@[simp] theorem State.setScrubber_scrubber (s : State) (x : Scrubber) : (s.setScrubber x).scrubber = x := rfl
@[simp] theorem State.setScrubber_fillMap (s : State) (x : Scrubber) : (s.setScrubber x).fillMap = s.fillMap := rfl
@[simp] theorem State.setScrubber_buffer (s : State) (x : Scrubber) : (s.setScrubber x).buffer = s.buffer := rfl
@[simp] theorem State.setScrubber_port (s : State) (x : Scrubber) : (s.setScrubber x).port = s.port := rfl
@[simp] theorem State.setScrubber_thermal (s : State) (x : Scrubber) : (s.setScrubber x).thermal = s.thermal := rfl
@[simp] theorem State.setScrubber_hold (s : State) (x : Scrubber) : (s.setScrubber x).hold = s.hold := rfl
@[simp] theorem State.setScrubber_errors (s : State) (x : Scrubber) : (s.setScrubber x).errors = s.errors := rfl
@[simp] theorem State.setScrubber_alerts (s : State) (x : Scrubber) : (s.setScrubber x).alerts = s.alerts := rfl
@[simp] theorem State.setScrubber_link (s : State) (x : Scrubber) : (s.setScrubber x).link = s.link := rfl
@[simp] theorem State.setScrubber_pending (s : State) (x : Scrubber) : (s.setScrubber x).pending = s.pending := rfl

@[simp] theorem State.setFillMap_powered (s : State) (x : FillMap) : (s.setFillMap x).powered = s.powered := rfl
@[simp] theorem State.setFillMap_clock (s : State) (x : FillMap) : (s.setFillMap x).clock = s.clock := rfl
@[simp] theorem State.setFillMap_bankEngine (s : State) (x : FillMap) : (s.setFillMap x).bankEngine = s.bankEngine := rfl
@[simp] theorem State.setFillMap_channel (s : State) (x : FillMap) : (s.setFillMap x).channel = s.channel := rfl
@[simp] theorem State.setFillMap_array (s : State) (x : FillMap) : (s.setFillMap x).array = s.array := rfl
@[simp] theorem State.setFillMap_refresh (s : State) (x : FillMap) : (s.setFillMap x).refresh = s.refresh := rfl
@[simp] theorem State.setFillMap_engine (s : State) (x : FillMap) : (s.setFillMap x).engine = s.engine := rfl
@[simp] theorem State.setFillMap_remap (s : State) (x : FillMap) : (s.setFillMap x).remap = s.remap := rfl
@[simp] theorem State.setFillMap_scrubber (s : State) (x : FillMap) : (s.setFillMap x).scrubber = s.scrubber := rfl
@[simp] theorem State.setFillMap_fillMap (s : State) (x : FillMap) : (s.setFillMap x).fillMap = x := rfl
@[simp] theorem State.setFillMap_buffer (s : State) (x : FillMap) : (s.setFillMap x).buffer = s.buffer := rfl
@[simp] theorem State.setFillMap_port (s : State) (x : FillMap) : (s.setFillMap x).port = s.port := rfl
@[simp] theorem State.setFillMap_thermal (s : State) (x : FillMap) : (s.setFillMap x).thermal = s.thermal := rfl
@[simp] theorem State.setFillMap_hold (s : State) (x : FillMap) : (s.setFillMap x).hold = s.hold := rfl
@[simp] theorem State.setFillMap_errors (s : State) (x : FillMap) : (s.setFillMap x).errors = s.errors := rfl
@[simp] theorem State.setFillMap_alerts (s : State) (x : FillMap) : (s.setFillMap x).alerts = s.alerts := rfl
@[simp] theorem State.setFillMap_link (s : State) (x : FillMap) : (s.setFillMap x).link = s.link := rfl
@[simp] theorem State.setFillMap_pending (s : State) (x : FillMap) : (s.setFillMap x).pending = s.pending := rfl

@[simp] theorem State.setBuffer_powered (s : State) (x : WriteBuffer) : (s.setBuffer x).powered = s.powered := rfl
@[simp] theorem State.setBuffer_clock (s : State) (x : WriteBuffer) : (s.setBuffer x).clock = s.clock := rfl
@[simp] theorem State.setBuffer_bankEngine (s : State) (x : WriteBuffer) : (s.setBuffer x).bankEngine = s.bankEngine := rfl
@[simp] theorem State.setBuffer_channel (s : State) (x : WriteBuffer) : (s.setBuffer x).channel = s.channel := rfl
@[simp] theorem State.setBuffer_array (s : State) (x : WriteBuffer) : (s.setBuffer x).array = s.array := rfl
@[simp] theorem State.setBuffer_refresh (s : State) (x : WriteBuffer) : (s.setBuffer x).refresh = s.refresh := rfl
@[simp] theorem State.setBuffer_engine (s : State) (x : WriteBuffer) : (s.setBuffer x).engine = s.engine := rfl
@[simp] theorem State.setBuffer_remap (s : State) (x : WriteBuffer) : (s.setBuffer x).remap = s.remap := rfl
@[simp] theorem State.setBuffer_scrubber (s : State) (x : WriteBuffer) : (s.setBuffer x).scrubber = s.scrubber := rfl
@[simp] theorem State.setBuffer_fillMap (s : State) (x : WriteBuffer) : (s.setBuffer x).fillMap = s.fillMap := rfl
@[simp] theorem State.setBuffer_buffer (s : State) (x : WriteBuffer) : (s.setBuffer x).buffer = x := rfl
@[simp] theorem State.setBuffer_port (s : State) (x : WriteBuffer) : (s.setBuffer x).port = s.port := rfl
@[simp] theorem State.setBuffer_thermal (s : State) (x : WriteBuffer) : (s.setBuffer x).thermal = s.thermal := rfl
@[simp] theorem State.setBuffer_hold (s : State) (x : WriteBuffer) : (s.setBuffer x).hold = s.hold := rfl
@[simp] theorem State.setBuffer_errors (s : State) (x : WriteBuffer) : (s.setBuffer x).errors = s.errors := rfl
@[simp] theorem State.setBuffer_alerts (s : State) (x : WriteBuffer) : (s.setBuffer x).alerts = s.alerts := rfl
@[simp] theorem State.setBuffer_link (s : State) (x : WriteBuffer) : (s.setBuffer x).link = s.link := rfl
@[simp] theorem State.setBuffer_pending (s : State) (x : WriteBuffer) : (s.setBuffer x).pending = s.pending := rfl

@[simp] theorem State.setPort_powered (s : State) (x : SystemPort) : (s.setPort x).powered = s.powered := rfl
@[simp] theorem State.setPort_clock (s : State) (x : SystemPort) : (s.setPort x).clock = s.clock := rfl
@[simp] theorem State.setPort_bankEngine (s : State) (x : SystemPort) : (s.setPort x).bankEngine = s.bankEngine := rfl
@[simp] theorem State.setPort_channel (s : State) (x : SystemPort) : (s.setPort x).channel = s.channel := rfl
@[simp] theorem State.setPort_array (s : State) (x : SystemPort) : (s.setPort x).array = s.array := rfl
@[simp] theorem State.setPort_refresh (s : State) (x : SystemPort) : (s.setPort x).refresh = s.refresh := rfl
@[simp] theorem State.setPort_engine (s : State) (x : SystemPort) : (s.setPort x).engine = s.engine := rfl
@[simp] theorem State.setPort_remap (s : State) (x : SystemPort) : (s.setPort x).remap = s.remap := rfl
@[simp] theorem State.setPort_scrubber (s : State) (x : SystemPort) : (s.setPort x).scrubber = s.scrubber := rfl
@[simp] theorem State.setPort_fillMap (s : State) (x : SystemPort) : (s.setPort x).fillMap = s.fillMap := rfl
@[simp] theorem State.setPort_buffer (s : State) (x : SystemPort) : (s.setPort x).buffer = s.buffer := rfl
@[simp] theorem State.setPort_port (s : State) (x : SystemPort) : (s.setPort x).port = x := rfl
@[simp] theorem State.setPort_thermal (s : State) (x : SystemPort) : (s.setPort x).thermal = s.thermal := rfl
@[simp] theorem State.setPort_hold (s : State) (x : SystemPort) : (s.setPort x).hold = s.hold := rfl
@[simp] theorem State.setPort_errors (s : State) (x : SystemPort) : (s.setPort x).errors = s.errors := rfl
@[simp] theorem State.setPort_alerts (s : State) (x : SystemPort) : (s.setPort x).alerts = s.alerts := rfl
@[simp] theorem State.setPort_link (s : State) (x : SystemPort) : (s.setPort x).link = s.link := rfl
@[simp] theorem State.setPort_pending (s : State) (x : SystemPort) : (s.setPort x).pending = s.pending := rfl

@[simp] theorem State.setThermal_powered (s : State) (x : Thermal) : (s.setThermal x).powered = s.powered := rfl
@[simp] theorem State.setThermal_clock (s : State) (x : Thermal) : (s.setThermal x).clock = s.clock := rfl
@[simp] theorem State.setThermal_bankEngine (s : State) (x : Thermal) : (s.setThermal x).bankEngine = s.bankEngine := rfl
@[simp] theorem State.setThermal_channel (s : State) (x : Thermal) : (s.setThermal x).channel = s.channel := rfl
@[simp] theorem State.setThermal_array (s : State) (x : Thermal) : (s.setThermal x).array = s.array := rfl
@[simp] theorem State.setThermal_refresh (s : State) (x : Thermal) : (s.setThermal x).refresh = s.refresh := rfl
@[simp] theorem State.setThermal_engine (s : State) (x : Thermal) : (s.setThermal x).engine = s.engine := rfl
@[simp] theorem State.setThermal_remap (s : State) (x : Thermal) : (s.setThermal x).remap = s.remap := rfl
@[simp] theorem State.setThermal_scrubber (s : State) (x : Thermal) : (s.setThermal x).scrubber = s.scrubber := rfl
@[simp] theorem State.setThermal_fillMap (s : State) (x : Thermal) : (s.setThermal x).fillMap = s.fillMap := rfl
@[simp] theorem State.setThermal_buffer (s : State) (x : Thermal) : (s.setThermal x).buffer = s.buffer := rfl
@[simp] theorem State.setThermal_port (s : State) (x : Thermal) : (s.setThermal x).port = s.port := rfl
@[simp] theorem State.setThermal_thermal (s : State) (x : Thermal) : (s.setThermal x).thermal = x := rfl
@[simp] theorem State.setThermal_hold (s : State) (x : Thermal) : (s.setThermal x).hold = s.hold := rfl
@[simp] theorem State.setThermal_errors (s : State) (x : Thermal) : (s.setThermal x).errors = s.errors := rfl
@[simp] theorem State.setThermal_alerts (s : State) (x : Thermal) : (s.setThermal x).alerts = s.alerts := rfl
@[simp] theorem State.setThermal_link (s : State) (x : Thermal) : (s.setThermal x).link = s.link := rfl
@[simp] theorem State.setThermal_pending (s : State) (x : Thermal) : (s.setThermal x).pending = s.pending := rfl

@[simp] theorem State.setHold_powered (s : State) (x : Hold) : (s.setHold x).powered = s.powered := rfl
@[simp] theorem State.setHold_clock (s : State) (x : Hold) : (s.setHold x).clock = s.clock := rfl
@[simp] theorem State.setHold_bankEngine (s : State) (x : Hold) : (s.setHold x).bankEngine = s.bankEngine := rfl
@[simp] theorem State.setHold_channel (s : State) (x : Hold) : (s.setHold x).channel = s.channel := rfl
@[simp] theorem State.setHold_array (s : State) (x : Hold) : (s.setHold x).array = s.array := rfl
@[simp] theorem State.setHold_refresh (s : State) (x : Hold) : (s.setHold x).refresh = s.refresh := rfl
@[simp] theorem State.setHold_engine (s : State) (x : Hold) : (s.setHold x).engine = s.engine := rfl
@[simp] theorem State.setHold_remap (s : State) (x : Hold) : (s.setHold x).remap = s.remap := rfl
@[simp] theorem State.setHold_scrubber (s : State) (x : Hold) : (s.setHold x).scrubber = s.scrubber := rfl
@[simp] theorem State.setHold_fillMap (s : State) (x : Hold) : (s.setHold x).fillMap = s.fillMap := rfl
@[simp] theorem State.setHold_buffer (s : State) (x : Hold) : (s.setHold x).buffer = s.buffer := rfl
@[simp] theorem State.setHold_port (s : State) (x : Hold) : (s.setHold x).port = s.port := rfl
@[simp] theorem State.setHold_thermal (s : State) (x : Hold) : (s.setHold x).thermal = s.thermal := rfl
@[simp] theorem State.setHold_hold (s : State) (x : Hold) : (s.setHold x).hold = x := rfl
@[simp] theorem State.setHold_errors (s : State) (x : Hold) : (s.setHold x).errors = s.errors := rfl
@[simp] theorem State.setHold_alerts (s : State) (x : Hold) : (s.setHold x).alerts = s.alerts := rfl
@[simp] theorem State.setHold_link (s : State) (x : Hold) : (s.setHold x).link = s.link := rfl
@[simp] theorem State.setHold_pending (s : State) (x : Hold) : (s.setHold x).pending = s.pending := rfl

@[simp] theorem State.setErrors_powered (s : State) (x : ErrorTable) : (s.setErrors x).powered = s.powered := rfl
@[simp] theorem State.setErrors_clock (s : State) (x : ErrorTable) : (s.setErrors x).clock = s.clock := rfl
@[simp] theorem State.setErrors_bankEngine (s : State) (x : ErrorTable) : (s.setErrors x).bankEngine = s.bankEngine := rfl
@[simp] theorem State.setErrors_channel (s : State) (x : ErrorTable) : (s.setErrors x).channel = s.channel := rfl
@[simp] theorem State.setErrors_array (s : State) (x : ErrorTable) : (s.setErrors x).array = s.array := rfl
@[simp] theorem State.setErrors_refresh (s : State) (x : ErrorTable) : (s.setErrors x).refresh = s.refresh := rfl
@[simp] theorem State.setErrors_engine (s : State) (x : ErrorTable) : (s.setErrors x).engine = s.engine := rfl
@[simp] theorem State.setErrors_remap (s : State) (x : ErrorTable) : (s.setErrors x).remap = s.remap := rfl
@[simp] theorem State.setErrors_scrubber (s : State) (x : ErrorTable) : (s.setErrors x).scrubber = s.scrubber := rfl
@[simp] theorem State.setErrors_fillMap (s : State) (x : ErrorTable) : (s.setErrors x).fillMap = s.fillMap := rfl
@[simp] theorem State.setErrors_buffer (s : State) (x : ErrorTable) : (s.setErrors x).buffer = s.buffer := rfl
@[simp] theorem State.setErrors_port (s : State) (x : ErrorTable) : (s.setErrors x).port = s.port := rfl
@[simp] theorem State.setErrors_thermal (s : State) (x : ErrorTable) : (s.setErrors x).thermal = s.thermal := rfl
@[simp] theorem State.setErrors_hold (s : State) (x : ErrorTable) : (s.setErrors x).hold = s.hold := rfl
@[simp] theorem State.setErrors_errors (s : State) (x : ErrorTable) : (s.setErrors x).errors = x := rfl
@[simp] theorem State.setErrors_alerts (s : State) (x : ErrorTable) : (s.setErrors x).alerts = s.alerts := rfl
@[simp] theorem State.setErrors_link (s : State) (x : ErrorTable) : (s.setErrors x).link = s.link := rfl
@[simp] theorem State.setErrors_pending (s : State) (x : ErrorTable) : (s.setErrors x).pending = s.pending := rfl

@[simp] theorem State.setAlerts_powered (s : State) (x : Alerts) : (s.setAlerts x).powered = s.powered := rfl
@[simp] theorem State.setAlerts_clock (s : State) (x : Alerts) : (s.setAlerts x).clock = s.clock := rfl
@[simp] theorem State.setAlerts_bankEngine (s : State) (x : Alerts) : (s.setAlerts x).bankEngine = s.bankEngine := rfl
@[simp] theorem State.setAlerts_channel (s : State) (x : Alerts) : (s.setAlerts x).channel = s.channel := rfl
@[simp] theorem State.setAlerts_array (s : State) (x : Alerts) : (s.setAlerts x).array = s.array := rfl
@[simp] theorem State.setAlerts_refresh (s : State) (x : Alerts) : (s.setAlerts x).refresh = s.refresh := rfl
@[simp] theorem State.setAlerts_engine (s : State) (x : Alerts) : (s.setAlerts x).engine = s.engine := rfl
@[simp] theorem State.setAlerts_remap (s : State) (x : Alerts) : (s.setAlerts x).remap = s.remap := rfl
@[simp] theorem State.setAlerts_scrubber (s : State) (x : Alerts) : (s.setAlerts x).scrubber = s.scrubber := rfl
@[simp] theorem State.setAlerts_fillMap (s : State) (x : Alerts) : (s.setAlerts x).fillMap = s.fillMap := rfl
@[simp] theorem State.setAlerts_buffer (s : State) (x : Alerts) : (s.setAlerts x).buffer = s.buffer := rfl
@[simp] theorem State.setAlerts_port (s : State) (x : Alerts) : (s.setAlerts x).port = s.port := rfl
@[simp] theorem State.setAlerts_thermal (s : State) (x : Alerts) : (s.setAlerts x).thermal = s.thermal := rfl
@[simp] theorem State.setAlerts_hold (s : State) (x : Alerts) : (s.setAlerts x).hold = s.hold := rfl
@[simp] theorem State.setAlerts_errors (s : State) (x : Alerts) : (s.setAlerts x).errors = s.errors := rfl
@[simp] theorem State.setAlerts_alerts (s : State) (x : Alerts) : (s.setAlerts x).alerts = x := rfl
@[simp] theorem State.setAlerts_link (s : State) (x : Alerts) : (s.setAlerts x).link = s.link := rfl
@[simp] theorem State.setAlerts_pending (s : State) (x : Alerts) : (s.setAlerts x).pending = s.pending := rfl

@[simp] theorem State.setLink_powered (s : State) (x : Link) : (s.setLink x).powered = s.powered := rfl
@[simp] theorem State.setLink_clock (s : State) (x : Link) : (s.setLink x).clock = s.clock := rfl
@[simp] theorem State.setLink_bankEngine (s : State) (x : Link) : (s.setLink x).bankEngine = s.bankEngine := rfl
@[simp] theorem State.setLink_channel (s : State) (x : Link) : (s.setLink x).channel = s.channel := rfl
@[simp] theorem State.setLink_array (s : State) (x : Link) : (s.setLink x).array = s.array := rfl
@[simp] theorem State.setLink_refresh (s : State) (x : Link) : (s.setLink x).refresh = s.refresh := rfl
@[simp] theorem State.setLink_engine (s : State) (x : Link) : (s.setLink x).engine = s.engine := rfl
@[simp] theorem State.setLink_remap (s : State) (x : Link) : (s.setLink x).remap = s.remap := rfl
@[simp] theorem State.setLink_scrubber (s : State) (x : Link) : (s.setLink x).scrubber = s.scrubber := rfl
@[simp] theorem State.setLink_fillMap (s : State) (x : Link) : (s.setLink x).fillMap = s.fillMap := rfl
@[simp] theorem State.setLink_buffer (s : State) (x : Link) : (s.setLink x).buffer = s.buffer := rfl
@[simp] theorem State.setLink_port (s : State) (x : Link) : (s.setLink x).port = s.port := rfl
@[simp] theorem State.setLink_thermal (s : State) (x : Link) : (s.setLink x).thermal = s.thermal := rfl
@[simp] theorem State.setLink_hold (s : State) (x : Link) : (s.setLink x).hold = s.hold := rfl
@[simp] theorem State.setLink_errors (s : State) (x : Link) : (s.setLink x).errors = s.errors := rfl
@[simp] theorem State.setLink_alerts (s : State) (x : Link) : (s.setLink x).alerts = s.alerts := rfl
@[simp] theorem State.setLink_link (s : State) (x : Link) : (s.setLink x).link = x := rfl
@[simp] theorem State.setLink_pending (s : State) (x : Link) : (s.setLink x).pending = s.pending := rfl

@[simp] theorem State.setPending_powered (s : State) (x : List Instr) : (s.setPending x).powered = s.powered := rfl
@[simp] theorem State.setPending_clock (s : State) (x : List Instr) : (s.setPending x).clock = s.clock := rfl
@[simp] theorem State.setPending_bankEngine (s : State) (x : List Instr) : (s.setPending x).bankEngine = s.bankEngine := rfl
@[simp] theorem State.setPending_channel (s : State) (x : List Instr) : (s.setPending x).channel = s.channel := rfl
@[simp] theorem State.setPending_array (s : State) (x : List Instr) : (s.setPending x).array = s.array := rfl
@[simp] theorem State.setPending_refresh (s : State) (x : List Instr) : (s.setPending x).refresh = s.refresh := rfl
@[simp] theorem State.setPending_engine (s : State) (x : List Instr) : (s.setPending x).engine = s.engine := rfl
@[simp] theorem State.setPending_remap (s : State) (x : List Instr) : (s.setPending x).remap = s.remap := rfl
@[simp] theorem State.setPending_scrubber (s : State) (x : List Instr) : (s.setPending x).scrubber = s.scrubber := rfl
@[simp] theorem State.setPending_fillMap (s : State) (x : List Instr) : (s.setPending x).fillMap = s.fillMap := rfl
@[simp] theorem State.setPending_buffer (s : State) (x : List Instr) : (s.setPending x).buffer = s.buffer := rfl
@[simp] theorem State.setPending_port (s : State) (x : List Instr) : (s.setPending x).port = s.port := rfl
@[simp] theorem State.setPending_thermal (s : State) (x : List Instr) : (s.setPending x).thermal = s.thermal := rfl
@[simp] theorem State.setPending_hold (s : State) (x : List Instr) : (s.setPending x).hold = s.hold := rfl
@[simp] theorem State.setPending_errors (s : State) (x : List Instr) : (s.setPending x).errors = s.errors := rfl
@[simp] theorem State.setPending_alerts (s : State) (x : List Instr) : (s.setPending x).alerts = s.alerts := rfl
@[simp] theorem State.setPending_link (s : State) (x : List Instr) : (s.setPending x).link = s.link := rfl
@[simp] theorem State.setPending_pending (s : State) (x : List Instr) : (s.setPending x).pending = x := rfl

end Sys2Proof.Machine
end

