-- ==== Sys2Proof/Laws/Frames.lean ====
section
/-! SUPPORT. Frames: which blocks each shared operation leaves as they are, one lemma per operation, and how frames compose. -/

namespace Sys2Proof.Machine

theorem SameBut.refl (l : List Block) (s : State) : SameBut l s s :=
  ⟨rfl, fun k _ => by cases k <;> rfl⟩

theorem Block.agrees_trans {s t u : State} {k : Block} (h : k.agrees s t) (g : k.agrees t u) : k.agrees s u := by
  cases k <;> exact Eq.trans g h

theorem SameBut.trans {l m : List Block} {s t u : State} (h : SameBut l s t) (g : SameBut m t u) :
    SameBut (l ++ m) s u :=
  ⟨g.1.trans h.1, fun k hk => by
    rw [List.mem_append, not_or] at hk
    exact Block.agrees_trans (h.2 k hk.1) (g.2 k hk.2)⟩

theorem SameBut.mono {l m : List Block} {s t : State} (h : SameBut l s t) (hl : l ⊆ m) : SameBut m s t :=
  ⟨h.1, fun k hk => h.2 k fun hm => hk (hl hm)⟩

theorem SameBut.foldl {α : Type} {l : List Block} {f : State → α → State} (h : ∀ s x, SameBut l s (f s x)) :
    ∀ (xs : List α) (s : State), SameBut l s (xs.foldl f s)
  | [], s => .refl l s
  | x :: xs, s => ((h s x).trans (SameBut.foldl h xs (f s x))).mono fun _ hk => by simpa using hk

/-! ## What a frame says of one block -/

theorem SameBut.pending {l : List Block} {s t : State} (h : SameBut l s t) : t.pending = s.pending := h.1

theorem SameBut.powered {l : List Block} {s t : State} (h : SameBut l s t) (hl : Block.powered ∉ l := by decide) :
    t.powered = s.powered := h.2 .powered hl

theorem SameBut.clock {l : List Block} {s t : State} (h : SameBut l s t) (hl : Block.clock ∉ l := by decide) :
    t.clock = s.clock := h.2 .clock hl

theorem SameBut.bankEngine {l : List Block} {s t : State} (h : SameBut l s t) (hl : Block.bankEngine ∉ l := by decide) :
    t.bankEngine = s.bankEngine := h.2 .bankEngine hl

theorem SameBut.channel {l : List Block} {s t : State} (h : SameBut l s t) (hl : Block.channel ∉ l := by decide) :
    t.channel = s.channel := h.2 .channel hl

theorem SameBut.array {l : List Block} {s t : State} (h : SameBut l s t) (hl : Block.array ∉ l := by decide) :
    t.array = s.array := h.2 .array hl

theorem SameBut.refresh {l : List Block} {s t : State} (h : SameBut l s t) (hl : Block.refresh ∉ l := by decide) :
    t.refresh = s.refresh := h.2 .refresh hl

theorem SameBut.engine {l : List Block} {s t : State} (h : SameBut l s t) (hl : Block.engine ∉ l := by decide) :
    t.engine = s.engine := h.2 .engine hl

theorem SameBut.remap {l : List Block} {s t : State} (h : SameBut l s t) (hl : Block.remap ∉ l := by decide) :
    t.remap = s.remap := h.2 .remap hl

theorem SameBut.scrubber {l : List Block} {s t : State} (h : SameBut l s t) (hl : Block.scrubber ∉ l := by decide) :
    t.scrubber = s.scrubber := h.2 .scrubber hl

theorem SameBut.fillMap {l : List Block} {s t : State} (h : SameBut l s t) (hl : Block.fillMap ∉ l := by decide) :
    t.fillMap = s.fillMap := h.2 .fillMap hl

theorem SameBut.buffer {l : List Block} {s t : State} (h : SameBut l s t) (hl : Block.buffer ∉ l := by decide) :
    t.buffer = s.buffer := h.2 .buffer hl

theorem SameBut.port {l : List Block} {s t : State} (h : SameBut l s t) (hl : Block.port ∉ l := by decide) :
    t.port = s.port := h.2 .port hl

theorem SameBut.thermal {l : List Block} {s t : State} (h : SameBut l s t) (hl : Block.thermal ∉ l := by decide) :
    t.thermal = s.thermal := h.2 .thermal hl

theorem SameBut.hold {l : List Block} {s t : State} (h : SameBut l s t) (hl : Block.hold ∉ l := by decide) :
    t.hold = s.hold := h.2 .hold hl

theorem SameBut.errors {l : List Block} {s t : State} (h : SameBut l s t) (hl : Block.errors ∉ l := by decide) :
    t.errors = s.errors := h.2 .errors hl

theorem SameBut.alerts {l : List Block} {s t : State} (h : SameBut l s t) (hl : Block.alerts ∉ l := by decide) :
    t.alerts = s.alerts := h.2 .alerts hl

theorem SameBut.link {l : List Block} {s t : State} (h : SameBut l s t) (hl : Block.link ∉ l := by decide) :
    t.link = s.link := h.2 .link hl

/-! ## The replacement of one block -/

theorem State.setClock_same (s : State) x : SameBut [.clock] s (s.setClock x) :=
  ⟨rfl, fun k hk => by cases k <;> first | rfl | simp at hk⟩

theorem State.setBankEngine_same (s : State) x : SameBut [.bankEngine] s (s.setBankEngine x) :=
  ⟨rfl, fun k hk => by cases k <;> first | rfl | simp at hk⟩

theorem State.setChannel_same (s : State) x : SameBut [.channel] s (s.setChannel x) :=
  ⟨rfl, fun k hk => by cases k <;> first | rfl | simp at hk⟩

theorem State.setArray_same (s : State) x : SameBut [.array] s (s.setArray x) :=
  ⟨rfl, fun k hk => by cases k <;> first | rfl | simp at hk⟩

theorem State.setRefresh_same (s : State) x : SameBut [.refresh] s (s.setRefresh x) :=
  ⟨rfl, fun k hk => by cases k <;> first | rfl | simp at hk⟩

theorem State.setEngine_same (s : State) x : SameBut [.engine] s (s.setEngine x) :=
  ⟨rfl, fun k hk => by cases k <;> first | rfl | simp at hk⟩

theorem State.setRemap_same (s : State) x : SameBut [.remap] s (s.setRemap x) :=
  ⟨rfl, fun k hk => by cases k <;> first | rfl | simp at hk⟩

theorem State.setScrubber_same (s : State) x : SameBut [.scrubber] s (s.setScrubber x) :=
  ⟨rfl, fun k hk => by cases k <;> first | rfl | simp at hk⟩

theorem State.setFillMap_same (s : State) x : SameBut [.fillMap] s (s.setFillMap x) :=
  ⟨rfl, fun k hk => by cases k <;> first | rfl | simp at hk⟩

theorem State.setBuffer_same (s : State) x : SameBut [.buffer] s (s.setBuffer x) :=
  ⟨rfl, fun k hk => by cases k <;> first | rfl | simp at hk⟩

theorem State.setPort_same (s : State) x : SameBut [.port] s (s.setPort x) :=
  ⟨rfl, fun k hk => by cases k <;> first | rfl | simp at hk⟩

theorem State.setThermal_same (s : State) x : SameBut [.thermal] s (s.setThermal x) :=
  ⟨rfl, fun k hk => by cases k <;> first | rfl | simp at hk⟩

theorem State.setHold_same (s : State) x : SameBut [.hold] s (s.setHold x) :=
  ⟨rfl, fun k hk => by cases k <;> first | rfl | simp at hk⟩

theorem State.setErrors_same (s : State) x : SameBut [.errors] s (s.setErrors x) :=
  ⟨rfl, fun k hk => by cases k <;> first | rfl | simp at hk⟩

theorem State.setAlerts_same (s : State) x : SameBut [.alerts] s (s.setAlerts x) :=
  ⟨rfl, fun k hk => by cases k <;> first | rfl | simp at hk⟩

theorem State.setLink_same (s : State) x : SameBut [.link] s (s.setLink x) :=
  ⟨rfl, fun k hk => by cases k <;> first | rfl | simp at hk⟩

theorem State.setBank_same (s : State) (b : Bank) (r : BankRecord) : SameBut [.bankEngine] s (s.setBank b r) :=
  s.setBankEngine_same _

theorem State.setBalanceOf_same (s : State) (b : Bank) (r : RefreshRecord) : SameBut [.refresh] s (s.setBalanceOf b r) :=
  s.setRefresh_same _

theorem State.moveTo_same (s : State) (t : Time) : SameBut [.clock] s (s.moveTo t) := s.setClock_same _

theorem State.idle_same (s : State) : SameBut [.clock] s s.idle := s.setClock_same _

theorem State.raise_same (s : State) (c : Cause) : SameBut [.alerts] s (s.raise c) := s.setAlerts_same _

theorem State.setStage_same (s : State) (x : Option Stage) : SameBut [.port] s (s.setStage x) := s.setPort_same _

theorem State.respond_same (s : State) (r : Response) : SameBut [.port] s (s.respond r) := s.setPort_same _

theorem State.setStack_same (s : State) (jobs : List Job) : SameBut [.engine] s (s.setStack jobs) := s.setEngine_same _

theorem State.setResult_same (s : State) (r : ResultCode) : SameBut [.link] s (s.setResult r) := s.setLink_same _

end Sys2Proof.Machine
end

