-- ==== Sys2Proof/Laws/Operations.lean ====
section
/-! SUPPORT. The frame of each shared operation: the blocks it can change. -/

namespace Sys2Proof.Machine

/-! ## Array -/

theorem State.writeWord_same (s : State) (b : Bank) (p : PhysicalRow) (w : WordInRow) (v : StoredWord) :
    SameBut [.array] s (s.writeWord b p w v) := s.setArray_same _

theorem State.writeWords_same (s : State) (b : Bank) (p : PhysicalRow) (ws : List (WordInRow × StoredWord)) :
    SameBut [.array] s (s.writeWords b p ws) :=
  SameBut.foldl (f := fun s x => s.writeWord b p x.1 x.2) (fun s x => s.writeWord_same b p x.1 x.2) ws s

theorem State.writeRows_same (s : State) (b : Bank) (rows : List PhysicalRow) (ws : List (WordInRow × StoredWord)) :
    SameBut [.array] s (s.writeRows b rows ws) := SameBut.foldl (fun s p => s.writeWords_same b p ws) rows s

theorem State.changeBits_same (s : State) (c : BitChange) : SameBut [.array] s (s.changeBits c) :=
  s.writeWord_same _ _ _ _

theorem State.changeAll_same (s : State) (cs : List BitChange) : SameBut [.array] s (s.changeAll cs) :=
  SameBut.foldl State.changeBits_same cs s

/-! ## Reports -/

theorem State.report_same (s : State) (e : ErrorReport) : SameBut [.errors, .alerts] s (s.report e) := by
  unfold State.report
  dsimp only
  split
  · exact (s.setErrors_same _).mono (by decide)
  · split
    · exact (s.setErrors_same _).mono (by decide)
    · split
      · exact (s.setErrors_same _).mono (by decide)
      · split
        · exact .refl _ _
        · exact ((s.setErrors_same _).trans (State.raise_same _ _)).mono (by decide)

theorem State.reportSuspect_same (s : State) (b : Bank) (r : LogicalRow) (o : DecodeOutcome) :
    SameBut [.remap] s (s.reportSuspect b r o) := by
  unfold State.reportSuspect
  split
  · exact .refl _ _
  · cases o <;> first | exact .refl _ _ | exact s.setRemap_same _

theorem State.reportWord_same (s : State) (source : ErrorSource) (b : Bank) (r : LogicalRow) (p : PhysicalRow)
    (w : WordInRow) (o : DecodeOutcome) : SameBut [.remap, .errors, .alerts] s (s.reportWord source b r p w o) := by
  cases o
  · exact .refl _ _
  · exact ((s.report_same _).trans (State.reportSuspect_same _ _ _ _)).mono (by decide)
  · exact .refl _ _
  · exact (((s.report_same _).trans (State.reportSuspect_same _ _ _ _)).trans (State.raise_same _ _)).mono (by decide)

theorem State.reportMigrated_same (s : State) (b : Bank) (p : PhysicalRow) (w : WordInRow) (o : DecodeOutcome) :
    SameBut [.errors, .alerts] s (s.reportMigrated b p w o) := by
  cases o
  · exact .refl _ _
  · exact s.report_same _
  · exact .refl _ _
  · exact ((s.report_same _).trans (State.raise_same _ _)).mono (by decide)

theorem State.reportRead_same (s : State) (line : Line) (p : PhysicalRow) (ds : List (ReadWord × Decoded)) :
    SameBut [.remap, .errors, .alerts] s (s.reportRead line p ds) :=
  SameBut.foldl (fun s _ => s.reportWord_same _ _ _ _ _ _) ds s

theorem State.reportAll_same (s : State) (source : ErrorSource) (b : Bank) (r : LogicalRow) (p : PhysicalRow)
    (ds : List (WordInRow × Decoded)) : SameBut [.remap, .errors, .alerts] s (s.reportAll source b r p ds) :=
  SameBut.foldl (fun s _ => s.reportWord_same _ _ _ _ _ _) ds s

theorem State.reportMigration_same (s : State) (b : Bank) (p : PhysicalRow) (ds : List (WordInRow × Decoded)) :
    SameBut [.errors, .alerts] s (s.reportMigration b p ds) :=
  SameBut.foldl (fun s _ => s.reportMigrated_same _ _ _ _) ds s

/-! ## Banks and channel -/

theorem State.askClose_same (s : State) (cause : CloseCause) (b : Bank) :
    SameBut [.bankEngine] s (s.askClose cause b) := s.setBank_same _ _

theorem State.closeAll_same (s : State) : SameBut [.bankEngine] s s.closeAll :=
  SameBut.foldl (fun s b => s.askClose_same .hold b) allBanks s

theorem State.urgentClose_same (s : State) (b : Bank) : SameBut [.bankEngine] s (s.urgentClose b) := by
  unfold State.urgentClose
  split
  · exact s.askClose_same _ _
  · exact .refl _ _

theorem State.urgentCloses_same (s : State) : SameBut [.bankEngine] s s.urgentCloses :=
  SameBut.foldl State.urgentClose_same allBanks s

theorem State.expireIdleOn_same (s : State) (b : Bank) : SameBut [.bankEngine] s (s.expireIdleOn b) := by
  unfold State.expireIdleOn
  split
  · split
    · exact s.askClose_same _ b
    · exact .refl _ s
  · exact .refl _ s

theorem State.expireIdle_same (s : State) : SameBut [.bankEngine] s s.expireIdle :=
  SameBut.foldl (fun s b => s.expireIdleOn_same b) _ _

theorem State.closeForOperation_same (s : State) (b : Bank) : SameBut [.bankEngine] s (s.closeForOperation b) := by
  unfold State.closeForOperation
  split
  · exact s.setBank_same _ _
  · exact .refl _ _

theorem State.changeRow_same (s : State) (op : Operation) (b : Bank) :
    SameBut [.bankEngine, .channel] s (s.changeRow op b) := by
  unfold State.changeRow
  split
  · exact ((s.setChannel_same _).trans (State.setBank_same _ _ _)).mono (by decide)
  · exact (s.setChannel_same _).mono (by decide)

theorem State.openFor_same (s : State) (op : Operation) (b : Bank) (p : PhysicalRow) :
    SameBut [.bankEngine, .channel] s (s.openFor op b p) :=
  ((s.setChannel_same _).trans (State.setBank_same _ _ _)).mono (by decide)

theorem State.progressRefresh_same (s : State) (b : Bank) :
    SameBut [.bankEngine, .channel] s (s.progressRefresh b) := by
  unfold State.progressRefresh
  split
  · exact ((s.setBank_same _ _).trans (State.setChannel_same _ _)).mono (by decide)
  · exact (s.closeForOperation_same _).mono (by decide)
  all_goals exact .refl _ _

theorem State.progressRows_same (s : State) (op : Operation) (b : Bank) :
    SameBut [.bankEngine, .channel] s (s.progressRows op b) := by
  unfold State.progressRows
  split
  · exact s.openFor_same _ _ _
  · split
    · split
      · exact (s.setBank_same _ _).mono (by decide)
      · exact ((s.setBank_same _ _).trans (State.changeRow_same _ _ _)).mono (by decide)
    · exact s.changeRow_same _ _
  · exact .refl _ _

theorem State.progress_same (s : State) : SameBut [.bankEngine, .channel] s s.progress := by
  unfold State.progress
  split
  · exact .refl _ _
  · split
    · exact .refl _ _
    · split
      · exact s.progressRefresh_same _
      · exact s.progressRows_same _ _

theorem State.progressOn_same (s : State) (b : Bank) : SameBut [.bankEngine, .channel] s (s.progressOn b) := by
  unfold State.progressOn
  split
  · exact s.progress_same
  · exact .refl _ _

theorem State.release_same (s : State) (b : Bank) : SameBut [.bankEngine, .channel] s (s.release b) :=
  ((s.setChannel_same none).trans (State.setBank_same _ _ _)).mono (by decide)

/-! ## Refresh and temperature -/

theorem State.setBand_same (s : State) (new : Band) :
    SameBut [.bankEngine, .refresh, .thermal, .alerts] s (s.setBand new) := by
  unfold State.setBand
  dsimp only
  split
  · exact .refl _ _
  · split
    · exact ((((s.setThermal_same _).trans (State.setRefresh_same _ _)).trans (State.urgentCloses_same _)).trans
        (State.raise_same _ _)).mono (by decide)
    · exact (((s.setThermal_same _).trans (State.setRefresh_same _ _)).trans (State.urgentCloses_same _)).mono
        (by decide)

theorem State.takeReading_same (s : State) (reading : Int) (parityGood : Bool) :
    SameBut [.bankEngine, .refresh, .thermal, .alerts] s (s.takeReading reading parityGood) := by
  unfold State.takeReading
  split
  · exact ((s.setThermal_same _).trans (State.setBand_same _ _)).mono (by decide)
  · exact (((s.setThermal_same _).trans (State.raise_same _ _)).trans (State.setBand_same _ _)).mono (by decide)

/-! ## Write buffer and port -/

theorem State.chooseEntry_same (s : State) : SameBut [.buffer] s s.chooseEntry := by
  unfold State.chooseEntry
  split
  · exact .refl _ _
  · split
    · exact .refl _ _
    · exact s.setBuffer_same _

theorem State.expireAge_same (s : State) : SameBut [.buffer] s s.expireAge := s.setBuffer_same _

theorem State.serveRead_same (s : State) (a : BeatAddress) (n : BeatCount) : SameBut [.port] s (s.serveRead a n) := by
  unfold State.serveRead
  dsimp only
  split
  · exact s.respond_same _
  · exact s.setStage_same _

theorem State.serveWrite_same (s : State) (a : BeatAddress) (n : BeatCount) (d : List WriteBeat) :
    SameBut [.buffer, .port] s (s.serveWrite a n d) := by
  unfold State.serveWrite
  dsimp only
  split
  · exact (s.respond_same _).mono (by decide)
  · split
    · exact ((s.setBuffer_same _).trans (State.respond_same _ _)).mono (by decide)
    · split
      · exact ((s.setBuffer_same _).trans (State.respond_same _ _)).mono (by decide)
      · exact (s.setStage_same _).mono (by decide)

theorem State.finishFlush_same (s : State) : SameBut [.port] s s.finishFlush := by
  unfold State.finishFlush
  split
  · exact s.respond_same _
  · exact .refl _ _

theorem State.serveHead_same (s : State) : SameBut [.buffer, .port] s s.serveHead := by
  unfold State.serveHead
  split
  · exact (s.setStage_same _).mono (by decide)
  · exact (s.serveRead_same _ _).mono (by decide)
  · exact s.serveWrite_same _ _ _
  · exact (((s.setBuffer_same _).trans (State.setStage_same _ _)).trans (State.finishFlush_same _)).mono (by decide)

theorem State.serveWaiting_same (s : State) : SameBut [.buffer, .port] s s.serveWaiting := by
  unfold State.serveWaiting
  split
  · exact s.serveHead_same
  · exact .refl _ _

theorem State.takeResponse_same (s : State) : SameBut [.buffer, .port] s s.takeResponse :=
  ((s.setPort_same _).trans (State.serveHead_same _)).mono (by decide)

theorem State.accept_same (s : State) (r : Request) : SameBut [.buffer, .port] s (s.accept r) := by
  unfold State.accept
  dsimp only
  split
  · exact ((s.setPort_same _).trans (State.serveHead_same _)).mono (by decide)
  · exact (s.setPort_same _).mono (by decide)

theorem State.resetPort_same (s : State) : SameBut [.channel, .port] s s.resetPort := by
  unfold State.resetPort
  dsimp only
  split
  · split
    · exact ((s.setPort_same _).trans (State.setChannel_same _ _)).mono (by decide)
    · exact (s.setPort_same _).mono (by decide)
  · exact (s.setPort_same _).mono (by decide)

theorem State.answerRead_same (s : State) (ds : List (ReadWord × Decoded)) : SameBut [.port] s (s.answerRead ds) := by
  unfold State.answerRead
  split
  · exact s.respond_same _
  · exact .refl _ _

/-! ## Fill map, scrubber, engine -/

theorem State.markRow_same (s : State) (i : SweepIndex) : SameBut [.fillMap, .alerts] s (s.markRow i) := by
  unfold State.markRow
  dsimp only
  split
  · exact .refl _ _
  · split
    · exact ((s.setFillMap_same _).trans (State.raise_same _ _)).mono (by decide)
    · exact (s.setFillMap_same _).mono (by decide)

theorem State.serveLag_same (s : State) : SameBut [.engine, .scrubber] s s.serveLag := by
  unfold State.serveLag
  split
  · exact ((s.setScrubber_same _).trans (State.setEngine_same _ _)).mono (by decide)
  · exact .refl _ _

theorem State.scrubRowDone_same (s : State) (n : Nat) : SameBut [.engine, .scrubber] s (s.scrubRowDone n) :=
  ((s.setScrubber_same _).trans (State.serveLag_same _)).mono (by decide)

theorem State.scrubExpiry_same (s : State) : SameBut [.engine, .scrubber] s s.scrubExpiry := by
  unfold State.scrubExpiry
  split
  · exact (s.setScrubber_same _).mono (by decide)
  · exact (s.setEngine_same _).mono (by decide)

theorem State.pushMigrate_same (s : State) (b : Bank) (r : LogicalRow) :
    SameBut [.engine, .remap, .errors, .alerts] s (s.pushMigrate b r) := by
  unfold State.pushMigrate
  split
  · exact (((s.setRemap_same _).trans (State.report_same _ _)).trans (State.raise_same _ _)).mono (by decide)
  · unfold State.openMigration
    dsimp only
    split
    · exact (((s.setRemap_same _).trans (State.raise_same _ _)).trans (State.setStack_same _ _)).mono (by decide)
    · exact ((s.setRemap_same _).trans (State.setStack_same _ _)).mono (by decide)

theorem State.pushScrub_same (s : State) : SameBut [.engine, .scrubber] s s.pushScrub := by
  unfold State.pushScrub
  dsimp only
  split
  · exact ((s.setEngine_same _).trans (State.serveLag_same _)).mono (by decide)
  · exact (((s.setEngine_same _).trans (State.setScrubber_same _ _)).trans (State.setStack_same _ _)).mono (by decide)

theorem State.pushFill_same (s : State) : SameBut [.engine] s s.pushFill := by
  unfold State.pushFill
  dsimp only
  split
  · exact s.setEngine_same _
  · exact ((s.setEngine_same _).trans (State.setStack_same _ _)).mono (by decide)

theorem State.fillForward_same (s : State) (i : SweepIndex) (rest : List Job) :
    SameBut [.engine] s (s.fillForward i rest) := by
  unfold State.fillForward
  split <;> exact s.setStack_same _

theorem State.checkTop_same {s t : State} (h : s.checkTop = some t) : SameBut [.engine] s t := by
  unfold State.checkTop at h
  split at h
  · split at h
    · obtain rfl := Option.some.inj h
      exact s.fillForward_same _ _
    · cases h
  · cases h

theorem State.engineMove_same {s t : State} (h : s.engineMove = some t) :
    SameBut [.engine, .remap, .scrubber, .errors, .alerts] s t := by
  unfold State.engineMove at h
  repeat' split at h
  all_goals first
    | (obtain rfl := Option.some.inj h; exact (s.pushMigrate_same _ _).mono (by decide))
    | (obtain rfl := Option.some.inj h; exact s.pushScrub_same.mono (by decide))
    | (obtain rfl := Option.some.inj h; exact s.pushFill_same.mono (by decide))
    | exact (State.checkTop_same h).mono (by decide)
    | cases h

theorem State.engineMoves_same (n : Nat) (s : State) :
    SameBut [.engine, .remap, .scrubber, .errors, .alerts] s (State.engineMoves n s) := by
  induction n generalizing s with
  | zero => exact .refl _ _
  | succ n ih =>
    rw [State.engineMoves]
    split
    · exact .refl _ _
    · rename_i t h
      exact ((State.engineMove_same h).trans (ih t)).mono (by decide)

theorem State.engineRun_same (s : State) : SameBut [.engine, .remap, .scrubber, .errors, .alerts] s s.engineRun :=
  State.engineMoves_same 300 s

/-- With no move due, the engine changes nothing. -/
theorem State.engineRun_rest {s : State} (h : s.engineMove = none) : s.engineRun = s := by
  unfold State.engineRun State.engineMoves
  rw [h]

/-- In ENTERING and in HOLD the engine changes nothing (R48). -/
theorem State.engineRun_held {s : State} (h : s.hold.state = .entering ∨ s.hold.state = .hold) : s.engineRun = s := by
  apply State.engineRun_rest
  unfold State.engineMove State.live
  rcases h with h | h <;> simp [h]

/-! ## Hold -/

theorem State.furtherCloseAll_same (s : State) : SameBut [.bankEngine] s s.furtherCloseAll := by
  unfold State.furtherCloseAll
  split
  · exact s.closeAll_same
  · exact .refl _ _

/-- Outside ENTERING no further close-all request is made (R166). -/
theorem State.furtherCloseAll_of_not_entering {s : State} (h : s.hold.state ≠ .entering) : s.furtherCloseAll = s := by
  unfold State.furtherCloseAll
  rw [if_neg fun g => h g.1]

theorem State.beginEntry_same (s : State) : SameBut [.bankEngine, .buffer, .hold] s s.beginEntry :=
  (((s.setHold_same _).trans (State.closeAll_same _)).trans (State.chooseEntry_same _)).mono (by decide)

theorem State.abandonEntry_same (s : State) :
    SameBut [.hold, .engine, .remap, .scrubber, .errors, .alerts] s s.abandonEntry :=
  ((s.setHold_same _).trans (State.engineRun_same _)).mono (by decide)

theorem State.startWake_same (s : State) :
    SameBut [.hold, .engine, .remap, .scrubber, .errors, .alerts] s s.startWake :=
  ((s.setHold_same _).trans (State.engineRun_same _)).mono (by decide)

theorem State.wakeFromHold_same (s : State) :
    SameBut [.hold, .engine, .remap, .scrubber, .errors, .alerts] s s.wakeFromHold := by
  unfold State.wakeFromHold
  split
  · exact s.startWake_same
  · exact .refl _ _

theorem State.offerSeen_same (s : State) :
    SameBut [.hold, .engine, .remap, .scrubber, .errors, .alerts] s s.offerSeen := by
  unfold State.offerSeen
  split
  · exact .refl _ _
  · exact s.abandonEntry_same
  · exact s.startWake_same
  · exact .refl _ _

theorem State.portReset_same (s : State) :
    SameBut [.bankEngine, .channel, .engine, .remap, .scrubber, .buffer, .port, .hold, .errors, .alerts] s
      s.portReset :=
  ((((s.resetPort_same).trans (State.setBuffer_same _ _)).trans (State.wakeFromHold_same _)).trans
    (State.furtherCloseAll_same _)).mono (by decide)

/-! ## Grant -/

theorem State.noteGrant_same (s : State) (work : Work) : SameBut [.port, .engine] s (s.noteGrant work) := by
  cases work <;> first
    | exact .refl _ _
    | exact (s.setStage_same _).mono (by decide)
    | exact (s.setEngine_same _).mono (by decide)

theorem State.grant_same (s : State) (c : Claim) :
    SameBut [.bankEngine, .channel, .port, .engine] s (s.grant c) := by
  unfold State.grant
  dsimp only
  split
  · exact ((((s.setChannel_same _).trans (State.noteGrant_same _ _)).trans (State.progress_same _)).trans
      (State.urgentClose_same _ _)).mono (by decide)
  · exact (((s.setChannel_same _).trans (State.noteGrant_same _ _)).trans (State.progress_same _)).mono (by decide)

theorem State.grantNext_same (s : State) (cs : List BitChange) :
    SameBut [.array, .bankEngine, .channel, .port, .engine] s (s.grantNext cs) := by
  unfold State.grantNext
  split
  · exact ((s.changeAll_same cs).trans (State.grant_same _ _)).mono (by decide)
  · exact .refl _ _

end Sys2Proof.Machine
end

