-- ==== Sys2Proof/Laws/Banks.lean ====
section
/-! SUPPORT. Bank and balance records: reading one after a record is replaced or a frame passes, and what the closes asked for on one bank, on every bank, and at a completion come to, bank by bank. -/

namespace Sys2Proof.Machine

/-! ## One record read after a change -/

@[simp] theorem State.bank_setBank_self (s : State) (b : Bank) (r : BankRecord) : (s.setBank b r).bank b = r := by
  simp [State.bank, State.setBank]

theorem State.bank_setBank_ne (s : State) {b c : Bank} (r : BankRecord) (h : c ≠ b) : (s.setBank b r).bank c = s.bank c := by
  have h' : ¬ b.val = c.val := fun g => h (Fin.ext g.symm)
  simp [State.bank, State.setBank, h']

@[simp] theorem State.balanceOf_setBalanceOf_self (s : State) (b : Bank) (r : RefreshRecord) :
    (s.setBalanceOf b r).balanceOf b = r := by
  simp [State.balanceOf, State.setBalanceOf]

theorem State.balanceOf_setBalanceOf_ne (s : State) {b c : Bank} (r : RefreshRecord) (h : c ≠ b) :
    (s.setBalanceOf b r).balanceOf c = s.balanceOf c := by
  have h' : ¬ b.val = c.val := fun g => h (Fin.ext g.symm)
  simp [State.balanceOf, State.setBalanceOf, h']

@[simp] theorem State.setBank_idleClose (s : State) (b : Bank) (r : BankRecord) :
    (s.setBank b r).bankEngine.idleClose = s.bankEngine.idleClose := rfl

@[simp] theorem State.setBalanceOf_limit (s : State) (b : Bank) (r : RefreshRecord) :
    (s.setBalanceOf b r).refresh.limit = s.refresh.limit := rfl

theorem SameBut.bank {l : List Block} {s t : State} (h : SameBut l s t) (b : Bank)
    (hl : Block.bankEngine ∉ l := by decide) : t.bank b = s.bank b := by
  unfold State.bank
  rw [h.bankEngine hl]

theorem SameBut.balanceOf {l : List Block} {s t : State} (h : SameBut l s t) (b : Bank)
    (hl : Block.refresh ∉ l := by decide) : t.balanceOf b = s.balanceOf b := by
  unfold State.balanceOf
  rw [h.refresh hl]

theorem SameBut.inUse {l : List Block} {s t : State} (h : SameBut l s t) (b : Bank)
    (hl : Block.channel ∉ l := by decide) : t.inUse b = s.inUse b := by
  unfold State.inUse
  rw [h.channel hl]

theorem SameBut.stepInFlight {l : List Block} {s t : State} (h : SameBut l s t)
    (hl : Block.channel ∉ l := by decide) : t.stepInFlight = s.stepInFlight := by
  unfold State.stepInFlight
  rw [h.channel hl]

theorem SameBut.leff {l : List Block} {s t : State} (h : SameBut l s t) (hl : Block.refresh ∉ l := by decide)
    (hm : Block.thermal ∉ l := by decide) : t.leff = s.leff := by
  unfold State.leff
  rw [h.refresh hl, h.thermal hm]

theorem SameBut.word {l : List Block} {s t : State} (h : SameBut l s t) (b : Bank) (p : PhysicalRow) (w : WordInRow)
    (hl : Block.array ∉ l := by decide) : t.word b p w = s.word b p w := by
  unfold State.word
  rw [h.array hl]

theorem BanksSameBut.refl (b : Bank) (s : State) : BanksSameBut b s s := ⟨rfl, fun _ _ => rfl⟩

theorem BanksSameBut.trans {b : Bank} {s t u : State} (h : BanksSameBut b s t) (g : BanksSameBut b t u) :
    BanksSameBut b s u :=
  ⟨g.1.trans h.1, fun c hc => (g.2 c hc).trans (h.2 c hc)⟩

theorem SameBut.banks {l : List Block} {s t : State} (h : SameBut l s t) (b : Bank)
    (hl : Block.bankEngine ∉ l := by decide) : BanksSameBut b s t :=
  ⟨by rw [h.bankEngine hl], fun c _ => h.bank c hl⟩

theorem State.setBank_banks (s : State) (b : Bank) (r : BankRecord) : BanksSameBut b s (s.setBank b r) :=
  ⟨rfl, fun _ h => s.bank_setBank_ne r h⟩

theorem BalancesSameBut.refl (b : Bank) (s : State) : BalancesSameBut b s s := ⟨rfl, fun _ _ => rfl⟩

theorem BalancesSameBut.trans {b : Bank} {s t u : State} (h : BalancesSameBut b s t) (g : BalancesSameBut b t u) :
    BalancesSameBut b s u :=
  ⟨g.1.trans h.1, fun c hc => (g.2 c hc).trans (h.2 c hc)⟩

theorem SameBut.balances {l : List Block} {s t : State} (h : SameBut l s t) (b : Bank)
    (hl : Block.refresh ∉ l := by decide) : BalancesSameBut b s t :=
  ⟨by rw [h.refresh hl], fun c _ => h.balanceOf c hl⟩

theorem State.setBalanceOf_balances (s : State) (b : Bank) (r : RefreshRecord) : BalancesSameBut b s (s.setBalanceOf b r) :=
  ⟨rfl, fun _ h => s.balanceOf_setBalanceOf_ne r h⟩

/-! ## Closes asked for -/

theorem State.askClose_banks (s : State) (cause : CloseCause) (b : Bank) : BanksSameBut b s (s.askClose cause b) :=
  s.setBank_banks b _

@[simp] theorem State.askClose_bank (s : State) (cause : CloseCause) (b : Bank) :
    (s.askClose cause b).bank b = (s.bank b).ask cause (s.inUse b) s.clock.now :=
  s.bank_setBank_self b _

theorem State.urgentClose_banks (s : State) (b : Bank) : BanksSameBut b s (s.urgentClose b) := by
  unfold State.urgentClose
  split
  · exact s.askClose_banks _ b
  · exact .refl b s

theorem State.urgentClose_bank (s : State) (b : Bank) :
    (s.urgentClose b).bank b = if s.urgent b then (s.bank b).ask .urgent (s.inUse b) s.clock.now else s.bank b := by
  unfold State.urgentClose
  split <;> simp_all

/-- An operation on each bank in turn, which touches its own bank's record alone and reads nothing of the other banks,
acts on every bank as it would alone. -/
theorem State.foldl_banks (f : State → Bank → State) (g : State → Bank → BankRecord)
    (hf : ∀ s b, SameBut [.bankEngine] s (f s b)) (hb : ∀ s b, BanksSameBut b s (f s b))
    (hg : ∀ s b, (f s b).bank b = g s b)
    (hi : ∀ (s t : State) (b : Bank), SameBut [.bankEngine] s t → t.bankEngine.idleClose = s.bankEngine.idleClose →
      t.bank b = s.bank b → g t b = g s b) :
    ∀ (bs : List Bank) (s : State), bs.Nodup →
      (bs.foldl f s).bankEngine.idleClose = s.bankEngine.idleClose ∧
      ∀ b, (bs.foldl f s).bank b = if b ∈ bs then g s b else s.bank b
  | [], s, _ => ⟨rfl, fun b => by simp⟩
  | c :: bs, s, hn => by
    have hc : c ∉ bs := (List.nodup_cons.1 hn).1
    obtain ⟨hidle, hbank⟩ := State.foldl_banks f g hf hb hg hi bs (f s c) (List.nodup_cons.1 hn).2
    refine ⟨hidle.trans (hb s c).1, fun b => ?_⟩
    rw [List.foldl_cons, hbank b]
    by_cases hbc : b = c
    · subst hbc
      simp [hc, hg]
    · have h1 := (hb s c).2 b hbc
      have h2 := hi s (f s c) b (hf s c) (hb s c).1 h1
      simp [hbc, h1, h2]

theorem allBanks_nodup : allBanks.Nodup := List.nodup_finRange 16

theorem mem_allBanks (b : Bank) : b ∈ allBanks := List.mem_finRange b

/-- The close-all request asks for a close of cause HOLD on every bank (R11). -/
theorem State.closeAll_bank (s : State) :
    s.closeAll.bankEngine.idleClose = s.bankEngine.idleClose ∧
      ∀ b, s.closeAll.bank b = (s.bank b).ask .hold (s.inUse b) s.clock.now := by
  have h := State.foldl_banks (fun s b => s.askClose .hold b)
    (fun s b => (s.bank b).ask .hold (s.inUse b) s.clock.now) (fun s b => s.askClose_same _ b)
    (fun s b => s.askClose_banks _ b) (fun s b => s.askClose_bank _ b)
    (fun s t b h _ g => by simp only [g, h.inUse b, h.clock]) allBanks s allBanks_nodup
  exact ⟨h.1, fun b => (h.2 b).trans (if_pos (mem_allBanks b))⟩

theorem SameBut.urgent {l : List Block} {s t : State} (h : SameBut l s t) (b : Bank)
    (hl : Block.refresh ∉ l := by decide) (hm : Block.thermal ∉ l := by decide) : t.urgent b = s.urgent b := by
  unfold State.urgent
  rw [h.balanceOf b hl, h.leff hl hm]

/-- The URGENT closes of a band change, on every bank (R65). -/
theorem State.urgentCloses_bank (s : State) :
    s.urgentCloses.bankEngine.idleClose = s.bankEngine.idleClose ∧
      ∀ b, s.urgentCloses.bank b =
        if s.urgent b then (s.bank b).ask .urgent (s.inUse b) s.clock.now else s.bank b := by
  unfold State.urgentCloses
  have h := State.foldl_banks State.urgentClose
    (fun s b => if s.urgent b then (s.bank b).ask .urgent (s.inUse b) s.clock.now else s.bank b)
    (fun s b => s.urgentClose_same b) (fun s b => s.urgentClose_banks b) (fun s b => s.urgentClose_bank b)
    (fun s t b h _ g => by rw [g, h.inUse b, h.clock, h.urgent b])
    allBanks s allBanks_nodup
  exact ⟨h.1, fun b => (h.2 b).trans (if_pos (mem_allBanks b))⟩

theorem State.idleFrom_inUse {s : State} {b : Bank} {t : Time} (h : s.idleFrom b = some t) : s.inUse b = false := by
  unfold State.idleFrom at h
  split at h
  · rename_i g
    exact g.2.1
  · cases h

/-- The record of a bank whose idle window a new T_IDLE may end. -/
def State.expiredRecord (s : State) (b : Bank) : BankRecord :=
  match s.idleFrom b with
  | some t => if t + s.bankEngine.tIdle ≤ s.clock.now then (s.bank b).ask .idle false s.clock.now else s.bank b
  | none => s.bank b

theorem State.expireIdleOn_banks (s : State) (b : Bank) : BanksSameBut b s (s.expireIdleOn b) := by
  unfold State.expireIdleOn
  split
  · split
    · exact s.askClose_banks _ b
    · exact .refl b s
  · exact .refl b s

theorem State.expireIdleOn_bank (s : State) (b : Bank) : (s.expireIdleOn b).bank b = s.expiredRecord b := by
  unfold State.expireIdleOn State.expiredRecord
  cases h : s.idleFrom b with
  | none => rfl
  | some t =>
    dsimp only
    split
    · rw [State.askClose_bank, State.idleFrom_inUse h]
    · rfl

theorem State.expiredRecord_congr {s t : State} {b : Bank} (h : SameBut [.bankEngine] s t)
    (i : t.bankEngine.idleClose = s.bankEngine.idleClose) (g : t.bank b = s.bank b) :
    t.expiredRecord b = s.expiredRecord b := by
  have h1 : t.idleFrom b = s.idleFrom b := by
    unfold State.idleFrom
    rw [g, h.inUse b]
  have h2 : t.bankEngine.tIdle = s.bankEngine.tIdle := by
    unfold BankEngine.tIdle
    rw [i]
  unfold State.expiredRecord
  rw [h1, h2, h.clock, g]

/-- The idle windows that a new T_IDLE finds elapsed end, on every bank (R8). -/
theorem State.expireIdle_bank (s : State) :
    s.expireIdle.bankEngine.idleClose = s.bankEngine.idleClose ∧ ∀ b, s.expireIdle.bank b = s.expiredRecord b := by
  unfold State.expireIdle
  have h := State.foldl_banks State.expireIdleOn State.expiredRecord State.expireIdleOn_same State.expireIdleOn_banks
    State.expireIdleOn_bank (fun s t b h i g => State.expiredRecord_congr h i g) allBanks s allBanks_nodup
  exact ⟨h.1, fun b => (h.2 b).trans (if_pos (mem_allBanks b))⟩

/-! ## The progress of an operation -/

theorem outlivesChange_eq (c : Option CloseCause) : outlivesChange c = if c = some .idle then none else c := by
  rcases c with _ | _ | _ | _ <;> simp [outlivesChange]

theorem BankRecord.dropIdle_eq (r : BankRecord) :
    r.dropIdle = { r with closeWanted := if r.closeWanted = some .idle then none else r.closeWanted } := by
  unfold BankRecord.dropIdle
  split <;> simp_all

/-- T_MINOPEN is 36 ns from the open (R7). -/
theorem BankRecord.closable_iff {r : BankRecord} {o : Time} (h : r.openedAt = some o) (now : Time) :
    r.closable now = true ↔ o + 36 ≤ now := by
  unfold BankRecord.closable
  rw [h]
  exact decide_eq_true_iff

/-- The row change whose close is issued (R9): a close held on the bank but for an IDLE outlives it (log 22). -/
theorem State.changeRow_issued {s : State} {op : Operation} {b : Bank}
    (h : (s.bank b).closable s.clock.now = true) :
    (s.changeRow op b).channel = some { op with heldClose := outlivesChange (s.bank b).closeWanted } ∧
      (s.changeRow op b).bank b = .closingFrom s.clock.now := by
  unfold State.changeRow
  rw [if_pos h]
  exact ⟨rfl, State.bank_setBank_self _ _ _⟩

/-- The row change that waits for T_MINOPEN (R9). -/
theorem State.changeRow_waits {s : State} {op : Operation} {b : Bank}
    (h : (s.bank b).closable s.clock.now = false) : s.changeRow op b = s.setChannel (some op) := by
  unfold State.changeRow
  rw [if_neg (by simp [h])]

theorem State.changeRow_banks (s : State) (op : Operation) (b : Bank) : BanksSameBut b s (s.changeRow op b) := by
  unfold State.changeRow
  split
  · exact ((s.setChannel_same _).banks b).trans (State.setBank_banks _ _ _)
  · exact (s.setChannel_same _).banks b

theorem State.progressRows_banks (s : State) (op : Operation) (b : Bank) : BanksSameBut b s (s.progressRows op b) := by
  unfold State.progressRows
  split
  · exact State.setBank_banks _ _ _
  · split
    · split
      · exact State.setBank_banks _ _ _
      · exact (State.setBank_banks _ _ _).trans (State.changeRow_banks _ _ _)
    · exact s.changeRow_banks _ _
  · exact .refl _ _

theorem State.progressRefresh_banks (s : State) (b : Bank) : BanksSameBut b s (s.progressRefresh b) := by
  unfold State.progressRefresh State.closeForOperation
  split
  · exact State.setBank_banks _ _ _
  · split
    · exact State.setBank_banks _ _ _
    · exact .refl _ _
  all_goals exact .refl _ _

/-- The progress of an operation on bank `b` touches the record of no other bank. -/
theorem State.progress_banks {s : State} {op : Operation} {b : Bank} (h : s.channel = some op) (hb : op.bank = some b) :
    BanksSameBut b s s.progress := by
  unfold State.progress
  rw [h]
  dsimp only
  rw [hb]
  dsimp only
  split
  · exact s.progressRefresh_banks b
  · exact s.progressRows_banks op b

/-- With the operation on bank `b` visiting rows, its progress is that of its rows (R6, R9). -/
theorem State.progress_of_rows {s : State} {op : Operation} {b : Bank} (h : s.channel = some op)
    (hb : op.bank = some b) (hw : op.work ≠ .refresh) : s.progress = s.progressRows op b := by
  unfold State.progress
  rw [h]
  dsimp only
  rw [hb]
  exact if_neg hw

/-- With a REFRESH on bank `b`, the progress is that of the REFRESH (R10). -/
theorem State.progress_of_refresh {s : State} {op : Operation} {b : Bank} (h : s.channel = some op)
    (hb : op.bank = some b) (hw : op.work = .refresh) : s.progress = s.progressRefresh b := by
  unfold State.progress
  rw [h]
  dsimp only
  rw [hb]
  exact if_pos hw

/-! ## The release of the channel -/

theorem State.release_banks (s : State) (b : Bank) : BanksSameBut b s (s.release b) :=
  ((s.setChannel_same none).banks b).trans (State.setBank_banks _ b _)

@[simp] theorem State.release_bank (s : State) (b : Bank) :
    (s.release b).bank b = (s.bank b).completed s.bankEngine.idleClose s.clock.now :=
  State.bank_setBank_self _ b _

@[simp] theorem State.release_channel (s : State) (b : Bank) : (s.release b).channel = none := rfl

/-- A completion whose channel stands released, after changes outside the Bank Engine and the channel. -/
theorem State.release_then {s : State} {b : Bank} {l : List Block} {u : State} (h : SameBut l (s.release b) u)
    (hb : Block.bankEngine ∉ l := by decide) (hc : Block.channel ∉ l := by decide) : s.released b l u := by
  refine ⟨((s.release_same b).trans h).mono (by intro k hk; simpa using hk), (h.channel hc).trans rfl, ?_, ?_⟩
  · exact (s.release_banks b).trans (h.banks b hb)
  · rw [h.bank b hb, State.release_bank]

end Sys2Proof.Machine
end

