-- ==== Sys2Proof/Laws/Remap.lean ====
section
/-! SUPPORT. The remap tables and the spare pool: reading one place after a change, what the lookup finds, and that opening, advancing and completing a migration keep tables, pool and jobs consistent. -/

namespace Sys2Proof.Machine

/-! ## One place read after a change -/

theorem Remap.setSlot_tables (u : Remap) (b c : Bank) (i j : Slot) (e : Option RemapEntry) :
    (u.setSlot b i e).tables[c][j] = if c = b ∧ j = i then e else u.tables[c][j] := by
  by_cases hc : c = b
  · subst hc
    by_cases hj : j = i
    · subst hj
      simp [Remap.setSlot]
    · have : ¬ i.val = j.val := fun g => hj (Fin.ext g.symm)
      simp [Remap.setSlot, hj, this]
  · have : ¬ b.val = c.val := fun g => hc (Fin.ext g.symm)
    simp [Remap.setSlot, hc, this]

theorem Remap.setSpare_spare (u : Remap) (b c : Bank) (t y : SpareIndex) (x : SpareState) :
    (u.setSpare b t x).spare c y = if c = b ∧ y = t then x else u.spare c y := by
  by_cases hc : c = b
  · subst hc
    by_cases hy : y = t
    · subst hy
      simp [Remap.spare, Remap.setSpare]
    · have : ¬ t.val = y.val := fun g => hy (Fin.ext g.symm)
      simp [Remap.spare, Remap.setSpare, hy, this]
  · have : ¬ b.val = c.val := fun g => hc (Fin.ext g.symm)
    simp [Remap.spare, Remap.setSpare, hc, this]

@[simp] theorem Remap.setSlot_spare (u : Remap) (b c : Bank) (i : Slot) (e : Option RemapEntry) (t : SpareIndex) :
    (u.setSlot b i e).spare c t = u.spare c t := rfl

@[simp] theorem Remap.setSpare_tables (u : Remap) (b : Bank) (t : SpareIndex) (x : SpareState) :
    (u.setSpare b t x).tables = u.tables := rfl

/-! ## The searches -/

theorem Remap.find_some {u : Remap} {b : Bank} {r : LogicalRow} {i : Slot} {e : RemapEntry}
    (h : u.find b r = some (i, e)) : u.tables[b][i] = some e ∧ e.logicalRow = r := by
  unfold Remap.find at h
  obtain ⟨j, -, hj⟩ := List.exists_of_findSome?_eq_some h
  split at hj
  · rename_i f hf
    split at hj
    · simp only [Option.some.injEq, Prod.mk.injEq] at hj
      obtain ⟨rfl, rfl⟩ := hj
      exact ⟨hf, by assumption⟩
    · cases hj
  · cases hj

theorem Remap.find_none {u : Remap} {b : Bank} {r : LogicalRow} (h : u.find b r = none) {i : Slot} {e : RemapEntry}
    (he : u.tables[b][i] = some e) : e.logicalRow ≠ r := by
  unfold Remap.find at h
  have := List.findSome?_eq_none_iff.1 h i (List.mem_finRange i)
  rw [he] at this
  intro hr
  simp [hr] at this

theorem Remap.freeSpare_some {u : Remap} {b : Bank} {t : SpareIndex} (h : u.freeSpare b = some t) :
    u.spare b t = .free := by
  have := List.find?_some h
  simpa using this

theorem Remap.emptySlot_some {u : Remap} {b : Bank} {i : Slot} (h : u.emptySlot b = some i) :
    u.tables[b][i] = none := by
  have := List.find?_some h
  simpa using this

/-- A bank with a FREE spare has an empty slot (R81). -/
theorem Remap.emptySlot_of_free {u : Remap} (h : u.ok) {b : Bank} {t : SpareIndex} (ht : u.spare b t = .free) :
    ∃ i, u.emptySlot b = some i := by
  cases hs : u.emptySlot b with
  | some i => exact ⟨i, rfl⟩
  | none =>
    exfalso
    have full : ∀ i : Slot, ∃ e, u.tables[b][i] = some e := fun i => by
      have := List.find?_eq_none.1 hs i (List.mem_finRange i)
      exact Option.isSome_iff_exists.1 (by simpa [Option.isNone_iff_eq_none, Option.isSome_iff_ne_none] using this)
    choose f hf using full
    have inj : Function.Injective fun i : Slot => (f i).target := fun i j hij => by
      by_contra hne
      exact (h.2.1 b i j _ _ (hf i) (hf j) hne).2 (f i).target ⟨.inl rfl, .inl hij.symm⟩
    obtain ⟨i, hi⟩ := Finite.surjective_of_injective inj t
    have := (h.2.2 b t).2 ⟨i, f i, hf i, .inl hi⟩
    rw [ht] at this
    cases this

/-! ## Changes that leave tables and pool -/

/-- The remap tables and the pool of `v` are those of `u`. -/
def Remap.SameTables (u v : Remap) : Prop := v.tables = u.tables ∧ v.spares = u.spares

theorem Remap.SameTables.refl (u : Remap) : u.SameTables u := ⟨rfl, rfl⟩

theorem Remap.SameTables.trans {u v w : Remap} (h : u.SameTables v) (g : v.SameTables w) : u.SameTables w :=
  ⟨g.1.trans h.1, g.2.trans h.2⟩

theorem Remap.SameTables.ok {u v : Remap} (h : u.SameTables v) (hu : u.ok) : v.ok := by
  unfold Remap.ok Remap.spare at *
  rw [h.1, h.2]
  exact hu

theorem Remap.room_same {u v : Remap} (h : u.room = some v) : u.SameTables v := by
  unfold Remap.room at h
  split at h
  · cases h
    exact .refl u
  · obtain ⟨e, -, rfl⟩ := Option.map_eq_some_iff.1 h
    exact ⟨rfl, rfl⟩

theorem Remap.addSuspect_same (u : Remap) (b : Bank) (r : LogicalRow) (n : Nat) (q : Option DeviceTime) :
    u.SameTables (u.addSuspect b r n q) := by
  cases q <;> exact ⟨rfl, rfl⟩

theorem Remap.tallyCe_same (u : Remap) (b : Bank) (r : LogicalRow) (now : DeviceTime) :
    u.SameTables (u.tallyCe b r now) := by
  unfold Remap.tallyCe
  split
  · split
    · exact .refl u
    · rename_i h
      exact (Remap.room_same h).trans (Remap.addSuspect_same _ _ _ _ _)
  · split <;> exact ⟨rfl, rfl⟩

theorem Remap.tallyUe_same (u : Remap) (b : Bank) (r : LogicalRow) (now : DeviceTime) :
    u.SameTables (u.tallyUe b r now) := by
  unfold Remap.tallyUe
  split
  · split
    · exact .refl u
    · rename_i h
      exact (Remap.room_same h).trans (Remap.addSuspect_same _ _ _ _ _)
  · split <;> exact ⟨rfl, rfl⟩

theorem State.reportSuspect_tables (s : State) (b : Bank) (r : LogicalRow) (o : DecodeOutcome) :
    s.remap.SameTables (s.reportSuspect b r o).remap := by
  unfold State.reportSuspect
  split
  · exact .refl _
  · cases o
    · exact .refl _
    · exact Remap.tallyCe_same _ _ _ _
    · exact .refl _
    · exact Remap.tallyUe_same _ _ _ _

theorem State.reportWord_tables (s : State) (source : ErrorSource) (b : Bank) (r : LogicalRow) (p : PhysicalRow)
    (w : WordInRow) (o : DecodeOutcome) : s.remap.SameTables (s.reportWord source b r p w o).remap := by
  have key : ∀ e : ErrorReport, s.remap.SameTables ((s.report e).reportSuspect b r o).remap := fun e => by
    rw [← (s.report_same e).remap]
    exact State.reportSuspect_tables _ b r o
  cases o
  · exact .refl _
  · exact key _
  · exact .refl _
  · exact key _

theorem State.foldl_tables {α : Type} {f : State → α → State} (h : ∀ (s : State) x, s.remap.SameTables (f s x).remap) :
    ∀ (l : List α) (s : State), s.remap.SameTables (l.foldl f s).remap
  | [], _ => .refl _
  | x :: l, s => (h s x).trans (State.foldl_tables h l (f s x))

theorem State.reportAll_tables (s : State) (source : ErrorSource) (b : Bank) (r : LogicalRow) (p : PhysicalRow)
    (ds : List (WordInRow × Decoded)) : s.remap.SameTables (s.reportAll source b r p ds).remap :=
  State.foldl_tables (f := fun s (x : WordInRow × Decoded) => s.reportWord source b r p x.1 x.2.outcome)
    (fun s _ => s.reportWord_tables source b r p _ _) ds s

theorem State.reportRead_tables (s : State) (line : Line) (p : PhysicalRow) (ds : List (ReadWord × Decoded)) :
    s.remap.SameTables (s.reportRead line p ds).remap :=
  State.foldl_tables
    (f := fun s (x : ReadWord × Decoded) =>
      s.reportWord (if x.1.merged then .readMerge else .read) (lineBank line) (lineRow line) p
        (lineWord line x.1.word) x.2.outcome)
    (fun s _ => s.reportWord_tables _ _ _ p _ _) ds s

theorem State.giveUpMigration_tables (s : State) (b : Bank) (r : LogicalRow) :
    s.remap.SameTables (s.giveUpMigration b r).remap := by
  unfold State.giveUpMigration
  dsimp only
  rw [(State.raise_same _ _).remap, (State.report_same _ _).remap]
  exact ⟨rfl, rfl⟩

/-! ## The jobs of the stack -/

/-- The MIGRATE jobs of two stacks are the same. -/
def SameMigrations (l m : List Job) : Prop :=
  ∀ (b : Bank) (r : LogicalRow) (i : Slot) (c : Nat), Job.migrate b r i c ∈ m ↔ Job.migrate b r i c ∈ l

theorem SameMigrations.refl (l : List Job) : SameMigrations l l := fun _ _ _ _ => Iff.rfl

theorem SameMigrations.trans {l m n : List Job} (h : SameMigrations l m) (g : SameMigrations m n) :
    SameMigrations l n := fun b r i c => (g b r i c).trans (h b r i c)

/-- Tables, pool and jobs stay consistent where neither the tables nor the pool nor the MIGRATE jobs change. -/
theorem State.remapOk_of_same {s t : State} (h : s.remap.SameTables t.remap)
    (g : SameMigrations s.engine.stack t.engine.stack) (hs : s.remapOk) : t.remapOk := by
  refine ⟨h.ok hs.1, ?_, fun b r i c hc => ?_⟩
  · intro b i e he hm
    rw [h.1] at he
    exact (g _ _ _ _).2 (hs.2.1 b i e he hm)
  · rw [h.1]
    exact hs.2.2 b r i c ((g _ _ _ _).1 hc)

/-- With a top that is no MIGRATE job, the stack has none (R39). -/
theorem State.no_migrate_below {s : State} (h : s.stackOk) (ht : 3 < s.engine.topLevel) (b : Bank) (r : LogicalRow)
    (i : Slot) (c : Nat) : Job.migrate b r i c ∉ s.engine.stack := by
  unfold State.stackOk at h
  intro hm
  cases hs : s.engine.stack with
  | nil => simp [hs] at hm
  | cons j rest =>
    have ht : 3 < j.level := by simpa [Engine.topLevel, hs] using ht
    rw [hs] at h hm
    rcases List.mem_cons.1 hm with rfl | hm
    · simp [Job.level] at ht
    · have := (List.pairwise_cons.1 h).1 _ hm
      have h3 : (Job.migrate b r i c).level = 3 := rfl
      omega

/-! ## A migration opened, advanced and completed -/

theorem spareRow_inj {x y : SpareIndex} (h : spareRow x = spareRow y) : x = y := by
  have : 8192 + x.val = 8192 + y.val := congrArg Fin.val h
  exact Fin.ext (by omega)

theorem ordinaryRow_ne_spareRow (r : LogicalRow) (x : SpareIndex) : ordinaryRow r ≠ spareRow x := by
  intro h
  have := congrArg Fin.val h
  simp only [ordinaryRow, spareRow] at this
  omega

theorem spareOf_spareRow (x : SpareIndex) : spareOf (spareRow x) = some x := by
  unfold spareOf spareRow
  simp only [Nat.le_add_right, if_true, Nat.add_sub_cancel_left, Option.some.injEq]
  apply Fin.ext
  simp only [Fin.ofNat]
  omega

theorem spareOf_ordinaryRow (r : LogicalRow) : spareOf (ordinaryRow r) = none := by
  unfold spareOf ordinaryRow
  simp only
  rw [if_neg (by omega)]

/-- The pool and tables with one entry replaced or made stay consistent, where the entry is well formed, names a row no
other entry names, and the IN_USE spares of its bank are those the others name and those it names itself. -/
theorem Remap.ok_put {u v : Remap} (hu : u.ok) {b : Bank} {i : Slot} {e : RemapEntry} (he : e.ok)
    (hv : ∀ c j, v.tables[c][j] = if c = b ∧ j = i then some e else u.tables[c][j])
    (hrow : ∀ j f, u.tables[b][j] = some f → j ≠ i → f.logicalRow ≠ e.logicalRow)
    (hfree : ∀ j f t, u.tables[b][j] = some f → j ≠ i → f.namesSpare t → ¬ e.namesSpare t)
    (hother : ∀ c t, c ≠ b → v.spare c t = u.spare c t)
    (hpool : ∀ t, v.spare b t = .inUse ↔
      e.namesSpare t ∨ ∃ j f, j ≠ i ∧ u.tables[b][j] = some f ∧ f.namesSpare t) : v.ok := by
  obtain ⟨h1, h2, h3⟩ := hu
  refine ⟨fun c j f hf => ?_, fun c j k f g hf hg hjk => ?_, fun c t => ?_⟩
  · rw [hv] at hf
    split at hf
    · cases hf
      exact he
    · exact h1 c j f hf
  · rw [hv] at hf hg
    split at hf
    · rename_i hc
      cases hf
      obtain ⟨rfl, rfl⟩ := hc
      rw [if_neg (by simpa using fun h => hjk h.symm)] at hg
      exact ⟨(hrow k g hg fun h => hjk h.symm).symm, fun t ht => hfree k g t hg (fun h => hjk h.symm) ht.2 ht.1⟩
    · split at hg
      · rename_i hn hc
        cases hg
        obtain ⟨rfl, rfl⟩ := hc
        exact ⟨hrow j f hf hjk, fun t ht => hfree j f t hf hjk ht.1 ht.2⟩
      · exact h2 c j k f g hf hg hjk
  · by_cases hc : c = b
    · subst hc
      rw [hpool t]
      constructor
      · rintro (h | ⟨j, f, hj, hf, hn⟩)
        · exact ⟨i, e, by rw [hv]; simp, h⟩
        · exact ⟨j, f, by rw [hv]; simpa [hj] using hf, hn⟩
      · rintro ⟨j, f, hf, hn⟩
        rw [hv] at hf
        split at hf
        · cases hf
          exact .inl hn
        · rename_i hne
          exact .inr ⟨j, f, fun h => hne ⟨rfl, h⟩, hf, hn⟩
    · rw [hother c t hc, h3 c t]
      constructor
      · rintro ⟨j, f, hf, hn⟩
        exact ⟨j, f, by rw [hv]; simpa [hc] using hf, hn⟩
      · rintro ⟨j, f, hf, hn⟩
        rw [hv] at hf
        exact ⟨j, f, by simpa [hc] using hf, hn⟩

theorem Remap.advance_of {u : Remap} {b : Bank} {i : Slot} {e : RemapEntry} (he : u.tables[b][i] = some e) :
    u.advance b i = u.setSlot b i (some { e with cursor := e.cursor + 1 }) := by
  unfold Remap.advance
  split <;> simp_all

theorem Remap.complete_of {u : Remap} {b : Bank} {i : Slot} {e : RemapEntry} (r : LogicalRow)
    (he : u.tables[b][i] = some e) :
    u.complete b r i =
      Remap.removeSuspect
        (match e.source.bind spareOf with
        | some t => (u.setSlot b i (some { e with state := .live, source := none })).setSpare b t .dead
        | none => u.setSlot b i (some { e with state := .live, source := none })) b r := by
  unfold Remap.complete
  split
  · rename_i f hf
    obtain rfl := Option.some.inj (he.symm.trans hf)
    rfl
  · simp_all

/-- A migration opened on a FREE spare, for a row whose entry, if it has one, is LIVE (R86, R87). -/
theorem Remap.ok_opened {u : Remap} (h : u.ok) {b : Bank} {r : LogicalRow} {t : SpareIndex} (ht : u.spare b t = .free)
    (hlive : ∀ i e, u.find b r = some (i, e) → e.state = .live) {i : Slot} {n : RemapEntry}
    (hn : u.opened b r t = (i, n)) :
    ((u.setSpare b t .inUse).setSlot b i (some n)).ok ∧ n.logicalRow = r ∧ n.state = .migrating ∧ n.cursor = 0 ∧
      ∀ e, u.tables[b][i] = some e → e.state = .live := by
  have unnamed : ∀ (i : Slot) (e : RemapEntry), u.tables[b][i] = some e → ¬ e.namesSpare t := fun i e he hn => by
    have := (h.2.2 b t).2 ⟨i, e, he, hn⟩
    rw [ht] at this
    cases this
  cases hf : u.find b r with
  | none =>
    obtain ⟨k, hi⟩ := u.emptySlot_of_free h ht
    have hempty := Remap.emptySlot_some hi
    simp only [Remap.opened, hf, hi, Option.getD_some, Prod.mk.injEq] at hn
    obtain ⟨rfl, rfl⟩ := hn
    refine ⟨?_, rfl, rfl, rfl, fun e he => by rw [hempty] at he; cases he⟩
    refine Remap.ok_put h (b := b) (i := k)
      (e := { logicalRow := r, target := t, state := .migrating, source := some (ordinaryRow r), cursor := 0 })
      ⟨Nat.zero_lt_succ 7, .inl rfl⟩ (fun c j => ?_) (fun j f hj _ => Remap.find_none hf hj)
      (fun j f x hj _ hn he => ?_) (fun c x hc => ?_) (fun x => ?_)
    · rw [Remap.setSlot_tables]
      rfl
    · rcases he with he | he
      · change t = x at he
        exact unnamed j f hj (he ▸ hn)
      · exact ordinaryRow_ne_spareRow _ _ (Option.some.inj he)
    · rw [Remap.setSlot_spare, Remap.setSpare_spare, if_neg (by simp [hc])]
    · rw [Remap.setSlot_spare, Remap.setSpare_spare]
      by_cases hx : x = t
      · subst hx
        simp [RemapEntry.namesSpare]
      · rw [if_neg (by simp [hx]), h.2.2 b x]
        constructor
        · rintro ⟨j, f, hj, hn⟩
          exact .inr ⟨j, f, fun hji => (by rw [hji, hempty] at hj; cases hj), hj, hn⟩
        · rintro (he | ⟨j, f, -, hj, hn⟩)
          · rcases he with he | he
            · exact absurd he.symm hx
            · exact absurd (Option.some.inj he) (ordinaryRow_ne_spareRow _ _)
          · exact ⟨j, f, hj, hn⟩
  | some k =>
    obtain ⟨j, e⟩ := k
    simp only [Remap.opened, hf, Prod.mk.injEq] at hn
    obtain ⟨rfl, rfl⟩ := hn
    obtain ⟨he, hr⟩ := Remap.find_some hf
    have hl := hlive j e hf
    have hok := h.1 b j e he
    rw [RemapEntry.ok, hl] at hok
    refine ⟨?_, rfl, rfl, rfl, fun e' he' => by rw [he] at he'; cases he'; exact hl⟩
    have hne : e.target ≠ t := fun g => unnamed j e he (.inl g)
    refine Remap.ok_put h (b := b) (i := j)
      (e := { logicalRow := r, target := t, state := .migrating, source := some (spareRow e.target), cursor := 0 })
      ⟨Nat.zero_lt_succ 7, .inr ⟨e.target, hne, rfl⟩⟩ (fun c k => ?_)
      (fun k f hj hji => ?_) (fun k f x hj hji hn hx => ?_) (fun c x hc => ?_) (fun x => ?_)
    · rw [Remap.setSlot_tables]
      rfl
    · rw [← hr]
      exact (h.2.1 b k j f e hj he hji).1
    · rcases hx with hx | hx
      · change t = x at hx
        exact unnamed k f hj (hx ▸ hn)
      · have := spareRow_inj (Option.some.inj hx)
        exact (h.2.1 b k j f e hj he hji).2 x ⟨hn, .inl this⟩
    · rw [Remap.setSlot_spare, Remap.setSpare_spare, if_neg (by simp [hc])]
    · rw [Remap.setSlot_spare, Remap.setSpare_spare]
      by_cases hx : x = t
      · subst hx
        simp [RemapEntry.namesSpare]
      · rw [if_neg (by simp [hx]), h.2.2 b x]
        constructor
        · rintro ⟨k, f, hj, hn⟩
          by_cases hji : k = j
          · subst hji
            rw [he] at hj
            cases hj
            rcases hn with hn | hn
            · exact .inl (.inr (by rw [hn]))
            · rw [hok.2] at hn
              cases hn
          · exact .inr ⟨k, f, hji, hj, hn⟩
        · rintro (hn | ⟨k, f, -, hj, hn⟩)
          · rcases hn with hn | hn
            · exact absurd hn.symm hx
            · exact ⟨j, e, he, .inl (spareRow_inj (Option.some.inj hn))⟩
          · exact ⟨k, f, hj, hn⟩

/-- The cursor of a MIGRATING entry raised, short of the eighth step (R88). -/
theorem Remap.ok_advance {u : Remap} (h : u.ok) {b : Bank} {i : Slot} {e : RemapEntry} (he : u.tables[b][i] = some e)
    (hm : e.state = .migrating) (hc : e.cursor + 1 < 8) : (u.advance b i).ok := by
  have hok := h.1 b i e he
  rw [RemapEntry.ok, hm] at hok
  rw [Remap.advance_of he]
  refine Remap.ok_put h (b := b) (i := i) (e := { e with cursor := e.cursor + 1 })
    (by simp only [RemapEntry.ok, hm]; exact ⟨hc, hok.2⟩) (fun c j => ?_)
    (fun j f hj hji => (h.2.1 b j i f e hj he hji).1)
    (fun j f x hj hji hn hx => (h.2.1 b j i f e hj he hji).2 x ⟨hn, hx⟩)
    (fun c x _ => rfl) (fun x => ?_)
  · exact Remap.setSlot_tables _ _ _ _ _ _
  · rw [Remap.setSlot_spare, h.2.2 b x]
    constructor
    · rintro ⟨j, f, hj, hn⟩
      by_cases hji : j = i
      · subst hji
        rw [he] at hj
        cases hj
        exact .inl hn
      · exact .inr ⟨j, f, hji, hj, hn⟩
    · rintro (hn | ⟨j, f, -, hj, hn⟩)
      · exact ⟨i, e, he, hn⟩
      · exact ⟨j, f, hj, hn⟩

/-- The completion of a migration at its eighth step (R88, R93). -/
theorem Remap.ok_complete {u : Remap} (h : u.ok) {b : Bank} {r : LogicalRow} {i : Slot} {e : RemapEntry}
    (he : u.tables[b][i] = some e) (hm : e.state = .migrating) (hc : e.cursor = 7) :
    ((u.advance b i).complete b r i).ok ∧
      ∀ c j, ((u.advance b i).complete b r i).tables[c][j] =
        if c = b ∧ j = i then some { e with cursor := 8, state := .live, source := none } else u.tables[c][j] := by
  have hok := h.1 b i e he
  rw [RemapEntry.ok, hm] at hok
  have hadv : u.advance b i = u.setSlot b i (some { e with cursor := 8 }) := by
    rw [Remap.advance_of he, hc]
  have hat : (u.setSlot b i (some { e with cursor := 8 })).tables[b][i] = some { e with cursor := 8 } := by
    rw [Remap.setSlot_tables, if_pos ⟨rfl, rfl⟩]
  have twice : ∀ c j, ((u.setSlot b i (some { e with cursor := 8 })).setSlot b i
      (some { e with cursor := 8, state := .live, source := none })).tables[c][j] =
        if c = b ∧ j = i then some { e with cursor := 8, state := .live, source := none } else u.tables[c][j] :=
    fun c j => by
      rw [Remap.setSlot_tables, Remap.setSlot_tables]
      split <;> rfl
  have unnamed : ∀ (j : Slot) (f : RemapEntry) (x : SpareIndex), u.tables[b][j] = some f → j ≠ i →
      f.namesSpare x → ¬ e.namesSpare x :=
    fun j f x hj hji hn hx => (h.2.1 b j i f e hj he hji).2 x ⟨hn, hx⟩
  have names : ∀ x, ({ e with cursor := 8, state := .live, source := none } : RemapEntry).namesSpare x ↔ e.target = x :=
    fun x => ⟨fun hn => hn.elim id (fun g => by cases g), .inl⟩
  rw [hadv]
  rw [Remap.complete_of r hat]
  dsimp only
  rcases hok.2 with hs | ⟨x, hx, hs⟩
  · have hb : e.source.bind spareOf = none := by rw [hs, Option.bind_some, spareOf_ordinaryRow]
    rw [hb]
    refine ⟨?_, twice⟩
    refine Remap.SameTables.ok (u := (u.setSlot b i (some { e with cursor := 8 })).setSlot b i
      (some { e with cursor := 8, state := .live, source := none })) ⟨rfl, rfl⟩ ?_
    refine Remap.ok_put h (b := b) (i := i) (e := { e with cursor := 8, state := .live, source := none }) ⟨rfl, rfl⟩
      twice (fun j f hj hji => (h.2.1 b j i f e hj he hji).1)
      (fun j f y hj hji hn hy => unnamed j f y hj hji hn (.inl ((names y).1 hy))) (fun c y _ => rfl) (fun y => ?_)
    rw [Remap.setSlot_spare, Remap.setSlot_spare, h.2.2 b y, names]
    constructor
    · rintro ⟨j, f, hj, hn⟩
      by_cases hji : j = i
      · subst hji
        rw [he] at hj
        cases hj
        rcases hn with hn | hn
        · exact .inl hn
        · rw [hs] at hn
          exact absurd (Option.some.inj hn) (ordinaryRow_ne_spareRow _ _)
      · exact .inr ⟨j, f, hji, hj, hn⟩
    · rintro (hn | ⟨j, f, -, hj, hn⟩)
      · exact ⟨i, e, he, .inl hn⟩
      · exact ⟨j, f, hj, hn⟩
  · have hb : e.source.bind spareOf = some x := by rw [hs, Option.bind_some, spareOf_spareRow]
    rw [hb]
    refine ⟨?_, twice⟩
    refine Remap.SameTables.ok (u := ((u.setSlot b i (some { e with cursor := 8 })).setSlot b i
      (some { e with cursor := 8, state := .live, source := none })).setSpare b x .dead) ⟨rfl, rfl⟩ ?_
    refine Remap.ok_put h (b := b) (i := i) (e := { e with cursor := 8, state := .live, source := none }) ⟨rfl, rfl⟩
      twice (fun j f hj hji => (h.2.1 b j i f e hj he hji).1)
      (fun j f y hj hji hn hy => unnamed j f y hj hji hn (.inl ((names y).1 hy)))
      (fun c y hcb => by rw [Remap.setSpare_spare, if_neg (by simp [hcb])]; rfl) (fun y => ?_)
    rw [Remap.setSpare_spare, names]
    by_cases hy : y = x
    · subst hy
      simp only [and_self, if_true, reduceCtorEq, false_iff, not_or, not_exists, not_and]
      exact ⟨fun g => hx g.symm, fun j f hji hj hn => unnamed j f y hj hji hn (.inr hs)⟩
    · rw [if_neg (by simp [hy]), Remap.setSlot_spare, Remap.setSlot_spare, h.2.2 b y]
      constructor
      · rintro ⟨j, f, hj, hn⟩
        by_cases hji : j = i
        · subst hji
          rw [he] at hj
          cases hj
          rcases hn with hn | hn
          · exact .inl hn
          · rw [hs] at hn
            exact absurd (spareRow_inj (Option.some.inj hn)).symm hy
        · exact .inr ⟨j, f, hji, hj, hn⟩
      · rintro (hn | ⟨j, f, -, hj, hn⟩)
        · exact ⟨i, e, he, .inl hn⟩
        · exact ⟨j, f, hj, hn⟩

end Sys2Proof.Machine
end

