-- ==== Sys2Proof/Laws/Suspects.lean ====
section
/-! SUPPORT. The suspect list and its queued order: every operation on them keeps one entry a row and a queued order that names the QUEUED rows, each once. -/

namespace Sys2Proof.Machine

/-- One entry a row, and a queued order that names the QUEUED rows, each once (R36, R72). -/
def Remap.listOk (u : Remap) : Prop :=
  (u.suspects.Pairwise fun x y => ¬ (x.bank = y.bank ∧ x.logicalRow = y.logicalRow)) ∧ u.queuedOk

/-- Two lists of suspect entries and their queued orders are equal. -/
def Remap.SameList (u v : Remap) : Prop := v.suspects = u.suspects ∧ v.queuedOrder = u.queuedOrder

theorem Remap.SameList.ok {u v : Remap} (h : u.SameList v) (hu : u.listOk) : v.listOk := by
  unfold Remap.listOk Remap.queuedOk at *
  rw [h.1, h.2]
  exact hu

theorem SuspectEntry.names_iff {e : SuspectEntry} {b : Bank} {r : LogicalRow} :
    e.names b r = true ↔ e.bank = b ∧ e.logicalRow = r := by simp [SuspectEntry.names]

/-- Two entries of one row are one entry (R72). -/
theorem Remap.listOk.unique {u : Remap} (h : u.listOk) {x y : SuspectEntry} (hx : x ∈ u.suspects) (hy : y ∈ u.suspects)
    (hb : x.bank = y.bank) (hr : x.logicalRow = y.logicalRow) : x = y := by
  obtain ⟨i, hi, rfl⟩ := List.mem_iff_getElem.1 hx
  obtain ⟨j, hj, rfl⟩ := List.mem_iff_getElem.1 hy
  rcases Nat.lt_trichotomy i j with g | g | g
  · exact absurd ⟨hb, hr⟩ (List.pairwise_iff_getElem.1 h.1 i j hi hj g)
  · subst g
    rfl
  · exact absurd ⟨hb.symm, hr.symm⟩ (List.pairwise_iff_getElem.1 h.1 j i hj hi g)

theorem Remap.suspect_some {u : Remap} {b : Bank} {r : LogicalRow} {e : SuspectEntry} (h : u.suspect b r = some e) :
    e ∈ u.suspects ∧ e.bank = b ∧ e.logicalRow = r :=
  ⟨List.mem_of_find?_eq_some h,
    SuspectEntry.names_iff.1 (List.find?_some (p := fun e : SuspectEntry => e.names b r) (l := u.suspects) h)⟩

theorem Remap.suspect_none {u : Remap} {b : Bank} {r : LogicalRow} (h : u.suspect b r = none) :
    ∀ e ∈ u.suspects, ¬ (e.bank = b ∧ e.logicalRow = r) := fun e he g =>
  List.find?_eq_none.1 h e he (SuspectEntry.names_iff.2 g)

/-- An update that keeps bank and row keeps one entry a row. -/
theorem Remap.updateSuspect_pairwise {u : Remap} (h : u.listOk) (b : Bank) (r : LogicalRow)
    {f : SuspectEntry → SuspectEntry} (hf : ∀ e, (f e).bank = e.bank ∧ (f e).logicalRow = e.logicalRow) :
    (u.updateSuspect b r f).suspects.Pairwise fun x y => ¬ (x.bank = y.bank ∧ x.logicalRow = y.logicalRow) := by
  unfold Remap.updateSuspect
  refine List.pairwise_map.2 (h.1.imp fun {x y} g => ?_)
  have key : ∀ e : SuspectEntry, (if e.names b r then f e else e).bank = e.bank ∧
      (if e.names b r then f e else e).logicalRow = e.logicalRow := fun e => by
    split
    · exact hf e
    · exact ⟨rfl, rfl⟩
  rw [(key x).1, (key x).2, (key y).1, (key y).2]
  exact g

/-- An update that keeps bank, row and state keeps the list and its order. -/
theorem Remap.updateSuspect_listOk {u : Remap} (h : u.listOk) (b : Bank) (r : LogicalRow)
    {f : SuspectEntry → SuspectEntry}
    (hf : ∀ e, (f e).bank = e.bank ∧ (f e).logicalRow = e.logicalRow ∧ (f e).state = e.state) :
    (u.updateSuspect b r f).listOk := by
  refine ⟨Remap.updateSuspect_pairwise h b r fun e => ⟨(hf e).1, (hf e).2.1⟩, h.2.1, fun b' r' => ?_⟩
  have key : ∀ e : SuspectEntry, (if e.names b r then f e else e).bank = e.bank ∧
      (if e.names b r then f e else e).logicalRow = e.logicalRow ∧
      (if e.names b r then f e else e).state = e.state := fun e => by
    split
    · exact hf e
    · exact ⟨rfl, rfl, rfl⟩
  refine (h.2.2 b' r').trans ⟨fun ⟨e, he, g⟩ => ⟨_, List.mem_map_of_mem he, ?_⟩, fun ⟨e, he, g⟩ => ?_⟩
  · rw [(key e).1, (key e).2.1, (key e).2.2]
    exact g
  · obtain ⟨x, hx, rfl⟩ := List.mem_map.1 he
    rw [(key x).1, (key x).2.1, (key x).2.2] at g
    exact ⟨x, hx, g⟩

/-- The queueing of an entry that is not QUEUED. -/
theorem Remap.queueSuspect_listOk {u : Remap} (h : u.listOk) {b : Bank} {r : LogicalRow} {e : SuspectEntry}
    (he : u.suspect b r = some e) (hq : e.state ≠ .queued) (now : DeviceTime) {f : SuspectEntry → SuspectEntry}
    (hf : ∀ e, (f e).bank = e.bank ∧ (f e).logicalRow = e.logicalRow) : (u.queueSuspect b r now f).listOk := by
  obtain ⟨hm, hb, hr⟩ := Remap.suspect_some he
  have fresh : (b, r) ∉ u.queuedOrder := fun g => by
    obtain ⟨x, hx, xb, xr, xq⟩ := (h.2.2 b r).1 g
    exact hq (h.unique hx hm (xb.trans hb.symm) (xr.trans hr.symm) ▸ xq)
  refine ⟨Remap.updateSuspect_pairwise (f := fun e => (f e).queue now) h b r hf, ?_, fun b' r' => ?_⟩
  · refine List.nodup_append.2 ⟨h.2.1, List.nodup_singleton _, fun k hk l hl => ?_⟩
    rw [List.mem_singleton.1 hl]
    exact fun g => fresh (g ▸ hk)
  · change (b', r') ∈ u.queuedOrder ++ [(b, r)] ↔
      ∃ x ∈ u.suspects.map (fun x => if x.names b r then (f x).queue now else x),
        x.bank = b' ∧ x.logicalRow = r' ∧ x.state = .queued
    rw [List.mem_append, List.mem_singleton]
    constructor
    · rintro (g | g)
      · obtain ⟨x, hx, xb, xr, xq⟩ := (h.2.2 b' r').1 g
        refine ⟨_, List.mem_map_of_mem hx, ?_⟩
        split
        · exact ⟨(hf x).1.trans xb, (hf x).2.trans xr, rfl⟩
        · exact ⟨xb, xr, xq⟩
      · cases g
        refine ⟨_, List.mem_map_of_mem hm, ?_⟩
        rw [if_pos (SuspectEntry.names_iff.2 ⟨hb, hr⟩)]
        exact ⟨(hf e).1.trans hb, (hf e).2.trans hr, rfl⟩
    · rintro ⟨x, hx, xb, xr, xq⟩
      obtain ⟨y, hy, rfl⟩ := List.mem_map.1 hx
      split at xb
      · rename_i hn
        rw [if_pos hn] at xr
        obtain ⟨yb, yr⟩ := SuspectEntry.names_iff.1 hn
        refine .inr (Prod.ext ?_ ?_)
        · exact xb.symm.trans ((hf y).1.trans yb)
        · exact xr.symm.trans ((hf y).2.trans yr)
      · rename_i hn
        rw [if_neg hn] at xr xq
        exact .inl ((h.2.2 b' r').2 ⟨y, hy, xb, xr, xq⟩)

/-- The addition of an entry of a row not listed. -/
theorem Remap.addSuspect_listOk {u : Remap} (h : u.listOk) {b : Bank} {r : LogicalRow} (n : Nat)
    (q : Option DeviceTime) (hn : ∀ e ∈ u.suspects, ¬ (e.bank = b ∧ e.logicalRow = r)) :
    (u.addSuspect b r n q).listOk := by
  have one : ∀ x : SuspectEntry, x.bank = b → x.logicalRow = r → (u.suspects ++ [x]).Pairwise fun x y =>
      ¬ (x.bank = y.bank ∧ x.logicalRow = y.logicalRow) := fun x hb hr => by
    refine List.pairwise_append.2 ⟨h.1, List.pairwise_singleton _ _, fun y hy z hz g => ?_⟩
    rw [List.mem_singleton.1 hz] at g
    exact hn y hy ⟨g.1.trans hb, g.2.trans hr⟩
  have fresh : (b, r) ∉ u.queuedOrder := fun g => by
    obtain ⟨x, hx, xb, xr, _⟩ := (h.2.2 b r).1 g
    exact hn x hx ⟨xb, xr⟩
  cases q with
  | none =>
    refine ⟨one _ rfl rfl, h.2.1, fun b' r' => (h.2.2 b' r').trans ⟨?_, ?_⟩⟩
    · rintro ⟨x, hx, g⟩
      exact ⟨x, List.mem_append_left _ hx, g⟩
    · rintro ⟨x, hx, g⟩
      rcases List.mem_append.1 hx with hx | hx
      · exact ⟨x, hx, g⟩
      · rw [List.mem_singleton.1 hx] at g
        exact absurd g.2.2 (by simp)
  | some now =>
    refine ⟨one _ rfl rfl, ?_, fun b' r' => ?_⟩
    · refine List.nodup_append.2 ⟨h.2.1, List.nodup_singleton _, fun k hk l hl => ?_⟩
      rw [List.mem_singleton.1 hl]
      exact fun g => fresh (g ▸ hk)
    · change (b', r') ∈ u.queuedOrder ++ [(b, r)] ↔ _
      rw [List.mem_append, List.mem_singleton]
      constructor
      · rintro (g | g)
        · obtain ⟨x, hx, g⟩ := (h.2.2 b' r').1 g
          exact ⟨x, List.mem_append_left _ hx, g⟩
        · cases g
          exact ⟨_, List.mem_append_right _ (List.mem_singleton_self _), rfl, rfl, rfl⟩
      · rintro ⟨x, hx, xb, xr, xq⟩
        rcases List.mem_append.1 hx with hx | hx
        · exact .inl ((h.2.2 b' r').2 ⟨x, hx, xb, xr, xq⟩)
        · rw [List.mem_singleton.1 hx] at xb xr
          exact .inr (Prod.ext xb.symm xr.symm)

theorem lowestNormal_some {l : List SuspectEntry} {e : SuspectEntry} (h : lowestNormal l = some e) :
    e.state = .normal := by
  have key : ∀ (l : List SuspectEntry) (best : Option SuspectEntry), (∀ x, best = some x → x.state = .normal) →
      ∀ x, l.foldl
          (fun best e =>
            if e.state = .normal then
              match best with
              | none => some e
              | some b => if e.tally < b.tally then some e else best
            else best)
          best = some x → x.state = .normal := by
    intro l
    induction l with
    | nil => exact fun best hb x hx => hb x hx
    | cons y l ih =>
      refine fun best hb => ih _ fun x hx => ?_
      dsimp only at hx
      split at hx
      · rename_i hy
        cases best with
        | none =>
          cases hx
          exact hy
        | some z =>
          dsimp only at hx
          split at hx
          · cases hx
            exact hy
          · exact hb x hx
      · exact hb x hx
  exact key l none (fun _ h => by cases h) e h

/-- The room of R76 takes no QUEUED entry, and adds none. -/
theorem Remap.room_listOk {u v : Remap} (h : u.listOk) (hv : u.room = some v) :
    v.listOk ∧ ∀ e ∈ v.suspects, e ∈ u.suspects := by
  unfold Remap.room at hv
  split at hv
  · cases hv
    exact ⟨h, fun _ he => he⟩
  · obtain ⟨x, hx, rfl⟩ := Option.map_eq_some_iff.1 hv
    have hn := lowestNormal_some hx
    refine ⟨⟨h.1.sublist List.erase_sublist, h.2.1, fun b r => (h.2.2 b r).trans ⟨?_, ?_⟩⟩,
      fun e he => List.mem_of_mem_erase he⟩
    · rintro ⟨e, he, hb, hr, hq⟩
      refine ⟨e, (List.mem_erase_of_ne fun g => ?_).2 he, hb, hr, hq⟩
      rw [g, hn] at hq
      cases hq
    · rintro ⟨e, he, g⟩
      exact ⟨e, List.mem_of_mem_erase he, g⟩

theorem SuspectEntry.tallied_same (e : SuspectEntry) :
    e.tallied.bank = e.bank ∧ e.tallied.logicalRow = e.logicalRow ∧ e.tallied.state = e.state := ⟨rfl, rfl, rfl⟩

theorem Remap.tallyCe_listOk {u : Remap} (h : u.listOk) (b : Bank) (r : LogicalRow) (now : DeviceTime) :
    (u.tallyCe b r now).listOk := by
  unfold Remap.tallyCe
  split
  · rename_i hs
    split
    · exact h
    · rename_i v hv
      obtain ⟨h1, h2⟩ := Remap.room_listOk h hv
      exact Remap.addSuspect_listOk h1 _ _ fun e he => Remap.suspect_none hs e (h2 e he)
  · rename_i e hs
    split
    · rename_i hc
      exact Remap.queueSuspect_listOk h hs (by rw [hc.1]; decide) now fun _ => ⟨rfl, rfl⟩
    · exact Remap.updateSuspect_listOk h b r SuspectEntry.tallied_same

theorem Remap.tallyUe_listOk {u : Remap} (h : u.listOk) (b : Bank) (r : LogicalRow) (now : DeviceTime) :
    (u.tallyUe b r now).listOk := by
  unfold Remap.tallyUe
  split
  · rename_i hs
    split
    · exact h
    · rename_i v hv
      obtain ⟨h1, h2⟩ := Remap.room_listOk h hv
      exact Remap.addSuspect_listOk h1 _ _ fun e he => Remap.suspect_none hs e (h2 e he)
  · rename_i e hs
    split
    · rename_i hc
      exact Remap.queueSuspect_listOk h hs (by rw [hc]; decide) now fun _ => ⟨rfl, rfl⟩
    · exact Remap.updateSuspect_listOk h b r SuspectEntry.tallied_same

theorem Remap.clearSuspects_listOk {u : Remap} (h : u.listOk) : u.clearSuspects.listOk := by
  refine ⟨h.1.sublist List.filter_sublist, h.2.1, fun b r => (h.2.2 b r).trans ⟨?_, ?_⟩⟩
  · rintro ⟨e, he, g⟩
    exact ⟨e, List.mem_filter.2 ⟨he, by simpa using g.2.2⟩, g⟩
  · rintro ⟨e, he, g⟩
    exact ⟨e, (List.mem_filter.1 he).1, g⟩

/-- What is left of a queued order once a row has left it. -/
theorem mem_queue_without {l : List (Bank × LogicalRow)} {b b' : Bank} {r r' : LogicalRow} :
    (b', r') ∈ l.filter (fun k => decide (k ≠ (b, r))) ↔ (b', r') ∈ l ∧ ¬ (b' = b ∧ r' = r) := by
  rw [List.mem_filter, decide_eq_true_eq, ne_eq, Prod.mk.injEq]

theorem Remap.removeSuspect_listOk {u : Remap} (h : u.listOk) (b : Bank) (r : LogicalRow) :
    (u.removeSuspect b r).listOk := by
  refine ⟨h.1.sublist List.filter_sublist, h.2.1.sublist List.filter_sublist, fun b' r' => ?_⟩
  refine mem_queue_without.trans ⟨?_, ?_⟩
  · rintro ⟨g, hne⟩
    obtain ⟨e, he, hb, hr, hq⟩ := (h.2.2 b' r').1 g
    refine ⟨e, List.mem_filter.2 ⟨he, ?_⟩, hb, hr, hq⟩
    rw [Bool.not_eq_true', Bool.eq_false_iff]
    intro hn
    obtain ⟨eb, er⟩ := SuspectEntry.names_iff.1 hn
    exact hne ⟨hb.symm.trans eb, hr.symm.trans er⟩
  · rintro ⟨e, he, hb, hr, hq⟩
    obtain ⟨he, hn⟩ := List.mem_filter.1 he
    refine ⟨(h.2.2 b' r').2 ⟨e, he, hb, hr, hq⟩, fun g => ?_⟩
    rw [SuspectEntry.names_iff.2 ⟨hb.trans g.1, hr.trans g.2⟩] at hn
    cases hn

theorem Remap.giveUp_listOk {u : Remap} (h : u.listOk) (b : Bank) (r : LogicalRow) : (u.giveUp b r).listOk := by
  refine ⟨Remap.updateSuspect_pairwise h b r fun e => ⟨rfl, rfl⟩, h.2.1.sublist List.filter_sublist, fun b' r' => ?_⟩
  refine mem_queue_without.trans ⟨?_, ?_⟩
  · rintro ⟨g, hne⟩
    obtain ⟨e, he, hb, hr, hq⟩ := (h.2.2 b' r').1 g
    refine ⟨_, List.mem_map_of_mem he, ?_⟩
    rw [if_neg]
    · exact ⟨hb, hr, hq⟩
    · exact fun hn =>
        hne ⟨hb.symm.trans (SuspectEntry.names_iff.1 hn).1, hr.symm.trans (SuspectEntry.names_iff.1 hn).2⟩
  · rintro ⟨e, he, hb, hr, hq⟩
    obtain ⟨x, hx, rfl⟩ := List.mem_map.1 he
    split at hq
    · cases hq
    · rename_i hn
      rw [if_neg hn] at hb hr
      exact ⟨(h.2.2 b' r').2 ⟨x, hx, hb, hr, hq⟩, fun g => hn (SuspectEntry.names_iff.2 ⟨hb.trans g.1, hr.trans g.2⟩)⟩

/-- The queued order is no longer than the list (R72). -/
theorem Remap.queuedOk.length_le {u : Remap} (h : u.queuedOk) : u.queuedOrder.length ≤ u.suspects.length := by
  have hsub : u.queuedOrder ⊆ u.suspects.map fun e => (e.bank, e.logicalRow) := fun k hk => by
    obtain ⟨e, he, hb, hr, _⟩ := (h.2 k.1 k.2).1 hk
    exact List.mem_map.2 ⟨e, he, Prod.ext hb hr⟩
  have := (h.1.subperm hsub).length_le
  rwa [List.length_map] at this

/-! ## Reports -/

theorem State.reportSuspect_listOk {s : State} (h : s.remap.listOk) (b : Bank) (r : LogicalRow) (o : DecodeOutcome) :
    (s.reportSuspect b r o).remap.listOk := by
  unfold State.reportSuspect
  split
  · exact h
  · cases o
    · exact h
    · exact Remap.tallyCe_listOk h b r _
    · exact h
    · exact Remap.tallyUe_listOk h b r _

theorem State.reportWord_listOk {s : State} (h : s.remap.listOk) (source : ErrorSource) (b : Bank) (r : LogicalRow)
    (p : PhysicalRow) (w : WordInRow) (o : DecodeOutcome) : (s.reportWord source b r p w o).remap.listOk := by
  have key : ∀ e : ErrorReport, ((s.report e).reportSuspect b r o).remap.listOk := fun e =>
    State.reportSuspect_listOk (by rw [(s.report_same e).remap]; exact h) b r o
  cases o
  · exact h
  · exact key _
  · exact h
  · unfold State.reportWord
    rw [(State.raise_same _ _).remap]
    exact key _

theorem State.foldl_listOk {α : Type} {f : State → α → State}
    (hf : ∀ (s : State) x, s.remap.listOk → (f s x).remap.listOk) :
    ∀ (l : List α) {s : State}, s.remap.listOk → (l.foldl f s).remap.listOk
  | [], _, h => h
  | x :: l, s, h => State.foldl_listOk hf l (hf s x h)

theorem State.reportAll_listOk {s : State} (h : s.remap.listOk) (source : ErrorSource) (b : Bank) (r : LogicalRow)
    (p : PhysicalRow) (ds : List (WordInRow × Decoded)) : (s.reportAll source b r p ds).remap.listOk :=
  State.foldl_listOk (f := fun s (x : WordInRow × Decoded) => s.reportWord source b r p x.1 x.2.outcome)
    (fun _ _ h => State.reportWord_listOk h _ _ _ _ _ _) ds h

theorem State.reportRead_listOk {s : State} (h : s.remap.listOk) (line : Line) (p : PhysicalRow)
    (ds : List (ReadWord × Decoded)) : (s.reportRead line p ds).remap.listOk :=
  State.foldl_listOk
    (f := fun s (x : ReadWord × Decoded) =>
      s.reportWord (if x.1.merged then .readMerge else .read) (lineBank line) (lineRow line) p
        (lineWord line x.1.word) x.2.outcome)
    (fun _ _ h => State.reportWord_listOk h _ _ _ _ _ _) ds h

end Sys2Proof.Machine
end

