-- ==== Sys2Proof/Laws/Engine.lean ====
section
/-! SUPPORT. The engine's moves and the completions of steps: each keeps the order of the stack, and the remap tables, the spare pool and the migrations consistent. -/

namespace Sys2Proof.Machine

/-! ## The stack -/

theorem SameMigrations.cons {l : List Job} {j k : Job} (hj : ∀ b r i c, j ≠ .migrate b r i c)
    (hk : ∀ b r i c, k ≠ .migrate b r i c) : SameMigrations (j :: l) (k :: l) := fun b r i c => by
  simp [(hj b r i c).symm, (hk b r i c).symm]

theorem SameMigrations.push {l : List Job} {j : Job} (hj : ∀ b r i c, j ≠ .migrate b r i c) :
    SameMigrations l (j :: l) := fun b r i c => by simp [(hj b r i c).symm]

theorem SameMigrations.pop {l : List Job} {j : Job} (hj : ∀ b r i c, j ≠ .migrate b r i c) :
    SameMigrations (j :: l) l := fun b r i c => by simp [(hj b r i c).symm]

theorem scrub_ne_migrate {b : Bank} {r : LogicalRow} {g n : Nat} (b' : Bank) (r' : LogicalRow) (i : Slot) (c : Nat) :
    Job.scrub b r g n ≠ .migrate b' r' i c := fun h => by cases h

theorem fill_ne_migrate {k : SweepIndex} {g : Nat} (b' : Bank) (r' : LogicalRow) (i : Slot) (c : Nat) :
    Job.fill k g ≠ .migrate b' r' i c := fun h => by cases h

/-- The push of a class above the top keeps the order of the jobs' levels (R39, R41). -/
theorem stackOk_push {s t : State} {j : Job} (h : s.stackOk) (hj : j.level < s.engine.topLevel)
    (ht : t.engine.stack = j :: s.engine.stack) : t.stackOk := by
  unfold State.stackOk at *
  rw [ht, List.pairwise_cons]
  refine ⟨fun k hk => ?_, h⟩
  unfold Engine.topLevel at hj
  cases hs : s.engine.stack with
  | nil => simp [hs] at hk
  | cons m rest =>
    rw [hs] at h hk
    have hj : j.level < m.level := by simpa [hs] using hj
    rcases List.mem_cons.1 hk with rfl | hk
    · exact hj
    · exact hj.trans ((List.pairwise_cons.1 h).1 k hk)

/-- A job in the place of the top, of its level, keeps the order of the jobs' levels. -/
theorem stackOk_replace {s t : State} {j k : Job} {rest : List Job} (h : s.stackOk)
    (hs : s.engine.stack = j :: rest) (hl : k.level = j.level) (ht : t.engine.stack = k :: rest) : t.stackOk := by
  unfold State.stackOk at *
  rw [hs] at h
  rw [ht]
  exact List.pairwise_cons.2 ⟨fun m hm => hl ▸ (List.pairwise_cons.1 h).1 m hm, (List.pairwise_cons.1 h).2⟩

theorem stackOk_pop {s t : State} {j : Job} {rest : List Job} (h : s.stackOk) (hs : s.engine.stack = j :: rest)
    (ht : t.engine.stack = rest) : t.stackOk := by
  unfold State.stackOk at *
  rw [hs] at h
  rw [ht]
  exact (List.pairwise_cons.1 h).2

theorem stackOk_same {s t : State} (h : s.stackOk) (ht : t.engine.stack = s.engine.stack) : t.stackOk := by
  unfold State.stackOk at *
  rwa [ht]

/-! ## Moves and completions -/

/-- A MIGRATE job pushed above a top that is none (R43, R86, R87). -/
theorem State.pushMigrate_ok {s : State} {b : Bank} {r : LogicalRow} (hs : s.stackOk) (h : s.remapOk)
    (ht : 3 < s.engine.topLevel) : (s.pushMigrate b r).stackOk ∧ (s.pushMigrate b r).remapOk := by
  have none_below := State.no_migrate_below hs ht
  unfold State.pushMigrate
  split
  · have he : (s.giveUpMigration b r).engine = s.engine := by
      unfold State.giveUpMigration
      dsimp only
      rw [(State.raise_same _ _).engine, (State.report_same _ _).engine]
      rfl
    refine ⟨stackOk_same hs (by rw [he]), State.remapOk_of_same (s.giveUpMigration_tables b r) ?_ h⟩
    rw [he]
    exact .refl _
  · rename_i x hx
    have hfree := Remap.freeSpare_some hx
    generalize hn : s.remap.opened b r x = n
    obtain ⟨i, n⟩ := n
    have hlive : ∀ i e, s.remap.find b r = some (i, e) → e.state = .live := fun i e hf => by
      cases hm : e.state with
      | live => rfl
      | migrating => exact absurd (h.2.1 b i e (Remap.find_some hf).1 hm) (none_below _ _ _ _)
    obtain ⟨hok, hr, hm, hc, hat⟩ := Remap.ok_opened h.1 hfree hlive hn
    have hre : (s.openMigration b r x).remap = (s.remap.setSpare b x .inUse).setSlot b i (some n) := by
      unfold State.openMigration
      rw [hn]
      dsimp only
      split <;> rfl
    have key : ((s.openMigration b r x).setStack (.migrate b r i 0 :: s.engine.stack)).engine.stack =
      .migrate b r i 0 :: s.engine.stack := rfl
    refine ⟨stackOk_push (j := .migrate b r i 0) hs ht key, by rw [State.setStack, State.setEngine_remap, hre]; exact hok, ?_⟩
    have htab : ∀ c j, ((s.openMigration b r x).setStack (.migrate b r i 0 :: s.engine.stack)).remap.tables[c][j] =
        if c = b ∧ j = i then some n else s.remap.tables[c][j] := fun c j => by
      rw [State.setStack, State.setEngine_remap, hre, Remap.setSlot_tables]
      rfl
    constructor
    · intro c j e he hme
      rw [htab] at he
      split at he
      · rename_i hcj
        cases he
        obtain ⟨rfl, rfl⟩ := hcj
        rw [hr, hc, key]
        exact List.mem_cons_self
      · exact absurd (h.2.1 c j e he hme) (none_below _ _ _ _)
    · intro c q j k hk
      rw [key] at hk
      rcases List.mem_cons.1 hk with hk | hk
      · cases hk
        exact ⟨n, by rw [htab]; simp, hm, hr, hc⟩
      · exact absurd hk (none_below _ _ _ _)

theorem State.serveLag_stack (s : State) : s.serveLag.engine.stack = s.engine.stack ∧ s.serveLag.remap = s.remap := by
  unfold State.serveLag
  split <;> exact ⟨rfl, rfl⟩

theorem State.fillForward_stack (s : State) (i : SweepIndex) (rest : List Job) :
    (s.fillForward i rest).remap = s.remap ∧
      ((s.fillForward i rest).engine.stack = rest ∨ ∃ j, (s.fillForward i rest).engine.stack = .fill j 0 :: rest) := by
  unfold State.fillForward
  split
  · exact ⟨rfl, .inl rfl⟩
  · exact ⟨rfl, .inr ⟨_, rfl⟩⟩

/-- The FILL job at the top leaves its row: the stack and the migrations stay consistent. -/
theorem State.fillForward_ok {s t : State} {i : SweepIndex} {g : Nat} {rest : List Job} (hs : t.stackOk) (h : t.remapOk)
    (hst : t.engine.stack = .fill i g :: rest) (hr : s.remap = t.remap) :
    (s.fillForward i rest).stackOk ∧ (s.fillForward i rest).remapOk := by
  obtain ⟨h1, h2 | ⟨j, h2⟩⟩ := s.fillForward_stack i rest
  · refine ⟨stackOk_pop hs hst h2, State.remapOk_of_same (s := t) ?_ ?_ h⟩
    · rw [h1, hr]
      exact .refl _
    · rw [h2, hst]
      exact .pop fill_ne_migrate
  · refine ⟨stackOk_replace (k := .fill j 0) hs hst rfl h2, State.remapOk_of_same (s := t) ?_ ?_ h⟩
    · rw [h1, hr]
      exact .refl _
    · rw [h2, hst]
      exact .cons fill_ne_migrate fill_ne_migrate

theorem State.pushScrub_ok {s : State} (hs : s.stackOk) (h : s.remapOk) (ht : 5 < s.engine.topLevel) :
    s.pushScrub.stackOk ∧ s.pushScrub.remapOk := by
  have hr : s.pushScrub.remap = s.remap := s.pushScrub_same.remap
  have hst : s.pushScrub.engine.stack = s.engine.stack ∨
      ∃ b r, s.pushScrub.engine.stack = .scrub b r 0 0 :: s.engine.stack := by
    unfold State.pushScrub
    dsimp only
    split
    · exact .inl (State.serveLag_stack _).1
    · exact .inr ⟨_, _, rfl⟩
  have hs' : s.remap.SameTables s.pushScrub.remap := by
    rw [hr]
    exact .refl _
  rcases hst with hst | ⟨b, r, hst⟩
  · exact ⟨stackOk_same hs hst, State.remapOk_of_same hs' (hst ▸ .refl _) h⟩
  · exact ⟨stackOk_push (j := .scrub b r 0 0) hs ht hst, State.remapOk_of_same hs' (hst ▸ .push scrub_ne_migrate) h⟩

theorem State.pushFill_ok {s : State} (hs : s.stackOk) (h : s.remapOk) (ht : 7 < s.engine.topLevel) :
    s.pushFill.stackOk ∧ s.pushFill.remapOk := by
  have hst : s.pushFill.engine.stack = s.engine.stack ∨ ∃ i, s.pushFill.engine.stack = .fill i 0 :: s.engine.stack := by
    unfold State.pushFill
    dsimp only
    split
    · exact .inl rfl
    · exact .inr ⟨_, rfl⟩
  have hs' : s.remap.SameTables s.pushFill.remap := by
    rw [s.pushFill_same.remap]
    exact .refl _
  rcases hst with hst | ⟨i, hst⟩
  · exact ⟨stackOk_same hs hst, State.remapOk_of_same hs' (hst ▸ .refl _) h⟩
  · exact ⟨stackOk_push (j := .fill i 0) hs ht hst, State.remapOk_of_same hs' (hst ▸ .push fill_ne_migrate) h⟩

theorem State.checkTop_ok {s t : State} (h : s.checkTop = some t) (hs : s.stackOk) (hr : s.remapOk) :
    t.stackOk ∧ t.remapOk := by
  unfold State.checkTop at h
  split at h
  · rename_i hst
    split at h
    · cases h
      exact State.fillForward_ok hs hr hst rfl
    · cases h
  · cases h

theorem State.engineMove_ok {s t : State} (h : s.engineMove = some t) (hs : s.stackOk) (hr : s.remapOk) :
    t.stackOk ∧ t.remapOk := by
  unfold State.engineMove at h
  repeat' split at h
  all_goals first
    | (obtain rfl := Option.some.inj h; exact State.pushMigrate_ok hs hr (by assumption))
    | (obtain rfl := Option.some.inj h; exact State.pushScrub_ok hs hr (And.right (by assumption)))
    | (obtain rfl := Option.some.inj h; exact State.pushFill_ok hs hr (And.right (by assumption)))
    | exact State.checkTop_ok h hs hr
    | cases h

theorem State.engineMoves_ok (n : Nat) {s : State} (hs : s.stackOk) (hr : s.remapOk) :
    (State.engineMoves n s).stackOk ∧ (State.engineMoves n s).remapOk := by
  induction n generalizing s with
  | zero => exact ⟨hs, hr⟩
  | succ n ih =>
    rw [State.engineMoves]
    split
    · exact ⟨hs, hr⟩
    · rename_i t h
      obtain ⟨h1, h2⟩ := State.engineMove_ok h hs hr
      exact ih h1 h2

/-- The engine's moves keep the order of the stack, the tables, the pool and the migrations consistent. -/
theorem State.engineRun_ok {s : State} (hs : s.stackOk) (hr : s.remapOk) : s.engineRun.stackOk ∧ s.engineRun.remapOk :=
  State.engineMoves_ok 300 hs hr

/-! ## The suspect list -/

theorem State.giveUpMigration_remap (s : State) (b : Bank) (r : LogicalRow) :
    (s.giveUpMigration b r).remap = s.remap.giveUp b r := by
  unfold State.giveUpMigration
  dsimp only
  rw [(State.raise_same _ _).remap, (State.report_same _ _).remap]
  rfl

theorem State.openMigration_list (s : State) (b : Bank) (r : LogicalRow) (t : SpareIndex) :
    s.remap.SameList (s.openMigration b r t).remap := by
  unfold State.openMigration
  dsimp only
  split <;> exact ⟨rfl, rfl⟩

theorem State.engineMove_listOk {s t : State} (h : s.engineMove = some t) (hs : s.remap.listOk) : t.remap.listOk := by
  have push : ∀ b r, (s.pushMigrate b r).remap.listOk := fun b r => by
    unfold State.pushMigrate
    split
    · rw [State.giveUpMigration_remap]
      exact Remap.giveUp_listOk hs b r
    · exact (s.openMigration_list b r _).ok hs
  unfold State.engineMove at h
  repeat' split at h
  all_goals first
    | (obtain rfl := Option.some.inj h; exact push _ _)
    | (obtain rfl := Option.some.inj h; rw [State.pushScrub_same _ |>.remap]; exact hs)
    | (obtain rfl := Option.some.inj h; rw [State.pushFill_same _ |>.remap]; exact hs)
    | (rw [(State.checkTop_same h).remap]; exact hs)
    | cases h

/-- The engine's moves keep one entry a row and the queued order. -/
theorem State.engineRun_listOk {s : State} (hs : s.remap.listOk) : s.engineRun.remap.listOk := by
  have key : ∀ (n : Nat) {s : State}, s.remap.listOk → (State.engineMoves n s).remap.listOk := by
    intro n
    induction n with
    | zero => exact fun h => h
    | succ n ih =>
      intro s h
      rw [State.engineMoves]
      split
      · exact h
      · exact ih (State.engineMove_listOk (by assumption) h)
  exact key 300 hs

theorem Remap.complete_list (u : Remap) (b : Bank) (r : LogicalRow) (i : Slot) :
    (u.removeSuspect b r).SameList (u.complete b r i) := by
  unfold Remap.complete
  split
  · dsimp only
    split <;> exact ⟨rfl, rfl⟩
  · exact ⟨rfl, rfl⟩

theorem State.advanceMigrate_listOk {s : State} (hs : s.remap.listOk) : s.advanceMigrate.remap.listOk := by
  have adv : ∀ b i, (s.remap.advance b i).listOk := fun b i => by
    unfold Remap.advance
    split <;> exact hs
  unfold State.advanceMigrate
  split
  · dsimp only
    split
    · exact adv _ _
    · exact (Remap.complete_list _ _ _ _).ok (Remap.removeSuspect_listOk (adv _ _) _ _)
  · exact hs

/-! ## How long the engine runs -/

theorem firstFrom_some {test : Nat → Bool} :
    ∀ {n i j : Nat}, firstFrom test n i = some j → test j = true ∧ j < i + n
  | 0, _, _, h => by cases h
  | n + 1, i, j, h => by
    rw [firstFrom] at h
    split at h
    · rename_i ht
      cases h
      exact ⟨ht, by omega⟩
    · obtain ⟨h1, h2⟩ := firstFrom_some h
      exact ⟨h1, by omega⟩

theorem FillMap.nextClear_some {f : FillMap} {i : Nat} {j : SweepIndex} (h : f.nextClear i = some j) :
    f.marks.getLsbD j.val = false := by
  obtain ⟨k, hk, rfl⟩ := Option.map_eq_some_iff.1 h
  by_cases hi : i ≤ 131072
  · obtain ⟨h1, h2⟩ := firstFrom_some hk
    have : (Fin.ofNat 131072 k : SweepIndex).val = k := Nat.mod_eq_of_lt (by omega)
    rw [this]
    simpa using h1
  · rw [show 131072 - i = 0 by omega] at hk
    cases hk

/-- A bound on the moves an instant still holds: the QUEUED entries given up, the scrubs that find no row, the FILL job
pushed and the check of the top; none above a MIGRATE job. -/
def State.movesLeft (s : State) : Nat :=
  let scrubs := bif s.engine.scrubPending then 1 + s.scrubber.lag else 0
  let fills := bif s.engine.fillPending then 2 else 0
  match s.engine.stack with
  | [] => s.remap.queuedOrder.length + scrubs + fills
  | .migrate _ _ _ _ :: _ => 0
  | .scrub _ _ _ _ :: _ => s.remap.queuedOrder.length
  | .fill i _ :: _ =>
    s.remap.queuedOrder.length + scrubs + bif s.fillMap.marks.getLsbD i.val then 1 + fills else 0

theorem State.movesLeft_le {s : State} (hq : s.remap.queuedOrder.length ≤ 8) (hl : s.scrubber.lag ≤ 255) :
    s.movesLeft ≤ 267 := by
  have scrubs : (bif s.engine.scrubPending then 1 + s.scrubber.lag else 0) ≤ 256 := by
    cases s.engine.scrubPending <;> simp only [cond_true, cond_false] <;> omega
  have fills : (bif s.engine.fillPending then 2 else 0) ≤ 2 := by
    cases s.engine.fillPending <;> simp only [cond_true, cond_false] <;> omega
  unfold State.movesLeft
  dsimp only
  split
  · omega
  · omega
  · omega
  · cases s.fillMap.marks.getLsbD _ <;> simp only [cond_true, cond_false] <;> omega

/-- The shape of the stack after a move: a job more, the same, or the top gone or gone forward. -/
theorem State.engineMove_stackOk {s t : State} (h : s.engineMove = some t) (hs : s.stackOk) : t.stackOk := by
  have push : ∀ b r, 3 < s.engine.topLevel → (s.pushMigrate b r).stackOk := fun b r ht => by
    unfold State.pushMigrate
    split
    · refine stackOk_same hs ?_
      unfold State.giveUpMigration
      dsimp only
      rw [(State.raise_same _ _).engine, (State.report_same _ _).engine]
      rfl
    · exact stackOk_push (j := .migrate _ _ _ _) hs ht rfl
  have scrub : 5 < s.engine.topLevel → s.pushScrub.stackOk := fun ht => by
    unfold State.pushScrub
    dsimp only
    split
    · exact stackOk_same hs (State.serveLag_stack _).1
    · exact stackOk_push (j := .scrub _ _ _ _) hs ht rfl
  have fill : 7 < s.engine.topLevel → s.pushFill.stackOk := fun ht => by
    unfold State.pushFill
    dsimp only
    split
    · exact stackOk_same hs rfl
    · exact stackOk_push (j := .fill _ _) hs ht rfl
  have check : s.checkTop = some t → t.stackOk := fun h => by
    unfold State.checkTop at h
    split at h
    · rename_i hst
      split at h
      · cases h
        rcases (s.fillForward_stack _ _).2 with h2 | ⟨j, h2⟩
        · exact stackOk_pop hs hst h2
        · exact stackOk_replace (k := .fill j 0) hs hst rfl h2
      · cases h
    · cases h
  unfold State.engineMove at h
  repeat' split at h
  all_goals first
    | (obtain rfl := Option.some.inj h; exact push _ _ (by assumption))
    | (obtain rfl := Option.some.inj h; exact scrub (And.right (by assumption)))
    | (obtain rfl := Option.some.inj h; exact fill (And.right (by assumption)))
    | exact check h
    | cases h

theorem State.firstUnserved_mem {s : State} {k : Bank × LogicalRow} (h : s.firstUnserved = some k) :
    k ∈ s.remap.queuedOrder := List.mem_of_find?_eq_some h

/-- A push of a MIGRATE job leaves fewer moves: its row leaves the queued order, or it is the top. -/
theorem State.pushMigrate_left {s : State} {k : Bank × LogicalRow} (hk : k ∈ s.remap.queuedOrder)
    (ht : 3 < s.engine.topLevel) : (s.pushMigrate k.1 k.2).movesLeft < s.movesLeft := by
  have hpos : 0 < s.remap.queuedOrder.length := List.length_pos_of_mem hk
  have least : s.remap.queuedOrder.length ≤ s.movesLeft := by
    unfold State.movesLeft
    dsimp only
    split
    · omega
    · rename_i hst
      simp [Engine.topLevel, hst, Job.level] at ht
    · omega
    · omega
  unfold State.pushMigrate
  split
  · have shorter : (s.remap.queuedOrder.filter fun x => decide (x ≠ (k.1, k.2))).length < s.remap.queuedOrder.length :=
      List.length_filter_lt_length_iff_exists.2 ⟨k, hk, by simp⟩
    have he : (s.giveUpMigration k.1 k.2).engine = s.engine := by
      unfold State.giveUpMigration
      dsimp only
      rw [(State.raise_same _ _).engine, (State.report_same _ _).engine]
      rfl
    have hb : (s.giveUpMigration k.1 k.2).scrubber = s.scrubber := by
      unfold State.giveUpMigration
      dsimp only
      rw [(State.raise_same _ _).scrubber, (State.report_same _ _).scrubber]
      rfl
    have hf : (s.giveUpMigration k.1 k.2).fillMap = s.fillMap := by
      unfold State.giveUpMigration
      dsimp only
      rw [(State.raise_same _ _).fillMap, (State.report_same _ _).fillMap]
      rfl
    have hq : (s.giveUpMigration k.1 k.2).remap.queuedOrder =
        s.remap.queuedOrder.filter fun x => decide (x ≠ (k.1, k.2)) := by
      rw [State.giveUpMigration_remap]
      rfl
    unfold State.movesLeft
    rw [he, hb, hf, hq]
    dsimp only
    split
    · omega
    · rename_i hst
      simp [Engine.topLevel, hst, Job.level] at ht
    · omega
    · omega
  · change 0 < s.movesLeft
    omega

theorem State.pushScrub_left {s : State} (hp : s.engine.scrubPending = true) (ht : 5 < s.engine.topLevel) :
    s.pushScrub.movesLeft < s.movesLeft := by
  unfold State.pushScrub
  dsimp only
  split
  · unfold State.serveLag
    split
    · rename_i hl
      change 0 < s.scrubber.lag at hl
      change State.movesLeft ((s.setEngine { s.engine with scrubPending := false }).setScrubber _ |>.setEngine _) < _
      unfold State.movesLeft
      simp only [State.setEngine_engine, State.setEngine_scrubber, State.setScrubber_scrubber,
        State.setEngine_remap, State.setScrubber_remap, State.setEngine_fillMap, State.setScrubber_fillMap, hp, cond_true]
      split
      · omega
      · rename_i hst
        simp [Engine.topLevel, hst, Job.level] at ht
      · rename_i hst
        simp [Engine.topLevel, hst, Job.level] at ht
      · omega
    · unfold State.movesLeft
      simp only [State.setEngine_engine, State.setEngine_scrubber, State.setEngine_remap, State.setEngine_fillMap, hp,
        cond_true, cond_false]
      split
      · omega
      · rename_i hst
        simp [Engine.topLevel, hst, Job.level] at ht
      · rename_i hst
        simp [Engine.topLevel, hst, Job.level] at ht
      · omega
  · change s.remap.queuedOrder.length < s.movesLeft
    unfold State.movesLeft
    simp only [hp, cond_true]
    split
    · omega
    · rename_i hst
      simp [Engine.topLevel, hst, Job.level] at ht
    · rename_i hst
      simp [Engine.topLevel, hst, Job.level] at ht
    · omega

theorem State.pushFill_left {s : State} (hp : s.engine.fillPending = true) (ht : 7 < s.engine.topLevel) :
    s.pushFill.movesLeft < s.movesLeft := by
  have hst : s.engine.stack = [] := by
    unfold Engine.topLevel at ht
    split at ht
    · assumption
    · rename_i j _ _
      cases j <;> simp [Job.level] at ht
  unfold State.pushFill
  dsimp only
  split
  · unfold State.movesLeft
    simp only [State.setEngine_engine, State.setEngine_scrubber, State.setEngine_remap, hp, hst, cond_true, cond_false]
    omega
  · rename_i i hi
    have hm := FillMap.nextClear_some hi
    unfold State.movesLeft State.setStack
    simp only [State.setEngine_engine, State.setEngine_scrubber, State.setEngine_remap, State.setEngine_fillMap, hp, hst,
      hm, cond_true, cond_false]
    omega

theorem State.checkTop_left {s t : State} (h : s.checkTop = some t) (hs : s.stackOk) : t.movesLeft < s.movesLeft := by
  unfold State.checkTop at h
  split at h
  · rename_i i g rest hst
    split at h
    · rename_i hm
      cases h
      have hr : rest = [] := by
        unfold State.stackOk at hs
        rw [hst] at hs
        cases rest with
        | nil => rfl
        | cons j rest =>
          have := (List.pairwise_cons.1 hs).1 j List.mem_cons_self
          cases j <;> simp [Job.level] at this
      subst hr
      have before : s.movesLeft = s.remap.queuedOrder.length +
          (bif s.engine.scrubPending then 1 + s.scrubber.lag else 0) +
          (1 + bif s.engine.fillPending then 2 else 0) := by
        unfold State.movesLeft
        rw [hst]
        dsimp only
        rw [hm, cond_true]
      rw [before]
      unfold State.fillForward
      split
      · unfold State.movesLeft State.setStack
        simp only [State.setEngine_engine, State.setEngine_scrubber, State.setEngine_remap]
        omega
      · rename_i j hj
        have hc := FillMap.nextClear_some hj
        unfold State.movesLeft State.setStack
        simp only [State.setEngine_engine, State.setEngine_scrubber, State.setEngine_remap, State.setEngine_fillMap, hc,
          cond_false]
        omega
    · cases h
  · cases h

/-- Every move leaves fewer. -/
theorem State.engineMove_left {s t : State} (h : s.engineMove = some t) (hs : s.stackOk) : t.movesLeft < s.movesLeft := by
  unfold State.engineMove at h
  split at h
  · split at h
    · rename_i k hk
      split at h
      · obtain rfl := Option.some.inj h
        exact State.pushMigrate_left (s.firstUnserved_mem hk) (by assumption)
      · split at h
        · obtain rfl := Option.some.inj h
          exact State.pushScrub_left (And.left (by assumption)) (And.right (by assumption))
        · split at h
          · obtain rfl := Option.some.inj h
            exact State.pushFill_left (And.left (by assumption)) (And.right (by assumption))
          · exact State.checkTop_left h hs
    · split at h
      · obtain rfl := Option.some.inj h
        exact State.pushScrub_left (And.left (by assumption)) (And.right (by assumption))
      · split at h
        · obtain rfl := Option.some.inj h
          exact State.pushFill_left (And.left (by assumption)) (And.right (by assumption))
        · exact State.checkTop_left h hs
  · cases h

/-- Beyond the moves that are left, more passes change nothing. -/
theorem State.engineMoves_stable {s : State} (hs : s.stackOk) {m n : Nat} (hm : s.movesLeft ≤ m) (hn : s.movesLeft ≤ n) :
    State.engineMoves m s = State.engineMoves n s := by
  have stop : ∀ {s : State} {n : Nat}, s.engineMove = none → State.engineMoves n s = s := fun {s n} h => by
    cases n with
    | zero => rfl
    | succ n => rw [State.engineMoves, h]
  induction m generalizing s n with
  | zero =>
    cases hmv : s.engineMove with
    | none => rw [stop hmv, stop hmv]
    | some t => exact absurd (State.engineMove_left hmv hs) (by omega)
  | succ m ih =>
    cases hmv : s.engineMove with
    | none => rw [stop hmv, stop hmv]
    | some t =>
      have hlt := State.engineMove_left hmv hs
      cases n with
      | zero => omega
      | succ n =>
        rw [State.engineMoves, State.engineMoves, hmv]
        exact ih (State.engineMove_stackOk hmv hs) (by omega) (by omega)

/-- A move made, the engine runs on from it: the passes it is given are enough (R41, R43). -/
theorem State.engineRun_move {s t : State} (h : s.engineMove = some t) (hs : s.stackOk)
    (hq : s.remap.queuedOrder.length ≤ 8) (hl : s.scrubber.lag ≤ 255) : s.engineRun = t.engineRun := by
  have hle := State.movesLeft_le hq hl
  have hlt := State.engineMove_left h hs
  have first : s.engineRun = State.engineMoves 299 t := by
    change State.engineMoves (299 + 1) s = _
    rw [State.engineMoves, h]
  rw [first]
  exact State.engineMoves_stable (State.engineMove_stackOk h hs) (by omega) (by omega)

/-- The advance of a MIGRATE job at the completion of a step (R88, R93). -/
theorem State.advanceMigrate_ok {s : State} (hs : s.stackOk) (h : s.remapOk) :
    s.advanceMigrate.stackOk ∧ s.advanceMigrate.remapOk := by
  unfold State.advanceMigrate
  dsimp only
  split
  · rename_i b r i c rest hst
    obtain ⟨e, he, hm, rfl, rfl⟩ := h.2.2 b r i c (hst ▸ List.mem_cons_self)
    have below : ∀ b' r' i' c', Job.migrate b' r' i' c' ∉ rest := fun b' r' i' c' hx => by
      have hp := hs
      unfold State.stackOk at hp
      rw [hst] at hp
      have := (List.pairwise_cons.1 hp).1 _ hx
      simp [Job.level] at this
    have only : ∀ b' i' e', s.remap.tables[b'][i'] = some e' → e'.state = .migrating → b' = b ∧ i' = i :=
      fun b' i' e' he' hm' => by
        have := h.2.1 b' i' e' he' hm'
        rw [hst] at this
        rcases List.mem_cons.1 this with g | g
        · simp only [Job.migrate.injEq] at g
          exact ⟨g.1, g.2.2.1⟩
        · exact absurd g (below _ _ _ _)
    have htab : ∀ b' i', (s.remap.advance b i).tables[b'][i'] =
        if b' = b ∧ i' = i then some { e with cursor := e.cursor + 1 } else s.remap.tables[b'][i'] := fun b' i' => by
      rw [Remap.advance_of he, Remap.setSlot_tables]
    split
    · rename_i hc
      refine ⟨stackOk_replace (k := .migrate b e.logicalRow i (e.cursor + 1)) hs hst rfl rfl,
        Remap.ok_advance h.1 he hm hc, fun b' i' e' he' hm' => ?_, fun b' r' i' c' hx => ?_⟩
      · change (s.remap.advance b i).tables[b'][i'] = some e' at he'
        rw [htab] at he'
        split at he'
        · rename_i g
          cases he'
          obtain ⟨rfl, rfl⟩ := g
          exact List.mem_cons_self
        · rename_i g
          exact absurd (only b' i' e' he' hm') g
      · rcases List.mem_cons.1 (show _ ∈ _ :: rest from hx) with g | g
        · cases g
          exact ⟨_, (htab b i).trans (if_pos ⟨rfl, rfl⟩), hm, rfl, rfl⟩
        · exact absurd g (below _ _ _ _)
    · rename_i hc
      have hok := h.1.1 b i e he
      rw [RemapEntry.ok, hm] at hok
      have h7 : e.cursor = 7 := by have := hok.1; omega
      obtain ⟨h1, h2⟩ := Remap.ok_complete (r := e.logicalRow) h.1 he hm h7
      refine ⟨stackOk_pop hs hst rfl, h1, fun b' i' e' he' hm' => ?_, fun b' r' i' c' hx => ?_⟩
      · have he' := (h2 b' i').symm.trans he'
        split at he'
        · cases he'
          cases hm'
        · rename_i g
          exact absurd (only b' i' e' he' hm') g
      · exact absurd hx (below _ _ _ _)
  · exact ⟨hs, h⟩

end Sys2Proof.Machine
end

