-- ==== Sys2Proof/Laws/Link.lean ====
section
/-! SUPPORT. What a link transaction does: the rows of one register, and the frames of the settings and commands. -/

namespace Sys2Proof.Machine

/-! ## The transaction of one register -/

/-- One byte written to a register of one byte. -/
theorem State.linkWrite_byte (s : State) (i v : Byte) :
    s.linkWrite i [v] = (s.linkAt (indexOf i + 1)).stop [(indexOf i, v)] := by
  simp [State.linkWrite, State.transaction, Transfer.segment, Transfer.writeByte, State.linkAt]

/-- Two bytes written to a register of two bytes. -/
theorem State.linkWrite_pair (s : State) (i v w : Byte) :
    s.linkWrite i [v, w] = (s.linkAt (indexOf i + 1 + 1)).stop [(indexOf i + 1, w), (indexOf i, v)] := by
  simp [State.linkWrite, State.transaction, Transfer.segment, Transfer.writeByte, State.linkAt]

theorem Staged.byteAt_nil (j : BitVec 6) : Staged.byteAt [] j = none := rfl

theorem Staged.byteAt_cons (i j : BitVec 6) (v : Byte) (st : Staged) :
    Staged.byteAt ((i, v) :: st) j = if i = j then some v else Staged.byteAt st j := by
  unfold Staged.byteAt
  rw [List.find?_cons]
  by_cases h : i = j <;> simp [h]

theorem Judging.judge_none {α : Type} (x : Judging) (rule : State → α → Option State) : x.judge none rule = x := rfl

/-- The judging of one setting and nothing else. -/
def Judging.one (s : State) : Option State → Judging
  | some t => { state := t, written := true, refused := false }
  | none => { state := s, written := true, refused := true }

theorem Judging.judge_start {α : Type} (s : State) (v : α) (rule : State → α → Option State) :
    ({ state := s, written := false, refused := false } : Judging).judge (some v) rule = .one s (rule s v) := by
  unfold Judging.judge
  dsimp only
  cases rule s v <;> rfl

theorem Judging.settle_one (s : State) (t : Option State) :
    (if (Judging.one s t).written then
      (Judging.one s t).state.setResult (if (Judging.one s t).refused then .range else .done)
    else (Judging.one s t).state) = s.settled t := by
  cases t <;> rfl

theorem State.stop_alertMask (s : State) (v : Byte) : s.stop [(0x05, v)] = s.settled (s.judgeAlertMask v) := by
  simp only [State.stop, State.judgeSettings, Staged.byteAt_cons, Staged.byteAt_nil, Staged.pairAt, Judging.judge_none,
    BitVec.reduceEq, BitVec.reduceAdd, if_true, if_false, Option.isNone_none, and_self, Judging.judge_start]
  exact Judging.settle_one s _

theorem State.stop_limit (s : State) (v : Byte) : s.stop [(0x06, v)] = s.settled (s.judgeLimitByte v) := by
  simp only [State.stop, State.judgeSettings, Staged.byteAt_cons, Staged.byteAt_nil, Staged.pairAt, Judging.judge_none,
    BitVec.reduceEq, BitVec.reduceAdd, if_true, if_false, Option.isNone_none, and_self, Judging.judge_start]
  exact Judging.settle_one s _

theorem State.stop_idleClose (s : State) (v : Byte) : s.stop [(0x07, v)] = s.settled (s.judgeIdleClose v) := by
  simp only [State.stop, State.judgeSettings, Staged.byteAt_cons, Staged.byteAt_nil, Staged.pairAt, Judging.judge_none,
    BitVec.reduceEq, BitVec.reduceAdd, if_true, if_false, Option.isNone_none, and_self, Judging.judge_start]
  exact Judging.settle_one s _

theorem State.stop_drainAge (s : State) (v : Byte) : s.stop [(0x08, v)] = s.settled (s.judgeDrainAge v) := by
  simp only [State.stop, State.judgeSettings, Staged.byteAt_cons, Staged.byteAt_nil, Staged.pairAt, Judging.judge_none,
    BitVec.reduceEq, BitVec.reduceAdd, if_true, if_false, Option.isNone_none, and_self, Judging.judge_start]
  exact Judging.settle_one s _

theorem State.stop_scrubStep (s : State) (v : Byte) : s.stop [(0x09, v)] = s.settled (s.judgeScrubStep v) := by
  simp only [State.stop, State.judgeSettings, Staged.byteAt_cons, Staged.byteAt_nil, Staged.pairAt, Judging.judge_none,
    BitVec.reduceEq, BitVec.reduceAdd, if_true, if_false, Option.isNone_none, and_self, Judging.judge_start]
  exact Judging.settle_one s _

theorem State.stop_threshold (s : State) (v : Byte) : s.stop [(0x0A, v)] = s.settled (s.judgeThreshold v) := by
  simp only [State.stop, State.judgeSettings, Staged.byteAt_cons, Staged.byteAt_nil, Staged.pairAt, Judging.judge_none,
    BitVec.reduceEq, BitVec.reduceAdd, if_true, if_false, Option.isNone_none, and_self, Judging.judge_start]
  exact Judging.settle_one s _

theorem State.stop_commandArg (s : State) (v : Byte) : s.stop [(0x03, v)] = s.settled (s.judgeCommandArg v) := by
  simp only [State.stop, State.judgeSettings, Staged.byteAt_cons, Staged.byteAt_nil, Staged.pairAt, Judging.judge_none,
    BitVec.reduceEq, BitVec.reduceAdd, if_true, if_false, Option.isNone_none, and_self, Judging.judge_start]
  exact Judging.settle_one s _

theorem State.stop_retireBank (s : State) (v : Byte) : s.stop [(0x10, v)] = s.settled (s.judgeRetireBank v) := by
  simp only [State.stop, State.judgeSettings, Staged.byteAt_cons, Staged.byteAt_nil, Staged.pairAt, Judging.judge_none,
    BitVec.reduceEq, BitVec.reduceAdd, if_true, if_false, Option.isNone_none, and_self, Judging.judge_start]
  exact Judging.settle_one s _

theorem State.stop_recordSelect (s : State) (v w : Byte) :
    s.stop [(0x18, w), (0x17, v)] = s.settled (s.judgeRecordSelect (v, w)) := by
  simp only [State.stop, State.judgeSettings, Staged.byteAt_cons, Staged.byteAt_nil, Staged.pairAt, Judging.judge_none,
    BitVec.reduceEq, BitVec.reduceAdd, if_true, if_false, Option.isNone_none, Option.isNone_some, Bool.false_eq_true,
    and_self, Option.getD_some, Judging.judge_start]
  exact Judging.settle_one s _

theorem State.stop_command (s : State) (code : Byte) :
    s.stop [(0x02, code)] = ({ state := s, written := false, refused := false } : Judging).command code := by
  simp only [State.stop, State.judgeSettings, Staged.byteAt_cons, Staged.byteAt_nil, Staged.pairAt, Judging.judge_none,
    BitVec.reduceEq, BitVec.reduceAdd, if_true, if_false, Option.isNone_none, and_self]

/-! ## Frames of the settings -/

/-- Everything a write of LIMIT comes to (R67): refused out of range, nothing changed by the value held, and any other value
judged against the balances. -/
theorem State.judgeLimit_cases (s : State) (v : Nat) :
    (¬ (1 ≤ v ∧ v ≤ 12) → s.judgeLimit v = none) ∧
    (1 ≤ v ∧ v ≤ 12 → v = s.refresh.limit → s.judgeLimit v = some s) ∧
    (1 ≤ v ∧ v ≤ 12 → v ≠ s.refresh.limit →
      ((∀ b, -(effectiveLimit v s.thermal.band : Int) < (s.balanceOf b).balance) →
        s.judgeLimit v = some (s.setRefresh (s.refresh.withLimit v s.thermal.band))) ∧
      (¬ (∀ b, -(effectiveLimit v s.thermal.band : Int) < (s.balanceOf b).balance) → s.judgeLimit v = none)) := by
  have above : (∀ b, -(effectiveLimit v s.thermal.band : Int) < (s.balanceOf b).balance) ↔
      (allBanks.all fun b => decide (-(effectiveLimit v s.thermal.band : Int) < (s.balanceOf b).balance)) = true := by
    simp [allBanks]
  unfold State.judgeLimit
  dsimp only
  refine ⟨fun h => if_pos h, fun h e => ?_, fun h e => ⟨fun g => ?_, fun g => ?_⟩⟩
  · rw [if_neg (not_not_intro h), if_pos e]
  · rw [if_neg (not_not_intro h), if_neg e, if_pos (above.1 g)]
  · rw [if_neg (not_not_intro h), if_neg e, if_neg fun k => g (above.2 k)]

theorem State.judgeLimit_same {s t : State} {v : Nat} (h : s.judgeLimit v = some t) : SameBut [.refresh] s t := by
  unfold State.judgeLimit at h
  dsimp only at h
  repeat' split at h
  · cases h
  · obtain rfl := Option.some.inj h
    exact .refl _ _
  · obtain rfl := Option.some.inj h
    exact s.setRefresh_same _
  · cases h

theorem State.judgeIdleClose_same {s t : State} {v : Byte} (h : s.judgeIdleClose v = some t) :
    SameBut [.bankEngine] s t := by
  unfold State.judgeIdleClose at h
  split at h
  · obtain rfl := Option.some.inj h
    exact ((s.setBankEngine_same _).trans (State.expireIdle_same _)).mono (by decide)
  · cases h

theorem State.judgeDrainAge_same {s t : State} {v : Byte} (h : s.judgeDrainAge v = some t) : SameBut [.buffer] s t := by
  unfold State.judgeDrainAge at h
  split at h
  · obtain rfl := Option.some.inj h
    exact (((s.setBuffer_same _).trans (State.expireAge_same _)).trans (State.chooseEntry_same _)).mono (by decide)
  · cases h

theorem State.judgeScrubStep_same {s t : State} {v : Byte} (h : s.judgeScrubStep v = some t) :
    SameBut [.scrubber, .engine] s t := by
  unfold State.judgeScrubStep at h
  split at h
  · obtain rfl := Option.some.inj h
    exact ((s.setScrubber_same _).trans (State.setEngine_same _ _)).mono (by decide)
  · obtain rfl := Option.some.inj h
    exact (s.setScrubber_same _).mono (by decide)

theorem State.judgeThreshold_same {s t : State} {v : Byte} (h : s.judgeThreshold v = some t) : SameBut [.remap] s t := by
  unfold State.judgeThreshold at h
  split at h
  · obtain rfl := Option.some.inj h
    exact s.setRemap_same _
  · cases h

theorem State.judgeRetireBank_same {s t : State} {v : Byte} (h : s.judgeRetireBank v = some t) : SameBut [.link] s t := by
  unfold State.judgeRetireBank at h
  split at h
  · obtain rfl := Option.some.inj h
    exact s.setLink_same _
  · cases h

theorem State.judgeRetireRow_same {s t : State} {v : Byte × Byte} (h : s.judgeRetireRow v = some t) :
    SameBut [.link] s t := by
  unfold State.judgeRetireRow at h
  dsimp only at h
  split at h
  · obtain rfl := Option.some.inj h
    exact s.setLink_same _
  · cases h

theorem State.judgeRecordSelect_same {s t : State} {v : Byte × Byte} (h : s.judgeRecordSelect v = some t) :
    SameBut [.link] s t := by
  unfold State.judgeRecordSelect at h
  split at h
  · obtain rfl := Option.some.inj h
    exact s.setLink_same _
  · cases h

/-- What a setting leaves, its STOP leaves but for the link's own registers. -/
theorem State.settled_same {l : List Block} {s : State} {o : Option State} (h : ∀ t, o = some t → SameBut l s t) :
    SameBut (.link :: l) s (s.settled o) := by
  cases o with
  | none => exact (s.setResult_same _).mono fun k hk => by simp_all
  | some t =>
    exact ((h t rfl).trans (t.setResult_same _)).mono fun k hk => by
      simp only [List.mem_append, List.mem_cons, List.not_mem_nil, or_false] at hk ⊢
      tauto

/-! ## Frames of the commands -/

theorem State.commandHold_same (s : State) : SameBut [.bankEngine, .buffer, .hold] s s.commandHold.2 := by
  unfold State.commandHold
  split
  · exact s.beginEntry_same
  all_goals exact .refl _ _

theorem State.commandWake_same (s : State) :
    SameBut [.hold, .engine, .remap, .scrubber, .errors, .alerts] s s.commandWake.2 := by
  unfold State.commandWake
  split
  · exact .refl _ _
  · exact s.abandonEntry_same
  · exact s.startWake_same
  · exact .refl _ _

theorem State.commandAck_same (s : State) : SameBut [.alerts] s s.commandAck.2 := s.setAlerts_same _

theorem State.commandClearErrors_same (s : State) : SameBut [.errors] s s.commandClearErrors.2 := s.setErrors_same _

theorem State.commandClearSuspects_same (s : State) : SameBut [.remap] s s.commandClearSuspects.2 := s.setRemap_same _

theorem State.commandRetire_same (s : State) :
    SameBut [.engine, .remap, .scrubber, .errors, .alerts] s s.commandRetire.2 := by
  unfold State.commandRetire
  dsimp only
  split
  · exact .refl _ _
  · split
    · split
      · exact .refl _ _
      · exact ((s.setRemap_same _).trans (State.engineRun_same _)).mono (by decide)
    · split
      · exact ((s.setRemap_same _).trans (State.engineRun_same _)).mono (by decide)
      · exact .refl _ _

theorem State.commandPortRestart_same (s : State) :
    SameBut [.bankEngine, .channel, .engine, .remap, .scrubber, .buffer, .port, .hold, .errors, .alerts] s
      s.commandPortRestart.2 := by
  unfold State.commandPortRestart
  dsimp only
  split
  · exact s.portReset_same
  · exact s.wakeFromHold_same.mono (by decide)

/-- The transaction that writes a command's code alone: the code is kept, the command carried out, and RESULT set
(R184, R186). -/
theorem State.linkWrite_command (s : State) (c : LinkCommand) :
    s.linkWrite 0x02 [c.code] =
      (((s.linkAt 0x03).commandNoted c.code).runCommand c).2.setResult
        (((s.linkAt 0x03).commandNoted c.code).runCommand c).1 := by
  rw [State.linkWrite_byte]
  cases c <;> exact State.stop_command _ _

end Sys2Proof.Machine
end

