-- ==== Sys2Proof/Laws/Memory.lean ====
section
/-! SUPPORT. The array's memory: what a write leaves and sets, and that every operation keeps the canonical form. -/

namespace Sys2Proof.Machine

theorem Memory.read_cell_append (k j : Nat) (w : StoredWord) (m : Memory) (h : j ≠ k) :
    Memory.read (Memory.cell k w ++ m) j = Memory.read m j := by
  unfold Memory.cell
  split
  · rfl
  · simp [Memory.read, h]

theorem Memory.read_write_ne (m : Memory) (k j : Nat) (w : StoredWord) (h : j ≠ k) :
    Memory.read (Memory.write m k w) j = Memory.read m j := by
  induction m with
  | nil => simpa [Memory.write] using Memory.read_cell_append k j w [] h
  | cons x rest ih =>
    obtain ⟨a, v⟩ := x
    unfold Memory.write
    split
    · exact Memory.read_cell_append k j w _ h
    · split
      · rename_i hk
        rw [Memory.read_cell_append k j w _ h]
        simp [Memory.read, ← hk, h]
      · simp [Memory.read, ih]

/-- An address below every address of the memory is unlisted. -/
theorem Memory.read_below (m : Memory) (a k : Nat) (h : m.risesFrom a = true) (hk : k ≤ a) :
    Memory.read m k = .unwritten := by
  induction m generalizing a with
  | nil => rfl
  | cons x rest ih =>
    obtain ⟨b, v⟩ := x
    simp only [Memory.risesFrom, Bool.and_eq_true, decide_eq_true_eq] at h
    have hb : k ≠ b := by omega
    simp only [Memory.read, hb, if_false]
    exact ih b h.2 (by omega)

theorem Memory.risesFrom_mono (m : Memory) {a b : Nat} (h : m.risesFrom b = true) (hab : a ≤ b) :
    m.risesFrom a = true := by
  cases m with
  | nil => rfl
  | cons x rest =>
    simp only [Memory.risesFrom, Bool.and_eq_true, decide_eq_true_eq] at h ⊢
    exact ⟨by omega, h.2⟩

theorem Memory.rises_of_risesFrom {m : Memory} {a : Nat} (h : m.risesFrom a = true) : m.rises = true := by
  cases m with
  | nil => rfl
  | cons x rest =>
    simp only [Memory.risesFrom, Bool.and_eq_true] at h
    exact h.2

theorem Memory.read_cell_self (k : Nat) (w : StoredWord) (m : Memory) (h : Memory.read m k = .unwritten) :
    Memory.read (Memory.cell k w ++ m) k = w := by
  unfold Memory.cell
  split
  · rename_i hw
    simp [h, hw]
  · simp [Memory.read]

theorem Memory.read_write_self (m : Memory) (k : Nat) (w : StoredWord) (h : m.rises = true) :
    Memory.read (Memory.write m k w) k = w := by
  induction m with
  | nil => simpa [Memory.write] using Memory.read_cell_self k w [] rfl
  | cons x rest ih =>
    obtain ⟨a, v⟩ := x
    have hr : Memory.risesFrom rest a = true := h
    unfold Memory.write
    split
    · rename_i hk
      apply Memory.read_cell_self
      have : k ≠ a := by omega
      simp only [Memory.read, this, if_false]
      exact Memory.read_below rest a k hr (by omega)
    · split
      · rename_i hk
        exact Memory.read_cell_self k w rest (Memory.read_below rest a k hr (by omega))
      · rename_i hlt hne
        simp only [Memory.read, hne, if_false]
        exact ih (Memory.rises_of_risesFrom hr)

theorem Memory.risesFrom_cell (a k : Nat) (w : StoredWord) (m : Memory) (ha : a < k) (h : m.risesFrom k = true) :
    Memory.risesFrom (Memory.cell k w ++ m) a = true := by
  unfold Memory.cell
  split
  · simpa using Memory.risesFrom_mono m h (by omega)
  · simp [Memory.risesFrom, ha, h]

theorem Memory.risesFrom_write (m : Memory) (a k : Nat) (w : StoredWord) (ha : a < k) (h : m.risesFrom a = true) :
    (Memory.write m k w).risesFrom a = true := by
  induction m generalizing a with
  | nil => simpa [Memory.write] using Memory.risesFrom_cell a k w [] ha rfl
  | cons x rest ih =>
    obtain ⟨b, v⟩ := x
    simp only [Memory.risesFrom, Bool.and_eq_true, decide_eq_true_eq] at h
    unfold Memory.write
    split
    · rename_i hk
      apply Memory.risesFrom_cell a k w _ ha
      simp [Memory.risesFrom, hk, h.2]
    · split
      · rename_i hk
        exact Memory.risesFrom_cell a k w rest ha (hk ▸ h.2)
      · rename_i hlt hne
        simp only [Memory.risesFrom, Bool.and_eq_true, decide_eq_true_eq]
        exact ⟨h.1, ih b (by omega) h.2⟩

theorem Memory.rises_write (m : Memory) (k : Nat) (w : StoredWord) (h : m.rises = true) :
    (Memory.write m k w).rises = true := by
  cases m with
  | nil =>
    unfold Memory.write Memory.cell
    split <;> rfl
  | cons x rest =>
    obtain ⟨b, v⟩ := x
    have hr : Memory.risesFrom rest b = true := h
    unfold Memory.write
    split
    · rename_i hk
      unfold Memory.cell
      split
      · exact h
      · simp [Memory.rises, Memory.risesFrom, hk, hr]
    · split
      · rename_i hk
        unfold Memory.cell
        split
        · exact Memory.rises_of_risesFrom hr
        · rw [hk]
          exact hr
      · exact Memory.risesFrom_write rest b k w (by omega) hr

theorem Memory.all_written_cell (k : Nat) (w : StoredWord) :
    (Memory.cell k w).all (fun c => decide (c.2 ≠ .unwritten)) = true := by
  unfold Memory.cell
  split
  · rfl
  · rename_i h
    simpa using h

theorem Memory.all_written_write (m : Memory) (k : Nat) (w : StoredWord)
    (h : m.all (fun c => decide (c.2 ≠ .unwritten)) = true) :
    (Memory.write m k w).all (fun c => decide (c.2 ≠ .unwritten)) = true := by
  induction m with
  | nil => exact Memory.all_written_cell k w
  | cons x rest ih =>
    obtain ⟨b, v⟩ := x
    rw [List.all_cons, Bool.and_eq_true] at h
    unfold Memory.write
    split
    · rw [List.all_append, List.all_cons, h.1, h.2, Memory.all_written_cell]
      rfl
    · split
      · rw [List.all_append, h.2, Memory.all_written_cell]
        rfl
      · rw [List.all_cons, h.1, ih h.2]
        rfl

/-- A write keeps the canonical form. -/
theorem Memory.wf_write (m : Memory) (k : Nat) (w : StoredWord) (h : m.wf = true) : (Memory.write m k w).wf = true := by
  unfold Memory.wf at h ⊢
  rw [Bool.and_eq_true] at h ⊢
  exact ⟨Memory.rises_write m k w h.1, Memory.all_written_write m k w h.2⟩

/-! ## Words of the array -/

theorem wordAddress_inj {b b' : Bank} {p p' : PhysicalRow} {w w' : WordInRow}
    (h : wordAddress b p w = wordAddress b' p' w') : b = b' ∧ p = p' ∧ w = w' := by
  unfold wordAddress at h
  have hb := b.isLt; have hb' := b'.isLt; have hp := p.isLt; have hp' := p'.isLt
  have hw := w.isLt; have hw' := w'.isLt
  refine ⟨Fin.ext ?_, Fin.ext ?_, Fin.ext ?_⟩ <;> omega

/-- A write of one word leaves every other word as it was. -/
theorem State.word_writeWord_ne (s : State) {b b' : Bank} {p p' : PhysicalRow} {w w' : WordInRow} (v : StoredWord)
    (h : ¬ (b' = b ∧ p' = p ∧ w' = w)) : (s.writeWord b p w v).word b' p' w' = s.word b' p' w' := by
  unfold State.writeWord State.word
  rw [State.setArray_array]
  exact Memory.read_write_ne _ _ _ _ fun g => h (wordAddress_inj g)

/-- A word written reads as written, where the memory has its canonical form. -/
theorem State.word_writeWord_self (s : State) (b : Bank) (p : PhysicalRow) (w : WordInRow) (v : StoredWord)
    (h : s.array.wf = true) : (s.writeWord b p w v).word b p w = v := by
  unfold State.writeWord State.word
  rw [State.setArray_array]
  unfold Memory.wf at h
  rw [Bool.and_eq_true] at h
  exact Memory.read_write_self _ _ _ h.1

theorem State.writeWord_wf (s : State) (b : Bank) (p : PhysicalRow) (w : WordInRow) (v : StoredWord)
    (h : s.array.wf = true) : (s.writeWord b p w v).array.wf = true := Memory.wf_write _ _ _ h

theorem State.writeWords_wf (s : State) (b : Bank) (p : PhysicalRow) (ws : List (WordInRow × StoredWord))
    (h : s.array.wf = true) : (s.writeWords b p ws).array.wf = true := by
  induction ws generalizing s with
  | nil => exact h
  | cons x ws ih => exact ih _ (s.writeWord_wf b p x.1 x.2 h)

theorem State.writeRows_wf (s : State) (b : Bank) (rows : List PhysicalRow) (ws : List (WordInRow × StoredWord))
    (h : s.array.wf = true) : (s.writeRows b rows ws).array.wf = true := by
  induction rows generalizing s with
  | nil => exact h
  | cons p rows ih => exact ih _ (s.writeWords_wf b p ws h)

theorem State.changeBits_wf (s : State) (c : BitChange) (h : s.array.wf = true) : (s.changeBits c).array.wf = true :=
  s.writeWord_wf _ _ _ _ h

theorem State.changeAll_wf (s : State) (cs : List BitChange) (h : s.array.wf = true) :
    (s.changeAll cs).array.wf = true := by
  induction cs generalizing s with
  | nil => exact h
  | cons c cs ih => exact ih _ (s.changeBits_wf c h)

/-- A run of words written to one row leaves every word of another row, bank or word as it was. -/
theorem State.word_writeWords_ne (s : State) {b b' : Bank} {p p' : PhysicalRow} {w' : WordInRow}
    (ws : List (WordInRow × StoredWord)) (h : ¬ (b' = b ∧ p' = p ∧ w' ∈ ws.map Prod.fst)) :
    (s.writeWords b p ws).word b' p' w' = s.word b' p' w' := by
  induction ws generalizing s with
  | nil => rfl
  | cons x ws ih =>
    have h1 : ¬ (b' = b ∧ p' = p ∧ w' = x.1) := fun g => h ⟨g.1, g.2.1, by simp [g.2.2]⟩
    have h2 : ¬ (b' = b ∧ p' = p ∧ w' ∈ ws.map Prod.fst) := fun g =>
      h ⟨g.1, g.2.1, by
        rw [List.map_cons]
        exact List.mem_cons_of_mem _ g.2.2⟩
    exact (ih (s.writeWord b p x.1 x.2) h2).trans (s.word_writeWord_ne x.2 h1)

/-- A run of different words written to one row: each reads as written. -/
theorem State.word_writeWords_mem (s : State) (b : Bank) (p : PhysicalRow) {w : WordInRow} {v : StoredWord}
    (ws : List (WordInRow × StoredWord)) (hd : (ws.map Prod.fst).Nodup) (hm : (w, v) ∈ ws)
    (h : s.array.wf = true) : (s.writeWords b p ws).word b p w = v := by
  induction ws generalizing s with
  | nil => cases hm
  | cons x ws ih =>
    rw [List.map_cons, List.nodup_cons] at hd
    rcases List.mem_cons.mp hm with rfl | hm
    · exact ((s.writeWord b p w v).word_writeWords_ne ws fun g => hd.1 g.2.2).trans
        (s.word_writeWord_self b p w v h)
    · exact ih (s.writeWord b p x.1 x.2) hd.2 hm (s.writeWord_wf b p x.1 x.2 h)

/-- Words written to rows of a bank leave every word outside those rows and words as it was. -/
theorem State.word_writeRows_ne (s : State) {b b' : Bank} {p' : PhysicalRow} {w' : WordInRow}
    (rows : List PhysicalRow) (ws : List (WordInRow × StoredWord))
    (h : ¬ (b' = b ∧ p' ∈ rows ∧ w' ∈ ws.map Prod.fst)) :
    (s.writeRows b rows ws).word b' p' w' = s.word b' p' w' := by
  induction rows generalizing s with
  | nil => rfl
  | cons p rows ih =>
    have h2 : ¬ (b' = b ∧ p' ∈ rows ∧ w' ∈ ws.map Prod.fst) := fun g =>
      h ⟨g.1, List.mem_cons_of_mem _ g.2.1, g.2.2⟩
    refine (ih (s.writeWords b p ws) h2).trans (s.word_writeWords_ne ws fun g => h ⟨g.1, ?_, g.2.2⟩)
    rw [g.2.1]
    exact List.mem_cons_self

/-- Different words written to rows of a bank: each reads as written in each of the rows. -/
theorem State.word_writeRows_mem (s : State) (b : Bank) {p : PhysicalRow} {w : WordInRow} {v : StoredWord}
    (rows : List PhysicalRow) (ws : List (WordInRow × StoredWord)) (hd : (ws.map Prod.fst).Nodup)
    (hm : (w, v) ∈ ws) (hp : p ∈ rows) (h : s.array.wf = true) : (s.writeRows b rows ws).word b p w = v := by
  induction rows generalizing s with
  | nil => cases hp
  | cons q rows ih =>
    have hw := s.writeWords_wf b q ws h
    by_cases hr : p ∈ rows
    · exact ih (s.writeWords b q ws) hr hw
    · have hq : p = q := (List.mem_cons.mp hp).resolve_right hr
      subst hq
      exact ((s.writeWords b p ws).word_writeRows_ne rows ws fun g => hr g.2.1).trans
        (s.word_writeWords_mem b p ws hd hm h)

end Sys2Proof.Machine
end

