-- ==== Sys2Proof/Laws/Meanings.lean ====
section
/-! SUPPORT. The frame of each command's effect, and the outcomes of the commands: always a next state, with the queue as it was. -/

namespace Sys2Proof.Machine

theorem whenPowered_next (f : State → State) (s : State) :
    whenPowered f s = .next (if s.powered = true then f s else s) := rfl

theorem whenPowered_on (f : State → State) {s : State} (h : s.powered = true) : whenPowered f s = .next (f s) := by
  unfold whenPowered
  rw [if_pos h]

theorem whenPowered_off (f : State → State) {s : State} (h : s.powered = false) : whenPowered f s = .next s := by
  unfold whenPowered
  rw [if_neg (by simp [h])]

/-! ## Pins and port -/

theorem State.offer_same (s : State) (r : Request) :
    SameBut [.port, .hold, .engine, .remap, .scrubber, .errors, .alerts] s (s.offer r) := by
  unfold State.offer
  dsimp only
  split
  · exact ((s.setPort_same _).trans (State.offerSeen_same _)).mono (by decide)
  · exact (s.setPort_same _).mono (by decide)

theorem State.acceptOffer_same (s : State) : SameBut [.buffer, .port] s s.acceptOffer := by
  unfold State.acceptOffer
  split
  · exact ((s.accept_same _).trans (State.chooseEntry_same _)).mono (by decide)
  · exact .refl _ _

theorem State.lowerSq_same (s : State) : SameBut [.port] s s.lowerSq := s.setPort_same _

theorem State.takeOffered_same (s : State) : SameBut [.buffer, .port, .bankEngine] s s.takeOffered := by
  unfold State.takeOffered
  split
  · exact (((s.takeResponse_same).trans (State.chooseEntry_same _)).trans (State.furtherCloseAll_same _)).mono
      (by decide)
  · exact .refl _ _

/-! ## Windows -/

theorem State.atWindowEnd_same (s : State) (b : Bank) : SameBut [.clock] s (s.atWindowEnd b) := by
  unfold State.atWindowEnd
  split
  · exact s.moveTo_same _
  · exact .refl _ _

theorem State.tOpenEnds_same (s : State) (b : Bank) : SameBut [.clock, .bankEngine, .channel] s (s.tOpenEnds b) := by
  unfold State.tOpenEnds
  dsimp only
  split
  · exact ((((s.atWindowEnd_same b).trans (State.setBank_same _ _ _)).trans (State.progressOn_same _ _)).trans
      (State.furtherCloseAll_same _)).mono (by decide)
  · exact .refl _ _

theorem State.tMinOpenEnds_same (s : State) (b : Bank) :
    SameBut [.clock, .bankEngine, .channel] s (s.tMinOpenEnds b) := by
  unfold State.tMinOpenEnds
  dsimp only
  split
  · have h : SameBut [.clock] s
        (match (s.bank b).openedAt with
          | some o => s.moveTo (o + Config.tMinOpen)
          | none => s) := by
      split
      · exact s.moveTo_same _
      · exact .refl _ _
    split
    · exact (h.trans (State.progress_same _)).mono (by decide)
    · exact (h.trans (State.setBank_same _ _ _)).mono (by decide)
  · exact .refl _ _

theorem State.tCloseEnds_same (s : State) (b : Bank) : SameBut [.clock, .bankEngine, .channel] s (s.tCloseEnds b) := by
  unfold State.tCloseEnds
  split
  · exact (((((s.atWindowEnd_same b).trans (State.setBank_same _ _ _)).trans (State.progressOn_same _ _)).trans
      (State.urgentClose_same _ _)).trans (State.furtherCloseAll_same _)).mono (by decide)
  · exact .refl _ _

theorem State.tIdleEnds_same (s : State) (b : Bank) : SameBut [.clock, .bankEngine] s (s.tIdleEnds b) := by
  unfold State.tIdleEnds
  split
  · exact ((s.moveTo_same _).trans (State.askClose_same _ _ _)).mono (by decide)
  · exact .refl _ _

theorem State.tRfEnds_same (s : State) (b : Bank) : SameBut [.clock, .bankEngine, .refresh] s (s.tRfEnds b) := by
  unfold State.tRfEnds
  dsimp only
  split
  · exact ((((s.atWindowEnd_same b).trans (State.setBank_same _ _ _)).trans (State.setBalanceOf_same _ _ _)).trans
      (State.furtherCloseAll_same _)).mono (by decide)
  · exact .refl _ _

/-! ## Timers -/

theorem State.intervalEnds_same (s : State) (b : Bank) :
    SameBut [.clock, .bankEngine, .refresh] s (s.intervalEnds b) :=
  (((s.moveTo_same _).trans (State.setBalanceOf_same _ _ _)).trans (State.urgentClose_same _ _)).mono (by decide)

theorem State.pollEnds_same (s : State) : SameBut [.clock, .engine] s s.pollEnds :=
  ((s.moveTo_same _).trans (State.setEngine_same _ _)).mono (by decide)

theorem State.senseEnds_same (s : State) (reading : Int) (parityGood : Bool) :
    SameBut [.clock, .channel, .bankEngine, .refresh, .thermal, .alerts] s (s.senseEnds reading parityGood) := by
  unfold State.senseEnds
  split
  · split
    · exact (((s.moveTo_same _).trans (State.setChannel_same _ _)).trans (State.takeReading_same _ _ _)).mono (by decide)
    · exact .refl _ _
  · exact .refl _ _

theorem State.scrubStepEnds_same (s : State) :
    SameBut [.clock, .engine, .remap, .scrubber, .errors, .alerts] s s.scrubStepEnds := by
  unfold State.scrubStepEnds
  dsimp only
  split
  · exact ((((s.moveTo_same _).trans (State.setScrubber_same _ _)).trans (State.scrubExpiry_same _)).trans
      (State.engineRun_same _)).mono (by decide)
  · exact .refl _ _

theorem State.drainAgeEnds_same (s : State) (line : Line) : SameBut [.clock, .buffer] s (s.drainAgeEnds line) := by
  unfold State.drainAgeEnds
  split
  · split
    · exact .refl _ _
    · exact (((s.moveTo_same _).trans (State.expireAge_same _)).trans (State.chooseEntry_same _)).mono (by decide)
  · exact .refl _ _

theorem State.enterHold_same (s : State) : SameBut [.hold, .alerts] s s.enterHold := by
  unfold State.enterHold
  split
  · exact ((s.setHold_same _).trans (State.raise_same _ _)).mono (by decide)
  · exact .refl _ _

theorem State.wakeEnds_same (s : State) : SameBut [.clock, .hold] s s.wakeEnds := by
  unfold State.wakeEnds
  split
  · exact ((s.moveTo_same _).trans (State.setHold_same _ _)).mono (by decide)
  · exact .refl _ _

theorem State.millisecondEnds_same (s : State) : SameBut [.clock] s s.millisecondEnds :=
  ((s.moveTo_same _).trans (State.setClock_same _ _)).mono (by decide)

/-! ## Completions -/

theorem State.completeRead_same (s : State) (b : Bank) (p : PhysicalRow) (line : Line) (words : List ReadWord)
    (wanted : Bool) :
    SameBut [.bankEngine, .channel, .port, .engine, .remap, .scrubber, .errors, .alerts] s
      (s.completeRead b p line words wanted) := by
  unfold State.completeRead
  dsimp only
  split
  · exact ((((s.release_same b).trans (State.answerRead_same _ _)).trans (State.reportRead_same _ _ _ _)).trans
      (State.engineRun_same _)).mono (by decide)
  · exact (((s.release_same b).trans (State.reportRead_same _ _ _ _)).trans (State.engineRun_same _)).mono (by decide)

theorem State.completeDrain_same (s : State) (b : Bank) (p : PhysicalRow) (rows : List PhysicalRow) (e : BufferEntry) :
    SameBut [.bankEngine, .channel, .array, .buffer, .port, .engine, .remap, .scrubber, .errors, .alerts] s
      (s.completeDrain b p rows e) :=
  (((((((((s.release_same b).trans (State.writeRows_same _ _ _ _)).trans (State.reportAll_same _ _ _ _ _ _)).trans
    (State.setBuffer_same _ _)).trans (State.serveWaiting_same _)).trans (State.chooseEntry_same _)).trans
    (State.finishFlush_same _)).trans (State.engineRun_same _)).trans (State.furtherCloseAll_same _)).mono (by decide)

theorem State.completeRowFill_same (s : State) (b : Bank) (p : PhysicalRow) (line : Line) :
    SameBut [.bankEngine, .channel, .array, .fillMap, .engine, .remap, .scrubber, .errors, .alerts] s
      (s.completeRowFill b p line) :=
  ((((s.release_same b).trans (State.writeWords_same _ _ _ _)).trans (State.markRow_same _ _)).trans
    (State.engineRun_same _)).mono (by decide)

theorem State.advanceFill_same (s : State) : SameBut [.fillMap, .engine, .alerts] s s.advanceFill := by
  unfold State.advanceFill
  split
  · split
    · exact (s.setStack_same _).mono (by decide)
    · exact ((s.markRow_same _).trans (State.fillForward_same _ _ _)).mono (by decide)
  · exact .refl _ _

theorem State.completeFillStep_same (s : State) (b : Bank) (p : PhysicalRow) (g : Nat) :
    SameBut [.bankEngine, .channel, .array, .fillMap, .engine, .remap, .scrubber, .errors, .alerts] s
      (s.completeFillStep b p g) :=
  (((((s.release_same b).trans (State.writeWords_same _ _ _ _)).trans (State.advanceFill_same _)).trans
    (State.engineRun_same _)).trans (State.furtherCloseAll_same _)).mono (by decide)

theorem State.advanceScrub_same (s : State) (n : Nat) : SameBut [.engine, .scrubber] s (s.advanceScrub n) := by
  unfold State.advanceScrub
  split
  · split
    · exact (s.setStack_same _).mono (by decide)
    · exact ((s.setStack_same _).trans (State.scrubRowDone_same _ _)).mono (by decide)
  · exact .refl _ _

theorem State.completeScrubStep_same (s : State) (b : Bank) (r : LogicalRow) (p : PhysicalRow)
    (rows : List PhysicalRow) (g : Nat) :
    SameBut [.bankEngine, .channel, .array, .engine, .remap, .scrubber, .errors, .alerts] s
      (s.completeScrubStep b r p rows g) :=
  ((((((s.release_same b).trans (State.writeRows_same _ _ _ _)).trans (State.reportAll_same _ _ _ _ _ _)).trans
    (State.advanceScrub_same _ _)).trans (State.engineRun_same _)).trans (State.furtherCloseAll_same _)).mono (by decide)

theorem State.advanceMigrate_same (s : State) : SameBut [.engine, .remap] s s.advanceMigrate := by
  unfold State.advanceMigrate
  dsimp only
  split
  · split
    · exact ((s.setRemap_same _).trans (State.setStack_same _ _)).mono (by decide)
    · exact (((s.setRemap_same _).trans (State.setRemap_same _ _)).trans (State.setStack_same _ _)).mono (by decide)
  · exact .refl _ _

theorem State.completeMigrateStep_same (s : State) (b : Bank) (p q : PhysicalRow) (g : Nat) :
    SameBut [.bankEngine, .channel, .array, .engine, .remap, .scrubber, .errors, .alerts] s
      (s.completeMigrateStep b p q g) :=
  ((((((s.release_same b).trans (State.writeWords_same _ _ _ _)).trans (State.reportMigration_same _ _ _ _)).trans
    (State.advanceMigrate_same _)).trans (State.engineRun_same _)).trans (State.furtherCloseAll_same _)).mono (by decide)

/-! ## The link -/

theorem State.linkAt_same (s : State) (i : BitVec 6) : SameBut [.link] s (s.linkAt i) := s.setLink_same _

theorem State.commandNoted_same (s : State) (code : Byte) : SameBut [.link] s (s.commandNoted code) := s.setLink_same _

/-- The blocks a link transaction can change. -/
abbrev linkBlocks : List Block :=
  [.link, .bankEngine, .channel, .refresh, .engine, .remap, .scrubber, .buffer, .port, .hold, .errors, .alerts]

theorem State.runCommand_same (s : State) (c : LinkCommand) : SameBut linkBlocks s (s.runCommand c).2 := by
  cases c
  · exact s.commandHold_same.mono (by decide)
  · exact s.commandWake_same.mono (by decide)
  · exact s.commandAck_same.mono (by decide)
  · exact s.commandClearErrors_same.mono (by decide)
  · exact s.commandClearSuspects_same.mono (by decide)
  · exact s.commandRetire_same.mono (by decide)
  · exact s.commandPortRestart_same.mono (by decide)

theorem Judging.judge_same {α : Type} {s : State} {x : Judging} {v : Option α} {rule : State → α → Option State}
    (hx : SameBut linkBlocks s x.state) (h : ∀ s t v, rule s v = some t → SameBut linkBlocks s t) :
    SameBut linkBlocks s (x.judge v rule).state := by
  unfold Judging.judge
  split
  · exact hx
  · split
    · rename_i t ht
      exact (hx.trans (h _ _ _ ht)).mono (by decide)
    · exact hx

theorem State.judgeSettings_same (s : State) (st : Staged) : SameBut linkBlocks s (s.judgeSettings st).state := by
  unfold State.judgeSettings
  dsimp only
  refine Judging.judge_same (Judging.judge_same (Judging.judge_same (Judging.judge_same (Judging.judge_same
    (Judging.judge_same (Judging.judge_same (Judging.judge_same (Judging.judge_same (Judging.judge_same
    (.refl _ s) ?_) ?_) ?_) ?_) ?_) ?_) ?_) ?_) ?_) ?_
  · intro s t v h
    obtain rfl := Option.some.inj h
    exact (s.setLink_same _).mono (by decide)
  · intro s t v h
    obtain rfl := Option.some.inj h
    exact (s.setAlerts_same _).mono (by decide)
  · exact fun s t v h => (State.judgeLimit_same h).mono (by decide)
  · exact fun s t v h => (State.judgeIdleClose_same h).mono (by decide)
  · exact fun s t v h => (State.judgeDrainAge_same h).mono (by decide)
  · exact fun s t v h => (State.judgeScrubStep_same h).mono (by decide)
  · exact fun s t v h => (State.judgeThreshold_same h).mono (by decide)
  · exact fun s t v h => (State.judgeRetireBank_same h).mono (by decide)
  · exact fun s t v h => (State.judgeRetireRow_same h).mono (by decide)
  · exact fun s t v h => (State.judgeRecordSelect_same h).mono (by decide)

theorem Judging.command_same {s : State} {x : Judging} (hx : SameBut linkBlocks s x.state) (code : Byte) :
    SameBut linkBlocks s (x.command code) := by
  unfold Judging.command
  dsimp only
  have h := hx.trans (x.state.setLink_same { x.state.link with command := code })
  split
  · exact (h.trans (State.setResult_same _ _)).mono (by decide)
  · split
    · exact (h.trans (State.setResult_same _ _)).mono (by decide)
    · exact ((h.trans (State.runCommand_same _ _)).trans (State.setResult_same _ _)).mono (by decide)

theorem State.stop_same (s : State) (st : Staged) : SameBut linkBlocks s (s.stop st) := by
  unfold State.stop
  dsimp only
  split
  · exact Judging.command_same (s.judgeSettings_same st) _
  · split
    · exact ((s.judgeSettings_same st).trans (State.setResult_same _ _)).mono (by decide)
    · exact s.judgeSettings_same st

theorem State.transaction_same (s : State) (segments : List LinkSegment) :
    SameBut linkBlocks s (s.transaction segments) :=
  ((s.setLink_same _).trans (State.stop_same _ _)).mono (by decide)

theorem State.linkWrite_same (s : State) (index : Byte) (bytes : List Byte) :
    SameBut linkBlocks s (s.linkWrite index bytes) := s.transaction_same _

/-! ## What a command can change -/

/-- The blocks each command can change, its queue apart: all of them at a power event, which makes every block anew. -/
def touched : Instr → List Block
  | .powerOnReset _ =>
    [.powered, .clock, .bankEngine, .channel, .array, .refresh, .engine, .remap, .scrubber, .fillMap, .buffer, .port,
      .thermal, .hold, .errors, .alerts, .link]
  | .powerLoss =>
    [.powered, .clock, .bankEngine, .channel, .array, .refresh, .engine, .remap, .scrubber, .fillMap, .buffer, .port,
      .thermal, .hold, .errors, .alerts, .link]
  | .resetNFall =>
    [.bankEngine, .channel, .engine, .remap, .scrubber, .buffer, .port, .hold, .errors, .alerts]
  | .resetNRise => [.port]
  | .requestOffer _ => [.port, .hold, .engine, .remap, .scrubber, .errors, .alerts]
  | .requestAccept => [.buffer, .port]
  | .sqLowered => [.port]
  | .responseTaken => [.buffer, .port, .bankEngine]
  | .channelGrant _ => [.array, .bankEngine, .channel, .port, .engine]
  | .tOpenExpiry _ => [.clock, .bankEngine, .channel]
  | .tMinOpenExpiry _ => [.clock, .bankEngine, .channel]
  | .tCloseExpiry _ => [.clock, .bankEngine, .channel]
  | .tIdleExpiry _ => [.clock, .bankEngine]
  | .tRfExpiry _ => [.clock, .bankEngine, .refresh]
  | .intervalExpiry _ => [.clock, .bankEngine, .refresh]
  | .pollTimerExpiry => [.clock, .engine]
  | .tSenseExpiry _ _ => [.clock, .channel, .bankEngine, .refresh, .thermal, .alerts]
  | .scrubStepTimerExpiry => [.clock, .engine, .remap, .scrubber, .errors, .alerts]
  | .drainAgeReached _ => [.clock, .buffer]
  | .lineReadComplete => [.bankEngine, .channel, .port, .engine, .remap, .scrubber, .errors, .alerts]
  | .drainComplete =>
    [.bankEngine, .channel, .array, .buffer, .port, .engine, .remap, .scrubber, .errors, .alerts]
  | .rowFillComplete => [.bankEngine, .channel, .array, .fillMap, .engine, .remap, .scrubber, .errors, .alerts]
  | .fillStepComplete => [.bankEngine, .channel, .array, .fillMap, .engine, .remap, .scrubber, .errors, .alerts]
  | .scrubGroupStepComplete => [.bankEngine, .channel, .array, .engine, .remap, .scrubber, .errors, .alerts]
  | .migrateStepComplete => [.bankEngine, .channel, .array, .engine, .remap, .scrubber, .errors, .alerts]
  | .holdEnter => [.hold, .alerts]
  | .tWakeExpiry => [.clock, .hold]
  | .hold => [.link, .bankEngine, .buffer, .hold]
  | .wake => [.link, .hold, .engine, .remap, .scrubber, .errors, .alerts]
  | .ack => [.link, .alerts]
  | .clearErrors => [.link, .errors]
  | .clearSuspects => [.link, .remap]
  | .retire => [.link, .engine, .remap, .scrubber, .errors, .alerts]
  | .portRestart =>
    [.link, .bankEngine, .channel, .engine, .remap, .scrubber, .buffer, .port, .hold, .errors, .alerts]
  | .limit _ => [.link, .refresh]
  | .idleClose _ => [.link, .bankEngine]
  | .drainAge _ => [.link, .buffer]
  | .scrubStep _ => [.link, .scrubber, .engine]
  | .ceThreshold _ => [.link, .remap]
  | .alertMask _ => [.link, .alerts]
  | .recordSelect _ _ => [.link]
  | .registerWrite _ => linkBlocks
  | .deviceTimeTick => [.clock]

theorem State.linkWrite_command_same {l : List Block} {s : State} {c : LinkCommand}
    (h : ∀ s : State, SameBut l s (s.runCommand c).2) : SameBut (.link :: l) s (s.linkWrite 0x02 [c.code]) := by
  rw [State.linkWrite_command]
  exact ((((s.linkAt_same 0x03).trans (State.commandNoted_same _ c.code)).trans (h _)).trans
    (State.setResult_same _ _)).mono (by intro k hk; simpa [or_comm] using hk)

theorem State.linkWrite_setting_same {l : List Block} {s : State} {i v : Byte} {j : State → Option State}
    (h : ∀ s : State, s.stop [(indexOf i, v)] = s.settled (j s)) (hj : ∀ s t : State, j s = some t → SameBut l s t) :
    SameBut (.link :: l) s (s.linkWrite i [v]) := by
  rw [State.linkWrite_byte, h]
  exact ((s.linkAt_same _).trans (State.settled_same (hj _))).mono (by intro k hk; simpa [or_comm] using hk)

theorem whenPowered_same {l : List Block} {f : State → State} {s t : State} (h : whenPowered f s = .next t)
    (hf : ∀ s, SameBut l s (f s)) : SameBut l s t := by
  rw [whenPowered_next] at h
  injection h with h
  subst h
  split
  · exact hf s
  · exact .refl _ s

theorem State.lineReadEnds_same (s : State) :
    SameBut [.bankEngine, .channel, .port, .engine, .remap, .scrubber, .errors, .alerts] s
      s.lineReadEnds := by
  unfold State.lineReadEnds
  split
  · split
    · exact s.completeRead_same _ _ _ _ _
    · exact .refl _ _
  · exact .refl _ _

theorem State.drainEnds_same (s : State) :
    SameBut [.bankEngine, .channel, .array, .buffer, .port, .engine, .remap, .scrubber, .errors, .alerts] s
      s.drainEnds := by
  unfold State.drainEnds
  split
  · split
    · split
      · exact s.completeDrain_same _ _ _ _
      · exact .refl _ _
    · exact .refl _ _
  · exact .refl _ _

theorem State.rowFillEnds_same (s : State) :
    SameBut [.bankEngine, .channel, .array, .fillMap, .engine, .remap, .scrubber, .errors, .alerts] s
      s.rowFillEnds := by
  unfold State.rowFillEnds
  split
  · split
    · exact s.completeRowFill_same _ _ _
    · exact .refl _ _
  · exact .refl _ _

theorem State.fillStepEnds_same (s : State) :
    SameBut [.bankEngine, .channel, .array, .fillMap, .engine, .remap, .scrubber, .errors, .alerts] s
      s.fillStepEnds := by
  unfold State.fillStepEnds
  split
  · split
    · exact s.completeFillStep_same _ _ _
    · exact .refl _ _
  · exact .refl _ _

theorem State.scrubGroupEnds_same (s : State) :
    SameBut [.bankEngine, .channel, .array, .engine, .remap, .scrubber, .errors, .alerts] s
      s.scrubGroupEnds := by
  unfold State.scrubGroupEnds
  split
  · split
    · exact s.completeScrubStep_same _ _ _ _ _
    · exact .refl _ _
  · exact .refl _ _

theorem State.migrateStepEnds_same (s : State) :
    SameBut [.bankEngine, .channel, .array, .engine, .remap, .scrubber, .errors, .alerts] s
      s.migrateStepEnds := by
  unfold State.migrateStepEnds
  split
  · split
    · exact s.completeMigrateStep_same _ _ _ _
    · exact .refl _ _
  · exact .refl _ _

/-- A command leaves every block that it does not name as it is, and the queue. -/
theorem exec_same {c : Instr} {s t : State} (h : exec c s = .next t) : SameBut (touched c) s t := by
  cases c with
  | powerOnReset laddr =>
    injection h with h
    subst h
    exact ⟨rfl, fun k hk => absurd (by cases k <;> simp [touched]) hk⟩
  | powerLoss =>
    injection h with h
    subst h
    exact ⟨rfl, fun k hk => absurd (by cases k <;> simp [touched]) hk⟩
  | resetNFall =>
    simp only [exec, execResetNFall] at h
    split at h
    · injection h with h
      subst h
      split
      · exact ((s.setPort_same _).trans (State.portReset_same _)).mono (by decide)
      · exact (s.setPort_same _).mono (by decide)
    · injection h with h
      subst h
      exact .refl _ _
  | resetNRise =>
    injection h with h
    subst h
    exact s.setPort_same _
  | requestOffer r => exact whenPowered_same (f := fun s => s.offer r) h fun s => s.offer_same r
  | requestAccept => exact whenPowered_same (f := State.acceptOffer) h State.acceptOffer_same
  | sqLowered => exact whenPowered_same (f := State.lowerSq) h State.lowerSq_same
  | responseTaken => exact whenPowered_same (f := State.takeOffered) h State.takeOffered_same
  | channelGrant cs => exact whenPowered_same (f := fun s => s.grantNext cs) h fun s => s.grantNext_same cs
  | tOpenExpiry b => exact whenPowered_same (f := fun s => s.tOpenEnds b) h fun s => s.tOpenEnds_same b
  | tMinOpenExpiry b => exact whenPowered_same (f := fun s => s.tMinOpenEnds b) h fun s => s.tMinOpenEnds_same b
  | tCloseExpiry b => exact whenPowered_same (f := fun s => s.tCloseEnds b) h fun s => s.tCloseEnds_same b
  | tIdleExpiry b => exact whenPowered_same (f := fun s => s.tIdleEnds b) h fun s => s.tIdleEnds_same b
  | tRfExpiry b => exact whenPowered_same (f := fun s => s.tRfEnds b) h fun s => s.tRfEnds_same b
  | intervalExpiry b => exact whenPowered_same (f := fun s => s.intervalEnds b) h fun s => s.intervalEnds_same b
  | pollTimerExpiry => exact whenPowered_same (f := State.pollEnds) h State.pollEnds_same
  | tSenseExpiry r p => exact whenPowered_same (f := fun s => s.senseEnds r p) h fun s => s.senseEnds_same r p
  | scrubStepTimerExpiry => exact whenPowered_same (f := State.scrubStepEnds) h State.scrubStepEnds_same
  | drainAgeReached n => exact whenPowered_same (f := fun s => s.drainAgeEnds n) h fun s => s.drainAgeEnds_same n
  | lineReadComplete => exact whenPowered_same (f := State.lineReadEnds) h State.lineReadEnds_same
  | drainComplete => exact whenPowered_same (f := State.drainEnds) h State.drainEnds_same
  | rowFillComplete => exact whenPowered_same (f := State.rowFillEnds) h State.rowFillEnds_same
  | fillStepComplete => exact whenPowered_same (f := State.fillStepEnds) h State.fillStepEnds_same
  | scrubGroupStepComplete => exact whenPowered_same (f := State.scrubGroupEnds) h State.scrubGroupEnds_same
  | migrateStepComplete => exact whenPowered_same (f := State.migrateStepEnds) h State.migrateStepEnds_same
  | holdEnter => exact whenPowered_same (f := State.enterHold) h State.enterHold_same
  | tWakeExpiry => exact whenPowered_same (f := State.wakeEnds) h State.wakeEnds_same
  | hold => exact whenPowered_same (f := fun s => s.linkWrite 0x02 [0x01]) h fun s =>
      State.linkWrite_command_same (c := .hold) State.commandHold_same
  | wake => exact whenPowered_same (f := fun s => s.linkWrite 0x02 [0x02]) h fun s =>
      State.linkWrite_command_same (c := .wake) State.commandWake_same
  | ack => exact whenPowered_same (f := fun s => s.linkWrite 0x02 [0x03]) h fun s =>
      State.linkWrite_command_same (c := .ack) State.commandAck_same
  | clearErrors =>
    exact whenPowered_same (f := fun s => s.linkWrite 0x02 [0x04]) h fun s =>
      State.linkWrite_command_same (c := .clearErrors) State.commandClearErrors_same
  | clearSuspects =>
    exact whenPowered_same (f := fun s => s.linkWrite 0x02 [0x05]) h fun s =>
      State.linkWrite_command_same (c := .clearSuspects) State.commandClearSuspects_same
  | retire => exact whenPowered_same (f := fun s => s.linkWrite 0x02 [0x06]) h fun s =>
      State.linkWrite_command_same (c := .retire) State.commandRetire_same
  | portRestart =>
    exact whenPowered_same (f := fun s => s.linkWrite 0x02 [0x07]) h fun s =>
      State.linkWrite_command_same (c := .portRestart) State.commandPortRestart_same
  | limit v =>
    exact whenPowered_same (f := fun s => s.linkWrite 0x06 [v]) h fun s =>
      State.linkWrite_setting_same (fun s => s.stop_limit v) fun _ _ g => State.judgeLimit_same g
  | idleClose v =>
    exact whenPowered_same (f := fun s => s.linkWrite 0x07 [v]) h fun s =>
      State.linkWrite_setting_same (fun s => s.stop_idleClose v) fun _ _ g => State.judgeIdleClose_same g
  | drainAge v =>
    exact whenPowered_same (f := fun s => s.linkWrite 0x08 [v]) h fun s =>
      State.linkWrite_setting_same (fun s => s.stop_drainAge v) fun _ _ g => State.judgeDrainAge_same g
  | scrubStep v =>
    exact whenPowered_same (f := fun s => s.linkWrite 0x09 [v]) h fun s =>
      State.linkWrite_setting_same (fun s => s.stop_scrubStep v) fun _ _ g => State.judgeScrubStep_same g
  | ceThreshold v =>
    exact whenPowered_same (f := fun s => s.linkWrite 0x0A [v]) h fun s =>
      State.linkWrite_setting_same (fun s => s.stop_threshold v) fun _ _ g => State.judgeThreshold_same g
  | alertMask v =>
    exact whenPowered_same (f := fun s => s.linkWrite 0x05 [v]) h fun s =>
      State.linkWrite_setting_same (fun s => s.stop_alertMask v) fun s _ g => by
        obtain rfl := Option.some.inj g
        exact s.setAlerts_same _
  | recordSelect v w =>
    refine whenPowered_same (f := fun s => s.linkWrite 0x17 [v, w]) h fun s => ?_
    rw [State.linkWrite_pair]
    exact ((s.linkAt_same _).trans ((State.stop_recordSelect _ v w).symm ▸ State.settled_same fun t g =>
      State.judgeRecordSelect_same g)).mono (by simp [touched])
  | registerWrite l => exact whenPowered_same (f := fun s => s.transaction l) h fun s => s.transaction_same l
  | deviceTimeTick => exact whenPowered_same (f := State.millisecondEnds) h State.millisecondEnds_same

/-! ## The effect of a command on a part that has power -/

/-- What each command does to the state while PWRGOOD is high. -/
def effect (c : Instr) (s : State) : State :=
  match c with
  | .powerOnReset laddr =>
    ((State.initial laddr).setPort { (State.initial laddr).port with resetN := s.port.resetN }).setPending s.pending
  | .powerLoss =>
    let t := { State.initial 0 with powered := false }
    (t.setPort { t.port with resetN := s.port.resetN }).setPending s.pending
  | .resetNFall => if s.port.resetN then (s.setPort { s.port with resetN := false }).portReset else s
  | .resetNRise => s.setPort { s.port with resetN := true }
  | .requestOffer r => s.offer r
  | .requestAccept => s.acceptOffer
  | .sqLowered => s.lowerSq
  | .responseTaken => s.takeOffered
  | .channelGrant cs => s.grantNext cs
  | .tOpenExpiry b => s.tOpenEnds b
  | .tMinOpenExpiry b => s.tMinOpenEnds b
  | .tCloseExpiry b => s.tCloseEnds b
  | .tIdleExpiry b => s.tIdleEnds b
  | .tRfExpiry b => s.tRfEnds b
  | .intervalExpiry b => s.intervalEnds b
  | .pollTimerExpiry => s.pollEnds
  | .tSenseExpiry r p => s.senseEnds r p
  | .scrubStepTimerExpiry => s.scrubStepEnds
  | .drainAgeReached n => s.drainAgeEnds n
  | .lineReadComplete => s.lineReadEnds
  | .drainComplete => s.drainEnds
  | .rowFillComplete => s.rowFillEnds
  | .fillStepComplete => s.fillStepEnds
  | .scrubGroupStepComplete => s.scrubGroupEnds
  | .migrateStepComplete => s.migrateStepEnds
  | .holdEnter => s.enterHold
  | .tWakeExpiry => s.wakeEnds
  | .hold => s.linkWrite 0x02 [0x01]
  | .wake => s.linkWrite 0x02 [0x02]
  | .ack => s.linkWrite 0x02 [0x03]
  | .clearErrors => s.linkWrite 0x02 [0x04]
  | .clearSuspects => s.linkWrite 0x02 [0x05]
  | .retire => s.linkWrite 0x02 [0x06]
  | .portRestart => s.linkWrite 0x02 [0x07]
  | .limit v => s.linkWrite 0x06 [v]
  | .idleClose v => s.linkWrite 0x07 [v]
  | .drainAge v => s.linkWrite 0x08 [v]
  | .scrubStep v => s.linkWrite 0x09 [v]
  | .ceThreshold v => s.linkWrite 0x0A [v]
  | .alertMask v => s.linkWrite 0x05 [v]
  | .recordSelect v w => s.linkWrite 0x17 [v, w]
  | .registerWrite l => s.transaction l
  | .deviceTimeTick => s.millisecondEnds

/-- With power, a command answers its effect. -/
theorem exec_on {s : State} (h : s.powered = true) (c : Instr) : exec c s = .next (effect c s) := by
  cases c with
  | powerOnReset laddr => rfl
  | powerLoss => rfl
  | resetNRise => rfl
  | resetNFall =>
    simp only [exec, execResetNFall, effect]
    split <;> simp_all
  | requestOffer r => exact whenPowered_on (fun s => s.offer r) h
  | channelGrant cs => exact whenPowered_on (fun s => s.grantNext cs) h
  | tOpenExpiry b => exact whenPowered_on (fun s => s.tOpenEnds b) h
  | tMinOpenExpiry b => exact whenPowered_on (fun s => s.tMinOpenEnds b) h
  | tCloseExpiry b => exact whenPowered_on (fun s => s.tCloseEnds b) h
  | tIdleExpiry b => exact whenPowered_on (fun s => s.tIdleEnds b) h
  | tRfExpiry b => exact whenPowered_on (fun s => s.tRfEnds b) h
  | intervalExpiry b => exact whenPowered_on (fun s => s.intervalEnds b) h
  | tSenseExpiry r p => exact whenPowered_on (fun s => s.senseEnds r p) h
  | drainAgeReached n => exact whenPowered_on (fun s => s.drainAgeEnds n) h
  | hold => exact whenPowered_on (fun s => s.linkWrite 0x02 [0x01]) h
  | wake => exact whenPowered_on (fun s => s.linkWrite 0x02 [0x02]) h
  | ack => exact whenPowered_on (fun s => s.linkWrite 0x02 [0x03]) h
  | clearErrors => exact whenPowered_on (fun s => s.linkWrite 0x02 [0x04]) h
  | clearSuspects => exact whenPowered_on (fun s => s.linkWrite 0x02 [0x05]) h
  | retire => exact whenPowered_on (fun s => s.linkWrite 0x02 [0x06]) h
  | portRestart => exact whenPowered_on (fun s => s.linkWrite 0x02 [0x07]) h
  | limit v => exact whenPowered_on (fun s => s.linkWrite 0x06 [v]) h
  | idleClose v => exact whenPowered_on (fun s => s.linkWrite 0x07 [v]) h
  | drainAge v => exact whenPowered_on (fun s => s.linkWrite 0x08 [v]) h
  | scrubStep v => exact whenPowered_on (fun s => s.linkWrite 0x09 [v]) h
  | ceThreshold v => exact whenPowered_on (fun s => s.linkWrite 0x0A [v]) h
  | alertMask v => exact whenPowered_on (fun s => s.linkWrite 0x05 [v]) h
  | recordSelect v w => exact whenPowered_on (fun s => s.linkWrite 0x17 [v, w]) h
  | registerWrite l => exact whenPowered_on (fun s => s.transaction l) h
  | _ => exact whenPowered_on _ h

/-- Without power a command leaves everything, but for a power event and the level of RESET_N. -/
theorem exec_off {s : State} (h : s.powered = false) {c : Instr} (h1 : ∀ laddr, c ≠ .powerOnReset laddr)
    (h2 : c ≠ .powerLoss) (h3 : c ≠ .resetNFall) (h4 : c ≠ .resetNRise) : exec c s = .next s := by
  have key : ∀ f : State → State, whenPowered f s = .next s := fun f => whenPowered_off f h
  cases c with
  | powerOnReset laddr => exact absurd rfl (h1 laddr)
  | powerLoss => exact absurd rfl h2
  | resetNFall => exact absurd rfl h3
  | resetNRise => exact absurd rfl h4
  | requestOffer r => exact key fun s => s.offer r
  | channelGrant cs => exact key fun s => s.grantNext cs
  | tOpenExpiry b => exact key fun s => s.tOpenEnds b
  | tMinOpenExpiry b => exact key fun s => s.tMinOpenEnds b
  | tCloseExpiry b => exact key fun s => s.tCloseEnds b
  | tIdleExpiry b => exact key fun s => s.tIdleEnds b
  | tRfExpiry b => exact key fun s => s.tRfEnds b
  | intervalExpiry b => exact key fun s => s.intervalEnds b
  | tSenseExpiry r p => exact key fun s => s.senseEnds r p
  | drainAgeReached n => exact key fun s => s.drainAgeEnds n
  | hold => exact key fun s => s.linkWrite 0x02 [0x01]
  | wake => exact key fun s => s.linkWrite 0x02 [0x02]
  | ack => exact key fun s => s.linkWrite 0x02 [0x03]
  | clearErrors => exact key fun s => s.linkWrite 0x02 [0x04]
  | clearSuspects => exact key fun s => s.linkWrite 0x02 [0x05]
  | retire => exact key fun s => s.linkWrite 0x02 [0x06]
  | portRestart => exact key fun s => s.linkWrite 0x02 [0x07]
  | limit v => exact key fun s => s.linkWrite 0x06 [v]
  | idleClose v => exact key fun s => s.linkWrite 0x07 [v]
  | drainAge v => exact key fun s => s.linkWrite 0x08 [v]
  | scrubStep v => exact key fun s => s.linkWrite 0x09 [v]
  | ceThreshold v => exact key fun s => s.linkWrite 0x0A [v]
  | alertMask v => exact key fun s => s.linkWrite 0x05 [v]
  | recordSelect v w => exact key fun s => s.linkWrite 0x17 [v, w]
  | registerWrite l => exact key fun s => s.transaction l
  | _ => exact key _

/-- Every command answers a next state. -/
theorem exec_next (c : Instr) (s : State) : ∃ t, exec c s = .next t := by
  cases c with
  | resetNFall =>
    simp only [exec, execResetNFall]
    split <;> exact ⟨_, rfl⟩
  | _ => exact ⟨_, rfl⟩

end Sys2Proof.Machine
end

