-- ==== Sys2Proof/Laws/Port.lean ====
section
/-! SUPPORT. The system port: when it accepts and when a response stands, what a port reset leaves, and how it ends HOLD. -/

namespace Sys2Proof.Machine

theorem State.canAccept_some {s : State} (h1 : s.port.queue.length < 12) (h2 : s.port.resetN = true)
    (h3 : s.hold.state = .active) : s.canAccept = s.port.offer := by
  unfold State.canAccept
  exact if_pos ⟨h1, h2, h3⟩

theorem State.canAccept_none {s : State}
    (h : s.port.offer = none ∨ 12 ≤ s.port.queue.length ∨ s.port.resetN = false ∨ s.hold.state ≠ .active) :
    s.canAccept = none := by
  unfold State.canAccept
  split
  · rename_i hc
    rcases h with h | h | h | h
    · exact h
    · exact absurd hc.1 (Nat.not_lt.2 h)
    · exact absurd hc.2.1 (by simp [h])
    · exact absurd hc.2.2 h
  · rfl

theorem SystemPort.sr_iff (p : SystemPort) : p.sr = true ↔ ∃ r, p.stage = some (.responding r) := by
  unfold SystemPort.sr
  split
  · rename_i r h
    exact ⟨fun _ => ⟨r, h⟩, fun _ => rfl⟩
  · rename_i h
    exact ⟨fun g => absurd g (by decide), fun ⟨r, hr⟩ => absurd hr (h r)⟩

/-! ## The port reset -/

theorem State.resetPort_resetN (s : State) : s.resetPort.port.resetN = s.port.resetN := by
  unfold State.resetPort
  cases hc : s.channel with
  | none => simp [hc]
  | some op => cases hw : op.work <;> simp [hc, hw]

/-- What a port reset leaves, its effect on the hold state apart (R142, R156), from pins whose RESET_N may just have
changed. -/
theorem State.resetPort_leaves {s : State} {port : SystemPort} (h1 : port.sq = s.port.sq)
    (h2 : port.offer = s.port.offer) :
    PortResetLeaves s (((s.setPort port).resetPort).setBuffer s.buffer.portReset) := by
  have h := ((s.setPort_same port).trans ((s.setPort port).resetPort_same)).trans
    (State.setBuffer_same _ s.buffer.portReset)
  refine ⟨h.mono (by decide), ?_⟩
  unfold State.resetPort
  cases hc : s.channel with
  | none => simp [hc, h1, h2, WriteBuffer.portReset]
  | some op =>
    cases hw : op.work <;> simp only [State.setPort_channel, hc, hw] <;> simp [h1, h2, hc, WriteBuffer.portReset] <;>
      try (intro op' l w; constructor <;> (rintro rfl h; simp [hw] at h))
    constructor
    · intro op' l w
      constructor <;>
        (rintro rfl h
         rw [hw] at h
         cases h
         exact ⟨⟨rfl, rfl⟩, rfl, rfl, rfl, rfl, rfl, rfl⟩)
    · intro h
      rename_i l w k
      cases k
      · exact absurd hw ((h op l w).1 rfl)
      · exact absurd hw ((h op l w).2 rfl)

/-- A port reset begun in HOLD starts the wake (R170). -/
theorem State.portReset_hold {s : State} (h : s.hold.state = .hold) :
    s.portReset =
      (((s.resetPort).setBuffer s.buffer.portReset).setHold
        { state := .waking, wakeEnd := some (s.clock.now + 2000) }).engineRun := by
  have h' : ((s.resetPort).setBuffer s.buffer.portReset).hold.state = .hold := by
    rw [State.setBuffer_hold, s.resetPort_same.hold]
    exact h
  unfold State.portReset State.wakeFromHold
  rw [if_pos h']
  unfold State.startWake
  rw [State.setBuffer_clock, s.resetPort_same.clock]
  apply State.furtherCloseAll_of_not_entering
  rw [(State.engineRun_same _).hold]
  simp

/-- A port reset begun outside HOLD leaves the hold state (R171). -/
theorem State.portReset_not_hold {s : State} (h : s.hold.state ≠ .hold) :
    s.portReset = ((s.resetPort).setBuffer s.buffer.portReset).furtherCloseAll := by
  have h' : ((s.resetPort).setBuffer s.buffer.portReset).hold.state ≠ .hold := by
    rw [State.setBuffer_hold, s.resetPort_same.hold]
    exact h
  unfold State.portReset State.wakeFromHold
  rw [if_neg h']

end Sys2Proof.Machine
end

