-- ==== Sys2Proof/Laws/Operands.lean ====
section
/-! SUPPORT. The bytes of lines and words, bit by bit and byte by byte: masks of whole bytes, merging, the needed and the written bytes of a request, and the bytes the buffer offers. -/

namespace Sys2Proof.Machine

/-! ## Bytes -/

theorem getLsbD_byteIn {n : Nat} (x : BitVec n) (i m : Nat) :
    (byteIn x i).getLsbD m = (decide (m < 8) && x.getLsbD (8 * i + m)) := by
  simp [byteIn, BitVec.getLsbD_extractLsb']

/-- Two bytes are equal when their eight bits are. -/
theorem byteIn_eq {n k : Nat} {x : BitVec n} {y : BitVec k} {i j : Nat}
    (h : ∀ m, m < 8 → x.getLsbD (8 * i + m) = y.getLsbD (8 * j + m)) : byteIn x i = byteIn y j := by
  apply BitVec.eq_of_getLsbD_eq
  intro m hm
  rw [getLsbD_byteIn, getLsbD_byteIn, h m hm]

/-- A byte whose bits are all clear is 0. -/
theorem byteIn_zero {n : Nat} {x : BitVec n} {i : Nat} (h : ∀ m, m < 8 → x.getLsbD (8 * i + m) = false) :
    byteIn x i = 0 := by
  apply BitVec.eq_of_getLsbD_eq
  intro m hm
  rw [getLsbD_byteIn, h m hm]
  simp

theorem getLsbD_spread_range (n : Nat) (v : BitVec n) (k i : Nat) :
    ((List.range k).foldl
      (fun m i => if v.getLsbD i then m ||| ((0xFF#(8 * n)) <<< (8 * i)) else m) 0).getLsbD i =
      (decide (i < 8 * n) && decide (i / 8 < k) && v.getLsbD (i / 8)) := by
  induction k with
  | zero => simp
  | succ k ih =>
    rw [List.range_succ, List.foldl_append, List.foldl_cons, List.foldl_nil]
    by_cases hv : v.getLsbD k = true
    · have hk : k < n := by
        by_contra hk
        rw [BitVec.getLsbD_of_ge _ _ (by omega)] at hv
        cases hv
      rw [if_pos hv, BitVec.getLsbD_or, ih, BitVec.getLsbD_shiftLeft]
      by_cases hi : i < 8 * n
      · by_cases h1 : i / 8 < k
        · have : i < 8 * k := by omega
          have : i / 8 < k + 1 := by omega
          simp [*]
        · by_cases h2 : i / 8 = k
          · have h3 : ¬ i < 8 * k := by omega
            have h4 : i - 8 * k < 8 := by omega
            have h5 : (0xFF#(8 * n)).getLsbD (i - 8 * k) = true := by
              rw [BitVec.getLsbD_ofNat]
              have : Nat.testBit 255 (i - 8 * k) = true := by
                have : ∀ j < 8, Nat.testBit 255 j = true := by decide
                exact this _ h4
              simp only [this, Bool.and_true, decide_eq_true_eq]
              omega
            simp [h2, h3, hi, hv]
            simpa using h5
          · have h3 : ¬ i / 8 < k + 1 := by omega
            have h4 : ¬ i - 8 * k < 8 := by omega
            have h5 : (0xFF#(8 * n)).getLsbD (i - 8 * k) = false := by
              rw [BitVec.getLsbD_ofNat]
              have : Nat.testBit 255 (i - 8 * k) = false := by
                apply Nat.testBit_eq_false_of_lt
                calc 255 < 2 ^ 8 := by decide
                  _ ≤ 2 ^ (i - 8 * k) := Nat.pow_le_pow_right (by decide) (by omega)
              simp [this]
            rw [h5]
            simp [h1, h3]
      · simp [hi]
    · rw [if_neg hv, ih]
      by_cases h2 : i / 8 = k
      · simp [h2, hv]
      · have : i / 8 < k ↔ i / 8 < k + 1 := by omega
        simp [this]

/-- A mask of whole bytes has the bits of the bytes named. -/
theorem getLsbD_spread (n : Nat) (v : BitVec n) (i : Nat) : (spread n v).getLsbD i = v.getLsbD (i / 8) := by
  unfold spread
  rw [getLsbD_spread_range]
  by_cases h : i / 8 < n
  · have : i < 8 * n := by omega
    simp [*]
  · rw [BitVec.getLsbD_of_ge v (i / 8) (by omega)]
    simp

theorem getLsbD_mergeBytes (n : Nat) (valid : BitVec n) (new old : BitVec (8 * n)) (i : Nat) :
    (mergeBytes n valid new old).getLsbD i = if valid.getLsbD (i / 8) then new.getLsbD i else old.getLsbD i := by
  unfold mergeBytes
  rw [BitVec.getLsbD_or, BitVec.getLsbD_and, BitVec.getLsbD_and, BitVec.getLsbD_not, getLsbD_spread]
  by_cases hi : i < 8 * n
  · cases valid.getLsbD (i / 8) <;> simp [hi]
  · rw [BitVec.getLsbD_of_ge new i (by omega), BitVec.getLsbD_of_ge old i (by omega)]
    simp

/-- A merge takes each byte from the new value where it is valid, and from the old elsewhere. -/
theorem byteIn_mergeBytes (n : Nat) (valid : BitVec n) (new old : BitVec (8 * n)) (i : Nat) :
    byteIn (mergeBytes n valid new old) i = if valid.getLsbD i then byteIn new i else byteIn old i := by
  have key : ∀ m, m < 8 → (8 * i + m) / 8 = i := by omega
  split
  · rename_i h
    exact byteIn_eq fun m hm => by rw [getLsbD_mergeBytes, key m hm, if_pos h]
  · rename_i h
    exact byteIn_eq fun m hm => by rw [getLsbD_mergeBytes, key m hm, if_neg h]

/-! ## The bytes of a request -/

theorem lineBeat_lt (a : BeatAddress) (k : Nat) : lineBeat a k < 8 := Nat.mod_lt _ (by decide)

theorem getLsbD_nibble {p i : Nat} (hp : p < 8) : ((0xF#32) <<< (4 * p)).getLsbD i = decide (i / 4 = p) := by
  by_cases hi : i < 32
  · interval_cases p <;> interval_cases i <;> rfl
  · rw [BitVec.getLsbD_of_ge _ _ (by omega)]
    symm
    rw [decide_eq_false_iff_not]
    omega

/-- The bytes a request needs are those of its beats. -/
theorem getLsbD_neededBytes (a : BeatAddress) (n : BeatCount) (i : Nat) :
    (neededBytes a n).getLsbD i = true ↔ needsByte a n i := by
  have key : ∀ k, ((List.range k).foldl (fun m k => m ||| ((0xF#32) <<< (4 * lineBeat a k))) 0).getLsbD i = true ↔
      ∃ j, j < k ∧ i / 4 = lineBeat a j := by
    intro k
    induction k with
    | zero => simp
    | succ k ih =>
      rw [List.range_succ, List.foldl_append, List.foldl_cons, List.foldl_nil, BitVec.getLsbD_or, Bool.or_eq_true, ih,
        getLsbD_nibble (lineBeat_lt a k), decide_eq_true_eq]
      constructor
      · rintro (⟨j, hj, h⟩ | h)
        · exact ⟨j, by omega, h⟩
        · exact ⟨k, by omega, h⟩
      · rintro ⟨j, hj, h⟩
        by_cases hjk : j = k
        · exact .inr (hjk ▸ h)
        · exact .inl ⟨j, by omega, h⟩
  exact key n.toNat

/-- The beats of a request fall on different beats of the line. -/
theorem lineBeat_inj {a : BeatAddress} {j k : Nat} (hj : j < 8) (hk : k < 8) (h : lineBeat a j = lineBeat a k) :
    j = k := by
  unfold lineBeat beatStart at h
  omega

theorem beats_le (n : BeatCount) : n.toNat ≤ 8 := by cases n <;> decide

/-! ## Bytes laid over one another -/

theorem LineBytes.over_valid (new old : LineBytes) : (new.over old).valid = new.valid ||| old.valid := rfl

theorem LineBytes.over_data (new old : LineBytes) : (new.over old).data = mergeBytes 32 new.valid new.data old.data :=
  rfl

/-- Bytes of a line laid over one another in turn: a byte is given if one of them gives it, and it is that of the last of
them that does. -/
theorem overlay (l : List LineBytes) :
    (∀ i, (l.foldl (fun acc x => x.over acc) LineBytes.empty).valid.getLsbD i = true ↔
      ∃ x ∈ l, x.valid.getLsbD i = true) ∧
    ∀ (pre : List LineBytes) (x : LineBytes) (post : List LineBytes) (i : Nat), l = pre ++ x :: post →
      x.valid.getLsbD i = true → (∀ y ∈ post, y.valid.getLsbD i = false) →
      byteIn (l.foldl (fun acc x => x.over acc) LineBytes.empty).data i = byteIn x.data i := by
  induction l using List.reverseRecOn with
  | nil =>
    refine ⟨fun i => by simp [LineBytes.empty], ?_⟩
    intro pre x post i h
    simp at h
  | append_singleton l y ih =>
    refine ⟨fun i => ?_, ?_⟩
    · rw [List.foldl_append, List.foldl_cons, List.foldl_nil, LineBytes.over_valid, BitVec.getLsbD_or, Bool.or_eq_true,
        ih.1 i]
      simp [or_comm]
    · intro pre x post i h hx hpost
      rw [List.foldl_append, List.foldl_cons, List.foldl_nil, LineBytes.over_data, byteIn_mergeBytes]
      rcases List.eq_nil_or_concat post with rfl | ⟨post', z, rfl⟩
      · obtain ⟨-, h2⟩ := List.append_inj' h rfl
        cases h2
        rw [if_pos hx]
      · have h' : l ++ [y] = (pre ++ x :: post') ++ [z] := by simpa using h
        obtain ⟨h1, h2⟩ := List.append_inj' h' rfl
        cases h2
        rw [if_neg (by simp [hpost y (by simp)])]
        exact ih.2 pre x post' i h1 hx fun w hw => hpost w (by simp [hw])

theorem beatBytes_valid (a : BeatAddress) (k : Nat) (beat : WriteBeat) (i : Nat) :
    (beatBytes a k beat).valid.getLsbD i = (decide (i / 4 = lineBeat a k) && beat.enables.getLsbD (i % 4)) := by
  unfold beatBytes
  have hp := lineBeat_lt a k
  generalize lineBeat a k = p at hp ⊢
  dsimp only
  rw [BitVec.getLsbD_shiftLeft, BitVec.zeroExtend, BitVec.getLsbD_setWidth]
  by_cases h : i / 4 = p
  · have h1 : i < 32 := by omega
    have h2 : ¬ i < 4 * p := by omega
    have h3 : i - 4 * p = i % 4 := by omega
    have h4 : i % 4 < 32 := by omega
    simp [h1, h2, h3, h4, h]
  · by_cases h2 : i < 4 * p
    · simp [h2, h]
    · rw [BitVec.getLsbD_of_ge beat.enables _ (by omega)]
      simp [h]

theorem beatBytes_data (a : BeatAddress) (k : Nat) (beat : WriteBeat) {i : Nat}
    (h : (beatBytes a k beat).valid.getLsbD i = true) :
    byteIn (beatBytes a k beat).data i = byteIn beat.data (i % 4) := by
  have h0 := h
  rw [beatBytes_valid, Bool.and_eq_true, decide_eq_true_eq] at h0
  have hp := lineBeat_lt a k
  apply byteIn_eq
  intro m hm
  have h1 : (beatBytes a k beat).data =
      (beat.data.zeroExtend 256 <<< (32 * lineBeat a k)) &&& spread 32 (beatBytes a k beat).valid := rfl
  have h2 : (8 * i + m) / 8 = i := by omega
  rw [h1, BitVec.getLsbD_and, getLsbD_spread, h2, h, Bool.and_true, BitVec.getLsbD_shiftLeft,
    BitVec.zeroExtend, BitVec.getLsbD_setWidth]
  have h3 : 8 * i + m < 256 := by omega
  have h4 : ¬ 8 * i + m < 32 * lineBeat a k := by omega
  have h5 : 8 * i + m - 32 * lineBeat a k = 8 * (i % 4) + m := by omega
  have h6 : 8 * (i % 4) + m < 256 := by omega
  rw [h5]
  simp only [h3, h4, h6, decide_true, decide_false, Bool.true_and, Bool.not_false]

/-- The bytes of a WRITE whose list of beats has the length of its count, as its beats laid over one another. -/
theorem writtenBytes_eq {a : BeatAddress} {n : BeatCount} {data : List WriteBeat} (h : data.length = n.toNat) :
    writtenBytes a n data =
      (data.zipIdx.map fun x => beatBytes a x.2 x.1).foldl (fun acc x => x.over acc) LineBytes.empty := by
  unfold writtenBytes
  rw [List.take_of_length_le (Nat.le_of_eq h), List.foldl_map]

theorem writtenBytes_valid {a : BeatAddress} {n : BeatCount} {data : List WriteBeat} (h : data.length = n.toNat)
    (i : Nat) :
    (writtenBytes a n data).valid.getLsbD i = true ↔
      ∃ (k : Nat) (beat : WriteBeat), data[k]? = some beat ∧ i / 4 = lineBeat a k ∧
        beat.enables.getLsbD (i % 4) = true := by
  rw [writtenBytes_eq h, (overlay _).1 i]
  simp only [List.mem_map, Prod.exists, List.mem_zipIdx_iff_getElem?]
  constructor
  · rintro ⟨x, ⟨beat, k, hk, rfl⟩, hx⟩
    rw [beatBytes_valid, Bool.and_eq_true, decide_eq_true_eq] at hx
    exact ⟨k, beat, hk, hx⟩
  · rintro ⟨k, beat, hk, h1, h2⟩
    exact ⟨_, ⟨beat, k, hk, rfl⟩, by simp [beatBytes_valid, h1, h2]⟩

theorem writtenBytes_data {a : BeatAddress} {n : BeatCount} {data : List WriteBeat} (h : data.length = n.toNat)
    {i k : Nat} {beat : WriteBeat} (hk : data[k]? = some beat) (h1 : i / 4 = lineBeat a k)
    (h2 : beat.enables.getLsbD (i % 4) = true) :
    byteIn (writtenBytes a n data).data i = byteIn beat.data (i % 4) := by
  have hv : (beatBytes a k beat).valid.getLsbD i = true := by simp [beatBytes_valid, h1, h2]
  obtain ⟨hkl, hkb⟩ := List.getElem?_eq_some_iff.1 hk
  have hz : data.zipIdx = data.zipIdx.take k ++ (beat, k) :: data.zipIdx.drop (k + 1) := by
    have hlt : k < data.zipIdx.length := by simpa using hkl
    have hx := List.take_append_drop k data.zipIdx
    rw [List.drop_eq_getElem_cons hlt, List.getElem_zipIdx, hkb] at hx
    simpa using hx.symm
  rw [writtenBytes_eq h, (overlay _).2 ((data.zipIdx.take k).map fun x => beatBytes a x.2 x.1) (beatBytes a k beat)
    ((data.zipIdx.drop (k + 1)).map fun x => beatBytes a x.2 x.1) i ?_ hv ?_, beatBytes_data a k beat hv]
  · conv_lhs => rw [hz]
    simp
  · intro y hy
    obtain ⟨⟨b2, j⟩, hmem, rfl⟩ := List.mem_map.1 hy
    have hj : k < j ∧ j < data.length := by
      rw [List.mem_drop_iff_getElem] at hmem
      obtain ⟨m, hm, he⟩ := hmem
      rw [List.getElem_zipIdx] at he
      cases he
      simp at hm
      omega
    rw [beatBytes_valid, Bool.and_eq_false_iff, decide_eq_false_iff_not]
    left
    intro hc
    have hn := beats_le n
    have := lineBeat_inj (a := a) (j := k) (k := j) (by omega) (by omega) (h1.symm.trans hc)
    omega

/-! ## The bytes the buffer offers -/

theorem WriteBuffer.offered_eq (w : WriteBuffer) (n : Line) :
    w.offered n =
      ((w.entries.filter fun e => e.line = n).map BufferEntry.bytes).foldl (fun acc x => x.over acc)
        LineBytes.empty := by
  unfold WriteBuffer.offered
  rw [List.foldl_map]

end Sys2Proof.Machine
end

