-- ==== Sys2Proof/WellFormed.lean ====
section
/-! DEFINITION. Which commands are well formed: the ranges of operands that their types do not already give. -/

namespace Sys2Proof

/-- A WRITE carries one beat of data for each beat of its count (R144). -/
def Request.wellFormed : Request → Bool
  | .read _ _ => true
  | .write _ beats data => data.length == beats.toNat
  | .flush => true

/-- The check of each command's operands. A request has the form of R144, a sensor reading lies from −40 to +125 °C
(R159), and a link transaction has at least its START (R181). Every other operand is in range by its type. -/
def Instr.wellFormed : Instr → Bool
  | .powerOnReset _ => true
  | .powerLoss => true
  | .resetNFall => true
  | .resetNRise => true
  | .requestOffer request => request.wellFormed
  | .requestAccept => true
  | .sqLowered => true
  | .responseTaken => true
  | .channelGrant _ => true
  | .tOpenExpiry _ => true
  | .tMinOpenExpiry _ => true
  | .tCloseExpiry _ => true
  | .tIdleExpiry _ => true
  | .tRfExpiry _ => true
  | .intervalExpiry _ => true
  | .pollTimerExpiry => true
  | .tSenseExpiry reading _ => decide (-40 ≤ reading) && decide (reading ≤ 125)
  | .scrubStepTimerExpiry => true
  | .drainAgeReached _ => true
  | .lineReadComplete => true
  | .drainComplete => true
  | .rowFillComplete => true
  | .fillStepComplete => true
  | .scrubGroupStepComplete => true
  | .migrateStepComplete => true
  | .holdEnter => true
  | .tWakeExpiry => true
  | .hold => true
  | .wake => true
  | .ack => true
  | .clearErrors => true
  | .clearSuspects => true
  | .retire => true
  | .portRestart => true
  | .limit _ => true
  | .idleClose _ => true
  | .drainAge _ => true
  | .scrubStep _ => true
  | .ceThreshold _ => true
  | .alertMask _ => true
  | .recordSelect _ _ => true
  | .registerWrite segments => !segments.isEmpty
  | .deviceTimeTick => true

end Sys2Proof
end

