-- ==== Sys2Proof/Tests/Slice0.lean ====
section
/-! SUPPORT. Tests: ill-formed operands, one or two steps of each command on small states, and for each obligation with hypotheses a state and operands that meet them. -/

namespace Sys2Proof.Tests

set_option Elab.async false

open Sys2Proof.Machine

/-! ## Small states -/

/-- The state a command leads to. -/
def after (c : Instr) (s : State) : State :=
  match exec c s with
  | .next t => t
  | .fault _ => s
  | .refused _ => s

/-- The part after reset, 1 µs later, at device time 7. -/
def base : State := State.reset.setClock { now := 1000, deviceTime := 7, nextMs := 1000000 }

/-- A bank OPEN on a row since 900 ns, last accessed at 940 ns. -/
def openOn (p : PhysicalRow) : BankRecord :=
  { state := .opened, row := some p, openedAt := some 900, lastAccess := some 940, closeWanted := none
    windowEnd := none }

/-- A bank OPENING a row since 985 ns. -/
def openingOn (p : PhysicalRow) : BankRecord :=
  { state := .opening, row := some p, openedAt := some 985, lastAccess := none, closeWanted := none
    windowEnd := some 1000 }

/-- A bank in a window without a row, CLOSING or REFRESHING, that ends at 1000 ns. -/
def inWindow (x : BankState) : BankRecord := { BankRecord.initial with state := x, windowEnd := some 1000 }

/-- An operation granted at 985 ns on bank 1 for logical row 2. -/
def granted (work : Work) (rows left : List PhysicalRow) : Operation :=
  { work, bank := some 1, logicalRow := some 2, rows, rowsLeft := left, grantedAt := 985, heldClose := none }

/-- The part while an operation holds the channel, its bank OPEN on the last row it visits. -/
def finishingOn (work : Work) (rows : List PhysicalRow) (last : PhysicalRow) : State :=
  (base.setChannel (some (granted work rows [last]))).setBank 1 (openOn last)

/-- Line 0 of logical row 2 of bank 1. -/
def someLine : Line := 1056

/-- The address of the first beat of that line. -/
def someAddress : BeatAddress := 8448

/-- An entry of the write buffer for a line. -/
def entry (n : Line) (x : EntryState) (valid : BitVec 32) : BufferEntry :=
  { line := n, valid, data := 0x1122334455667788, state := x, born := 0, ageDue := false, flushMark := false
    poisonWritten := false }

/-- `s` with these entries in the write buffer. -/
def withEntries (s : State) (l : List BufferEntry) : State := s.setBuffer { s.buffer with entries := l }

/-- `s` with these requests in the intake queue and its head in a stage. -/
def withQueue (s : State) (l : List Request) (x : Option Stage) : State :=
  s.setPort { s.port with queue := l, stage := x }

/-- `s` in a hold state. -/
def inHold (s : State) (x : HoldState) : State := s.setHold { s.hold with state := x }

/-- `s` with the rows of the given sweep indexes filled. -/
def filled (s : State) (l : List Nat) : State :=
  s.setFillMap { s.fillMap with marks := l.foldl (fun m i => m ||| BitVec.twoPow 131072 i) 0 }

/-- `s` with a bank's balance. -/
def withBalance (s : State) (b : Bank) (x : Int) : State := s.setBalanceOf b { s.balanceOf b with balance := x }

/-- One word of four bytes for a write. -/
def beat (enables : BitVec 4) : WriteBeat := { enables, data := 0xDDCCBBAA }

/-- A suspect entry of logical row 2 of a bank. -/
def suspect (b : Bank) (tally : Nat) (x : SuspectState) : SuspectEntry :=
  { bank := b, logicalRow := 2, tally, state := x, queuedAt := if x = .queued then some 1 else none }

/-- `s` with this suspect list, its QUEUED rows in the same order. -/
def withSuspects (s : State) (l : List SuspectEntry) : State :=
  s.setRemap
    { s.remap with
      suspects := l
      queuedOrder := (l.filter fun e => decide (e.state = .queued)).map fun e => (e.bank, e.logicalRow) }

/-- An error record of word 0 of a row of bank 0. -/
def errorRecord (kind : ErrorKind) (p : PhysicalRow) (last : DeviceTime) : ErrorRecord :=
  { seq := BitVec.ofNat 16 p.val, kind, source := .scrub, bank := 0, physicalRow := p, word := some 0, count := 1
    firstMs := last, lastMs := last }

/-- A full error table. -/
def fullErrors (kind : ErrorKind) : ErrorTable :=
  { records := (List.range 16).map fun i => errorRecord kind (Fin.ofNat 8208 i) 3, counter := 16, saturated := false }

/-! ## Ill-formed operands -/

theorem test_write_needs_a_beat_for_each_count :
    (Instr.requestOffer (.write 0 .two [beat 15])).wellFormed = false ∧
      (Instr.requestOffer (.write 0 .two [beat 15, beat 0])).wellFormed = true := by decide +kernel

theorem test_reading_below_range_is_ill_formed :
    (Instr.tSenseExpiry (-41) true).wellFormed = false ∧ (Instr.tSenseExpiry (-40) true).wellFormed = true := by
  decide +kernel

theorem test_reading_above_range_is_ill_formed :
    (Instr.tSenseExpiry 126 false).wellFormed = false ∧ (Instr.tSenseExpiry 125 false).wellFormed = true := by
  decide +kernel

theorem test_transaction_needs_a_start :
    (Instr.registerWrite []).wellFormed = false ∧
      (Instr.registerWrite [{ address := 0x58, body := .read 1 }]).wellFormed = true := by decide +kernel

theorem test_no_word_spells_a_command :
    decodeTableWord 8 0x5A = none ∧ (State.reset.withFetchWord 8 0x5A).pending = [] := by decide +kernel

/-! ## The machine as a whole -/

/-- What a step answers. -/
def stepped (s : State) : State :=
  match step s with
  | .next t => t
  | .fault _ => s
  | .refused _ => s

/-- The part without power. -/
def dark : State := after .powerLoss base

theorem test_step_takes_the_front_command :
    (base.setPending [.deviceTimeTick, .ack]).pending = .deviceTimeTick :: [.ack] ∧
      stepped (base.setPending [.deviceTimeTick, .ack]) = (after .deviceTimeTick base).setPending [.ack] := by
  decide +kernel

theorem test_empty_queue_with_and_without_power :
    (base.pending = [] ∧ base.powered = true ∧ (stepped base).clock.now = 2001 / 2) ∧
      (dark.pending = [] ∧ dark.powered = false ∧ stepped dark = dark) := by decide +kernel

theorem test_powerLoss_silences_the_pins :
    let s := (withQueue base [.flush] (some (.responding { kind := .flush, status := .ok, beats := [] }))).raise .ue
    s.port.sr = true ∧ s.alertLow = true ∧ (after .powerLoss s).port.sr = false ∧
      (after .powerLoss s).alertLow = false := by decide +kernel

theorem test_without_power_nothing_acts :
    dark.powered = false ∧ after .deviceTimeTick dark = dark ∧ after (.requestOffer .flush) dark = dark ∧
      (after .resetNFall dark).port.resetN = false := by decide +kernel

theorem test_powerOnReset_takes_the_address :
    (after (.powerOnReset 3) dark).link.address = 0x5B ∧ (after (.powerOnReset 0) dark).powered = true ∧
      after (.powerOnReset 0) (base.raise .ue) = State.reset := by decide +kernel

/-! ## Port and write buffer -/

theorem test_resetNFall_in_and_out_of_hold :
    base.powered = true ∧ base.port.resetN = true ∧ base.hold.state ≠ .hold ∧ (inHold base .hold).hold.state = .hold ∧
      (after .resetNFall (inHold base .hold)).hold = { state := .waking, wakeEnd := some 3000 } := by decide +kernel

theorem test_resetNFall_discards :
    let s := withQueue (withEntries base [entry 1 .filling 1, entry 2 .draining 1]) [.flush] (some .flushing)
    let t := after .resetNFall s
    t.port.queue = [] ∧ t.port.stage = none ∧ t.buffer.entries = [entry 2 .draining 1] ∧
      after .resetNFall t = t := by decide +kernel

theorem test_resetNRise_changes_one_level :
    after .resetNRise (after .resetNFall base) = base := by decide +kernel

theorem test_sqLowered_withdraws :
    let s := after (.requestOffer .flush) base
    s.powered = true ∧ s.port.offer = some .flush ∧ (after .sqLowered s).port.offer = none ∧
      (after .sqLowered s).port.sa = false := by decide +kernel

theorem test_requestOffer_by_hold_state :
    let s := after (.requestOffer .flush)
    (s base).hold.state = .active ∧ (s (inHold base .entering)).hold.state = .active ∧
      (s (inHold base .hold)).hold = { state := .waking, wakeEnd := some 3000 } ∧
      (s (inHold base .waking)).hold.state = .waking ∧ (s base).port.offer = some .flush := by decide +kernel

theorem test_requestOffer_unseen :
    let low := base.setPort { base.port with resetN := false }
    let taken := (inHold base .hold).setPort { base.port with sq := true }
    low.port.resetN = false ∧ taken.port.sq = true ∧ taken.port.offer = none ∧
      after (.requestOffer .flush) taken = taken := by decide +kernel

/-- The part with `n` FLUSH requests in the queue and one offered. -/
def offering (n : Nat) : State :=
  after (.requestOffer .flush) (withQueue base (List.replicate n .flush) (if n = 0 then none else some .flushing))

theorem test_requestAccept_at_the_last_place :
    (offering 11).port.offer = some .flush ∧ (offering 11).port.queue.length = 11 ∧
      (after .requestAccept (offering 11)).port.queue.length = 12 ∧
      (after .requestAccept (offering 11)).port.sa = true ∧ (offering 12).port.queue.length = 12 ∧
      after .requestAccept (offering 12) = offering 12 := by decide +kernel

theorem test_requestAccept_serves_a_new_head :
    (after .requestAccept (offering 0)).port.stage =
        some (.responding { kind := .flush, status := .ok, beats := [] }) ∧
      after .requestAccept (inHold (offering 0) .waking) = inHold (offering 0) .waking := by decide +kernel

theorem test_responseTaken_serves_the_next :
    let s := withQueue base [.flush, .read 0 .one] (some (.responding { kind := .flush, status := .ok, beats := [] }))
    (after .responseTaken s).port.queue = [.read 0 .one] ∧
      (after .responseTaken s).port.stage =
        some (.responding { kind := .read, status := .ok, beats := [{ data := 0, err := false }] }) ∧
      after .responseTaken base = base := by decide +kernel

/-- A READ of the first beat of the line at the head. -/
def reading (s : State) : State := withQueue s [.read someAddress .one] none

theorem test_read_served_at_once_from_the_buffer :
    let s := reading (withEntries (filled base [33]) [entry someLine .filling (BitVec.allOnes 32)])
    s.port.queue = .read someAddress .one :: [] ∧
      (∀ i, needsByte someAddress .one i → (s.buffer.offered someLine).valid.getLsbD i = true) ∧
      s.serveHead.port.stage =
        some (.responding { kind := .read, status := .ok, beats := [{ data := 0x55667788, err := false }] }) := by
  refine ⟨by decide +kernel, fun i ⟨k, _, h⟩ => ?_, by decide +kernel⟩
  have all : ∀ v : BitVec 32, v = BitVec.allOnes 32 → i < 32 → v.getLsbD i = true := by
    intro v hv hi
    rw [hv, BitVec.getLsbD_allOnes, decide_eq_true hi]
  refine all _ (by decide +kernel) ?_
  have := Nat.mod_lt (beatStart someAddress + k) (show 0 < 8 by decide)
  unfold lineBeat at h
  omega

theorem test_read_of_unfilled_row_is_zero :
    let s := reading base
    s.fillMap.marked (lineBank someLine) (lineRow someLine) = false ∧
      s.serveHead.port.stage =
        some (.responding { kind := .read, status := .ok, beats := [{ data := 0, err := false }] }) := by
  decide +kernel

theorem test_read_from_the_array :
    let s := reading (withEntries (filled base [33]) [entry someLine .filling 0x3])
    s.fillMap.marked (lineBank someLine) (lineRow someLine) = true ∧
      ¬ (∀ i, needsByte someAddress .one i → (s.buffer.offered someLine).valid.getLsbD i = true) ∧
      s.serveHead.port.stage = some (.reading 0x3 0x7788 [{ word := 0, merged := true }] false) := by
  refine ⟨by decide +kernel, fun h => ?_, by decide +kernel⟩
  have := h 3 ⟨0, by decide, by decide⟩
  revert this
  decide +kernel

/-- A WRITE of one beat of the line at the head. -/
def writing (s : State) (enables : BitVec 4) : State := withQueue s [.write someAddress .one [beat enables]] none

/-- Entries for lines 0 to n − 1. -/
def lines (n : Nat) : List BufferEntry := (List.range n).map fun i => entry (BitVec.ofNat 22 i) .filling 1

theorem test_write_merges :
    let s := writing (withEntries base (lines 7 ++ [entry someLine .filling 0xFF])) 0x2
    [beat 0x2].length = BeatCount.one.toNat ∧ (writtenBytes someAddress .one [beat 0x2]).valid ≠ 0 ∧
      (∃ e ∈ s.buffer.entries, e.state = .filling ∧ e.line = someLine) ∧
      (s.serveHead.buffer.entries.map BufferEntry.data).getLast? = some 0x112233445566BB88 ∧
      s.serveHead.port.stage = some (.responding writeOk) := by decide +kernel

theorem test_write_allocates_or_waits :
    (let s := writing (withEntries base (lines 7)) 0xF
     (∀ e ∈ s.buffer.entries, ¬ (e.state = .filling ∧ e.line = someLine)) ∧ s.buffer.entries.length = 7 ∧
       s.serveHead.buffer.entries.length = 8) ∧
      (let s := writing (withEntries base (lines 8)) 0xF
       (∀ e ∈ s.buffer.entries, ¬ (e.state = .filling ∧ e.line = someLine)) ∧ s.buffer.entries.length = 8 ∧
         s.serveHead.port.stage = some .waitingEntry) := by decide +kernel

theorem test_empty_write_with_a_full_buffer :
    let s := writing (withEntries base (lines 8)) 0
    (∀ x ∈ [beat 0], x.enables = 0) ∧ s.serveHead.port.stage = some (.responding writeOk) ∧
      (∃ x ∈ [beat 0, beat 1], x.enables ≠ 0) := by decide +kernel

theorem test_flush_marks_and_answers :
    (let s := withQueue (withEntries base [entry 1 .filling 1]) [.flush] none
     s.buffer.entries ≠ [] ∧ s.serveHead.port.stage = some .flushing ∧
       (s.serveHead.buffer.entries.all BufferEntry.flushMark) = true) ∧
      (let s := withQueue base [.flush] (some .flushing)
       (∀ e ∈ s.buffer.entries, e.flushMark = false) ∧
         s.finishFlush.port.stage = some (.responding { kind := .flush, status := .ok, beats := [] })) ∧
      (let s := withQueue (withEntries base [{ entry 1 .filling 1 with flushMark := true }]) [.flush] (some .flushing)
       (∃ e ∈ s.buffer.entries, e.flushMark = true) ∧ s.finishFlush = s) := by decide +kernel

theorem test_buffer_offers_the_newest_byte :
    let old := entry 5 .draining 0x3
    let new := { entry 5 .filling 0x2 with data := 0xEE00 }
    let w := (withEntries base [old, new]).buffer
    w.entries = [old] ++ new :: [] ∧ w.entries = [] ++ old :: [new] ∧ old.valid.getLsbD 0 = true ∧
      (∀ f ∈ [new], ¬ (f.line = 5 ∧ f.valid.getLsbD 0 = true)) ∧ (w.offered 5).data = 0xEE88 := by decide +kernel

theorem test_oldest_due_entry :
    let e := entry 2 .filling (BitVec.allOnes 32)
    let s := withEntries base [entry 1 .filling 1, e, entry 3 .filling (BitVec.allOnes 32)]
    s.bufferOk ∧ s.buffer.entries = [entry 1 .filling 1] ++ e :: [entry 3 .filling (BitVec.allOnes 32)] ∧
      (∀ f ∈ s.buffer.entries, f.state = .filling) ∧ s.isDue e = true ∧ s.isDue (entry 1 .filling 1) = false ∧
      (s.chooseEntry.buffer.draining).map BufferEntry.line = some 2 := by
  unfold State.bufferOk
  decide +kernel

theorem test_pressure_makes_the_oldest_due :
    let e := entry 0 .filling 1
    let s := withQueue (withEntries base (lines 8)) [.write someAddress .one [beat 1]] (some .waitingEntry)
    s.bufferOk ∧ s.buffer.entries.find? (fun f => f.state = .filling) = some e ∧
      (s.chooseEntry.buffer.draining).map BufferEntry.line = some 0 := by
  unfold State.bufferOk
  decide +kernel

theorem test_no_choice_beside_a_draining_entry :
    let s := withEntries base [entry 1 .draining 1, entry 2 .filling (BitVec.allOnes 32)]
    s.bufferOk ∧ (∃ f ∈ s.buffer.entries, f.state = .draining) ∧ s.chooseEntry = s ∧
      (∀ f ∈ base.buffer.entries, base.isDue f = false) := by
  unfold State.bufferOk
  decide +kernel

/-! ## The array channel -/

/-- The part with no SENSE, no job and every balance at +L_eff: no claim stands. -/
def quiet : State :=
  let s := base.setEngine { base.engine with thermalPollPending := false, stack := [] }
  s.setRefresh { s.refresh with banks := Vector.replicate 16 { balance := 6, pointer := 0, due := 5000 } }

theorem test_grant_of_the_lowest_level :
    base.channel = none ∧ base.senseClaim = some { level := 1, bank := none, logicalRow := none, work := .sense } ∧
      (after (.channelGrant []) base).channel.map Operation.work = some .sense ∧
      (after (.channelGrant []) base).engine.thermalPollPending = false := by decide +kernel

theorem test_no_claim_no_grant :
    quiet.channel = none ∧ (∀ c, ¬ quiet.stands c) ∧ after (.channelGrant []) quiet = quiet := by
  refine ⟨rfl, fun c h => ?_, by decide +kernel⟩
  rcases h with h | h | h | h | ⟨b, kind, h, _⟩
  · exact absurd h (by rw [show quiet.senseClaim = none from by decide +kernel]; exact nofun)
  · exact absurd h (by rw [show quiet.readClaim = none from by decide +kernel]; exact nofun)
  · exact absurd h (by rw [show quiet.drainClaim = none from by decide +kernel]; exact nofun)
  · exact absurd h (by rw [show quiet.stepClaim = none from by decide +kernel]; exact nofun)
  · have hb : ∀ b, quiet.claimOf b = none := by decide +kernel
    rw [hb b] at h
    cases h

theorem test_grant_order_within_level_2 :
    let s := reading (withEntries (filled quiet [33]) [entry 5 .draining 1])
    let t := s.serveHead
    let full := withEntries t (entry 5 .draining 1 :: lines 7)
    (t.readClaim.map Claim.level = some 2 ∧ t.drainClaim.map Claim.level = some 2 ∧
        t.pickClaim.map Claim.work = some (.lineRead someLine [{ word := 0, merged := false }] true)) ∧
      (full.buffer.entries.length = 8 ∧ full.pickClaim.map Claim.work = some (.rowFill 5)) := by decide +kernel

theorem test_read_and_drain_claims :
    let claimed := fun valid marks => (withEntries (filled quiet marks) [entry someLine .draining valid]).drainClaim
    let s := (reading (filled quiet [33])).serveHead
    (s.port.queue = .read someAddress .one :: [] ∧
        s.readClaim =
          some
            { level := 2, bank := some 1, logicalRow := some 2
              work := .lineRead someLine [{ word := 0, merged := false }] true } ∧
        (after (.channelGrant []) s).readClaim = none) ∧
      (claimed 0xFF []).map Claim.work = some (.rowFill someLine) ∧
      (claimed 0xFF [33]).map Claim.work = some (.lineWrite someLine) ∧
      (claimed 0x1FF [33]).map Claim.work = some (.lineMerge someLine) ∧
      (withEntries (quiet.setChannel (some (granted (.rowFill someLine) [2] [2])))
        [entry someLine .draining 1]).drainClaim = none ∧
      (withEntries quiet [entry someLine .filling 1]).drainClaim = none := by decide +kernel

theorem test_step_claims_and_the_gate :
    let at' := fun stack => quiet.setEngine { quiet.engine with stack }
    let level := fun s : State => s.stepClaim.map Claim.level
    (level (at' [.migrate 1 2 0 0, .fill 0 0]) = some 3 ∧ level (at' [.scrub 1 2 0 0, .fill 0 0]) = some 5 ∧
        (at' [.fill 33 6]).stepClaim =
          some { level := 7, bank := some 1, logicalRow := some 2, work := .fillStep 6 } ∧
        (inHold (at' [.fill 33 6]) .waking).stepClaim.isSome = true ∧
        (inHold (at' [.fill 33 6]) .entering).stepClaim = none ∧ (inHold (at' [.fill 33 6]) .hold).stepClaim = none ∧
        ((at' [.fill 33 6]).setChannel (some (granted (.fillStep 6) [2] [2]))).stepClaim = none) ∧
      (at' [.fill 33 6]).gateOpen = true ∧ (at' [.scrub 1 2 0 0]).gateOpen = false ∧ base.gateOpen = false ∧
      (withBalance quiet 3 (-1)).gateOpen = false ∧ (inHold quiet .hold).gateOpen = false ∧
      (inHold quiet .entering).gateOpen = true := by decide +kernel

theorem test_bit_changes_reach_the_array :
    let t := after (.channelGrant [{ bank := 0, row := 0, word := 0, changed := 3 }]) base
    t.word 0 0 0 = { data := 0, poison := false, changed := 3 } ∧ t.word 0 0 1 = .unwritten := by decide +kernel

theorem test_bit_changes_add_up :
    let c : BitChange := { bank := 0, row := 0, word := 0, changed := 3 }
    let t := base.changeAll [c, { c with changed := 1 }, { c with word := 1, changed := 8 }]
    base.memoryOk ∧ (t.word 0 0 0).changed = 2 ∧ (t.word 0 0 1).changed = 8 ∧ t.word 0 0 2 = .unwritten := by
  unfold State.memoryOk
  decide +kernel

theorem test_refresh_claims_are_ranked :
    let s := withBalance (withBalance (withBalance quiet 4 (-7)) 9 (-7)) 2 (-6)
    s.claimOf 2 = some .urgent ∧ s.pickBank .urgent = some 4 ∧ s.pickBank .due = none ∧
      (withBalance (withBalance quiet 4 (-5)) 2 (-1)).pickBank .due = some 4 := by decide +kernel

theorem test_pull_in_takes_a_closed_bank_first :
    let s := (withBalance (withBalance quiet 4 0) 5 1).setBank 4 (openOn 7)
    s.claimOf 4 = some .pullIn ∧ s.pickBank .pullIn = some 5 := by decide +kernel

/-- The part with a remap entry of row 2 of bank 1 in slot 0. -/
def remapped (x : RemapState) (source : Option PhysicalRow) (cursor : Nat) : State :=
  base.setRemap (base.remap.setSlot 1 0 (some { logicalRow := 2, target := 3, state := x, source, cursor }))

theorem test_rows_by_the_lookup :
    (base.remap.find 1 2 = none ∧ base.visits (.lineWrite someLine) 1 2 = [2]) ∧
      (let s := remapped .live none 8
       s.remap.find 1 2 = some (0, { logicalRow := 2, target := 3, state := .live, source := none, cursor := 8 }) ∧
         s.visits (.lineWrite someLine) 1 2 = [8195] ∧ s.visits (.scrubStep 7) 1 2 = [8195]) ∧
      (let s := remapped .migrating (some 2) 1
       lineGroup someLine < 1 ∧ s.visits (.lineMerge someLine) 1 2 = [2, 8195] ∧
         s.visits (.migrateStep 1) 1 2 = [2, 8195]) ∧
      (let s := remapped .migrating (some 8193) 0
       0 ≤ lineGroup someLine ∧ s.visits (.lineMerge someLine) 1 2 = [8193]) := by decide +kernel

theorem test_rows_of_a_scrub_step :
    let s := remapped .migrating (some 2) 1
    let t := s.changeBits { bank := 1, row := 2, word := 0, changed := 1 }
    (∀ w ∈ groupWords 0, (s.word 1 2 w).decode.outcome = .clean) ∧ s.visits (.scrubStep 0) 1 2 = [2] ∧
      (∃ w ∈ groupWords 0, (t.word 1 2 w).decode.outcome = .corrected) ∧
      t.visits (.scrubStep 0) 1 2 = [2, 8195] := by decide +kernel

/-- The grant of a line write to row 2 of bank 1. -/
def writeClaim : Claim := { level := 2, bank := some 1, logicalRow := some 2, work := .lineWrite someLine }

theorem test_grant_opens_a_row :
    base.visits writeClaim.work 1 2 = 2 :: [] ∧ (base.bank 1).state = .closed ∧
      ((base.grant writeClaim).bank 1).windowEnd = some 1015 ∧
      (((base.setBank 1 (inWindow .closing)).bank 1).state = .closing ∧
        ((base.setBank 1 (inWindow .closing)).grant writeClaim).bank 1 = inWindow .closing) := by decide +kernel

theorem test_grant_finds_or_changes_a_row :
    (let s := base.setBank 1 { openOn 2 with closeWanted := some .idle }
     (s.bank 1).openedAt = some 900 ∧ (s.grant writeClaim).bank 1 = openOn 2) ∧
      (let s := base.setBank 1 { openOn 7 with openedAt := some 964 }
       (964 : Time) + 36 ≤ s.clock.now ∧ (s.bank 1).row ≠ some 2 ∧
         ((s.grant writeClaim).bank 1).state = .closing) ∧
      (let s := base.setBank 1 { openOn 7 with openedAt := some 965 }
       s.clock.now < (965 : Time) + 36 ∧ ((s.grant writeClaim).bank 1).row = some 7) ∧
      (let s := (remapped .migrating (some 2) 1).setBank 1 (openOn 2)
       s.visits writeClaim.work 1 2 = 2 :: [8195] ∧ ((s.grant writeClaim).bank 1).state = .closing) := by
  decide +kernel

theorem test_grant_keeps_a_held_close_across_the_row_change :
    let s := base.setBank 1 { openOn 7 with openedAt := some 964, closeWanted := some .hold }
    let t := base.setBank 1 { openOn 7 with openedAt := some 964, closeWanted := some .idle }
    (s.grant writeClaim).channel.map Operation.heldClose = some (some .hold) ∧
      (t.grant writeClaim).channel.map Operation.heldClose = some none := by decide +kernel

theorem test_accesses_on_the_first_of_two_rows_end_at_the_grant :
    let s := (remapped .migrating (some 2) 1).setBank 1 { openOn 2 with openedAt := some 965, closeWanted := some .idle }
    s.clock.now < (965 : Time) + 36 ∧ s.visits writeClaim.work 1 2 = 2 :: [8195] ∧
      (s.grant writeClaim).bank 1 = { openOn 2 with openedAt := some 965, lastAccess := some 1000 } ∧
      (s.grant writeClaim).channel.map Operation.rowsLeft = some [8195] := by decide +kernel

theorem test_grant_of_a_line_read :
    let s := (reading (filled quiet [33])).serveHead
    s.port.stage = some (.reading 0 0 [{ word := 0, merged := false }] false) ∧
      (after (.channelGrant []) s).port.stage = some (.reading 0 0 [{ word := 0, merged := false }] true) := by
  decide +kernel

theorem test_grant_of_a_refresh :
    let c : Claim := { level := 0, bank := some 1, logicalRow := none, work := .refresh }
    let s := fun r => (base.setBank 1 r).grant c
    ((s BankRecord.initial).channel = none ∧
        (s BankRecord.initial).bank 1 = { inWindow .refreshing with windowEnd := some 1300 }) ∧
      ((s (inWindow .closing)).channel.isSome = true ∧ (s (inWindow .closing)).bank 1 = inWindow .closing) ∧
      ((s { openOn 7 with openedAt := some 964 }).bank 1).state = .closing ∧
      ((s { openOn 7 with openedAt := some 965 }).bank 1).state = .opened := by decide +kernel

/-! ## Closes and windows -/

theorem test_closes_issued_or_held :
    let ask := fun r => ((base.setBank 1 r).askClose .hold 1).bank 1
    ask { openOn 7 with openedAt := some 964 } = { inWindow .closing with windowEnd := some 1015 } ∧
      ask { openOn 7 with openedAt := some 965 } =
        { openOn 7 with openedAt := some 965, closeWanted := some .hold } ∧
      ask { openingOn 7 with closeWanted := some .idle } = { openingOn 7 with closeWanted := some .hold } ∧
      ask { openingOn 7 with closeWanted := some .urgent } = { openingOn 7 with closeWanted := some .urgent } ∧
      ask (inWindow .refreshing) = inWindow .refreshing := by decide +kernel

theorem test_completed_bank :
    (openOn 7).completed 4 1000 = { openOn 7 with lastAccess := some 1000 } ∧
      (openOn 7).completed 0 936 = { inWindow .closing with windowEnd := some 951 } ∧
      (openOn 7).completed 0 935 = { openOn 7 with lastAccess := some 935, closeWanted := some .idle } ∧
      ({ openOn 7 with closeWanted := some .hold }).completed 4 935 =
        { openOn 7 with lastAccess := some 935, closeWanted := some .hold } := by decide +kernel

theorem test_further_close_all :
    let s := (inHold base .entering).setBank 1 (openOn 7)
    s.hold.state = .entering ∧ s.port.queue = [] ∧ s.buffer.entries = [] ∧ s.stepInFlight = false ∧
      (∀ b, 0 ≤ (s.balanceOf b).balance) ∧ (s.furtherCloseAll.bank 1).state = .closing ∧
      (withBalance s 3 (-1)).furtherCloseAll = withBalance s 3 (-1) := by decide +kernel

theorem test_tOpenExpiry :
    let s := base.setBank 1 (openingOn 2)
    (s.bank 1).state = .opening ∧ (s.bank 1).windowEnd = some 1000 ∧ (s.bank 1).openedAt = some 985 ∧
      s.inUse 1 = false ∧ (after (.tOpenExpiry 1) s).bank 1 = { openingOn 2 with state := .opened, windowEnd := none } ∧
      after (.tOpenExpiry 1) base = base := by decide +kernel

theorem test_tOpenExpiry_with_rows_left :
    (let s := (base.setChannel (some (granted (.lineWrite someLine) [2] [2]))).setBank 1
       { openingOn 2 with closeWanted := some .hold }
     (s.bank 1).row = some 2 ∧
       (after (.tOpenExpiry 1) s).bank 1 =
         { openingOn 2 with state := .opened, windowEnd := none, closeWanted := some .hold }) ∧
      (let s := (base.setChannel (some (granted (.lineWrite someLine) [2, 8195] [2, 8195]))).setBank 1
         { openingOn 2 with openedAt := some 964 }
       (964 : Time) + 36 ≤ later s.clock.now 1000 ∧ ((after (.tOpenExpiry 1) s).bank 1).state = .closing) ∧
      (let s := (base.setChannel (some (granted (.lineWrite someLine) [2, 8195] [2, 8195]))).setBank 1 (openingOn 2)
       later s.clock.now 1000 < (985 : Time) + 36 ∧ ((after (.tOpenExpiry 1) s).bank 1).state = .opened ∧
         ((after (.tOpenExpiry 1) s).bank 1).lastAccess = some 1000 ∧
         (after (.tOpenExpiry 1) s).channel.map Operation.rowsLeft = some [8195]) := by decide +kernel

theorem test_tMinOpenExpiry :
    (let s := base.setBank 1 { openOn 7 with openedAt := some 985, closeWanted := some .idle }
     s.inUse 1 = false ∧ (s.bank 1).closeWanted ≠ none ∧
       (after (.tMinOpenExpiry 1) s).bank 1 = { inWindow .closing with windowEnd := some 1036 } ∧
       (after (.tMinOpenExpiry 1) s).clock.now = 1021) ∧
      (let s := (base.setChannel (some (granted (.lineWrite someLine) [2] [2]))).setBank 1
         { openOn 7 with openedAt := some 985, closeWanted := some .urgent }
       (s.bank 1).row ≠ some 2 ∧
         (after (.tMinOpenExpiry 1) s).channel.map Operation.heldClose = some (some .urgent)) ∧
      (let s := (base.setChannel (some { granted .refresh [] [] with logicalRow := none })).setBank 1 (openOn 7)
       ((after (.tMinOpenExpiry 1) s).bank 1).state = .closing) := by decide +kernel

theorem test_tMinOpenExpiry_without_a_close :
    let s := base.setBank 1 (openOn 7)
    s.inUse 1 = false ∧ (s.bank 1).closeWanted = none ∧ after (.tMinOpenExpiry 1) s = s := by decide +kernel

theorem test_tMinOpenExpiry_with_an_access_under_way :
    let s := (base.setChannel (some (granted (.lineWrite someLine) [7] [7]))).setBank 1
      { openOn 7 with openedAt := some 985, closeWanted := some .urgent }
    s.inUse 1 = true ∧ (s.bank 1).row = some 7 ∧ after (.tMinOpenExpiry 1) s = s := by decide +kernel

theorem test_tCloseExpiry :
    (let s := base.setBank 1 (inWindow .closing)
     (s.bank 1).windowEnd = some 1000 ∧ s.inUse 1 = false ∧ after (.tCloseExpiry 1) s = base) ∧
      (let s := (base.setChannel (some { granted .refresh [] [] with logicalRow := none })).setBank 1
         (inWindow .closing)
       (after (.tCloseExpiry 1) s).channel = none ∧
         (after (.tCloseExpiry 1) s).bank 1 = { inWindow .refreshing with windowEnd := some 1300 }) ∧
      (let s := (base.setChannel (some { granted (.lineWrite someLine) [2] [2] with heldClose := some .hold })).setBank
         1 (inWindow .closing)
       (after (.tCloseExpiry 1) s).bank 1 =
         { openingOn 2 with openedAt := some 1000, windowEnd := some 1015, closeWanted := some .hold }) := by
  decide +kernel

theorem test_tIdleExpiry :
    let s := base.setBank 1 (openOn 7)
    s.inUse 1 = false ∧ (s.bank 1).closeWanted = none ∧ (s.bank 1).lastAccess = some 940 ∧
      (after (.tIdleExpiry 1) s).clock.now = 1140 ∧ ((after (.tIdleExpiry 1) s).bank 1).state = .closing ∧
      after (.tIdleExpiry 1) base = base := by decide +kernel

theorem test_tRfExpiry :
    let s := base.setBank 1 (inWindow .refreshing)
    let at512 := s.setBalanceOf 1 { balance := 6, pointer := 512, due := 5000 }
    s.balancesOk ∧ (s.balanceOf 1).balance < s.leff ∧ ((after (.tRfExpiry 1) s).balanceOf 1).balance = 1 ∧
      (after (.tRfExpiry 1) s).bank 1 = BankRecord.initial ∧ at512.balancesOk ∧
      (after (.tRfExpiry 1) at512).balanceOf 1 = { balance := 6, pointer := 0, due := 5000 } := by
  unfold State.balancesOk
  decide +kernel

/-! ## Refresh accounting, timers and temperature -/

theorem test_intervalExpiry :
    let t := after (.intervalExpiry 0) base
    base.clock.now ≤ (base.balanceOf 0).due ∧ (t.balanceOf 0).balance = -1 ∧ t.clock.now = 15625 / 2 ∧
      t.remaining 0 = 125000 ∧ t.claimOf 0 = some .due := by decide +kernel

theorem test_intervalExpiry_to_urgent :
    let s := (withBalance base 1 (-5)).setBank 1 (openOn 7)
    (after (.intervalExpiry 1) s).claimOf 1 = some .urgent ∧
      ((after (.intervalExpiry 1) s).bank 1).state = .closing := by decide +kernel

theorem test_band_change :
    let s := withBalance (withBalance base 1 5) 2 (-1)
    let t := s.setBand .critical
    Band.critical ≠ s.thermal.band ∧ 1 ≤ s.refresh.limit ∧ bandRatio s.thermal.band .critical < 1 ∧
      (t.balanceOf 1).balance = 0 ∧ (t.balanceOf 2).balance = -1 ∧ t.remaining 1 * 4 = s.remaining 1 ∧ t.leff = 1 ∧
      t.claimOf 2 = some .urgent ∧ t.alerts.causes = 0x08 ∧ (t.setBand .hot).refresh = t.refresh ∧
      ((s.setBand .cool).balanceOf 1).balance = 5 := by decide +kernel

/-- A SENSE in flight in a band, with `direct_next` clear. -/
def sensing (band : Band) : State :=
  (base.setChannel (some { granted .sense [] [] with bank := none, logicalRow := none })).setThermal
    { reading := 50, band, fault := false, directNext := false }

theorem test_tSenseExpiry_good :
    let f := fun band reading => (after (.tSenseExpiry reading true) (sensing band)).thermal.band
    (sensing .warm).channel.map Operation.work = some .sense ∧ f .normal 39 = .normal ∧ f .normal 38 = .cool ∧
      f .warm 84 = .warm ∧ f .warm 83 = .normal ∧ f .hot 93 = .warm ∧ f .critical 103 = .hot ∧
      f .critical (-40) = .cool ∧ f .cool 125 = .critical ∧
      (after (.tSenseExpiry 40 true) ((sensing .hot).setThermal State.reset.thermal)).thermal =
        { reading := 40, band := .cool, fault := false, directNext := false } := by decide +kernel

theorem test_tSenseExpiry_bad :
    let t := after (.tSenseExpiry 20 false) (sensing .normal)
    t.thermal = { reading := 50, band := .hot, fault := true, directNext := true } ∧ t.alerts.causes = 0x10 ∧
      t.channel = none ∧ t.clock.now = 1385 ∧
      (after (.tSenseExpiry 20 false) (sensing .critical)).thermal.band = .critical ∧
      after (.tSenseExpiry 20 false) base = base := by decide +kernel

theorem test_pollTimerExpiry :
    let s := base.setEngine { base.engine with thermalPollPending := false }
    (after .pollTimerExpiry s).engine.thermalPollPending = true ∧
      (after .pollTimerExpiry s).engine.pollDue = 64000000 := by decide +kernel

theorem test_deviceTimeTick_wraps :
    let s := base.setClock { base.clock with deviceTime := 0xFFFFFFFF }
    (after .deviceTimeTick s).clock = { now := 1000000, deviceTime := 0, nextMs := 2000000 } := by decide +kernel

theorem test_scrubStepTimerExpiry_with_work :
    let s := base.setEngine { base.engine with scrubPending := true, stack := [.scrub 0 0 0 0] }
    let full := s.setScrubber { s.scrubber with lag := 255 }
    s.scrubber.stepDue = some 500000 ∧ (after .scrubStepTimerExpiry s).scrubber.lag = 1 ∧
      (after .scrubStepTimerExpiry full).scrubber.lag = 255 ∧
      (after .scrubStepTimerExpiry s).scrubber.stepDue = some 1000000 := by decide +kernel

theorem test_scrubStepTimerExpiry_starts_a_job :
    let t := after .scrubStepTimerExpiry (filled base [33])
    let off := base.setScrubber { base.scrubber with step := 0, stepDue := none }
    t.engine.stack = [.scrub 1 2 0 0, .fill 0 0] ∧ t.scrubber.cursor = 33 ∧ t.engine.scrubPending = false ∧
      off.scrubber.stepDue = none ∧ after .scrubStepTimerExpiry off = off := by decide +kernel

theorem test_drainAgeReached :
    let e := entry 3 .filling 1
    let s := withEntries base [e]
    s.buffer.entries.find? (fun f => decide (f.state = .filling ∧ f.line = 3)) = some e ∧ e.ageDue = false ∧
      (after (.drainAgeReached 3) s).clock.now = 4000 ∧
      ((after (.drainAgeReached 3) s).buffer.draining).map BufferEntry.line = some 3 ∧
      (∀ f ∈ base.buffer.entries, f.state = .filling → f.line = 3 → f.ageDue = true) ∧
      after (.drainAgeReached 3) base = base := by decide +kernel

/-! ## Completions -/

theorem test_lineReadComplete :
    let words : List ReadWord := [{ word := 0, merged := true }]
    let s := (finishingOn (.lineRead someLine words true) [2] 2).writeWord 1 2 0 (.valid 0x8877665544332211)
    let head := withQueue (filled s [33]) [.read someAddress .one] (some (.reading 0x3 0x7788 words true))
    let hit := head.changeBits { bank := 1, row := 2, word := 0, changed := 1 }
    let lost := head.writeWord 1 2 0 (.poisoned 0x8877665544332211)
    (head.finishing (granted (.lineRead someLine words true) [2] [2]) 1 2 ∧
        (after .lineReadComplete head).port.stage =
          some (.responding { kind := .read, status := .ok, beats := [{ data := 0x44337788, err := false }] })) ∧
      (after .lineReadComplete hit).errors.records.map ErrorRecord.source = [.readMerge] ∧
      (after .lineReadComplete lost).port.stage =
        some (.responding { kind := .read, status := .dataError, beats := [{ data := 0x44337788, err := true }] }) := by
  unfold State.finishing
  decide +kernel

theorem test_lineReadComplete_after_a_port_reset :
    let s := finishingOn (.lineRead someLine [{ word := 3, merged := false }] false) [2] 2
    (after .lineReadComplete s).channel = none ∧ (after .lineReadComplete s).port = s.port ∧
      after .lineReadComplete base = base := by decide +kernel

theorem test_drainComplete_serves_a_waiting_write :
    let e := entry someLine .draining (BitVec.allOnes 32)
    let s := finishingOn (.lineWrite someLine) [2] 2
    let s := withQueue (withEntries (filled s [33]) (e :: lines 7)) [.write 0x800 .one [beat 15]] (some .waitingEntry)
    let t := after .drainComplete s
    s.port.stage = some .waitingEntry ∧ t.port.stage = some (.responding writeOk) ∧ t.buffer.entries.length = 8 ∧
      base.port.stage ≠ some .waitingEntry ∧ base.serveWaiting = base := by decide +kernel

theorem test_drainComplete :
    let e := { entry someLine .draining 0x1FF with flushMark := true }
    let s := withEntries (filled (finishingOn (.lineMerge someLine) [2, 8195] 8195) [33]) [e]
    let lost := withQueue (s.writeWord 1 2 1 (.poisoned 0x99)) [.flush] (some .flushing)
    let t := after .drainComplete s
    (s.memoryOk ∧ s.finishing (granted (.lineMerge someLine) [2, 8195] [8195]) (lineBank e.line) 8195 ∧
        s.buffer.entries.find? (fun f => f.state = .draining) = some e) ∧
      t.word 1 2 0 = .valid 0x1122334455667788 ∧ t.word 1 8195 0 = .valid 0x1122334455667788 ∧
      t.word 1 2 1 = .valid 0 ∧ t.buffer.entries = [] ∧ t.buffer.flushPoison = false ∧
      (after .drainComplete lost).word 1 8195 1 = .poisoned 0 ∧
      (after .drainComplete lost).port.stage =
        some (.responding { kind := .flush, status := .dataError, beats := [] }) := by
  unfold State.finishing State.memoryOk
  decide +kernel

theorem test_rowFillComplete :
    let s := (filled (finishingOn (.rowFill someLine) [2] 2) [0]).writeWord 1 2 127 (.valid 5)
    let t := after .rowFillComplete s
    (s.memoryOk ∧ s.finishing (granted (.rowFill someLine) [2] [2]) 1 2) ∧ t.word 1 2 127 = .valid 0 ∧
      t.fillMap.marked 1 2 = true ∧ t.fillMap.done = false ∧ t.channel = none ∧ t.engine.stack = [.fill 1 0] := by
  unfold State.finishing State.memoryOk
  decide +kernel

theorem test_last_mark_raises_fill_done :
    let marks := BitVec.allOnes 131072 ^^^ BitVec.twoPow 131072 33
    let s := (quiet.setChannel (some (granted (.rowFill someLine) [2] [2]))).setBank 1 (openOn 2)
    let s := s.setFillMap { marks, done := false }
    let t := after .rowFillComplete s
    s.fillMap.marks.getLsbD 33 = false ∧ t.fillMap = { marks := BitVec.allOnes 131072, done := true } ∧
      t.alerts.causes = 0x20 := by decide +kernel

/-- A step of a job in service that can complete, in row 2 of bank 1. -/
def stepOf (work : Work) (rows : List PhysicalRow) (last : PhysicalRow) (stack : List Job) : State :=
  (finishingOn work rows last).setEngine { base.engine with stack }

theorem test_fillStepComplete :
    let s := stepOf (.fillStep 6) [2] 2 [.fill 33 6]
    let last := stepOf (.fillStep 7) [2] 2 [.fill 33 7]
    let t := after .fillStepComplete last
    (s.memoryOk ∧ s.finishing (granted (.fillStep 6) [2] [2]) 1 2) ∧
      (after .fillStepComplete s).engine.stack = [.fill 33 7] ∧ t.engine.stack = [.fill 34 0] ∧
      t.fillMap.marked 1 2 = true := by
  unfold State.finishing State.memoryOk
  decide +kernel

theorem test_fillStepComplete_at_the_last_index :
    let last := stepOf (.fillStep 7) [2] 2 [.fill 131071 7]
    (∀ j : SweepIndex, 131071 < j → last.fillMap.marks.getLsbD j.val = true) ∧
      (after .fillStepComplete last).engine.stack = [] := by
  refine ⟨fun j h => absurd h ?_, by decide +kernel⟩
  have := j.isLt
  rw [Fin.lt_def]
  change ¬ 131071 < j.val
  omega

theorem test_scrubGroupStepComplete :
    let s := (stepOf (.scrubStep 7) [2] 2 [.scrub 1 2 7 4, .fill 0 0]).setScrubber
      { State.reset.scrubber with cursor := 131071, lag := 1 }
    let hit := s.changeBits { bank := 1, row := 2, word := 127, changed := 1 }
    let t := after .scrubGroupStepComplete hit
    (hit.memoryOk ∧ hit.finishing (granted (.scrubStep 7) [2] [2]) 1 2) ∧
      (hit.word 1 2 127).decode.outcome = .corrected ∧ t.word 1 2 127 = .valid 0 ∧
      t.scrubber =
        { cursor := 0, passCount := 1, lag := 0, lastCorrections := 5, step := 5, stepDue := some 500000 } ∧
      t.engine.stack = [.fill 0 0] ∧ t.remap.suspects.map SuspectEntry.tally = [1] ∧
      t.errors.records.map ErrorRecord.kind = [.ce] := by
  unfold State.finishing State.memoryOk
  decide +kernel

theorem test_scrubGroupStepComplete_before_the_eighth :
    let s := stepOf (.scrubStep 6) [2] 2 [.scrub 1 2 6 4, .fill 0 0]
    (after .scrubGroupStepComplete s).engine.stack = [.scrub 1 2 7 4, .fill 0 0] ∧
      (after .scrubGroupStepComplete s).scrubber = s.scrubber := by decide +kernel

/-- A migration step of group g from row 2 of bank 1 to its spare 3, with the row's suspect entry QUEUED. -/
def migrating (g : Nat) : State :=
  let s := stepOf (.migrateStep g) [2, 8195] 8195 [.migrate 1 2 0 g, .fill 0 0]
  let e : RemapEntry := { logicalRow := 2, target := 3, state := .migrating, source := some 2, cursor := g }
  let t := withSuspects s [suspect 1 3 .queued]
  t.setRemap ((t.remap.setSlot 1 0 (some e)).setSpare 1 3 .inUse)

theorem test_migrateStepComplete :
    let s := (migrating 6).writeWord 1 2 96 (.poisoned 0x55)
    let t := after .migrateStepComplete s
    (s.memoryOk ∧ s.finishing (granted (.migrateStep 6) [2, 8195] [8195]) 1 8195 ∧
        s.remap.tables[(1 : Bank)][(0 : Slot)] =
          some { logicalRow := 2, target := 3, state := .migrating, source := some 2, cursor := 6 }) ∧
      t.word 1 8195 96 = .poisoned 0x55 ∧ t.engine.stack = [.migrate 1 2 0 7, .fill 0 0] ∧
      t.remap.tables[(1 : Bank)][(0 : Slot)] =
        some { logicalRow := 2, target := 3, state := .migrating, source := some 2, cursor := 7 } := by
  unfold State.finishing State.memoryOk
  decide +kernel

theorem test_migrateStepComplete_at_the_eighth :
    let t := after .migrateStepComplete (migrating 7)
    t.remap.tables[(1 : Bank)][(0 : Slot)] =
        some { logicalRow := 2, target := 3, state := .live, source := none, cursor := 8 } ∧
      t.remap.suspects = [] ∧ t.remap.queuedOrder = [] ∧ t.engine.stack = [.fill 0 0] := by decide +kernel

/-! ## Decodes, reports, the engine -/

/-- A word with these bits changed since it was written. -/
def changedWord (poison : Bool) (changed : BitVec 72) : StoredWord := { data := 6, poison, changed }

theorem test_decodes :
    ((changedWord false 0).changedBits = 0 ∧ (changedWord false 0).decode = ⟨.clean, 6⟩) ∧
      ((changedWord false (1#72 <<< 71)).changedBits = 1 ∧
        (changedWord false (1#72 <<< 71)).decode = ⟨.corrected, 6⟩) ∧
      (changedWord false 3).changedBits = 2 ∧
      ((changedWord true 2).changedBits = 1 ∧ (changedWord true 2).decode = ⟨.poisoned, 4⟩) := by decide +kernel

/-- A report of a CORRECTED word 0 of a row of bank 0. -/
def ceReport (p : PhysicalRow) : ErrorReport := { kind := .ce, source := .scrub, bank := 0, physicalRow := p, word := some 0 }

theorem test_error_reports :
    (let s := base.setErrors { records := [{ errorRecord .ce 1 3 with count := 255 }], counter := 2, saturated := false }
     (∃ r ∈ s.errors.records, (ceReport 1).hasKeyOf r = true) ∧
       (s.report (ceReport 1)).errors.records = [{ errorRecord .ce 1 3 with count := 255, lastMs := 7 }]) ∧
      (let s := base.setErrors { records := [errorRecord .ce 1 3], counter := 1, saturated := false }
       (∀ r ∈ s.errors.records, (ceReport 2).hasKeyOf r = false) ∧
         (s.report (ceReport 2)).errors.records.map ErrorRecord.seq = [1, 2] ∧
         (s.report (ceReport 2)).errors.counter = 3) := by decide +kernel

theorem test_full_error_table :
    (let s := base.setErrors (fullErrors .ce)
     s.errors.records.length = 16 ∧
       (s.report (ceReport 99)).errors.records.map ErrorRecord.seq = (List.range 16).map fun i => BitVec.ofNat 16 (i + 1)) ∧
      (let s := base.setErrors (fullErrors .ue)
       (∀ r ∈ s.errors.records, r.kind ≠ .ce) ∧ s.report (ceReport 99) = s ∧
         (s.report { ceReport 99 with kind := .ue }).errors.saturated = true ∧
         (s.report { ceReport 99 with kind := .ue }).alerts.causes = 0x40) := by decide +kernel

theorem test_words_report_one_after_another :
    let hit : Decoded := ⟨.corrected, 0⟩
    let words : List (ReadWord × Decoded) :=
      [({ word := 0, merged := true }, hit), ({ word := 1, merged := false }, ⟨.uncorrectable, 0⟩)]
    let t := base.reportRead someLine 8195 words
    t.errors.records.map ErrorRecord.source = [.readMerge, .read] ∧
      t.errors.records.map ErrorRecord.physicalRow = [8195, 8195] ∧
      t.remap.suspects.map SuspectEntry.logicalRow = [2] ∧
      (base.reportAll .drain 1 2 8195 [(5, hit), (4, hit)]).errors.records.map ErrorRecord.word = [some 5, some 4] ∧
      (base.reportMigration 1 8195 [(5, hit), (4, hit)]).errors.records.map ErrorRecord.source = [.migrate, .migrate] ∧
      (base.reportMigration 1 8195 [(5, hit)]).remap = base.remap := by decide +kernel

theorem test_suspect_reports :
    (base.remap.isMigrating 1 2 = false ∧
        (base.reportSuspect 1 2 .corrected).remap.suspects = [suspect 1 1 .normal] ∧
        (base.reportSuspect 1 2 .uncorrectable).remap.queuedOrder = [(1, 2)]) ∧
      (let s := withSuspects base [suspect 1 2 .normal]
       s.suspectsOk ∧ (s.reportSuspect 1 2 .corrected).remap.suspects.map SuspectEntry.state = [.queued] ∧
         (s.reportSuspect 1 2 .poisoned) = s) ∧
      (let s := withSuspects base [suspect 1 15 .unrepairable]
       s.suspectsOk ∧ (s.reportSuspect 1 2 .uncorrectable).remap.suspects = [suspect 1 15 .unrepairable]) ∧
      (remapped .migrating (some 2) 0).remap.isMigrating 1 2 = true := by
  unfold State.suspectsOk
  decide +kernel

theorem test_full_suspect_list :
    let list := fun x => (List.range 8).map fun i => suspect (Fin.ofNat 16 i) (15 - i) x
    let s := withSuspects base (list .normal)
    let t := withSuspects base (list .queued)
    (s.suspectsOk ∧ s.remap.suspects.length = 8 ∧
        (s.reportSuspect 9 2 .corrected).remap.suspects.map SuspectEntry.bank = [0, 1, 2, 3, 4, 5, 6, 9]) ∧
      (t.suspectsOk ∧ (∀ e ∈ t.remap.suspects, e.state ≠ .normal) ∧ t.reportSuspect 9 2 .corrected = t) := by
  unfold State.suspectsOk
  decide +kernel

theorem test_engine_starts_a_migration :
    let s := withSuspects base [suspect 1 3 .queued]
    let t := s.engineRun
    s.live = true ∧ s.stepInFlight = false ∧ s.remap.queuedOrder = [] ++ (1, 2) :: [] ∧ s.remap.spare 1 0 = .free ∧
      s.remap.find 1 2 = none ∧ s.remap.tables[(1 : Bank)][(0 : Slot)] = none ∧
      t.engine.stack = [.migrate 1 2 0 0, .fill 0 0] ∧ t.remap.spare 1 0 = .inUse ∧
      (inHold s .hold).engineRun = inHold s .hold := by decide +kernel

theorem test_engine_without_a_free_spare :
    let s := withSuspects base [suspect 1 3 .queued]
    let s := s.setRemap { s.remap with spares := s.remap.spares.set 1 (Vector.replicate 16 .dead) }
    (∀ x, s.remap.spare 1 x ≠ .free) ∧ s.engineRun.remap.suspects = [suspect 1 3 .unrepairable] ∧
      s.engineRun.alerts.causes = 0x04 ∧ s.engineRun.errors.records.map ErrorRecord.kind = [.unrepairable] := by
  decide +kernel

/-- The part with two rows QUEUED in banks that have no FREE spare. -/
def exhausted : State :=
  let s := withSuspects base [suspect 1 3 .queued, suspect 4 3 .queued]
  s.setRemap { s.remap with spares := Vector.replicate 16 (Vector.replicate 16 .dead) }

theorem test_engine_goes_on_from_a_row_given_up :
    exhausted.sizesOk ∧ exhausted.settingsOk ∧ exhausted.stackOk ∧ exhausted.remap.queuedOrder = [] ++ (1, 2) :: [(4, 2)] ∧
      exhausted.engineRun.remap.suspects = [suspect 1 3 .unrepairable, suspect 4 3 .unrepairable] ∧
      exhausted.engineRun.remap.queuedOrder = [] := by
  unfold State.sizesOk State.settingsOk State.stackOk
  decide +kernel

theorem test_engine_lets_a_lower_class_wait :
    let s := withSuspects (base.setEngine { base.engine with scrubPending := true }) [suspect 4 3 .queued]
    let onMigrate := s.setStack [.migrate 1 2 0 0, .fill 0 0]
    let onScrub := (withSuspects s []).setStack [.scrub 0 0 0 0, .fill 0 0]
    onMigrate.remap.queuedOrder = [(4, 2)] ∧ onMigrate.engineRun = onMigrate ∧
      onScrub.remap.queuedOrder = [] ∧ onScrub.engine.scrubPending = true ∧ onScrub.engineRun = onScrub := by
  decide +kernel

theorem test_engine_starts_a_scrub_and_wraps :
    let s := filled (base.setEngine { base.engine with scrubPending := true }) [33]
    let s := s.setScrubber { s.scrubber with cursor := 131071 }
    s.engine.stack = .fill 0 0 :: [] ∧ s.fillMap.marks.getLsbD 33 = true ∧
      s.engineRun.engine.stack = [.scrub 1 2 0 0, .fill 0 0] ∧ s.engineRun.scrubber.passCount = 1 := by decide +kernel

/-- The part with SCRUB pending and `lag` 3, and no row filled. -/
def scrubDue : State :=
  (base.setEngine { base.engine with scrubPending := true }).setScrubber
    { base.scrubber with cursor := 9, lag := 3, lastCorrections := 2 }

theorem test_engine_completes_scrubs_without_a_filled_row :
    (scrubDue.live = true ∧ scrubDue.stepInFlight = false ∧ scrubDue.remap.queuedOrder = [] ∧
        scrubDue.engine.stack = .fill 0 0 :: [] ∧ scrubDue.engine.fillPending = false ∧ scrubDue.fillMap.marks = 0) ∧
      scrubDue.engineRun.engine = base.engine ∧
      scrubDue.engineRun.scrubber = { scrubDue.scrubber with lag := 0 } := by decide +kernel

theorem test_engine_moves_a_fill_job_off_a_marked_row :
    let s := filled base [0, 1, 2]
    let last := base.setFillMap { marks := BitVec.allOnes 131072, done := true }
    s.engine.stack = .fill 0 0 :: [] ∧ s.fillMap.marks.getLsbD 0 = true ∧ s.engineRun.engine.stack = [.fill 3 0] ∧
      (last.setStack [.fill 131071 0]).engineRun.engine.stack = [] := by decide +kernel

theorem test_engine_at_rest :
    base.engine.scrubPending = false ∧ base.engine.fillPending = false ∧ base.remap.queuedOrder = [] ∧
      base.fillMap.marks.getLsbD 0 = false ∧ base.engineRun = base ∧ base.live = true := by decide +kernel

/-! ## Hold state and link -/

theorem test_holdEnter :
    let s := inHold base .entering
    (s.hold.state = .entering ∧ s.port.queue = [] ∧ s.buffer.entries = [] ∧ s.stepInFlight = false ∧
        (∀ b, 0 ≤ (s.balanceOf b).balance) ∧
        ∀ b, (s.bank b).state = .closed ∨ (s.bank b).state = .refreshing) ∧
      (after .holdEnter s).hold.state = .hold ∧ (after .holdEnter s).alerts.causes = 0x80 ∧
      after .holdEnter (s.setBank 0 (inWindow .closing)) = s.setBank 0 (inWindow .closing) := by decide +kernel

theorem test_tWakeExpiry :
    let s := base.setHold { state := .waking, wakeEnd := some 2500 }
    (after .tWakeExpiry s).hold = { state := .active, wakeEnd := none } ∧ (after .tWakeExpiry s).clock.now = 2500 ∧
      after .tWakeExpiry base = base := by decide +kernel

theorem test_hold_by_hold_state :
    let s := base.setBank 1 (openOn 7)
    (after .hold s).hold.state = .entering ∧ ((after .hold s).bank 1).state = .closing ∧
      (after .hold s).link.result = .done ∧ (after .hold s).link.command = 1 ∧
      (after .hold (inHold base .waking)).link.result = .busy ∧
      (after .hold (inHold base .waking)).hold.state = .waking := by decide +kernel

theorem test_wake_by_hold_state :
    (after .wake (inHold base .entering)).hold.state = .active ∧
      (after .wake (inHold base .hold)).hold = { state := .waking, wakeEnd := some 3000 } ∧
      (after .wake base).link.result = .busy ∧ (after .wake (inHold base .waking)).link.result = .busy := by
  decide +kernel

/-- The part with a byte in COMMAND_ARG. -/
def withArg (v : Byte) : State := base.setLink { base.link with commandArg := v }

theorem test_ack :
    let s := ((withArg 0x05).raise .ue).raise .thermalFault
    (withArg 0x05).link.commandArg &&& Cause.ue.bit ≠ 0 ∧ (after .ack s).alerts.causes = 0x10 ∧
      ((after .ack s).raise .ue).alerts.causes = 0x11 ∧ (after .ack s).link.result = .done := by decide +kernel

theorem test_clearErrors :
    let s := base.setErrors { fullErrors .ue with saturated := true }
    (after .clearErrors s).errors = { records := [], counter := 16, saturated := false } := by decide +kernel

theorem test_clearSuspects :
    let s := withSuspects base [suspect 0 1 .normal, suspect 1 3 .queued, suspect 2 9 .unrepairable]
    (after .clearSuspects s).remap.suspects = [suspect 1 3 .queued] ∧
      (after .clearSuspects s).link.result = .done := by decide +kernel

/-- The part with row 2 of bank 1 named for RETIRE, and filled. -/
def retiring (l : List SuspectEntry) : State :=
  let s := withSuspects (filled quiet [33]) l
  s.setLink { s.link with retireBank := 1, retireRow := 2 }

theorem test_retire_of_a_listed_row :
    let s := retiring [suspect 1 4 .unrepairable]
    (s.suspectsOk ∧ s.fillMap.marks.getLsbD ((2 : LogicalRow).val * 16 + (1 : Bank).val) = true ∧
        (after .retire s).remap.suspects = [{ suspect 1 4 .queued with queuedAt := some 7 }] ∧
        (after .retire s).engine.stack = [.migrate 1 2 0 0]) ∧
      (after .retire (retiring [suspect 1 4 .queued])).link.result = .already ∧
      (after .retire ((retiring []).setFillMap base.fillMap)).link.result = .notFilled := by
  unfold State.suspectsOk
  decide +kernel

theorem test_retire_of_a_row_not_listed :
    let list := fun x => (List.range 8).map fun i => suspect (Fin.ofNat 16 (i + 2)) (15 - i) x
    (retiring (list .normal)).suspectsOk ∧ (retiring ((list .normal).take 7)).remap.suspects.length = 7 ∧
      (after .retire (retiring ((list .normal).take 7))).remap.suspects.length = 8 ∧
      (after .retire (retiring (list .normal))).remap.suspects.map SuspectEntry.bank = [2, 3, 4, 5, 6, 7, 8, 1] ∧
      (after .retire (retiring (list .queued))).link.result = .full := by
  unfold State.suspectsOk
  decide +kernel

theorem test_portRestart :
    let s := withQueue (withEntries base [entry 1 .filling 1]) [.flush] (some .flushing)
    let low := s.setPort { s.port with resetN := false }
    (after .portRestart s).port.queue = [] ∧ (after .portRestart s).buffer.entries = [] ∧
      (after .portRestart s).link.result = .done ∧ (after .portRestart low).port.queue = [.flush] ∧
      (after .portRestart (inHold low .hold)).hold.state = .waking := by decide +kernel

theorem test_limit_within_range :
    let s := withBalance (withBalance base 1 6) 2 (-3)
    (1 ≤ (4 : Byte).toNat ∧ (4 : Byte).toNat ≤ 12 ∧ ∀ b, -(4 : Int) < (s.balanceOf b).balance) ∧
      (after (.limit 4) s).refresh.limit = 4 ∧ ((after (.limit 4) s).balanceOf 1).balance = 4 ∧
      ((after (.limit 4) s).balanceOf 2).balance = -3 ∧ (after (.limit 4) s).link.result = .done ∧
      (after (.limit 12) s).refresh.limit = 12 := by decide +kernel

theorem test_limit_refused :
    let s := withBalance base 2 (-3)
    (after (.limit 0) base).link.result = .range ∧ (after (.limit 13) base).link.result = .range ∧
      (after (.limit 3) s).refresh = s.refresh ∧ (after (.limit 3) s).link.result = .range := by decide +kernel

theorem test_limit_of_the_value_held :
    let s := withBalance base 2 (-6)
    (6 : Byte).toNat = s.refresh.limit ∧ ¬ (∀ b, -(6 : Int) < (s.balanceOf b).balance) ∧
      (after (.limit 6) s).link.result = .done ∧ (after (.limit 6) s).refresh = s.refresh ∧
      (after (.limit 5) s).link.result = .range ∧ (after (.limit 7) s).refresh.limit = 7 := by decide +kernel

theorem test_idleClose :
    let s := base.setBank 1 (openOn 7)
    (after (.idleClose 40) s).bank 1 = openOn 7 ∧ (after (.idleClose 40) s).bankEngine.idleClose = 40 ∧
      ((after (.idleClose 1) s).bank 1).state = .closing ∧ (after (.idleClose 41) s).link.result = .range ∧
      (after (.idleClose 41) s).bankEngine = s.bankEngine := by decide +kernel

theorem test_drainAge :
    let s := withEntries base [entry 3 .filling 1, entry 4 .filling 1]
    ((after (.drainAge 2) s).buffer.draining).map BufferEntry.line = some 3 ∧
      (after (.drainAge 3) s).buffer.draining = none ∧ (after (.drainAge 127) s).buffer.drainAge = 127 ∧
      (after (.drainAge 0) s).link.result = .range ∧ (after (.drainAge 128) s).link.result = .range := by
  decide +kernel

theorem test_scrubStep :
    let s := (base.setScrubber { base.scrubber with lag := 9 }).setEngine
      { base.engine with scrubPending := true, stack := [.scrub 0 0 0 0] }
    (after (.scrubStep 0) s).scrubber = { s.scrubber with step := 0, stepDue := none, lag := 0 } ∧
      (after (.scrubStep 0) s).engine.scrubPending = false ∧
      (after (.scrubStep 255) s).scrubber = { s.scrubber with step := 255, stepDue := some 25501000 } ∧
      (after (.scrubStep 255) s).engine = s.engine := by decide +kernel

theorem test_ceThreshold :
    (after (.ceThreshold 1) base).remap.threshold = 1 ∧ (after (.ceThreshold 15) base).remap.threshold = 15 ∧
      (after (.ceThreshold 0) base).link.result = .range ∧ (after (.ceThreshold 16) base).remap = base.remap := by
  decide +kernel

theorem test_alertMask :
    let s := base.raise .ue
    s.alertLow = true ∧ (after (.alertMask 0x01) s).alertLow = false ∧ (after (.alertMask 0xFE) s).alertLow = true ∧
      (after (.alertMask 0x01) s).alerts.causes = 0x01 := by decide +kernel

theorem test_recordSelect :
    let f := fun t i => (after (.recordSelect t i) base).link
    (f 0 15).result = .done ∧ (f 0 16).result = .range ∧ (f 1 7).selectIndex = 7 ∧ (f 1 8).result = .range ∧
      (f 2 255).selectTable = 2 ∧ (f 3 15).selectTable = 3 ∧ (f 3 16).selectTable = 0 ∧ (f 4 0).result = .range := by
  decide +kernel

theorem test_record_window :
    let s := remapped .migrating (some 2) 1
    let at' := fun i => s.setLink { s.link with selectTable := 2, selectIndex := i }
    (at' 16).recordWindow = [5, 3, 2, 0, 2, 0, 1, 0, 0, 0, 0, 0, 0, 0, 0, 0] ∧
      s.remap.tables[(1 : Bank)][(1 : Slot)] = none ∧ (at' 17).recordWindow = List.replicate 16 0 := by decide +kernel

/-- A transaction of one write to the part. -/
def writeBytes (l : List Byte) : Instr := .registerWrite [{ address := 0x58, body := .write l }]

theorem test_registerWrite :
    let l := fun x => (after (writeBytes x) base).link
    (l [3, 0xFF]).commandArg = 0xFF ∧ (l [3, 0xFF]).index = 4 ∧ (l [0x10, 15, 0xFF, 0x1F]).retireRow = 8191 ∧
      (l [0x10, 16, 0, 0x20]).result = .range ∧ (l [0x10, 16, 1, 0]).retireRow = 1 ∧
      (l [2, 3, 9, 0, 5, 13]).command = 3 ∧ (l [2, 3, 9, 0, 5, 13]).result = .range ∧
      (after (writeBytes [2, 3, 9, 0, 5, 0]) (base.raise .ue)).alerts = { causes := 0x01, mask := 5 } ∧
      (after (.registerWrite [{ address := 0x59, body := .write [3, 1] }]) base) = base := by decide +kernel

theorem test_registerWrite_of_one_byte_of_a_pair :
    let s := base.setLink { base.link with retireRow := 0x1234, selectTable := 1, selectIndex := 7 }
    let l := fun x => (after (writeBytes x) s).link
    (l [0x11, 0xFF]).retireRow = 0x12FF ∧ (l [0x12, 31]).retireRow = 0x1F34 ∧ (l [0x12, 32]).retireRow = 0x1234 ∧
      (l [0x12, 32]).result = .range ∧ (l [0x17, 0]).selectTable = 0 ∧ (l [0x17, 4]).result = .range ∧
      (l [0x18, 8]).result = .range ∧ (l [0x18, 0]).selectIndex = 0 := by decide +kernel

theorem test_registerWrite_of_a_byte_staged_twice :
    let between := List.replicate 62 0x00 ++ [0x00]
    between.length = 63 ∧ (after (writeBytes (0x03 :: 0x11 :: between ++ [0x22])) base).link.commandArg = 0x22 := by
  decide +kernel

theorem test_registerWrite_carries_a_command_out_with_its_settings :
    let s := (base.raise .ue).raise .thermalFault
    (after (writeBytes [2, 3, 0x10]) s).alerts.causes = 0x01 ∧
      (after (writeBytes [2, 0]) s).link.result = .range ∧ (after (writeBytes [2, 8]) s).link.command = 8 ∧
      (after (writeBytes [2, 8]) s).link.result = .range ∧ (after (writeBytes [2, 8]) s).alerts = s.alerts := by
  decide +kernel

theorem test_windows_of_records_and_banks :
    let at' := fun (s : State) (x : Fin 4) i => (s.setLink { s.link with selectTable := x, selectIndex := i }).recordWindow
    let e := { errorRecord .ue 0x1234 0x01020304 with seq := 0x0605, bank := 9, word := some 127, count := 255 }
    let errors := base.setErrors { records := [e], counter := 0, saturated := false }
    let listed := (withSuspects base [suspect 1 4 .queued]).setStack [.migrate 1 2 0 0]
    at' errors 0 0 = [0x5B, 5, 6, 9, 0x34, 0x12, 127, 255, 4, 3, 2, 1, 4, 3, 2, 1] ∧
      at' listed 1 0 = [0x1B, 1, 2, 0, 4, 1, 0, 0, 0, 0, 0, 0, 0, 0, 0, 0] ∧
      at' (withBalance base 15 (-1)) 3 15 = [0xFF, 0, 0, 16, 0, 0, 0, 0, 0, 0, 0, 0, 0, 0, 0, 0] := by decide +kernel

theorem test_state_register :
    let s := (inHold base .waking).setThermal { reading := -40, band := .critical, fault := true, directNext := true }
    s.readRegister 0 = 0x63 ∧ s.readRegister 0x0B = 0xD8 ∧ s.readRegister 6 = 6 ∧ s.readRegister 0x13 = 7 ∧
      s.readRegister 0x1F = 0 := by decide +kernel

theorem test_registers_read :
    let t := after (.registerWrite [{ address := 0x58, body := .write [0x3F] }, { address := 0x58, body := .read 3 }])
      (inHold base .waking)
    t.link.out = [0, 0x0B, 0] ∧ t.link.index = 2 ∧ (0x3F : Byte).toNat < 64 := by decide +kernel

/-! ## Invariants -/

/-- The part at work: entries, suspects, an error record, a word in the array and a bank OPEN. -/
def busy : State :=
  let s := (withEntries base [entry 1 .draining 1, entry 1 .filling 1]).setBank 1 (openOn 2)
  let s := (withSuspects s [suspect 1 3 .queued, suspect 2 15 .normal]).setErrors
    { records := [errorRecord .ce 1 3, errorRecord .ue 1 3], counter := 2, saturated := false }
  (s.setStack [.migrate 1 2 0 0, .scrub 0 0 0 0, .fill 0 0]).writeWord 1 2 0 (.valid 7)

theorem test_invariants_of_a_busy_part :
    busy.memoryOk ∧ busy.sizesOk ∧ busy.stackOk ∧ busy.balancesOk ∧ busy.settingsOk ∧ busy.suspectsOk ∧ busy.holdOk ∧
      busy.bufferOk ∧ busy.errorsOk := by
  unfold State.memoryOk State.sizesOk State.stackOk State.balancesOk State.settingsOk State.suspectsOk State.holdOk
    State.bufferOk State.errorsOk
  decide +kernel

theorem test_bank_records_and_fill_map_of_a_busy_part :
    busy.banksOk ∧ busy.fillOk := by
  refine ⟨?_, ⟨fun h => absurd h (by decide), fun h => absurd (h 0) (by decide +kernel)⟩⟩
  unfold State.banksOk BankRecord.ok
  decide +kernel

/-- The part whose engine has just opened the migration of a QUEUED row. -/
def remapping : State := (withSuspects base [suspect 1 3 .queued]).engineRun

theorem test_remap_tables_of_a_part_at_work :
    remapping.stackOk ∧ remapping.remapOk ∧ remapping.engine.stack = [.migrate 1 2 0 0, .fill 0 0] ∧
      remapping.remap.tables[(1 : Bank)][(0 : Slot)] =
        some { logicalRow := 2, target := 0, state := .migrating, source := some 2, cursor := 0 } := by
  have empty : ∀ (b : Bank) (i : Slot), base.remap.tables[b][i] = none := by decide +kernel
  have free : ∀ (b : Bank) (t : SpareIndex), base.remap.spare b t ≠ .inUse := by decide +kernel
  have none_served : ∀ b r i c, Job.migrate b r i c ∉ base.engine.stack := by
    intro b r i c h
    cases List.mem_singleton.1 h
  have entries : base.remap.ok :=
    ⟨fun b i e h => absurd ((empty b i).symm.trans h) nofun, fun b i _ e _ h => absurd ((empty b i).symm.trans h) nofun,
      fun b t => ⟨fun h => absurd h (free b t), fun ⟨i, e, h, _⟩ => absurd ((empty b i).symm.trans h) nofun⟩⟩
  have jobs : base.migrationsOk :=
    ⟨fun b i e h => absurd ((empty b i).symm.trans h) nofun, fun b r i c h => absurd h (none_served b r i c)⟩
  have order : (withSuspects base [suspect 1 3 .queued]).stackOk := by
    unfold State.stackOk
    decide +kernel
  obtain ⟨h, g⟩ := State.engineRun_ok (s := withSuspects base [suspect 1 3 .queued]) order ⟨entries, jobs⟩
  exact ⟨h, g, by decide +kernel, by decide +kernel⟩

theorem test_queued_order_of_parts_at_work :
    busy.suspectsOk ∧ busy.remap.queuedOk ∧ exhausted.remap.queuedOk ∧ base.remap.queuedOk := by
  have one : ∀ e ∈ busy.remap.suspects, e.state = .queued ↔ (e.bank, e.logicalRow) = ((1 : Bank), (2 : LogicalRow)) := by
    decide +kernel
  have two : ∀ e ∈ exhausted.remap.suspects, e.state = .queued := by decide +kernel
  refine ⟨by unfold State.suspectsOk; decide +kernel, ⟨by decide +kernel, fun b r => ?_⟩,
    ⟨by decide +kernel, fun b r => ?_⟩, by decide +kernel, fun b r => ⟨nofun, nofun⟩⟩
  · rw [show busy.remap.queuedOrder = [(1, 2)] by decide +kernel, List.mem_singleton]
    refine ⟨fun h => ⟨suspect 1 3 .queued, by decide +kernel, ?_⟩, fun ⟨e, he, hb, hr, hq⟩ => ?_⟩
    · cases h
      exact ⟨rfl, rfl, rfl⟩
    · rw [← hb, ← hr]
      exact (one e he).1 hq
  · rw [show exhausted.remap.queuedOrder = exhausted.remap.suspects.map fun e => (e.bank, e.logicalRow) by decide +kernel,
      List.mem_map]
    exact ⟨fun ⟨e, he, h⟩ => ⟨e, he, congrArg Prod.fst h, congrArg Prod.snd h, two e he⟩,
      fun ⟨e, he, hb, hr, _⟩ => ⟨e, he, Prod.ext hb hr⟩⟩

theorem test_lookup_of_a_part_at_work :
    remapping.remapOk ∧ (remapping.remap.find 1 2).map Prod.fst = some 0 ∧ remapping.remap.find 1 3 = none ∧
      remapping.remap.readRow 1 2 = 2 := ⟨test_remap_tables_of_a_part_at_work.2.1, by decide +kernel⟩

theorem test_a_step_to_which_the_invariants_speak :
    let s := (withEntries base [entry 1 .filling 1, entry 1 .draining 1]).setPending [.deviceTimeTick]
    s.bufferOk ∧ s.banksOk ∧ stepped s = after .deviceTimeTick (s.setPending []) := by
  unfold State.bufferOk State.banksOk BankRecord.ok
  decide +kernel

end Sys2Proof.Tests
end

/-! # What a step and a command can do -/

namespace Sys2Proof.Machine

/-- One step: time alone has moved, or the command at the front of the queue was executed with the queue's rest. -/
theorem step_cases {s t : State} (h : step s = .next t) :
    SameBut [.clock] s t ∨ ∃ c rest, s.pending = c :: rest ∧ exec c (s.setPending rest) = .next t := by
  unfold step at h
  split at h
  · injection h with h
    subst h
    split
    · exact .inl s.idle_same
    · exact .inl (.refl _ s)
  · rename_i c rest hc
    exact .inr ⟨c, rest, hc, h⟩

/-- A command has its effect, or it finds the part without power and at most the level of RESET_N changes (R182). -/
theorem exec_cases {c : Instr} {s t : State} (h : exec c s = .next t) : t = effect c s ∨ SameBut [.port] s t := by
  cases hp : s.powered with
  | true =>
    rw [exec_on hp] at h
    injection h with h
    exact .inl h.symm
  | false =>
    have off (h1 : ∀ laddr, c ≠ .powerOnReset laddr) (h2 : c ≠ .powerLoss) (h3 : c ≠ .resetNFall)
        (h4 : c ≠ .resetNRise) : SameBut [.port] s t := by
      rw [exec_off hp h1 h2 h3 h4] at h
      injection h with h
      exact h ▸ .refl _ s
    cases c with
    | powerOnReset laddr => injection h with h; exact .inl h.symm
    | powerLoss => injection h with h; exact .inl h.symm
    | resetNRise => injection h with h; exact .inl h.symm
    | resetNFall =>
      simp only [exec, execResetNFall, hp] at h
      split at h <;> injection h with h <;> subst h
      · exact .inr (s.setPort_same _)
      · exact .inr (.refl _ s)
    | _ => exact .inr (off (by simp) (by simp) (by simp) (by simp))

/-- A property of the state that time, the queue and RESET_N do not touch holds after every step, where every command's
effect keeps it. -/
theorem step_keeps {P : State → Prop} (hframe : ∀ {s t : State}, SameBut [.clock, .port] s t → P s → P t)
    (hqueue : ∀ (s : State) (rest : List Instr), P s → P (s.setPending rest))
    (heffect : ∀ {c : Instr} {s : State}, exec c s = .next (effect c s) → P s → P (effect c s)) {s t : State}
    (h : step s = .next t) (hs : P s) : P t := by
  obtain hclock | ⟨c, rest, -, hexec⟩ := step_cases h
  · exact hframe (hclock.mono (by decide)) hs
  · obtain rfl | hport := exec_cases hexec
    · exact heffect hexec (hqueue s rest hs)
    · exact hframe (hport.mono (by decide)) (hqueue s rest hs)

/-! ## Completions: nothing happens, or an operation whose completion can come completes -/

theorem State.lineReadEnds_cases (s : State) :
    s.lineReadEnds = s ∨ ∃ op b p line words wanted, s.ready = some (op, b) ∧
      s.lineReadEnds = s.completeRead b p line words wanted := by
  unfold State.lineReadEnds
  split
  · rename_i hready
    split
    · exact .inr ⟨_, _, _, _, _, _, hready, rfl⟩
    · exact .inl rfl
  · exact .inl rfl

theorem State.drainEnds_cases (s : State) :
    s.drainEnds = s ∨ ∃ op b p rows e, s.ready = some (op, b) ∧ s.drainEnds = s.completeDrain b p rows e := by
  unfold State.drainEnds
  split
  · rename_i hready
    split
    · split
      · exact .inr ⟨_, _, _, _, _, hready, rfl⟩
      · exact .inl rfl
    · exact .inl rfl
  · exact .inl rfl

theorem State.rowFillEnds_cases (s : State) :
    s.rowFillEnds = s ∨ ∃ op b p line, s.ready = some (op, b) ∧ s.rowFillEnds = s.completeRowFill b p line := by
  unfold State.rowFillEnds
  split
  · rename_i hready
    split
    · exact .inr ⟨_, _, _, _, hready, rfl⟩
    · exact .inl rfl
  · exact .inl rfl

theorem State.fillStepEnds_cases (s : State) :
    s.fillStepEnds = s ∨ ∃ op b p g, s.ready = some (op, b) ∧ s.fillStepEnds = s.completeFillStep b p g := by
  unfold State.fillStepEnds
  split
  · rename_i hready
    split
    · exact .inr ⟨_, _, _, _, hready, rfl⟩
    · exact .inl rfl
  · exact .inl rfl

theorem State.scrubGroupEnds_cases (s : State) :
    s.scrubGroupEnds = s ∨ ∃ op b r p rows g, s.ready = some (op, b) ∧
      s.scrubGroupEnds = s.completeScrubStep b r p rows g := by
  unfold State.scrubGroupEnds
  split
  · rename_i hready
    split
    · exact .inr ⟨_, _, _, _, _, _, hready, rfl⟩
    · exact .inl rfl
  · exact .inl rfl

theorem State.migrateStepEnds_cases (s : State) :
    s.migrateStepEnds = s ∨ ∃ op b p q g, s.ready = some (op, b) ∧
      s.migrateStepEnds = s.completeMigrateStep b p q g := by
  unfold State.migrateStepEnds
  split
  · rename_i hready
    split
    · exact .inr ⟨_, _, _, _, _, hready, rfl⟩
    · exact .inl rfl
  · exact .inl rfl

/-! ## The array's memory -/

/-- A frame without the array keeps the canonical form. The block's absence is an explicit argument here and below, not a
default one: Lean evaluates a default argument of this text only when the kernel has checked what stands
before it, and many proofs that wait so at once exceed the check's limit on threads. -/
theorem SameBut.memoryOk {l : List Block} {s t : State} (h : SameBut l s t) (hl : Block.array ∉ l)
    (hs : s.memoryOk) : t.memoryOk := by
  unfold State.memoryOk
  rw [h.array hl]
  exact hs

theorem State.release_memoryOk {s : State} (hs : s.memoryOk) (b : Bank) : (s.release b).memoryOk :=
  (s.release_same b).memoryOk (by decide) hs

theorem State.grantNext_memoryOk {s : State} (hs : s.memoryOk) (cs : List BitChange) : (s.grantNext cs).memoryOk := by
  unfold State.grantNext
  split
  · exact (State.grant_same _ _).memoryOk (by decide) (s.changeAll_wf cs hs)
  · exact hs

theorem State.completeDrain_memoryOk {s : State} (hs : s.memoryOk) (b : Bank) (p : PhysicalRow)
    (rows : List PhysicalRow) (e : BufferEntry) : (s.completeDrain b p rows e).memoryOk := by
  have hw := (s.release b).writeRows_wf b rows (s.drainWrites e p) (State.release_memoryOk hs b)
  exact (((((((State.reportAll_same _ _ _ _ _ _).trans (State.setBuffer_same _ _)).trans
    (State.serveWaiting_same _)).trans (State.chooseEntry_same _)).trans (State.finishFlush_same _)).trans
    (State.engineRun_same _)).trans (State.furtherCloseAll_same _)).memoryOk (by decide) hw

theorem State.completeRowFill_memoryOk {s : State} (hs : s.memoryOk) (b : Bank) (p : PhysicalRow) (line : Line) :
    (s.completeRowFill b p line).memoryOk := by
  have hw := (s.release b).writeWords_wf b p (zeroWords rowWords) (State.release_memoryOk hs b)
  exact ((State.markRow_same _ _).trans (State.engineRun_same _)).memoryOk (by decide) hw

theorem State.completeFillStep_memoryOk {s : State} (hs : s.memoryOk) (b : Bank) (p : PhysicalRow) (g : Nat) :
    (s.completeFillStep b p g).memoryOk := by
  have hw := (s.release b).writeWords_wf b p (zeroWords (groupWords g)) (State.release_memoryOk hs b)
  exact (((State.advanceFill_same _).trans (State.engineRun_same _)).trans (State.furtherCloseAll_same _)).memoryOk
    (by decide) hw

theorem State.completeScrubStep_memoryOk {s : State} (hs : s.memoryOk) (b : Bank) (r : LogicalRow) (p : PhysicalRow)
    (rows : List PhysicalRow) (g : Nat) : (s.completeScrubStep b r p rows g).memoryOk := by
  have hw := (s.release b).writeRows_wf b rows (scrubWrites (s.groupDecodes b p g)) (State.release_memoryOk hs b)
  exact ((((State.reportAll_same _ _ _ _ _ _).trans (State.advanceScrub_same _ _)).trans (State.engineRun_same _)).trans
    (State.furtherCloseAll_same _)).memoryOk (by decide) hw

theorem State.completeMigrateStep_memoryOk {s : State} (hs : s.memoryOk) (b : Bank) (p q : PhysicalRow) (g : Nat) :
    (s.completeMigrateStep b p q g).memoryOk := by
  have hw := (s.release b).writeWords_wf b q (migrateWrites (s.groupDecodes b p g)) (State.release_memoryOk hs b)
  exact ((((State.reportMigration_same _ _ _ _).trans (State.advanceMigrate_same _)).trans
    (State.engineRun_same _)).trans (State.furtherCloseAll_same _)).memoryOk (by decide) hw

theorem State.drainEnds_memoryOk {s : State} (hs : s.memoryOk) : s.drainEnds.memoryOk := by
  obtain h | ⟨op, b, p, rows, e, -, h⟩ := s.drainEnds_cases
  · rwa [h]
  · rw [h]
    exact State.completeDrain_memoryOk hs b p rows e

theorem State.rowFillEnds_memoryOk {s : State} (hs : s.memoryOk) : s.rowFillEnds.memoryOk := by
  obtain h | ⟨op, b, p, line, -, h⟩ := s.rowFillEnds_cases
  · rwa [h]
  · rw [h]
    exact State.completeRowFill_memoryOk hs b p line

theorem State.fillStepEnds_memoryOk {s : State} (hs : s.memoryOk) : s.fillStepEnds.memoryOk := by
  obtain h | ⟨op, b, p, g, -, h⟩ := s.fillStepEnds_cases
  · rwa [h]
  · rw [h]
    exact State.completeFillStep_memoryOk hs b p g

theorem State.scrubGroupEnds_memoryOk {s : State} (hs : s.memoryOk) : s.scrubGroupEnds.memoryOk := by
  obtain h | ⟨op, b, r, p, rows, g, -, h⟩ := s.scrubGroupEnds_cases
  · rwa [h]
  · rw [h]
    exact State.completeScrubStep_memoryOk hs b r p rows g

theorem State.migrateStepEnds_memoryOk {s : State} (hs : s.memoryOk) : s.migrateStepEnds.memoryOk := by
  obtain h | ⟨op, b, p, q, g, -, h⟩ := s.migrateStepEnds_cases
  · rwa [h]
  · rw [h]
    exact State.completeMigrateStep_memoryOk hs b p q g

theorem State.memoryOk_of_empty {s : State} (h : s.array = []) : s.memoryOk := by
  unfold State.memoryOk
  rw [h]
  rfl

/-- Every command writes the array through `Memory.write` alone, or empties it. -/
theorem effect_memoryOk {c : Instr} {s : State} (h : exec c s = .next (effect c s)) (hs : s.memoryOk) :
    (effect c s).memoryOk := by
  by_cases hc : Block.array ∈ touched c
  · cases c with
    | powerOnReset _ => exact State.memoryOk_of_empty rfl
    | powerLoss => exact State.memoryOk_of_empty rfl
    | channelGrant cs => exact State.grantNext_memoryOk hs cs
    | drainComplete => exact State.drainEnds_memoryOk hs
    | rowFillComplete => exact State.rowFillEnds_memoryOk hs
    | fillStepComplete => exact State.fillStepEnds_memoryOk hs
    | scrubGroupStepComplete => exact State.scrubGroupEnds_memoryOk hs
    | migrateStepComplete => exact State.migrateStepEnds_memoryOk hs
    | _ => exact absurd hc (by simp [touched])
  · exact (exec_same h).memoryOk hc hs

/-- Settles O54: time, the queue and the port hold no word, and every command keeps the canonical form. -/
theorem memoryStaysCanonical : Obligations.MemoryStaysCanonical := fun _ _ h hs =>
  step_keeps (fun hf => hf.memoryOk (by decide)) (fun _ _ hs => hs) effect_memoryOk h hs

end Sys2Proof.Machine

/-! # Every bank record holds the fields of its state (R5) -/

namespace Sys2Proof.Machine

/-! ## One record -/

theorem BankRecord.initial_ok : BankRecord.initial.ok := by simp [BankRecord.ok, BankRecord.initial]

theorem BankRecord.closingFrom_ok (now : Time) : (BankRecord.closingFrom now).ok := by
  simp [BankRecord.ok, BankRecord.closingFrom, BankRecord.initial]

theorem BankRecord.refreshingFrom_ok (now : Time) : (BankRecord.refreshingFrom now).ok := by
  simp [BankRecord.ok, BankRecord.refreshingFrom, BankRecord.initial]

/-- A row is opened with or without a close held for the operation's completion. -/
theorem BankRecord.openingRow_ok (p : PhysicalRow) (now : Time) (held : Option CloseCause) :
    ({ BankRecord.openingRow p now with closeWanted := held } : BankRecord).ok := by
  simp [BankRecord.ok, BankRecord.openingRow, BankRecord.initial]

/-- A close can be held on a record that holds a row, and dropped from any. -/
theorem BankRecord.ok_closeWanted {r : BankRecord} (h : r.ok) {c : Option CloseCause}
    (hc : c.isSome = true → r.state = .opening ∨ r.state = .opened) :
    ({ r with closeWanted := c } : BankRecord).ok := by
  obtain ⟨hrow, hopened, haccess, -, hwindow⟩ := h
  exact ⟨hrow, hopened, haccess, hc, hwindow⟩

theorem BankRecord.ask_ok {r : BankRecord} (h : r.ok) (cause : CloseCause) (inUse : Bool) (now : Time) :
    (r.ask cause inUse now).ok := by
  unfold BankRecord.ask
  split
  · rename_i hrow
    have held : ({ r with closeWanted := some cause } : BankRecord).ok :=
      BankRecord.ok_closeWanted h fun _ => of_decide_eq_true hrow
    split
    · exact held
    · exact h
    · exact h
    · split
      · exact BankRecord.closingFrom_ok now
      · exact held
  · exact h

theorem BankRecord.dropIdle_ok {r : BankRecord} (h : r.ok) : r.dropIdle.ok := by
  unfold BankRecord.dropIdle
  split
  · exact BankRecord.ok_closeWanted h (by simp)
  · exact h

@[simp] theorem BankRecord.dropIdle_state (r : BankRecord) : r.dropIdle.state = r.state := by
  unfold BankRecord.dropIdle
  split <;> rfl

theorem BankRecord.accessed_ok {r : BankRecord} (h : r.ok) (hs : r.state = .opened) (now : Time) :
    (r.accessed now).ok := by
  obtain ⟨hrow, hopened, -, hclose, hwindow⟩ := h
  exact ⟨hrow, hopened, fun _ => hs, hclose, hwindow⟩

theorem BankRecord.completed_ok {r : BankRecord} (h : r.ok) (hs : r.state = .opened) (idleClose : Byte) (now : Time) :
    (r.completed idleClose now).ok := by
  have ha := BankRecord.accessed_ok h hs now
  unfold BankRecord.completed
  dsimp only
  split
  · split
    · exact BankRecord.closingFrom_ok now
    · exact ha
  · split
    · exact BankRecord.ask_ok ha _ _ _
    · exact ha

theorem BankRecord.openedRow_ok {r : BankRecord} (h : r.ok) (hs : r.state = .opening) : r.openedRow.ok := by
  obtain ⟨hrow, hopened, -, -, -⟩ := h
  simp [BankRecord.ok, BankRecord.openedRow, hrow, hopened, hs]

/-! ## The operations of the Bank Engine -/

theorem SameBut.banksOk {l : List Block} {s t : State} (h : SameBut l s t) (hl : Block.bankEngine ∉ l)
    (hs : s.banksOk) : t.banksOk := fun b => by
  rw [h.bank b hl]
  exact hs b

theorem State.setBank_banksOk {s : State} (hs : s.banksOk) (b : Bank) {r : BankRecord} (hr : r.ok) :
    (s.setBank b r).banksOk := fun c => by
  by_cases hc : c = b
  · rw [hc, State.bank_setBank_self]
    exact hr
  · rw [State.bank_setBank_ne _ _ hc]
    exact hs c

theorem State.foldl_banksOk {α : Type} {f : State → α → State} (h : ∀ {s : State} (x : α), s.banksOk → (f s x).banksOk)
    (xs : List α) {s : State} (hs : s.banksOk) : (xs.foldl f s).banksOk := by
  induction xs generalizing s with
  | nil => exact hs
  | cons x xs ih => exact ih (h x hs)

theorem State.askClose_banksOk {s : State} (hs : s.banksOk) (cause : CloseCause) (b : Bank) :
    (s.askClose cause b).banksOk := State.setBank_banksOk hs b (BankRecord.ask_ok (hs b) _ _ _)

theorem State.closeAll_banksOk {s : State} (hs : s.banksOk) : s.closeAll.banksOk :=
  State.foldl_banksOk (fun b hs => State.askClose_banksOk hs .hold b) allBanks hs

theorem State.furtherCloseAll_banksOk {s : State} (hs : s.banksOk) : s.furtherCloseAll.banksOk := by
  unfold State.furtherCloseAll
  split
  · exact State.closeAll_banksOk hs
  · exact hs

theorem State.urgentClose_banksOk {s : State} (hs : s.banksOk) (b : Bank) : (s.urgentClose b).banksOk := by
  unfold State.urgentClose
  split
  · exact State.askClose_banksOk hs _ b
  · exact hs

theorem State.urgentCloses_banksOk {s : State} (hs : s.banksOk) : s.urgentCloses.banksOk :=
  State.foldl_banksOk (fun b hs => State.urgentClose_banksOk hs b) allBanks hs

theorem State.expireIdleOn_banksOk {s : State} (hs : s.banksOk) (b : Bank) : (s.expireIdleOn b).banksOk := by
  unfold State.expireIdleOn
  split
  · split
    · exact State.askClose_banksOk hs _ b
    · exact hs
  · exact hs

theorem State.expireIdle_banksOk {s : State} (hs : s.banksOk) : s.expireIdle.banksOk :=
  State.foldl_banksOk (fun b hs => State.expireIdleOn_banksOk hs b) allBanks hs

theorem State.changeRow_banksOk {s : State} (hs : s.banksOk) (op : Operation) (b : Bank) :
    (s.changeRow op b).banksOk := by
  unfold State.changeRow
  split
  · exact State.setBank_banksOk ((s.setChannel_same _).banksOk (by decide) hs) b (BankRecord.closingFrom_ok _)
  · exact (s.setChannel_same _).banksOk (by decide) hs

theorem State.progressRefresh_banksOk {s : State} (hs : s.banksOk) (b : Bank) : (s.progressRefresh b).banksOk := by
  unfold State.progressRefresh State.closeForOperation
  split
  · exact (State.setChannel_same _ _).banksOk (by decide) (State.setBank_banksOk hs b (BankRecord.refreshingFrom_ok _))
  · split
    · exact State.setBank_banksOk hs b (BankRecord.closingFrom_ok _)
    · exact hs
  all_goals exact hs

theorem State.progressRows_banksOk {s : State} (hs : s.banksOk) (op : Operation) (b : Bank) :
    (s.progressRows op b).banksOk := by
  have hd := BankRecord.dropIdle_ok (hs b)
  unfold State.progressRows
  split
  · exact State.setBank_banksOk ((s.setChannel_same _).banksOk (by decide) hs) b (BankRecord.openingRow_ok _ _ _)
  · rename_i hstate _
    split
    · split
      · exact State.setBank_banksOk hs b hd
      · exact State.changeRow_banksOk (State.setBank_banksOk hs b (BankRecord.accessed_ok hd (by simpa using hstate) _))
          _ b
    · exact State.changeRow_banksOk hs op b
  · exact hs

theorem State.progress_banksOk {s : State} (hs : s.banksOk) : s.progress.banksOk := by
  unfold State.progress
  split
  · exact hs
  · split
    · exact hs
    · split
      · exact State.progressRefresh_banksOk hs _
      · exact State.progressRows_banksOk hs _ _

theorem State.progressOn_banksOk {s : State} (hs : s.banksOk) (b : Bank) : (s.progressOn b).banksOk := by
  unfold State.progressOn
  split
  · exact State.progress_banksOk hs
  · exact hs

theorem State.setBand_banksOk {s : State} (hs : s.banksOk) (new : Band) : (s.setBand new).banksOk := by
  have hu (u : Thermal) (v : Refresh) : ((s.setThermal u).setRefresh v).urgentCloses.banksOk :=
    State.urgentCloses_banksOk (((s.setThermal_same u).trans (State.setRefresh_same _ v)).banksOk (by decide) hs)
  unfold State.setBand
  dsimp only
  split
  · exact hs
  · split
    · exact (State.raise_same _ _).banksOk (by decide) (hu _ _)
    · exact hu _ _

theorem State.takeReading_banksOk {s : State} (hs : s.banksOk) (reading : Int) (parityGood : Bool) :
    (s.takeReading reading parityGood).banksOk := by
  unfold State.takeReading
  split
  · exact State.setBand_banksOk ((s.setThermal_same _).banksOk (by decide) hs) _
  · exact State.setBand_banksOk (((s.setThermal_same _).trans (State.raise_same _ _)).banksOk (by decide) hs) _

/-! ## The port, hold entry and the link -/

theorem State.portReset_banksOk {s : State} (hs : s.banksOk) : s.portReset.banksOk :=
  State.furtherCloseAll_banksOk
    (((s.resetPort_same.trans (State.setBuffer_same _ _)).trans (State.wakeFromHold_same _)).banksOk (by decide) hs)

theorem State.takeOffered_banksOk {s : State} (hs : s.banksOk) : s.takeOffered.banksOk := by
  unfold State.takeOffered
  split
  · exact State.furtherCloseAll_banksOk ((s.takeResponse_same.trans (State.chooseEntry_same _)).banksOk (by decide) hs)
  · exact hs

theorem State.commandHold_banksOk {s : State} (hs : s.banksOk) : s.commandHold.2.banksOk := by
  unfold State.commandHold
  split
  · have hh := (s.setHold_same { s.hold with state := .entering }).banksOk (by decide) hs
    exact (State.chooseEntry_same _).banksOk (by decide) (State.closeAll_banksOk hh)
  all_goals exact hs

theorem State.commandPortRestart_banksOk {s : State} (hs : s.banksOk) : s.commandPortRestart.2.banksOk := by
  unfold State.commandPortRestart
  dsimp only
  split
  · exact State.portReset_banksOk hs
  · exact s.wakeFromHold_same.banksOk (by decide) hs

theorem State.runCommand_banksOk {s : State} (hs : s.banksOk) (c : LinkCommand) : (s.runCommand c).2.banksOk := by
  cases c with
  | hold => exact State.commandHold_banksOk hs
  | wake => exact s.commandWake_same.banksOk (by decide) hs
  | ack => exact s.commandAck_same.banksOk (by decide) hs
  | clearErrors => exact s.commandClearErrors_same.banksOk (by decide) hs
  | clearSuspects => exact s.commandClearSuspects_same.banksOk (by decide) hs
  | retire => exact s.commandRetire_same.banksOk (by decide) hs
  | portRestart => exact State.commandPortRestart_banksOk hs

theorem State.judgeIdleClose_banksOk {s t : State} {v : Byte} (h : s.judgeIdleClose v = some t) (hs : s.banksOk) :
    t.banksOk := by
  unfold State.judgeIdleClose at h
  split at h
  · obtain rfl := Option.some.inj h
    exact State.expireIdle_banksOk (s := s.setBankEngine { s.bankEngine with idleClose := v }) hs
  · cases h

/-- A register judged keeps what its rule keeps. -/
theorem Judging.judge_keeps {α : Type} {P : State → Prop} {x : Judging} {v : Option α} {rule : State → α → Option State}
    (hx : P x.state) (h : ∀ {s t : State} {v : α}, rule s v = some t → P s → P t) : P (x.judge v rule).state := by
  unfold Judging.judge
  split
  · exact hx
  · split
    · rename_i t ht
      exact h ht hx
    · exact hx

theorem State.judgeSettings_banksOk {s : State} (hs : s.banksOk) (st : Staged) :
    (s.judgeSettings st).state.banksOk := by
  unfold State.judgeSettings
  refine Judging.judge_keeps (Judging.judge_keeps (Judging.judge_keeps (Judging.judge_keeps (Judging.judge_keeps
    (Judging.judge_keeps (Judging.judge_keeps (Judging.judge_keeps (Judging.judge_keeps (Judging.judge_keeps
    hs ?arg) ?mask) ?limit) State.judgeIdleClose_banksOk) ?age) ?step) ?threshold) ?bank) ?row) ?select
  case arg =>
    intro s t v h
    obtain rfl := Option.some.inj h
    exact (s.setLink_same _).banksOk (by decide)
  case mask =>
    intro s t v h
    obtain rfl := Option.some.inj h
    exact (s.setAlerts_same _).banksOk (by decide)
  case limit => exact fun h hs => (State.judgeLimit_same h).banksOk (by decide) hs
  case age => exact fun h hs => (State.judgeDrainAge_same h).banksOk (by decide) hs
  case step => exact fun h hs => (State.judgeScrubStep_same h).banksOk (by decide) hs
  case threshold => exact fun h hs => (State.judgeThreshold_same h).banksOk (by decide) hs
  case bank => exact fun h hs => (State.judgeRetireBank_same h).banksOk (by decide) hs
  case row => exact fun h hs => (State.judgeRetireRow_same h).banksOk (by decide) hs
  case select => exact fun h hs => (State.judgeRecordSelect_same h).banksOk (by decide) hs

theorem Judging.command_banksOk {x : Judging} (hx : x.state.banksOk) (code : Byte) : (x.command code).banksOk := by
  have hn := (x.state.setLink_same { x.state.link with command := code }).banksOk (by decide) hx
  unfold Judging.command
  dsimp only
  split
  · exact (State.setResult_same _ _).banksOk (by decide) hn
  · split
    · exact (State.setResult_same _ _).banksOk (by decide) hn
    · exact (State.setResult_same _ _).banksOk (by decide) (State.runCommand_banksOk hn _)

theorem State.stop_banksOk {s : State} (hs : s.banksOk) (st : Staged) : (s.stop st).banksOk := by
  have hj := State.judgeSettings_banksOk hs st
  unfold State.stop
  dsimp only
  split
  · exact Judging.command_banksOk hj _
  · split
    · exact (State.setResult_same _ _).banksOk (by decide) hj
    · exact hj

theorem State.transaction_banksOk {s : State} (hs : s.banksOk) (segments : List LinkSegment) :
    (s.transaction segments).banksOk :=
  State.stop_banksOk ((s.setLink_same _).banksOk (by decide) hs) _

/-! ## Windows and timers -/

theorem State.grantNext_banksOk {s : State} (hs : s.banksOk) (cs : List BitChange) : (s.grantNext cs).banksOk := by
  unfold State.grantNext
  split
  · rename_i c _ _
    have hnoted := ((s.changeAll_same cs).trans
      (State.setChannel_same _ (some ((s.changeAll cs).operation c)))).trans (State.noteGrant_same _ c.work)
    have hp := State.progress_banksOk (hnoted.banksOk (by decide) hs)
    unfold State.grant
    dsimp only
    split
    · exact State.urgentClose_banksOk hp _
    · exact hp
  · exact hs

theorem State.tOpenEnds_banksOk {s : State} (hs : s.banksOk) (b : Bank) : (s.tOpenEnds b).banksOk := by
  unfold State.tOpenEnds
  split
  · rename_i hstate
    have hm := s.atWindowEnd_same b
    have ho : ((s.atWindowEnd b).bank b).openedRow.ok := by
      rw [hm.bank b (by decide)]
      exact BankRecord.openedRow_ok (hs b) hstate
    have hopened := State.setBank_banksOk (hm.banksOk (by decide) hs) b ho
    exact State.furtherCloseAll_banksOk (State.progressOn_banksOk hopened b)
  · exact hs

theorem State.tMinOpenEnds_banksOk {s : State} (hs : s.banksOk) (b : Bank) : (s.tMinOpenEnds b).banksOk := by
  have hm (t : Time) : (s.moveTo t).banksOk := (s.moveTo_same t).banksOk (by decide) hs
  unfold State.tMinOpenEnds
  dsimp only
  split
  · split
    · split
      · exact State.progress_banksOk (hm _)
      · exact State.progress_banksOk hs
    · split
      · exact State.setBank_banksOk (hm _) b (BankRecord.closingFrom_ok _)
      · exact State.setBank_banksOk hs b (BankRecord.closingFrom_ok _)
  · exact hs

theorem State.tCloseEnds_banksOk {s : State} (hs : s.banksOk) (b : Bank) : (s.tCloseEnds b).banksOk := by
  unfold State.tCloseEnds
  split
  · have hc := State.setBank_banksOk ((s.atWindowEnd_same b).banksOk (by decide) hs) b BankRecord.initial_ok
    exact State.furtherCloseAll_banksOk (State.urgentClose_banksOk (State.progressOn_banksOk hc b) b)
  · exact hs

theorem State.tIdleEnds_banksOk {s : State} (hs : s.banksOk) (b : Bank) : (s.tIdleEnds b).banksOk := by
  unfold State.tIdleEnds
  split
  · exact State.askClose_banksOk ((s.moveTo_same _).banksOk (by decide) hs) _ b
  · exact hs

theorem State.tRfEnds_banksOk {s : State} (hs : s.banksOk) (b : Bank) : (s.tRfEnds b).banksOk := by
  unfold State.tRfEnds
  split
  · have hc := State.setBank_banksOk ((s.atWindowEnd_same b).banksOk (by decide) hs) b BankRecord.initial_ok
    exact State.furtherCloseAll_banksOk ((State.setBalanceOf_same _ _ _).banksOk (by decide) hc)
  · exact hs

theorem State.intervalEnds_banksOk {s : State} (hs : s.banksOk) (b : Bank) : (s.intervalEnds b).banksOk :=
  State.urgentClose_banksOk (((s.moveTo_same _).trans (State.setBalanceOf_same _ _ _)).banksOk (by decide) hs) b

theorem State.senseEnds_banksOk {s : State} (hs : s.banksOk) (reading : Int) (parityGood : Bool) :
    (s.senseEnds reading parityGood).banksOk := by
  unfold State.senseEnds
  split
  · split
    · exact State.takeReading_banksOk (((s.moveTo_same _).trans (State.setChannel_same _ _)).banksOk (by decide) hs) _ _
    · exact hs
  · exact hs

/-! ## Completions -/

/-- An operation whose completion can come has its bank OPEN (R12). -/
theorem State.ready_opened {s : State} {op : Operation} {b : Bank} (h : s.ready = some (op, b)) :
    (s.bank b).state = .opened := by
  unfold State.ready at h
  repeat' split at h
  · cases h
  · cases h
  · rename_i hready
    obtain ⟨-, rfl⟩ := Prod.mk.inj (Option.some.inj h)
    exact hready.1
  · cases h

/-- What follows the release of the channel, outside the Bank Engine, keeps the records. -/
theorem State.released_banksOk {s u : State} {l : List Block} {b : Bank} (hl : Block.bankEngine ∉ l) (hs : s.banksOk)
    (ho : (s.bank b).state = .opened) (h : SameBut l (s.release b) u) : u.banksOk :=
  have hfree := (s.setChannel_same none).banksOk (by decide) hs
  h.banksOk hl (State.setBank_banksOk hfree b (BankRecord.completed_ok (hs b) ho _ _))

theorem State.completeRead_banksOk {s : State} {b : Bank} (hs : s.banksOk) (ho : (s.bank b).state = .opened)
    (p : PhysicalRow) (line : Line) (words : List ReadWord) (wanted : Bool) :
    (s.completeRead b p line words wanted).banksOk := by
  unfold State.completeRead
  dsimp only
  split
  · exact State.released_banksOk (by decide) hs ho
      (((State.answerRead_same _ _).trans (State.reportRead_same _ _ _ _)).trans (State.engineRun_same _))
  · exact State.released_banksOk (by decide) hs ho ((State.reportRead_same _ _ _ _).trans (State.engineRun_same _))

theorem State.completeDrain_banksOk {s : State} {b : Bank} (hs : s.banksOk) (ho : (s.bank b).state = .opened)
    (p : PhysicalRow) (rows : List PhysicalRow) (e : BufferEntry) : (s.completeDrain b p rows e).banksOk :=
  State.furtherCloseAll_banksOk (State.released_banksOk (by decide) hs ho
    (((((((State.writeRows_same _ _ _ _).trans (State.reportAll_same _ _ _ _ _ _)).trans
      (State.setBuffer_same _ _)).trans (State.serveWaiting_same _)).trans (State.chooseEntry_same _)).trans
      (State.finishFlush_same _)).trans (State.engineRun_same _)))

theorem State.completeRowFill_banksOk {s : State} {b : Bank} (hs : s.banksOk) (ho : (s.bank b).state = .opened)
    (p : PhysicalRow) (line : Line) : (s.completeRowFill b p line).banksOk :=
  State.released_banksOk (by decide) hs ho
    (((State.writeWords_same _ _ _ _).trans (State.markRow_same _ _)).trans (State.engineRun_same _))

theorem State.completeFillStep_banksOk {s : State} {b : Bank} (hs : s.banksOk) (ho : (s.bank b).state = .opened)
    (p : PhysicalRow) (g : Nat) : (s.completeFillStep b p g).banksOk :=
  State.furtherCloseAll_banksOk (State.released_banksOk (by decide) hs ho
    (((State.writeWords_same _ _ _ _).trans (State.advanceFill_same _)).trans (State.engineRun_same _)))

theorem State.completeScrubStep_banksOk {s : State} {b : Bank} (hs : s.banksOk) (ho : (s.bank b).state = .opened)
    (r : LogicalRow) (p : PhysicalRow) (rows : List PhysicalRow) (g : Nat) :
    (s.completeScrubStep b r p rows g).banksOk :=
  State.furtherCloseAll_banksOk (State.released_banksOk (by decide) hs ho
    ((((State.writeRows_same _ _ _ _).trans (State.reportAll_same _ _ _ _ _ _)).trans
      (State.advanceScrub_same _ _)).trans (State.engineRun_same _)))

theorem State.completeMigrateStep_banksOk {s : State} {b : Bank} (hs : s.banksOk) (ho : (s.bank b).state = .opened)
    (p q : PhysicalRow) (g : Nat) : (s.completeMigrateStep b p q g).banksOk :=
  State.furtherCloseAll_banksOk (State.released_banksOk (by decide) hs ho
    ((((State.writeWords_same _ _ _ _).trans (State.reportMigration_same _ _ _ _)).trans
      (State.advanceMigrate_same _)).trans (State.engineRun_same _)))

theorem State.lineReadEnds_banksOk {s : State} (hs : s.banksOk) : s.lineReadEnds.banksOk := by
  obtain h | ⟨op, b, p, line, words, wanted, hready, h⟩ := s.lineReadEnds_cases
  · rwa [h]
  · rw [h]
    exact State.completeRead_banksOk hs (State.ready_opened hready) p line words wanted

theorem State.drainEnds_banksOk {s : State} (hs : s.banksOk) : s.drainEnds.banksOk := by
  obtain h | ⟨op, b, p, rows, e, hready, h⟩ := s.drainEnds_cases
  · rwa [h]
  · rw [h]
    exact State.completeDrain_banksOk hs (State.ready_opened hready) p rows e

theorem State.rowFillEnds_banksOk {s : State} (hs : s.banksOk) : s.rowFillEnds.banksOk := by
  obtain h | ⟨op, b, p, line, hready, h⟩ := s.rowFillEnds_cases
  · rwa [h]
  · rw [h]
    exact State.completeRowFill_banksOk hs (State.ready_opened hready) p line

theorem State.fillStepEnds_banksOk {s : State} (hs : s.banksOk) : s.fillStepEnds.banksOk := by
  obtain h | ⟨op, b, p, g, hready, h⟩ := s.fillStepEnds_cases
  · rwa [h]
  · rw [h]
    exact State.completeFillStep_banksOk hs (State.ready_opened hready) p g

theorem State.scrubGroupEnds_banksOk {s : State} (hs : s.banksOk) : s.scrubGroupEnds.banksOk := by
  obtain h | ⟨op, b, r, p, rows, g, hready, h⟩ := s.scrubGroupEnds_cases
  · rwa [h]
  · rw [h]
    exact State.completeScrubStep_banksOk hs (State.ready_opened hready) r p rows g

theorem State.migrateStepEnds_banksOk {s : State} (hs : s.banksOk) : s.migrateStepEnds.banksOk := by
  obtain h | ⟨op, b, p, q, g, hready, h⟩ := s.migrateStepEnds_cases
  · rwa [h]
  · rw [h]
    exact State.completeMigrateStep_banksOk hs (State.ready_opened hready) p q g

/-! ## Every command -/

theorem State.initial_bank (laddr : BitVec 2) (b : Bank) : (State.initial laddr).bank b = .initial := by
  simp [State.bank, State.initial]

theorem State.initial_banksOk (laddr : BitVec 2) : (State.initial laddr).banksOk := fun b => by
  rw [State.initial_bank]
  exact BankRecord.initial_ok

theorem State.resetNFall_banksOk {s : State} (hs : s.banksOk) : (effect .resetNFall s).banksOk := by
  simp only [effect]
  split
  · exact State.portReset_banksOk ((s.setPort_same _).banksOk (by decide) hs)
  · exact hs

/-- Every command opens, closes and refreshes banks through the operations above alone. -/
theorem effect_banksOk {c : Instr} {s : State} (h : exec c s = .next (effect c s)) (hs : s.banksOk) :
    (effect c s).banksOk := by
  by_cases hc : Block.bankEngine ∈ touched c
  · cases c with
    | powerOnReset laddr => exact State.initial_banksOk laddr
    | powerLoss => exact State.initial_banksOk 0
    | resetNFall => exact State.resetNFall_banksOk hs
    | responseTaken => exact State.takeOffered_banksOk hs
    | channelGrant cs => exact State.grantNext_banksOk hs cs
    | tOpenExpiry b => exact State.tOpenEnds_banksOk hs b
    | tMinOpenExpiry b => exact State.tMinOpenEnds_banksOk hs b
    | tCloseExpiry b => exact State.tCloseEnds_banksOk hs b
    | tIdleExpiry b => exact State.tIdleEnds_banksOk hs b
    | tRfExpiry b => exact State.tRfEnds_banksOk hs b
    | intervalExpiry b => exact State.intervalEnds_banksOk hs b
    | tSenseExpiry reading parityGood => exact State.senseEnds_banksOk hs reading parityGood
    | lineReadComplete => exact State.lineReadEnds_banksOk hs
    | drainComplete => exact State.drainEnds_banksOk hs
    | rowFillComplete => exact State.rowFillEnds_banksOk hs
    | fillStepComplete => exact State.fillStepEnds_banksOk hs
    | scrubGroupStepComplete => exact State.scrubGroupEnds_banksOk hs
    | migrateStepComplete => exact State.migrateStepEnds_banksOk hs
    | hold => exact State.transaction_banksOk hs _
    | portRestart => exact State.transaction_banksOk hs _
    | idleClose v => exact State.transaction_banksOk hs _
    | registerWrite segments => exact State.transaction_banksOk hs segments
    | _ => exact absurd hc (by simp [touched])
  · exact (exec_same h).banksOk hc hs

/-- Settles O57: each operation of the Bank Engine makes records that hold the fields of their state. -/
theorem bankRecordsStayWellFormed : Obligations.BankRecordsStayWellFormed := fun _ _ h hs =>
  step_keeps (fun hf => hf.banksOk (by decide)) (fun _ _ hs => hs) effect_banksOk h hs

end Sys2Proof.Machine

/-! # Closes asked for, held and issued -/

namespace Sys2Proof.Machine

/-! ## A close asked for on one record (R7) -/

theorem BankRecord.holdsRow_iff (r : BankRecord) : r.holdsRow = true ↔ r.state = .opening ∨ r.state = .opened :=
  decide_eq_true_iff

/-- A bank is in use exactly while the operation that holds the channel is on it (R5). -/
theorem State.inUse_iff (s : State) (b : Bank) : s.inUse b = true ↔ ∃ op, s.channel = some op ∧ op.bank = some b := by
  unfold State.inUse
  cases s.channel <;> simp

theorem BankRecord.not_closable_iff {r : BankRecord} {o : Time} (h : r.openedAt = some o) (now : Time) :
    r.closable now = false ↔ now < o + 36 := by
  rw [← Bool.not_eq_true, BankRecord.closable_iff h, Rat.not_le]

theorem BankRecord.ask_without_row {r : BankRecord} (h : ¬ (r.state = .opening ∨ r.state = .opened))
    (cause : CloseCause) (inUse : Bool) (now : Time) : r.ask cause inUse now = r := by
  unfold BankRecord.ask
  rw [if_neg fun g => h (r.holdsRow_iff.1 g)]

section
variable {r : BankRecord} (hr : r.state = .opening ∨ r.state = .opened)
include hr

theorem BankRecord.ask_over_idle (hc : r.closeWanted = some .idle) (cause : CloseCause) (inUse : Bool) (now : Time) :
    r.ask cause inUse now = { r with closeWanted := some cause } := by
  unfold BankRecord.ask
  rw [if_pos (r.holdsRow_iff.2 hr), hc]

theorem BankRecord.ask_over_other (hc : r.closeWanted = some .urgent ∨ r.closeWanted = some .hold) (cause : CloseCause)
    (inUse : Bool) (now : Time) : r.ask cause inUse now = r := by
  unfold BankRecord.ask
  rw [if_pos (r.holdsRow_iff.2 hr)]
  obtain hc | hc := hc <;> rw [hc]

theorem BankRecord.ask_first (hc : r.closeWanted = none) (cause : CloseCause) (inUse : Bool) (now : Time) :
    r.ask cause inUse now =
      if r.state = .opened ∧ inUse = false ∧ r.closable now = true then .closingFrom now
      else { r with closeWanted := some cause } := by
  unfold BankRecord.ask
  rw [if_pos (r.holdsRow_iff.2 hr), hc]

end

/-- What a close asked for comes to on its bank, branch by branch. -/
theorem State.askClose_branches (s : State) (cause : CloseCause) (b : Bank) (o : Time) :
    let r := s.bank b
    let t := s.askClose cause b
    (r.state ≠ .opening → r.state ≠ .opened → t.bank b = r) ∧
    ((r.state = .opening ∨ r.state = .opened) →
      (r.closeWanted = some .idle → t.bank b = { r with closeWanted := some cause }) ∧
      ((r.closeWanted = some .urgent ∨ r.closeWanted = some .hold) → t.bank b = r) ∧
      (r.closeWanted = none → r.openedAt = some o →
        (r.state = .opened → s.inUse b = false → o + 36 ≤ s.clock.now →
          t.bank b = .closingFrom s.clock.now) ∧
        ((r.state = .opening ∨ s.inUse b = true ∨ s.clock.now < o + 36) →
          t.bank b = { r with closeWanted := some cause }))) := by
  intro r t
  have ht : t.bank b = r.ask cause (s.inUse b) s.clock.now := s.askClose_bank cause b
  rw [ht]
  refine ⟨fun h1 h2 => BankRecord.ask_without_row (by simp [h1, h2]) _ _ _, fun hr => ⟨fun hc => ?_, fun hc => ?_,
    fun hc ho => ⟨fun hst hu hp => ?_, fun hw => ?_⟩⟩⟩
  · exact BankRecord.ask_over_idle hr hc _ _ _
  · exact BankRecord.ask_over_other hr hc _ _ _
  · rw [BankRecord.ask_first hr hc, if_pos ⟨hst, hu, (BankRecord.closable_iff ho _).2 hp⟩]
  · rw [BankRecord.ask_first hr hc, if_neg]
    rintro ⟨hst, hu, hp⟩
    obtain hw | hw | hw := hw
    · simp [hst] at hw
    · simp [hu] at hw
    · simp [(BankRecord.not_closable_iff ho _).2 hw] at hp

/-! ## The record at a completion (R6, R7, R8) -/

section
variable {r : BankRecord} {now o : Time} (ho : r.openedAt = some o)
include ho

/-- A close held to the completion, or the one that T_IDLE = 0 asks for then, is issued once T_MINOPEN has passed. -/
theorem BankRecord.completed_issued (hs : r.state = .opened) (hc : o + 36 ≤ now) {idleClose : Byte}
    (h : r.closeWanted ≠ none ∨ idleClose = 0) : r.completed idleClose now = .closingFrom now := by
  have hclosable : (r.accessed now).closable now = true := (BankRecord.closable_iff (r := r.accessed now) ho now).2 hc
  have hcw : (r.accessed now).closeWanted = r.closeWanted := rfl
  unfold BankRecord.completed
  cases hw : r.closeWanted with
  | some c => simp [hcw, hw, hclosable]
  | none =>
    have hidle : idleClose = 0 := h.resolve_left (absurd hw)
    have hst : (r.accessed now).state = .opened := hs
    simp [hcw, hw, hidle, BankRecord.ask_first (.inr hst), hst, hclosable]

theorem BankRecord.completed_waits (hc : now < o + 36) {idleClose : Byte} (h : r.closeWanted ≠ none ∨ idleClose ≠ 0) :
    r.completed idleClose now = r.accessed now := by
  have hclosable : (r.accessed now).closable now = false :=
    (BankRecord.not_closable_iff (r := r.accessed now) ho now).2 hc
  have hcw : (r.accessed now).closeWanted = r.closeWanted := rfl
  unfold BankRecord.completed
  cases hw : r.closeWanted with
  | some c => simp [hcw, hw, hclosable]
  | none =>
    dsimp only
    rw [hcw, hw]
    exact if_neg (h.resolve_left (absurd hw))

theorem BankRecord.completed_holds_idle (hs : r.state = .opened) (hc : now < o + 36) (hw : r.closeWanted = none) :
    r.completed 0 now = { r.accessed now with closeWanted := some .idle } := by
  have hclosable : (r.accessed now).closable now = false :=
    (BankRecord.not_closable_iff (r := r.accessed now) ho now).2 hc
  have hcw : (r.accessed now).closeWanted = none := hw
  have hst : (r.accessed now).state = .opened := hs
  unfold BankRecord.completed
  simp [hcw, BankRecord.ask_first (.inr hst), hclosable]

end

theorem BankRecord.completed_stays {r : BankRecord} (hw : r.closeWanted = none) {idleClose : Byte}
    (hi : idleClose ≠ 0) (now : Time) : r.completed idleClose now = r.accessed now := by
  have hcw : (r.accessed now).closeWanted = none := hw
  unfold BankRecord.completed
  dsimp only
  rw [hcw]
  exact if_neg hi

/-! ## The further close-all request of hold entry (R166) -/

/-- The first four entry conditions, opened. -/
theorem State.entryReady_iff (s : State) :
    s.entryReady = true ↔
      s.port.queue = [] ∧ s.buffer.entries = [] ∧ s.stepInFlight = false ∧ ∀ b, 0 ≤ (s.balanceOf b).balance := by
  simp [State.entryReady, State.caughtUp, allBanks, and_assoc]

theorem State.some_holdsRow_iff (s : State) :
    (allBanks.any fun b => (s.bank b).holdsRow) = true ↔
      ∃ b, (s.bank b).state = .opening ∨ (s.bank b).state = .opened := by
  simp [allBanks, BankRecord.holdsRow_iff]

/-- Settles O21: the branches of `BankRecord.ask` and `BankRecord.completed`, and the close-all request bank by bank. -/
theorem closesAreIssuedOrHeld : Obligations.ClosesAreIssuedOrHeld := by
  refine ⟨fun s cause b o => ?_, fun r idleClose now o hs ho => ?_, fun s => ?_⟩
  · exact ⟨s.askClose_same cause b, s.askClose_banks cause b, s.askClose_bank cause b, s.inUse_iff b,
      s.askClose_branches cause b o⟩
  · exact ⟨fun hc h => BankRecord.completed_issued ho hs hc h, fun hc h => BankRecord.completed_waits ho hc h,
      fun hw hi => BankRecord.completed_stays hw hi now,
      fun hc hw hi => hi ▸ BankRecord.completed_holds_idle ho hs hc hw⟩
  · have key : (s.hold.state = .entering ∧ s.entryReady = true ∧ (allBanks.any fun b => (s.bank b).holdsRow) = true) ↔
        s.hold.state = .entering ∧ s.port.queue = [] ∧ s.buffer.entries = [] ∧ s.stepInFlight = false ∧
        (∀ b, 0 ≤ (s.balanceOf b).balance) ∧ ∃ b, (s.bank b).state = .opening ∨ (s.bank b).state = .opened := by
      rw [State.entryReady_iff, State.some_holdsRow_iff]
      simp only [and_assoc]
    refine ⟨fun h => ?_, fun h => if_neg fun g => h (key.1 g)⟩
    have hall : s.furtherCloseAll = s.closeAll := if_pos (key.2 h)
    rw [hall]
    exact ⟨s.closeAll_same, s.closeAll_bank⟩

end Sys2Proof.Machine

/-! # The progress of the operation that holds the channel, case by case -/

namespace Sys2Proof.Machine

/-! ## What a close held on a bank leaves behind -/

theorem outlivesChange_idem (c : Option CloseCause) : outlivesChange (outlivesChange c) = outlivesChange c := by
  rcases c with _ | _ | _ | _ <;> rfl

/-- A held IDLE dropped, in the terms of the row change. -/
theorem BankRecord.dropIdle_outlives (r : BankRecord) :
    r.dropIdle = { r with closeWanted := outlivesChange r.closeWanted } := by
  rw [BankRecord.dropIdle_eq, outlivesChange_eq]

/-! ## The progress of an operation that visits rows (R6, R9) -/

section
variable {s : State} {op : Operation} {b : Bank} {p q : PhysicalRow} {more : List PhysicalRow}

theorem State.progressRows_closed (hst : (s.bank b).state = .closed) (hl : op.rowsLeft = p :: more) :
    s.progressRows op b = s.openFor op b p := by
  unfold State.progressRows
  rw [hst, hl]

theorem State.progressRows_closing (hst : (s.bank b).state = .closing) : s.progressRows op b = s := by
  unfold State.progressRows
  rw [hst]

/-- On the last row it visits the operation accesses its words, a held IDLE dropped. -/
theorem State.progressRows_last (hst : (s.bank b).state = .opened) (hl : op.rowsLeft = [p])
    (hrow : (s.bank b).row = some p) :
    s.progressRows op b =
      s.setBank b { s.bank b with closeWanted := outlivesChange (s.bank b).closeWanted } := by
  unfold State.progressRows
  rw [hst, hl]
  dsimp only
  rw [if_pos hrow, BankRecord.dropIdle_outlives]

/-- On a row that is not its last the operation's accesses end, and it changes to the next (log 8). -/
theorem State.progressRows_next (hst : (s.bank b).state = .opened) (hl : op.rowsLeft = p :: q :: more)
    (hrow : (s.bank b).row = some p) :
    s.progressRows op b =
      (s.setBank b { s.bank b with
        closeWanted := outlivesChange (s.bank b).closeWanted, lastAccess := some s.clock.now }).changeRow
        { op with rowsLeft := q :: more } b := by
  unfold State.progressRows
  rw [hst, hl]
  dsimp only
  rw [if_pos hrow, BankRecord.dropIdle_outlives]
  rfl

theorem State.progressRows_other (hst : (s.bank b).state = .opened) (hl : op.rowsLeft = p :: more)
    (hrow : (s.bank b).row ≠ some p) : s.progressRows op b = s.changeRow op b := by
  unfold State.progressRows
  rw [hst, hl]
  exact if_neg hrow

variable {o : Time} (ho : (s.bank b).openedAt = some o)
include ho

/-- A row change from the record `s` holds, its close issued at once: T_MINOPEN has passed. -/
theorem State.progressRows_other_issued (hst : (s.bank b).state = .opened) (hl : op.rowsLeft = p :: more)
    (hrow : (s.bank b).row ≠ some p) (hc : o + 36 ≤ s.clock.now) :
    (s.progressRows op b).channel = some { op with heldClose := outlivesChange (s.bank b).closeWanted } ∧
      (s.progressRows op b).bank b = .closingFrom s.clock.now := by
  rw [State.progressRows_other hst hl hrow]
  exact State.changeRow_issued ((BankRecord.closable_iff ho _).2 hc)

theorem State.progressRows_other_waits (hst : (s.bank b).state = .opened) (hl : op.rowsLeft = p :: more)
    (hrow : (s.bank b).row ≠ some p) (hc : s.clock.now < o + 36) :
    s.progressRows op b = s.setChannel (some op) := by
  rw [State.progressRows_other hst hl hrow]
  exact State.changeRow_waits ((BankRecord.not_closable_iff ho _).2 hc)

theorem State.progressRows_next_issued (hst : (s.bank b).state = .opened) (hl : op.rowsLeft = p :: q :: more)
    (hrow : (s.bank b).row = some p) (hc : o + 36 ≤ s.clock.now) :
    (s.progressRows op b).channel =
        some { op with rowsLeft := q :: more, heldClose := outlivesChange (s.bank b).closeWanted } ∧
      (s.progressRows op b).bank b = .closingFrom s.clock.now := by
  rw [State.progressRows_next hst hl hrow]
  have hissued := State.changeRow_issued (op := { op with rowsLeft := q :: more }) (b := b)
    (s := s.setBank b { s.bank b with
      closeWanted := outlivesChange (s.bank b).closeWanted, lastAccess := some s.clock.now })
    (by rw [State.bank_setBank_self]; exact (BankRecord.closable_iff (by exact ho) _).2 hc)
  rw [State.bank_setBank_self] at hissued
  rw [outlivesChange_idem] at hissued
  exact hissued

theorem State.progressRows_next_waits (hst : (s.bank b).state = .opened) (hl : op.rowsLeft = p :: q :: more)
    (hrow : (s.bank b).row = some p) (hc : s.clock.now < o + 36) :
    (s.progressRows op b).channel = some { op with rowsLeft := q :: more } ∧
      (s.progressRows op b).bank b =
        { s.bank b with closeWanted := outlivesChange (s.bank b).closeWanted, lastAccess := some s.clock.now } := by
  rw [State.progressRows_next hst hl hrow, State.changeRow_waits]
  · exact ⟨rfl, State.bank_setBank_self s b _⟩
  · rw [State.bank_setBank_self]
    exact (BankRecord.not_closable_iff (by exact ho) _).2 hc

end

/-! ## The progress of a REFRESH (R10) -/

section
variable {s : State} {b : Bank}

theorem State.progressRefresh_closed (hst : (s.bank b).state = .closed) :
    s.progressRefresh b = (s.setBank b (.refreshingFrom s.clock.now)).setChannel none := by
  unfold State.progressRefresh
  rw [hst]

theorem State.progressRefresh_closing (hst : (s.bank b).state = .closing) : s.progressRefresh b = s := by
  unfold State.progressRefresh
  rw [hst]

theorem State.progressRefresh_issued {o : Time} (hst : (s.bank b).state = .opened) (ho : (s.bank b).openedAt = some o)
    (hc : o + 36 ≤ s.clock.now) : s.progressRefresh b = s.setBank b (.closingFrom s.clock.now) := by
  unfold State.progressRefresh
  rw [hst]
  exact if_pos ((BankRecord.closable_iff ho _).2 hc)

theorem State.progressRefresh_waits {o : Time} (hst : (s.bank b).state = .opened) (ho : (s.bank b).openedAt = some o)
    (hc : s.clock.now < o + 36) : s.progressRefresh b = s := by
  unfold State.progressRefresh State.closeForOperation
  rw [hst]
  exact if_neg (by simp [(BankRecord.not_closable_iff ho _).2 hc])

/-- A REFRESH that is not issued keeps the channel as it is. -/
theorem State.progressRefresh_channel (hst : (s.bank b).state ≠ .closed) :
    (s.progressRefresh b).channel = s.channel := by
  unfold State.progressRefresh
  cases h : (s.bank b).state with
  | closed => exact absurd h hst
  | opened => exact (s.closeForOperation_same b).channel (by decide)
  | _ => rfl

end

theorem State.progressOn_idle {s : State} {b : Bank} (h : s.inUse b = false) : s.progressOn b = s := by
  unfold State.progressOn
  simp [h]

theorem State.progressOn_inUse {s : State} {op : Operation} {b : Bank} (h : s.channel = some op)
    (hb : op.bank = some b) : s.progressOn b = s.progress := by
  unfold State.progressOn
  rw [if_pos ((s.inUse_iff b).2 ⟨op, h, hb⟩)]

theorem State.progressOn_banks (s : State) (b : Bank) : BanksSameBut b s (s.progressOn b) := by
  cases h : s.inUse b with
  | false =>
    rw [State.progressOn_idle h]
    exact .refl b s
  | true =>
    obtain ⟨op, hop, hb⟩ := (s.inUse_iff b).1 h
    rw [State.progressOn_inUse hop hb]
    exact State.progress_banks hop hb

/-- An operation that visits rows goes on holding the channel, whatever its bank makes it do. -/
theorem State.progressRows_channel {s : State} {op : Operation} (b : Bank) (h : s.channel = some op) :
    ∃ left held, (s.progressRows op b).channel = some { op with rowsLeft := left, heldClose := held } := by
  have change (t : State) (left : List PhysicalRow) :
      ∃ left' held,
        (t.changeRow { op with rowsLeft := left } b).channel =
          some { op with rowsLeft := left', heldClose := held } := by
    unfold State.changeRow
    split
    · exact ⟨_, _, rfl⟩
    · exact ⟨_, _, rfl⟩
  unfold State.progressRows
  split
  · exact ⟨_, _, rfl⟩
  · split
    · split
      · exact ⟨_, _, h⟩
      · exact change _ _
    · exact change s op.rowsLeft
  · exact ⟨_, _, h⟩

end Sys2Proof.Machine

/-! # The ends of the windows of a bank -/

namespace Sys2Proof.Machine

@[simp] theorem State.moveTo_inUse (s : State) (t : Time) (b : Bank) : (s.moveTo t).inUse b = s.inUse b := rfl

theorem State.atWindowEnd_eq {s : State} {b : Bank} {w : Time} (h : (s.bank b).windowEnd = some w) :
    s.atWindowEnd b = s.moveTo w := by
  unfold State.atWindowEnd
  rw [h]

/-- The record of bank `b` replaced at the end of a window. -/
theorem State.moveTo_setBank_same (s : State) (t : Time) (b : Bank) (r : BankRecord) :
    SameBut [.clock, .bankEngine] s ((s.moveTo t).setBank b r) := (s.moveTo_same t).trans (State.setBank_same _ b r)

theorem State.moveTo_setBank_banks (s : State) (t : Time) (b : Bank) (r : BankRecord) :
    BanksSameBut b s ((s.moveTo t).setBank b r) := State.setBank_banks (s.moveTo t) b r

/-! ## T_OPEN (R6) -/

/-- `s` where T_OPEN has ended on bank `b` at `w`, before the operation goes on. -/
def State.rowOpened (s : State) (b : Bank) (w : Time) : State :=
  (s.moveTo w).setBank b { s.bank b with state := .opened, windowEnd := none }

@[simp] theorem State.rowOpened_bank (s : State) (b : Bank) (w : Time) :
    (s.rowOpened b w).bank b = { s.bank b with state := .opened, windowEnd := none } := State.bank_setBank_self _ _ _

theorem State.tOpenEnds_opening {s : State} {b : Bank} {w : Time} (hst : (s.bank b).state = .opening)
    (hw : (s.bank b).windowEnd = some w) : s.tOpenEnds b = ((s.rowOpened b w).progressOn b).furtherCloseAll := by
  unfold State.tOpenEnds
  rw [if_pos hst]
  dsimp only
  rw [State.atWindowEnd_eq hw]
  rfl

theorem State.tOpenEnds_not_opening {s : State} {b : Bank} (h : (s.bank b).state ≠ .opening) : s.tOpenEnds b = s :=
  if_neg h

/-- The operation whose row has opened goes on with its rows. -/
theorem State.rowOpened_progressOn {s : State} {op : Operation} {b : Bank} (w : Time) (h : s.channel = some op)
    (hb : op.bank = some b) (hw : op.work ≠ .refresh) :
    (s.rowOpened b w).progressOn b = (s.rowOpened b w).progressRows op b := by
  have hc : (s.rowOpened b w).channel = some op := h
  rw [State.progressOn_inUse hc hb, State.progress_of_rows hc hb hw]

/-- Settles O22: the row opened, and then the progress of the operation that opened it, if one did. -/
theorem tOpenExpiryOpensBank : Obligations.TOpenExpiryOpensBank := by
  intro b s w o hp
  rw [exec_on hp]
  refine ⟨fun hst hw ho => ?_, fun hst => congrArg _ (State.tOpenEnds_not_opening hst)⟩
  intro now opened kept
  have hkept : kept = outlivesChange (s.bank b).closeWanted := (outlivesChange_eq _).symm
  have hbank : (s.rowOpened b w).bank b = opened := s.rowOpened_bank b w
  have hsame := ((s.moveTo_setBank_same w b opened).trans (State.progressOn_same (s.rowOpened b w) b))
  refine ⟨(s.rowOpened b w).progressOn b, congrArg _ (State.tOpenEnds_opening hst hw), hsame.mono (by decide),
    (State.progressOn_same (s.rowOpened b w) b).clock (by decide),
    (s.moveTo_setBank_banks w b opened).trans (State.progressOn_banks (s.rowOpened b w) b), fun hu => ?_,
    fun op p hc hb hwork hrow => ?_⟩
  · rw [State.progressOn_idle (s := s.rowOpened b w) hu]
    exact ⟨rfl, hbank⟩
  · rw [State.rowOpened_progressOn w hc hb hwork, hkept]
    have hst' : ((s.rowOpened b w).bank b).state = .opened := by rw [hbank]
    have hrow' : ((s.rowOpened b w).bank b).row = some p := by rw [hbank]; exact hrow
    have ho' : ((s.rowOpened b w).bank b).openedAt = some o := by rw [hbank]; exact ho
    refine ⟨fun hl => ?_, fun q more hl => ⟨fun hpast => ?_, fun hearly => ?_⟩⟩
    · rw [State.progressRows_last hst' hl hrow', hbank]
      exact ⟨rfl, State.bank_setBank_self _ _ _⟩
    · have hissued := State.progressRows_next_issued ho' hst' hl hrow' hpast
      rw [hbank] at hissued
      exact hissued
    · have hwaits := State.progressRows_next_waits ho' hst' hl hrow' hearly
      rw [hbank] at hwaits
      exact hwaits

/-! ## T_MINOPEN (R7, R9, R10) -/

theorem State.closeWaits_iff (s : State) (b : Bank) :
    s.closeWaits b = true ↔
      (s.bank b).state = .opened ∧
        ((s.inUse b = false ∧ (s.bank b).closeWanted ≠ none) ∨
          ∃ op, s.channel = some op ∧ op.bank = some b ∧
            (op.work = .refresh ∨ (s.bank b).row ≠ op.rowsLeft.head?)) := by
  unfold State.closeWaits State.inUse
  cases hc : s.channel with
  | none => simp [Option.isSome_iff_ne_none]
  | some op =>
    by_cases hb : op.bank = some b
    · simp [hb]
    · simp [hb, Option.isSome_iff_ne_none]

theorem State.tMinOpenEnds_waits {s : State} {b : Bank} {o : Time} (h : s.closeWaits b = true)
    (ho : (s.bank b).openedAt = some o) :
    s.tMinOpenEnds b =
      if s.inUse b then (s.moveTo (o + 36)).progress
      else (s.moveTo (o + 36)).setBank b (.closingFrom (later s.clock.now (o + 36))) := by
  unfold State.tMinOpenEnds
  rw [if_pos h, ho]
  rfl

theorem le_later_right (a b : Time) : b ≤ later a b := by
  unfold later
  split
  · exact Rat.le_refl
  · rename_i h
    exact Rat.le_of_lt (Rat.not_le.1 h)

/-- The operation that has the bank in use issues its close at the end of T_MINOPEN: a REFRESH, or a row change. -/
theorem State.tMinOpen_progress {s : State} {op : Operation} {b : Bank} {o : Time} (hc : s.channel = some op)
    (hb : op.bank = some b) (hst : (s.bank b).state = .opened) (ho : (s.bank b).openedAt = some o)
    (hpast : o + 36 ≤ s.clock.now)
    (h : op.work = .refresh ∨ ∃ p ps, op.rowsLeft = p :: ps ∧ (s.bank b).row ≠ some p) :
    (op.work = .refresh → s.progress.channel = s.channel) ∧
    (op.work ≠ .refresh →
      s.progress.channel = some { op with heldClose := outlivesChange (s.bank b).closeWanted }) ∧
    s.progress.bank b = .closingFrom s.clock.now := by
  by_cases hr : op.work = .refresh
  · rw [State.progress_of_refresh hc hb hr, State.progressRefresh_issued hst ho hpast]
    exact ⟨fun _ => rfl, fun hn => absurd hr hn, State.bank_setBank_self s b _⟩
  · obtain ⟨p, ps, hl, hrow⟩ := h.resolve_left hr
    rw [State.progress_of_rows hc hb hr]
    obtain ⟨hchannel, hbank⟩ := State.progressRows_other_issued ho hst hl hrow hpast
    exact ⟨fun hn => absurd hn hr, fun _ => hchannel, hbank⟩

/-- Settles O23: a close waits exactly where the statement says, and at `opened_at` + 36 ns it is issued. -/
theorem tMinOpenExpiryIssuesClose : Obligations.TMinOpenExpiryIssuesClose := by
  intro b s o hp
  rw [exec_on hp]
  refine ⟨fun hst ho hwaits => ?_, fun hno => congrArg _ (if_neg fun h => ?_)⟩
  · have hcw : s.closeWaits b = true := by
      refine (s.closeWaits_iff b).2 ⟨hst, hwaits.imp id ?_⟩
      rintro ⟨op, hc, hb, hr | ⟨p, ps, hl, hrow⟩⟩
      · exact ⟨op, hc, hb, .inl hr⟩
      · exact ⟨op, hc, hb, .inr (by simpa [hl] using hrow)⟩
    have hpast : o + 36 ≤ (s.moveTo (o + 36)).clock.now := le_later_right _ _
    refine ⟨_, congrArg _ (State.tMinOpenEnds_waits hcw ho), ?_⟩
    cases hu : s.inUse b with
    | false =>
      have hfree (op : Operation) (hc : s.channel = some op) (hb : op.bank = some b) : False := by
        simp [(s.inUse_iff b).2 ⟨op, hc, hb⟩] at hu
      exact ⟨(s.moveTo_setBank_same _ b _).mono (by decide), rfl, s.moveTo_setBank_banks _ b _, fun _ => rfl,
        fun op hc hb => (hfree op hc hb).elim, State.bank_setBank_self _ _ _⟩
    | true =>
      obtain ⟨op, hc, hb, hclose⟩ := hwaits.resolve_left fun h => absurd h.1 (by simp [hu])
      obtain ⟨hrefresh, hrows, hbank⟩ := State.tMinOpen_progress (s := s.moveTo (o + 36)) hc hb hst ho hpast hclose
      have hprog := State.progress_same (s.moveTo (o + 36))
      refine ⟨((s.moveTo_same _).trans hprog).mono (by decide), hprog.clock (by decide),
        State.progress_banks (s := s.moveTo (o + 36)) hc hb, fun h => absurd h (by simp), fun op' hc' _ => ?_, hbank⟩
      obtain rfl : op = op' := Option.some.inj (hc.symm.trans hc')
      rw [← outlivesChange_eq]
      exact ⟨hrefresh, hrows⟩
  · obtain ⟨hst, hwaits⟩ := (s.closeWaits_iff b).1 h
    obtain hno | ⟨hfree, hnone⟩ | ⟨op, p, ps, hc, hb, hwork, hl, hrow⟩ := hno
    · exact hno hst
    · obtain ⟨-, hsome⟩ | ⟨op, hc, hb, -⟩ := hwaits
      · exact hsome hnone
      · simp [(s.inUse_iff b).2 ⟨op, hc, hb⟩] at hfree
    · obtain ⟨hfree, -⟩ | ⟨op', hc', -, hr | hne⟩ := hwaits
      · simp [(s.inUse_iff b).2 ⟨op, hc, hb⟩] at hfree
      · obtain rfl : op = op' := Option.some.inj (hc.symm.trans hc')
        exact hwork hr
      · obtain rfl : op = op' := Option.some.inj (hc.symm.trans hc')
        exact hne (by rw [hl, hrow]; rfl)

/-! ## T_CLOSE (R7) -/

/-- `s` where T_CLOSE, or T_RF, has ended on bank `b` at `w`, before anything follows. -/
def State.bankClosed (s : State) (b : Bank) (w : Time) : State := (s.moveTo w).setBank b .initial

@[simp] theorem State.bankClosed_bank (s : State) (b : Bank) (w : Time) : (s.bankClosed b w).bank b = .initial :=
  State.bank_setBank_self _ _ _

theorem State.bankClosed_same (s : State) (b : Bank) (w : Time) : SameBut [.clock, .bankEngine] s (s.bankClosed b w) :=
  s.moveTo_setBank_same w b _

theorem State.tCloseEnds_closing {s : State} {b : Bank} {w : Time} (hst : (s.bank b).state = .closing)
    (hw : (s.bank b).windowEnd = some w) :
    s.tCloseEnds b = (((s.bankClosed b w).progressOn b).urgentClose b).furtherCloseAll := by
  unfold State.tCloseEnds
  rw [if_pos hst, State.atWindowEnd_eq hw]
  rfl

/-- Settles O24: the bank CLOSED, and then the progress of the operation that waits for it, if one does. -/
theorem tCloseExpiryClosesBank : Obligations.TCloseExpiryClosesBank := by
  intro b s w hp
  rw [exec_on hp]
  refine ⟨fun hst hw => ?_, fun hst => congrArg _ (if_neg hst)⟩
  intro now
  have hclosed : ((s.bankClosed b w).bank b).state = .closed := by rw [State.bankClosed_bank]; rfl
  have hprog := State.progressOn_same (s.bankClosed b w) b
  refine ⟨(s.bankClosed b w).progressOn b, congrArg _ (State.tCloseEnds_closing hst hw),
    ((s.bankClosed_same b w).trans hprog).mono (by decide), hprog.clock (by decide),
    (s.moveTo_setBank_banks w b _).trans (State.progressOn_banks (s.bankClosed b w) b), fun hu => ?_,
    fun op hc hb hr => ?_, fun op p ps hc hb hwork hl => ?_⟩
  · rw [State.progressOn_idle (s := s.bankClosed b w) hu]
    exact ⟨rfl, s.bankClosed_bank b w⟩
  · have hc' : (s.bankClosed b w).channel = some op := hc
    rw [State.progressOn_inUse hc' hb, State.progress_of_refresh hc' hb hr, State.progressRefresh_closed hclosed]
    exact ⟨rfl, State.bank_setBank_self _ _ _⟩
  · have hc' : (s.bankClosed b w).channel = some op := hc
    rw [State.progressOn_inUse hc' hb, State.progress_of_rows hc' hb hwork, State.progressRows_closed hclosed hl]
    exact ⟨rfl, State.bank_setBank_self _ _ _⟩

/-! ## T_IDLE (R8) -/

/-- Where the idle window runs, it runs from `last_access`. -/
theorem State.idleFrom_runs {s : State} {b : Bank} (hst : (s.bank b).state = .opened) (hu : s.inUse b = false)
    (hc : (s.bank b).closeWanted = none) : s.idleFrom b = (s.bank b).lastAccess := if_pos ⟨hst, hu, hc⟩

theorem State.idleFrom_stopped {s : State} {b : Bank}
    (h : (s.bank b).state ≠ .opened ∨ s.inUse b = true ∨ (s.bank b).closeWanted ≠ none) : s.idleFrom b = none := by
  refine if_neg ?_
  rintro ⟨hst, hu, hc⟩
  obtain h | h | h := h
  · exact h hst
  · simp [hu] at h
  · exact h hc

theorem State.tIdleEnds_runs {s : State} {b : Bank} {l : Time} (h : s.idleFrom b = some l) :
    s.tIdleEnds b = (s.moveTo (l + s.bankEngine.tIdle)).askClose .idle b := by
  unfold State.tIdleEnds
  rw [h]

theorem State.tIdleEnds_stopped {s : State} {b : Bank} (h : s.idleFrom b = none) : s.tIdleEnds b = s := by
  unfold State.tIdleEnds
  rw [h]

/-- Settles O25: the window runs, and its end asks for the close, or it does not. -/
theorem tIdleExpiryAsksClose : Obligations.TIdleExpiryAsksClose := by
  intro b s l hp
  rw [exec_on hp]
  refine ⟨fun hst hu hc hl => ?_, fun h => congrArg _ (State.tIdleEnds_stopped ?_)⟩
  · have hfrom : s.idleFrom b = some l := (State.idleFrom_runs hst hu hc).trans hl
    refine ⟨_, congrArg _ (State.tIdleEnds_runs hfrom),
      ((s.moveTo_same _).trans (State.askClose_same _ _ _)).mono (by decide), rfl,
      State.askClose_banks (s.moveTo _) .idle b, ?_⟩
    rw [State.askClose_bank, State.moveTo_inUse, hu]
    rfl
  · by_cases hrun : (s.bank b).state ≠ .opened ∨ s.inUse b = true ∨ (s.bank b).closeWanted ≠ none
    · exact State.idleFrom_stopped hrun
    · simp only [not_or, not_not, Bool.not_eq_true] at hrun
      obtain ⟨hst, hu, hc⟩ := hrun
      rw [State.idleFrom_runs hst hu hc]
      simpa [hst, hu, hc] using h

/-! ## T_RF and the refresh interval (R10, R54, R57) -/

/-- The claim a bank presents is always the one R59 gives: the three conditions exclude one another. -/
theorem State.claimFollows_always (s : State) (b : Bank) : s.claimFollows b := by
  unfold State.claimFollows State.claimOf
  dsimp only
  split
  · rename_i h
    simp [h, Int.not_lt.2 h]
  · rename_i h
    have h' := Int.not_le.1 h
    split
    · rename_i hneg
      simp [h, h', hneg, Int.not_le.2 hneg]
    · rename_i hneg
      split
      · rename_i hpull
        simp [h, h', hneg, Int.not_lt.1 hneg, hpull]
      · rename_i hpull
        simp only [reduceCtorEq, false_iff, h, hneg, and_false, true_and]
        exact fun ⟨_, _, hlt, hg⟩ => hpull ⟨hlt, hg⟩

theorem State.tRfEnds_refreshing {s : State} {b : Bank} {w : Time} (hst : (s.bank b).state = .refreshing)
    (hw : (s.bank b).windowEnd = some w) :
    s.tRfEnds b =
      ((s.bankClosed b w).setBalanceOf b ((s.balanceOf b).completed s.leff)).furtherCloseAll := by
  unfold State.tRfEnds
  rw [if_pos hst]
  dsimp only
  rw [State.atWindowEnd_eq hw]
  rfl

/-- Settles O26: the bank CLOSED, and its balance record that of a completed refresh. -/
theorem tRfExpiryCountsRefresh : Obligations.TRfExpiryCountsRefresh := by
  intro b s w hp
  rw [exec_on hp]
  refine ⟨fun hst hw _ => ?_, fun hst => congrArg _ (if_neg hst)⟩
  have hbalance := State.balanceOf_setBalanceOf_self (s.bankClosed b w) b ((s.balanceOf b).completed s.leff)
  refine ⟨_, congrArg _ (State.tRfEnds_refreshing hst hw),
    ((s.bankClosed_same b w).trans (State.setBalanceOf_same _ _ _)).mono (by decide), rfl,
    s.moveTo_setBank_banks w b _, State.setBalanceOf_balances (s.bankClosed b w) b _, s.bankClosed_bank b w, ?_, ?_,
    ?_, ?_, State.claimFollows_always _ b⟩
  all_goals rw [hbalance]
  · exact fun hlt => if_pos hlt
  · exact fun heq => (if_neg (by rw [heq]; exact Int.lt_irrefl _)).trans heq
  · exact Fin.val_add _ _
  · rfl

theorem Band.interval_nonneg (band : Band) : 0 ≤ band.interval := by cases band <;> simp [Band.interval]

/-- With a full interval begun at its own end, that interval remains (R54). -/
theorem State.remaining_full {s : State} {b : Bank} {band : Band}
    (h : (s.balanceOf b).due = s.clock.now + band.interval) : s.remaining b = band.interval := by
  unfold State.remaining later
  rw [h, add_sub_cancel_left, if_pos band.interval_nonneg]

/-- Settles O27: the record of an expired interval, and the close that an URGENT claim asks for. -/
theorem intervalExpiryLowersBalance : Obligations.IntervalExpiryLowersBalance := by
  intro b s hp
  rw [exec_on hp]
  let u := (s.moveTo (s.balanceOf b).due).setBalanceOf b ((s.balanceOf b).expired s.thermal.band)
  have hbalance : u.balanceOf b = (s.balanceOf b).expired s.thermal.band := State.balanceOf_setBalanceOf_self _ b _
  refine ⟨u, rfl, (s.moveTo_same _).trans (State.setBalanceOf_same _ _ _), rfl,
    State.setBalanceOf_balances (s.moveTo _) b _, ?_, ?_, fun hle => ?_, u.claimFollows_always b, ?_⟩
  · rw [hbalance]
    rfl
  · rw [hbalance]
    rfl
  · have hnow : u.clock.now = (s.balanceOf b).due := if_pos hle
    have hdue : (u.balanceOf b).due = u.clock.now + s.thermal.band.interval := by
      rw [hbalance, hnow]
      rfl
    rw [State.remaining_full hdue]
    cases s.thermal.band <;> rfl
  · unfold State.urgentClose State.urgent
    simp only [decide_eq_true_eq]

end Sys2Proof.Machine

/-! # The grant of a claim (R12, R13) -/

namespace Sys2Proof.Machine

/-! ## The mark a grant leaves with the requester -/

theorem State.noteGrant_port_same (s : State) {work : Work} (hw : work ≠ .sense) :
    SameBut [.port] s (s.noteGrant work) := by
  cases work with
  | lineRead line words wanted => exact s.setStage_same _
  | sense => exact absurd rfl hw
  | _ => exact .refl _ s

theorem State.noteGrant_port {s : State} {work : Work} (h : ∀ line words wanted, work ≠ .lineRead line words wanted) :
    (s.noteGrant work).port = s.port := by
  cases work with
  | lineRead line words wanted => exact absurd rfl (h line words wanted)
  | _ => rfl

/-- The head's LINE-READ claim has been granted (R150). -/
theorem State.noteGrant_reading {s : State} {taken : BitVec 32} {bytes : BitVec 256} {ws : List ReadWord}
    (line : Line) (words : List ReadWord) (wanted : Bool) (h : s.port.stage = some (.reading taken bytes ws false)) :
    (s.noteGrant (.lineRead line words wanted)).port =
      { s.port with stage := some (.reading taken bytes ws true) } := by
  simp only [State.noteGrant, State.setStage, h]
  rfl

/-- The channel held by an operation that has just been granted, before it acts on its bank. -/
def State.granted (s : State) (op : Operation) : State := (s.setChannel (some op)).noteGrant op.work

theorem State.granted_same (s : State) {op : Operation} (hw : op.work ≠ .sense) :
    SameBut [.channel, .port] s (s.granted op) :=
  (s.setChannel_same (some op)).trans (State.noteGrant_port_same _ hw)

theorem State.granted_channel (s : State) (op : Operation) : (s.granted op).channel = some op :=
  (State.noteGrant_same _ op.work).channel (by decide)

theorem State.grant_on_bank (s : State) (level : Nat) (b : Bank) (r : Option LogicalRow) (work : Work) :
    s.grant { level, bank := some b, logicalRow := r, work } =
      ((s.granted (s.operation { level, bank := some b, logicalRow := r, work })).progress).urgentClose b := rfl

/-- The operation of a claim on rows, as it is granted: every row it visits is still to be visited. -/
theorem State.operation_rows (s : State) (level : Nat) (b : Bank) (r : LogicalRow) (work : Work) :
    s.operation { level, bank := some b, logicalRow := some r, work } =
      { work, bank := some b, logicalRow := some r, rows := s.visits work b r, rowsLeft := s.visits work b r
        grantedAt := s.clock.now, heldClose := none } := rfl

/-! ## An operation that visits rows -/

theorem State.openFor_channel (s : State) (op : Operation) (b : Bank) (p : PhysicalRow) :
    (s.openFor op b p).channel = some { op with heldClose := none } := rfl

theorem State.openFor_bank (s : State) (op : Operation) (b : Bank) (p : PhysicalRow) :
    (s.openFor op b p).bank b = { BankRecord.openingRow p s.clock.now with closeWanted := op.heldClose } :=
  State.bank_setBank_self _ b _

/-- What the operation granted makes of an OPEN bank (R6, R9): it accesses its only row, or changes row. -/
theorem State.progressRows_opened {s : State} {op op' : Operation} {b : Bank} {p : PhysicalRow} {ps : List PhysicalRow}
    {o : Time} (hc : s.channel = some op) (hl : op.rowsLeft = p :: ps) (hst : (s.bank b).state = .opened)
    (ho : (s.bank b).openedAt = some o) (hop : (s.progressRows op b).channel = some op') :
    let a := s.bank b
    let kept := outlivesChange a.closeWanted
    (a.row = some p → ps = [] → op' = op ∧ (s.progressRows op b).bank b = { a with closeWanted := kept }) ∧
    ((a.row ≠ some p ∨ ps ≠ []) →
      op'.rowsLeft = (if a.row = some p then ps else p :: ps) ∧
      (o + 36 ≤ s.clock.now → op'.heldClose = kept ∧ (s.progressRows op b).bank b = .closingFrom s.clock.now) ∧
      (s.clock.now < o + 36 →
        op'.heldClose = op.heldClose ∧ (a.row ≠ some p → (s.progressRows op b).bank b = a) ∧
        (a.row = some p →
          (s.progressRows op b).bank b = { a with closeWanted := kept, lastAccess := some s.clock.now }))) := by
  intro a kept
  by_cases hrow : a.row = some p
  · cases ps with
    | nil =>
      rw [State.progressRows_last hst hl hrow] at hop ⊢
      refine ⟨fun _ _ => ⟨Option.some.inj (hop.symm.trans hc), State.bank_setBank_self s b _⟩, fun h => ?_⟩
      simp [hrow] at h
    | cons q more =>
      refine ⟨fun _ h => absurd h (by simp), fun _ => ?_⟩
      rw [if_pos hrow]
      by_cases hpast : o + 36 ≤ s.clock.now
      · obtain ⟨hchannel, hbank⟩ := State.progressRows_next_issued ho hst hl hrow hpast
        obtain rfl := Option.some.inj (hchannel.symm.trans hop)
        exact ⟨rfl, fun _ => ⟨rfl, hbank⟩, fun h => absurd hpast (Rat.not_le.2 h)⟩
      · obtain ⟨hchannel, hbank⟩ := State.progressRows_next_waits ho hst hl hrow (Rat.not_le.1 hpast)
        obtain rfl := Option.some.inj (hchannel.symm.trans hop)
        exact ⟨rfl, fun h => absurd h hpast, fun _ => ⟨rfl, fun h => absurd hrow h, fun _ => hbank⟩⟩
  · refine ⟨fun h => absurd h hrow, fun _ => ?_⟩
    rw [if_neg hrow]
    by_cases hpast : o + 36 ≤ s.clock.now
    · obtain ⟨hchannel, hbank⟩ := State.progressRows_other_issued ho hst hl hrow hpast
      obtain rfl := Option.some.inj (hchannel.symm.trans hop)
      exact ⟨hl, fun _ => ⟨rfl, hbank⟩, fun h => absurd hpast (Rat.not_le.2 h)⟩
    · have hwaits := State.progressRows_other_waits ho hst hl hrow (Rat.not_le.1 hpast)
      rw [hwaits] at hop ⊢
      obtain rfl := Option.some.inj hop
      exact ⟨hl, fun h => absurd h hpast, fun _ => ⟨rfl, fun _ => rfl, fun h => absurd h hrow⟩⟩

/-- Settles O19: the operation is granted as the lookup gives its rows, and then acts on its bank. -/
theorem grantOpensOrChangesRow : Obligations.GrantOpensOrChangesRow := by
  intro s level b r work p ps o hrefresh hsense hv a kept
  have hkept : kept = outlivesChange a.closeWanted := (outlivesChange_eq _).symm
  let op : Operation :=
    { work, bank := some b, logicalRow := some r, rows := p :: ps, rowsLeft := p :: ps, grantedAt := s.clock.now
      heldClose := none }
  have hop : s.operation { level, bank := some b, logicalRow := some r, work } = op := by
    rw [State.operation_rows, hv]
  have hsame : SameBut [.channel, .port] s (s.granted op) := s.granted_same hsense
  have hbank : (s.granted op).bank b = a := hsame.bank b (by decide)
  have hnow : (s.granted op).clock.now = s.clock.now := by rw [hsame.clock (by decide)]
  have hchannel : (s.granted op).channel = some op := s.granted_channel op
  have hrows : (s.granted op).progress = (s.granted op).progressRows op b :=
    State.progress_of_rows hchannel rfl hrefresh
  obtain ⟨left, held, hafter⟩ := State.progressRows_channel b hchannel
  have hprog := State.progressRows_same (s.granted op) op b
  refine ⟨(s.granted op).progressRows op b, { op with rowsLeft := left, heldClose := held },
    ?_, (hsame.trans hprog).mono (by decide), (hsame.banks b (by decide)).trans (State.progressRows_banks _ op b),
    hafter, rfl, rfl, rfl, rfl, rfl, fun h => ?_, fun line words wanted taken bytes ws hw hstage => ?_, fun hst => ?_,
    fun hst => ?_, fun hst ho => ?_⟩
  · rw [State.grant_on_bank, hop, hrows]
  · rw [hprog.port (by decide)]
    exact State.noteGrant_port h
  · rw [hprog.port (by decide)]
    subst hw
    exact State.noteGrant_reading line words wanted hstage
  · rw [State.progressRows_closed (hbank ▸ hst) rfl] at hafter ⊢
    obtain ⟨rfl, rfl⟩ : p :: ps = left ∧ none = held := by simpa [op, State.openFor_channel] using hafter
    refine ⟨rfl, rfl, ?_⟩
    rw [State.openFor_bank, hnow]
    rfl
  · rw [State.progressRows_closing (hbank ▸ hst)] at hafter ⊢
    obtain ⟨rfl, rfl⟩ : p :: ps = left ∧ none = held := by simpa [op, hchannel] using hafter
    exact ⟨rfl, rfl, hbank⟩
  · have key := State.progressRows_opened hchannel rfl (hbank ▸ hst) (hbank ▸ ho) hafter
    dsimp only at key
    rw [hbank, hnow, ← hkept] at key
    obtain ⟨honly, hchange⟩ := key
    refine ⟨fun hrow hps => ?_, hchange⟩
    obtain ⟨heq, hrec⟩ := honly hrow hps
    obtain ⟨hleft, hheld⟩ : left = p :: ps ∧ held = none := by simpa [op] using heq
    exact ⟨by rw [hleft, hps], hheld, hrec⟩

/-! ## A REFRESH and the SENSE -/

/-- Settles O20: the REFRESH acts on its bank as its state asks; the SENSE touches none. -/
theorem grantOfRefreshAndSense : Obligations.GrantOfRefreshAndSense := by
  refine ⟨fun s level b o _ => ?_, fun s level => ?_⟩
  · let op : Operation := s.operation { level, bank := some b, logicalRow := none, work := .refresh }
    let v := s.setChannel (some op)
    have hrows : v.progress = v.progressRefresh b := State.progress_of_refresh (op := op) rfl rfl rfl
    refine ⟨v.progressRefresh b, congrArg (State.urgentClose · b) hrows,
      ((s.setChannel_same _).trans (v.progressRefresh_same b)).mono (by decide), v.progressRefresh_banks b,
      fun hst => ?_, fun hst => ⟨op, State.progressRefresh_channel (s := v) hst, rfl, rfl, rfl⟩, fun hst => ?_,
      fun hst ho => ⟨fun hpast => ?_, fun hearly => ?_⟩⟩
    · rw [State.progressRefresh_closed (s := v) hst]
      exact ⟨rfl, State.bank_setBank_self v b _⟩
    · rw [State.progressRefresh_closing (s := v) hst]
      rfl
    · rw [State.progressRefresh_issued (s := v) hst ho hpast]
      exact State.bank_setBank_self v b _
    · rw [State.progressRefresh_waits (s := v) hst ho hearly]
      rfl
  · exact ⟨_, s.operation { level, bank := none, logicalRow := none, work := .sense }, rfl,
      (s.setChannel_same _).trans (State.setEngine_same _ _), rfl, rfl, rfl, rfl, rfl⟩

end Sys2Proof.Machine

/-! # The arbiter's choice (R17, R18, R19) and the bit changes before a grant (R26) -/

namespace Sys2Proof.Machine

/-! ## The first of the lowest -/

/-- One more element considered: it replaces the best so far where it is ranked before it. -/
def better {α : Type} (before : α → α → Bool) (best : Option α) (x : α) : Option α :=
  match best with
  | none => some x
  | some c => if before x c then some x else best

/-- The choice made over `l`: none of an empty list, and otherwise an element that no other is ranked before, the lowest
of those that it is not ranked before. -/
def IsFirst {α : Type} [LE α] (before : α → α → Bool) (l : List α) : Option α → Prop
  | none => l = []
  | some c => c ∈ l ∧ ∀ d ∈ l, before d c = false ∧ (before c d = false → c ≤ d)

/-- Over a rising list `better` makes that choice, where `before` is a strict weak order: asymmetric, and negatively
transitive. -/
theorem foldl_better {α : Type} [LinearOrder α] {before : α → α → Bool}
    (hasymm : ∀ x y, before x y = true → before y x = false)
    (hneg : ∀ x y z, before x z = true → before x y = true ∨ before y z = true) (l : List α)
    (hl : l.Pairwise (· < ·)) : IsFirst before l (l.foldl (better before) none) := by
  have hirrefl (y : α) : before y y = false := by
    cases h : before y y with
    | false => rfl
    | true => exact h ▸ hasymm y y h
  induction l using List.reverseRecOn with
  | nil => rfl
  | append_singleton l x ih =>
    obtain ⟨hl', -, hlt⟩ := List.pairwise_append.1 hl
    have hbelow (d : α) (hd : d ∈ l) : d < x := hlt d hd x (List.mem_singleton_self x)
    have ih := ih hl'
    rw [List.foldl_append, List.foldl_cons, List.foldl_nil]
    cases hbest : l.foldl (better before) none with
    | none =>
      obtain rfl : l = [] := by rwa [hbest] at ih
      simp [better, IsFirst, hirrefl]
    | some c =>
      rw [hbest] at ih
      obtain ⟨hc, hmin⟩ := ih
      by_cases hx : before x c = true
      · have hnew : better before (some c) x = some x := if_pos hx
        rw [hnew]
        refine ⟨by simp, fun d hd => ?_⟩
        obtain hd | rfl : d ∈ l ∨ d = x := by simpa using hd
        · have hxd : before x d = true := (hneg x d c hx).resolve_right (by simp [(hmin d hd).1])
          exact ⟨hasymm x d hxd, fun h => absurd hxd (by simp [h])⟩
        · exact ⟨hirrefl d, fun _ => le_rfl⟩
      · have hold : better before (some c) x = some c := if_neg hx
        rw [hold]
        refine ⟨by simp [hc], fun d hd => ?_⟩
        obtain hd | rfl : d ∈ l ∨ d = x := by simpa using hd
        · exact hmin d hd
        · exact ⟨by simpa using hx, fun _ => (hbelow c hc).le⟩

/-! ## The ranking of the refresh claims (R19) -/

/-- The ranking of R19 on two banks: by balance, and at level 6 a CLOSED bank before any other. -/
theorem State.ranksBefore_iff (s : State) (kind : RefreshClaim) (x y : Bank) :
    s.ranksBefore kind x y = true ↔
      (kind ≠ .pullIn ∧ (s.balanceOf x).balance < (s.balanceOf y).balance) ∨
      (kind = .pullIn ∧
        (((s.bank x).state = .closed ∧ (s.bank y).state ≠ .closed) ∨
          (((s.bank x).state = .closed ↔ (s.bank y).state = .closed) ∧
            (s.balanceOf x).balance < (s.balanceOf y).balance))) := by
  unfold State.ranksBefore
  by_cases hk : kind = .pullIn
  · by_cases hx : (s.bank x).state = .closed <;> by_cases hy : (s.bank y).state = .closed <;> simp [hk, hx, hy]
  · simp [hk]

theorem State.ranksBefore_asymm (s : State) (kind : RefreshClaim) (x y : Bank) (h : s.ranksBefore kind x y = true) :
    s.ranksBefore kind y x = false := by
  rw [← Bool.not_eq_true, s.ranksBefore_iff]
  obtain ⟨hk, hlt⟩ | ⟨hk, ⟨hx, hy⟩ | ⟨hxy, hlt⟩⟩ := (s.ranksBefore_iff kind x y).1 h
  · simp [hk, hlt.le]
  · simp [hk, hx, hy]
  · simp [hk, hxy, hlt.le]

theorem State.ranksBefore_negTrans (s : State) (kind : RefreshClaim) (x y z : Bank)
    (h : s.ranksBefore kind x z = true) : s.ranksBefore kind x y = true ∨ s.ranksBefore kind y z = true := by
  have hbalance : (s.balanceOf x).balance < (s.balanceOf z).balance →
      (s.balanceOf x).balance < (s.balanceOf y).balance ∨ (s.balanceOf y).balance < (s.balanceOf z).balance := by omega
  simp only [s.ranksBefore_iff] at h ⊢
  tauto

/-- The banks whose refresh claims of a kind are eligible, in rising order. -/
def State.claimants (s : State) (kind : RefreshClaim) : List Bank :=
  allBanks.filter fun b => decide (s.claimOf b = some kind) && s.eligibleBank b

theorem State.mem_claimants (s : State) (kind : RefreshClaim) (b : Bank) :
    b ∈ s.claimants kind ↔ s.claimOf b = some kind ∧ (s.bank b).state ≠ .refreshing := by
  simp [State.claimants, State.eligibleBank, mem_allBanks]

theorem State.pickBank_eq (s : State) (kind : RefreshClaim) :
    s.pickBank kind = (s.claimants kind).foldl (better (s.ranksBefore kind)) none := by
  unfold State.pickBank State.claimants
  congr
  funext best b
  cases best <;> rfl

/-- The arbiter's choice among the eligible claims of a kind is the first of R19's ranking. -/
theorem State.pickBank_first (s : State) (kind : RefreshClaim) :
    IsFirst (s.ranksBefore kind) (s.claimants kind) (s.pickBank kind) := by
  rw [State.pickBank_eq]
  exact foldl_better (s.ranksBefore_asymm kind) (s.ranksBefore_negTrans kind) (s.claimants kind)
    (List.Pairwise.filter _ (List.pairwise_lt_finRange 16))

theorem State.pickBank_some {s : State} {kind : RefreshClaim} {b : Bank} (h : s.pickBank kind = some b) :
    b ∈ s.claimants kind ∧
      ∀ c ∈ s.claimants kind, s.ranksBefore kind c b = false ∧ (s.ranksBefore kind b c = false → b ≤ c) := by
  have hfirst := s.pickBank_first kind
  rw [h] at hfirst
  exact hfirst

theorem State.pickBank_none {s : State} {kind : RefreshClaim} (h : s.pickBank kind = none) : s.claimants kind = [] := by
  have hfirst := s.pickBank_first kind
  rw [h] at hfirst
  exact hfirst

/-- Settles O17: the first of R19's ranking, read off the two orders of the choice. -/
theorem refreshClaimsAreRanked : Obligations.RefreshClaimsAreRanked := by
  refine fun s kind => ⟨fun b hb => ?_, fun h c hc => ?_⟩
  · obtain ⟨hmem, hfirst⟩ := State.pickBank_some hb
    refine ⟨(s.mem_claimants kind b).1 hmem, fun c hc hne => ?_⟩
    obtain ⟨hafter, hequal⟩ := hfirst c ((s.mem_claimants kind c).2 hc)
    have hlt (h : s.ranksBefore kind b c = false) : b < c := lt_of_le_of_ne (hequal h) (Ne.symm hne)
    rw [← Bool.not_eq_true, s.ranksBefore_iff] at hafter
    rw [← Bool.not_eq_true, s.ranksBefore_iff] at hlt
    have lower (h1 : ¬ (s.balanceOf c).balance < (s.balanceOf b).balance)
        (h2 : ¬ (s.balanceOf b).balance < (s.balanceOf c).balance → b < c) :
        (s.balanceOf b).balance < (s.balanceOf c).balance ∨
          ((s.balanceOf b).balance = (s.balanceOf c).balance ∧ b < c) := by
      by_cases h : (s.balanceOf b).balance < (s.balanceOf c).balance
      · exact .inl h
      · exact .inr ⟨le_antisymm (not_lt.1 h1) (not_lt.1 h), h2 h⟩
    refine ⟨fun hk => ?_, fun hk => ?_⟩
    · exact lower (fun h => hafter (.inl ⟨hk, h⟩)) fun h => hlt (by simp [hk, h])
    · by_cases heq : (s.bank b).state = .closed ↔ (s.bank c).state = .closed
      · exact .inr ⟨heq, lower (fun h => hafter (.inr ⟨hk, .inr ⟨heq.symm, h⟩⟩)) fun h => hlt (by simp [hk, heq, h])⟩
      · by_cases hbc : (s.bank b).state = .closed
        · exact .inl ⟨hbc, fun hcc => heq (by simp [hbc, hcc])⟩
        · have hcc : (s.bank c).state = .closed := by simpa [hbc] using heq
          exact absurd (.inr ⟨hk, .inl ⟨hcc, hbc⟩⟩) hafter
  · have hmem := (s.mem_claimants kind c).2 hc
    rw [State.pickBank_none h] at hmem
    cases hmem

end Sys2Proof.Machine

/-! # The claim granted, and the bit changes before it -/

namespace Sys2Proof.Machine

/-! ## The claims, level by level -/

theorem State.eligibleBank_iff (s : State) (b : Bank) : s.eligibleBank b = true ↔ (s.bank b).state ≠ .refreshing :=
  decide_eq_true_iff

/-- A claim is eligible where its bank, if it has one, is not REFRESHING (R16). -/
theorem State.eligible_iff (s : State) (c : Claim) :
    s.eligible c = true ↔ ∀ b, c.bank = some b → (s.bank b).state ≠ .refreshing := by
  unfold State.eligible
  cases c.bank with
  | none => simp
  | some b => simp [State.eligibleBank_iff]

/-- The claim a refresh claim of a bank is. -/
def RefreshClaim.claim (kind : RefreshClaim) (b : Bank) : Claim :=
  { level := kind.level, bank := some b, logicalRow := none, work := .refresh }

theorem State.eligible_refresh (s : State) (kind : RefreshClaim) (b : Bank) :
    s.eligible (kind.claim b) = true ↔ (s.bank b).state ≠ .refreshing := s.eligibleBank_iff b

theorem State.pickRefresh_some {s : State} {kind : RefreshClaim} {c : Claim} (h : s.pickRefresh kind = some c) :
    ∃ b, s.pickBank kind = some b ∧ s.claimOf b = some kind ∧ s.eligible c = true ∧ c = kind.claim b := by
  obtain ⟨b, hb, rfl⟩ := Option.map_eq_some_iff.1 h
  obtain ⟨hclaim, hst⟩ := (s.mem_claimants kind b).1 (State.pickBank_some hb).1
  exact ⟨b, hb, hclaim, (s.eligible_refresh kind b).2 hst, rfl⟩

theorem State.pickRefresh_none {s : State} {kind : RefreshClaim} (h : s.pickRefresh kind = none) {b : Bank}
    (hb : s.claimOf b = some kind) : s.eligible (kind.claim b) = false := by
  rw [← Bool.not_eq_true, State.eligible_refresh]
  intro hst
  have hmem := (s.mem_claimants kind b).2 ⟨hb, hst⟩
  rw [State.pickBank_none (Option.map_eq_none_iff.1 h)] at hmem
  cases hmem

theorem State.senseClaim_some {s : State} {c : Claim} (h : s.senseClaim = some c) : c.level = 1 ∧ c.bank = none := by
  unfold State.senseClaim at h
  split at h
  · obtain rfl := Option.some.inj h
    exact ⟨rfl, rfl⟩
  · cases h

theorem State.readClaim_level {s : State} {c : Claim} (h : s.readClaim = some c) : c.level = 2 := by
  unfold State.readClaim at h
  split at h
  · obtain rfl := Option.some.inj h
    rfl
  · cases h

theorem State.drainClaim_level {s : State} {c : Claim} (h : s.drainClaim = some c) : c.level = 2 := by
  unfold State.drainClaim at h
  split at h
  · cases h
  · split at h
    · cases h
    · obtain rfl := Option.some.inj h
      rfl

theorem Job.claim_level (j : Job) : j.claim.level = 3 ∨ j.claim.level = 5 ∨ j.claim.level = 7 := by
  cases j <;> simp [Job.claim]

theorem State.stepClaim_level {s : State} {c : Claim} (h : s.stepClaim = some c) :
    c.level = 3 ∨ c.level = 5 ∨ c.level = 7 := by
  unfold State.stepClaim at h
  split at h
  · obtain ⟨j, -, rfl⟩ := Option.map_eq_some_iff.1 h
    exact j.claim_level
  · cases h

theorem State.pickStep_some {s : State} {n : Nat} {c : Claim} (h : s.pickStep n = some c) :
    s.stepClaim = some c ∧ c.level = n ∧ s.eligible c = true := by
  unfold State.pickStep at h
  simpa using h

theorem State.pickStep_none {s : State} {n : Nat} {c : Claim} (h : s.pickStep n = none) (hc : s.stepClaim = some c)
    (hn : c.level = n) : s.eligible c = false := by
  unfold State.pickStep at h
  simpa [hc, hn] using h

/-! ## Level 2 (R18) -/

theorem State.pickTraffic_some {s : State} {c : Claim} (h : s.pickTraffic = some c) :
    (s.readClaim = some c ∨ s.drainClaim = some c) ∧ s.eligible c = true := by
  unfold State.pickTraffic at h
  dsimp only at h
  split at h <;> obtain h | ⟨-, h⟩ := Option.or_eq_some_iff.1 h <;> obtain ⟨hc, he⟩ := Option.filter_eq_some_iff.1 h
  · exact ⟨.inr hc, he⟩
  · exact ⟨.inl hc, he⟩
  · exact ⟨.inl hc, he⟩
  · exact ⟨.inr hc, he⟩

theorem State.pickTraffic_none {s : State} {c : Claim} (h : s.pickTraffic = none)
    (hc : s.readClaim = some c ∨ s.drainClaim = some c) : s.eligible c = false := by
  have hnone : s.readClaim.filter s.eligible = none ∧ s.drainClaim.filter s.eligible = none := by
    unfold State.pickTraffic at h
    dsimp only at h
    split at h <;> obtain ⟨h1, h2⟩ := Option.or_eq_none_iff.1 h
    · exact ⟨h2, h1⟩
    · exact ⟨h1, h2⟩
  obtain hc | hc := hc
  · simpa [hc] using hnone.1
  · simpa [hc] using hnone.2

/-- Where both claims of level 2 are eligible, R18 decides between them. -/
theorem State.pickTraffic_both {s : State} {r d : Claim} (hr : s.readClaim = some r) (hd : s.drainClaim = some d)
    (er : s.eligible r = true) (ed : s.eligible d = true) : s.pickTraffic = some (if s.drainFirst then d else r) := by
  unfold State.pickTraffic
  dsimp only
  rw [hr, hd]
  split <;> simp [Option.filter, er, ed]

theorem State.drainFirst_iff (s : State) :
    s.drainFirst = true ↔
      s.buffer.entries.length = 8 ∨ s.port.queue.head? = some .flush ∨ s.port.stage = some .waitingEntry := by
  simp only [State.drainFirst, State.waitingWrite, Bool.or_eq_true, decide_eq_true_eq, or_assoc]
  rfl

/-! ## The lowest level (R17) -/

/-- The claim the arbiter takes at a level, if an eligible one stands there. -/
def State.pickAt (s : State) : Nat → Option Claim
  | 0 => s.pickRefresh .urgent
  | 1 => s.senseClaim
  | 2 => s.pickTraffic
  | 3 => s.pickStep 3
  | 4 => s.pickRefresh .due
  | 5 => s.pickStep 5
  | 6 => s.pickRefresh .pullIn
  | 7 => s.pickStep 7
  | _ => none

/-- The arbiter takes the claim of the lowest level that has an eligible one (R17). -/
theorem State.pickClaim_some {s : State} {c : Claim} (h : s.pickClaim = some c) :
    ∃ n, s.pickAt n = some c ∧ ∀ m < n, s.pickAt m = none := by
  unfold State.pickClaim at h
  simp only [Option.or_eq_some_iff] at h
  obtain h0 | ⟨n0, h1 | ⟨n1, h2 | ⟨n2, h3 | ⟨n3, h4 | ⟨n4, h5 | ⟨n5, h6 | ⟨n6, h7⟩⟩⟩⟩⟩⟩⟩ := h
  · exact ⟨0, h0, fun m hm => by omega⟩
  · exact ⟨1, h1, fun m hm => by interval_cases m; exact n0⟩
  · exact ⟨2, h2, fun m hm => by interval_cases m <;> assumption⟩
  · exact ⟨3, h3, fun m hm => by interval_cases m <;> assumption⟩
  · exact ⟨4, h4, fun m hm => by interval_cases m <;> assumption⟩
  · exact ⟨5, h5, fun m hm => by interval_cases m <;> assumption⟩
  · exact ⟨6, h6, fun m hm => by interval_cases m <;> assumption⟩
  · exact ⟨7, h7, fun m hm => by interval_cases m <;> assumption⟩

theorem State.pickClaim_none {s : State} (h : s.pickClaim = none) (n : Nat) : s.pickAt n = none := by
  unfold State.pickClaim at h
  simp only [Option.or_eq_none_iff] at h
  obtain ⟨n0, n1, n2, n3, n4, n5, n6, n7⟩ := h
  match n with
  | 0 => exact n0
  | 1 => exact n1
  | 2 => exact n2
  | 3 => exact n3
  | 4 => exact n4
  | 5 => exact n5
  | 6 => exact n6
  | 7 => exact n7
  | n + 8 => rfl

theorem State.pickAt_refresh (s : State) (kind : RefreshClaim) : s.pickAt kind.level = s.pickRefresh kind := by
  cases kind <;> rfl

theorem State.pickAt_step (s : State) {n : Nat} (h : n = 3 ∨ n = 5 ∨ n = 7) : s.pickAt n = s.pickStep n := by
  obtain rfl | rfl | rfl := h <;> rfl

/-- A level at which the arbiter takes a claim is that of a refresh, of the SENSE, of traffic, or of a step. -/
theorem State.pickAt_levels {s : State} {n : Nat} {c : Claim} (h : s.pickAt n = some c) :
    (∃ kind : RefreshClaim, n = kind.level) ∨ n = 1 ∨ n = 2 ∨ n = 3 ∨ n = 5 ∨ n = 7 := by
  match n with
  | 0 => exact .inl ⟨.urgent, rfl⟩
  | 4 => exact .inl ⟨.due, rfl⟩
  | 6 => exact .inl ⟨.pullIn, rfl⟩
  | 1 | 2 | 3 | 5 | 7 => simp
  | n + 8 => cases h

theorem State.pickAt_some {s : State} {n : Nat} {c : Claim} (h : s.pickAt n = some c) :
    s.stands c ∧ s.eligible c = true ∧ c.level = n := by
  obtain ⟨kind, rfl⟩ | rfl | rfl | hn := State.pickAt_levels h
  · rw [State.pickAt_refresh] at h
    obtain ⟨b, -, hb, he, rfl⟩ := State.pickRefresh_some h
    exact ⟨.inr (.inr (.inr (.inr ⟨b, kind, hb, rfl⟩))), he, rfl⟩
  · obtain ⟨hl, hb⟩ := State.senseClaim_some h
    exact ⟨.inl h, by simp [State.eligible, hb], hl⟩
  · obtain ⟨hr | hd, he⟩ := State.pickTraffic_some h
    · exact ⟨.inr (.inl hr), he, State.readClaim_level hr⟩
    · exact ⟨.inr (.inr (.inl hd)), he, State.drainClaim_level hd⟩
  · rw [State.pickAt_step s hn] at h
    obtain ⟨hstep, hl, he⟩ := State.pickStep_some h
    exact ⟨.inr (.inr (.inr (.inl hstep))), he, hl⟩

/-- A claim that stands and is eligible is taken at its level, or another is. -/
theorem State.pickAt_standing {s : State} {d : Claim} (hd : s.stands d) (he : s.eligible d = true) :
    s.pickAt d.level ≠ none := by
  intro h
  have hnot (hf : s.eligible d = false) : False := by simp [he] at hf
  obtain hd | hd | hd | hd | ⟨b, kind, hb, rfl⟩ := hd
  · rw [(State.senseClaim_some hd).1] at h
    cases hd.symm.trans h
  · rw [State.readClaim_level hd] at h
    exact hnot (State.pickTraffic_none h (.inl hd))
  · rw [State.drainClaim_level hd] at h
    exact hnot (State.pickTraffic_none h (.inr hd))
  · rw [State.pickAt_step s (State.stepClaim_level hd)] at h
    exact hnot (State.pickStep_none h hd rfl)
  · exact hnot (State.pickRefresh_none ((s.pickAt_refresh kind).symm.trans h) hb)

/-! ## The grant and the bit changes before it -/

theorem State.grantNext_some {s : State} {c : Claim} (cs : List BitChange) (hf : s.channel = none)
    (hc : s.pickClaim = some c) : s.grantNext cs = (s.changeAll cs).grant c := by
  unfold State.grantNext
  rw [hf, hc]

theorem State.grantNext_none {s : State} (cs : List BitChange) (h : s.channel ≠ none ∨ s.pickClaim = none) :
    s.grantNext cs = s := by
  unfold State.grantNext
  split
  · rename_i hf hc
    obtain h | h := h
    · exact absurd hf h
    · cases hc.symm.trans h
  · rfl

/-- A bit change inverts the bits it names of the word it names, and no other (R26). -/
theorem State.changeBits_word {s : State} (hs : s.memoryOk) (c : BitChange) (b : Bank) (p : PhysicalRow)
    (w : WordInRow) :
    (s.changeBits c).word b p w =
      if c.bank = b ∧ c.row = p ∧ c.word = w then { s.word b p w with changed := (s.word b p w).changed ^^^ c.changed }
      else s.word b p w := by
  split
  · rename_i h
    obtain ⟨rfl, rfl, rfl⟩ := h
    exact s.word_writeWord_self c.bank c.row c.word _ hs
  · rename_i h
    exact s.word_writeWord_ne _ fun ⟨hb, hp, hw⟩ => h ⟨hb.symm, hp.symm, hw.symm⟩

/-- The changes of a grant, one after another: each word takes those that name it, in order. -/
theorem State.changeAll_word {s : State} (hs : s.memoryOk) (cs : List BitChange) (b : Bank) (p : PhysicalRow)
    (w : WordInRow) :
    (s.changeAll cs).word b p w =
      { s.word b p w with
        changed :=
          (cs.filter fun c => decide (c.bank = b ∧ c.row = p ∧ c.word = w)).foldl (fun bits c => bits ^^^ c.changed)
            (s.word b p w).changed } := by
  induction cs generalizing s with
  | nil => rfl
  | cons c cs ih =>
    have hrest := ih (s := s.changeBits c) (s.changeBits_wf c hs)
    have hhead := State.changeBits_word hs c b p w
    have hall : s.changeAll (c :: cs) = (s.changeBits c).changeAll cs := rfl
    rw [hall, hrest, hhead, List.filter_cons]
    split <;> rename_i h <;> simp [h]

/-- Settles O15: the arbiter's levels one by one, and the bit changes word by word. -/
theorem grantTakesLowestLevel : Obligations.GrantTakesLowestLevel := by
  intro changes s hp
  rw [exec_on hp]
  intro eligible
  have helig (c : Claim) : eligible c ↔ s.eligible c = true := (s.eligible_iff c).symm
  refine ⟨?granted, ?kept, s.changeAll_same changes, fun hs b p w => State.changeAll_word hs changes b p w⟩
  case granted =>
    rintro hf ⟨d, hd, he⟩
    cases hpick : s.pickClaim with
    | none => exact absurd (State.pickClaim_none hpick _) (State.pickAt_standing hd ((helig d).1 he))
    | some c =>
      obtain ⟨n, hn, hbelow⟩ := State.pickClaim_some hpick
      obtain ⟨hstands, hc, rfl⟩ := State.pickAt_some hn
      have hbank (kind : RefreshClaim) (hl : c.level = kind.level) : c.bank = s.pickBank kind := by
        rw [hl, State.pickAt_refresh] at hn
        obtain ⟨b, hb, -, -, rfl⟩ := State.pickRefresh_some hn
        exact hb.symm
      refine ⟨c, hstands, (helig c).2 hc, fun d hd he => ?_,
        fun _ => ⟨hbank .urgent, hbank .due, hbank .pullIn⟩, fun r d hr hd er ed hl => ?_,
        congrArg _ (State.grantNext_some changes hf hpick)⟩
      · by_contra hlt
        exact State.pickAt_standing hd ((helig d).1 he) (hbelow _ (Nat.lt_of_not_le hlt))
      · rw [hl] at hn
        have hboth := (State.pickTraffic_both hr hd ((helig r).1 er) ((helig d).1 ed)).symm.trans hn
        rw [← s.drainFirst_iff]
        exact ⟨fun h => by simpa [h] using hboth.symm, fun h => by simpa [h] using hboth.symm⟩
  case kept =>
    intro h
    refine congrArg _ (State.grantNext_none changes (h.imp id fun hnone => ?_))
    cases hpick : s.pickClaim with
    | none => rfl
    | some c =>
      obtain ⟨n, hn, -⟩ := State.pickClaim_some hpick
      obtain ⟨hstands, hc, -⟩ := State.pickAt_some hn
      exact absurd ((helig c).2 hc) (hnone c hstands)

end Sys2Proof.Machine

/-! # The reading, the settings, and the state after power-on reset -/

namespace Sys2Proof.Machine

/-! ## The reading taken at the end of T_SENSE (R158, R160, R162) -/

/-- The band a reading falls in, by its temperatures. -/
theorem bandOfReading_eq_iff (t : Int) (band : Band) :
    bandOfReading t = band ↔
      match band with
      | .cool => t ≤ 40
      | .normal => 41 ≤ t ∧ t ≤ 85
      | .warm => 86 ≤ t ∧ t ≤ 95
      | .hot => 96 ≤ t ∧ t ≤ 105
      | .critical => 106 ≤ t := by
  unfold bandOfReading
  cases band <;> dsimp only <;> split_ifs <;> simp <;> omega

/-- A temperature low enough to leave a band for a cooler one falls in a cooler band. -/
theorem bandOfReading_rank_lt {t : Int} {band : Band} (hb : band ≠ .cool) (h : t ≤ band.lowest - 3) :
    (bandOfReading t).rank < band.rank := by
  unfold bandOfReading
  cases band with
  | cool => exact absurd rfl hb
  | _ =>
    simp only [Band.lowest] at h
    split_ifs <;> simp only [Band.rank] <;> omega

theorem Thermal.nextBand_taken {m : Thermal} {t : Int}
    (h : m.directNext = true ∨ m.band.rank < (bandOfReading t).rank ∨ (m.band ≠ .cool ∧ t ≤ m.band.lowest - 3)) :
    m.nextBand t = bandOfReading t := by
  unfold Thermal.nextBand
  dsimp only
  by_cases hd : m.directNext = true
  · rw [if_pos hd]
  · rw [if_neg hd]
    obtain hw | ⟨hc, hlow⟩ := h.resolve_left hd
    · rw [if_pos hw]
    · have hlt := bandOfReading_rank_lt hc hlow
      rw [if_neg (by omega), if_pos ⟨hlt, hlow⟩]

theorem Thermal.nextBand_kept {m : Thermal} {t : Int} (hd : m.directNext = false)
    (hw : (bandOfReading t).rank ≤ m.band.rank) (hc : ¬ (m.band ≠ .cool ∧ t ≤ m.band.lowest - 3)) :
    m.nextBand t = m.band := by
  unfold Thermal.nextBand
  dsimp only
  rw [if_neg (by simp [hd]), if_neg (by omega), if_neg]
  rintro ⟨hlt, hlow⟩
  refine hc ⟨fun h => ?_, hlow⟩
  rw [h] at hlt
  exact absurd hlt (by simp [Band.rank])

theorem State.senseEnds_sense {s : State} {op : Operation} (hc : s.channel = some op) (hw : op.work = .sense)
    (reading : Int) (parityGood : Bool) :
    s.senseEnds reading parityGood =
      ((s.moveTo (op.grantedAt + 400)).setChannel none).takeReading reading parityGood := by
  unfold State.senseEnds
  rw [hc]
  exact if_pos hw

theorem State.senseEnds_other {s : State} (h : ∀ op, s.channel = some op → op.work ≠ .sense) (reading : Int)
    (parityGood : Bool) : s.senseEnds reading parityGood = s := by
  unfold State.senseEnds
  cases hc : s.channel with
  | none => rfl
  | some op => exact if_neg (h op hc)

/-- Settles O29: a reading of good parity by the band it falls in, one of bad parity by the fault it sets. -/
theorem tSenseExpiryTakesReading : Obligations.TSenseExpiryTakesReading := by
  intro reading parityGood s hp _ _
  rw [exec_on hp]
  refine ⟨fun op hc hw => ?_, fun h => congrArg _ (State.senseEnds_other h reading parityGood)⟩
  intro falls cooler
  have hcooler : cooler s.thermal.band ↔ s.thermal.band ≠ .cool ∧ reading ≤ s.thermal.band.lowest - 3 := by
    cases h : s.thermal.band <;> simp [cooler, Band.lowest]
  have hends := State.senseEnds_sense hc hw reading parityGood
  let v := (s.moveTo (op.grantedAt + 400)).setChannel none
  have hv : SameBut [.clock, .channel] s v := (s.moveTo_same _).trans (State.setChannel_same _ _)
  cases parityGood with
  | true =>
    let thermal : Thermal := { s.thermal with reading, fault := false, directNext := false }
    refine ⟨v.setThermal thermal, s.thermal.nextBand reading, congrArg _ hends,
      (hv.trans (v.setThermal_same thermal)).mono (by decide), rfl, rfl,
      fun _ => ⟨rfl, rfl, bandOfReading reading, ?_, fun h => ?_, fun hd hr hn => ?_⟩, fun h => absurd h (by simp)⟩
    · exact (bandOfReading_eq_iff reading _).1 rfl
    · exact Thermal.nextBand_taken (h.imp id (Or.imp id hcooler.1))
    · exact Thermal.nextBand_kept hd hr fun h => hn (hcooler.2 h)
  | false =>
    let thermal : Thermal := { s.thermal with fault := true, directNext := true }
    exact ⟨(v.setThermal thermal).raise .thermalFault, _, congrArg _ hends,
      ((hv.trans (v.setThermal_same thermal)).trans (State.raise_same _ _)).mono (by decide), rfl, rfl,
      fun h => absurd h (by simp), fun _ => ⟨rfl, rfl, rfl⟩⟩

/-! ## The settings (R184, R185) -/

/-- The number of a cause in the alert bit order (R188). -/
def Cause.index : Cause → Nat
  | .ue => 0
  | .sparesLow => 1
  | .sparesExhausted => 2
  | .overtemp => 3
  | .thermalFault => 4
  | .fillDone => 5
  | .tableSaturated => 6
  | .holdEntered => 7

theorem Cause.bit_eq (c : Cause) : c.bit = BitVec.twoPow 8 c.index := by cases c <;> rfl

theorem Cause.index_surj {i : Nat} (h : i < 8) : ∃ c : Cause, c.index = i := by
  interval_cases i
  exacts [⟨.ue, rfl⟩, ⟨.sparesLow, rfl⟩, ⟨.sparesExhausted, rfl⟩, ⟨.overtemp, rfl⟩, ⟨.thermalFault, rfl⟩,
    ⟨.fillDone, rfl⟩, ⟨.tableSaturated, rfl⟩, ⟨.holdEntered, rfl⟩]

theorem Cause.index_lt (c : Cause) : c.index < 8 := by cases c <;> decide

theorem and_causeBit_eq_zero_iff (x : Byte) (c : Cause) : x &&& c.bit = 0 ↔ x.getLsbD c.index = false := by
  rw [c.bit_eq, BitVec.and_twoPow]
  cases h : x.getLsbD c.index with
  | false => simp
  | true =>
    have hne : BitVec.twoPow 8 c.index ≠ 0 := by cases c <;> decide
    simpa using hne

/-- ALERT_N is driven while some cause is pending that the mask does not hold (R179). -/
theorem Alerts.driven_iff (a : Alerts) :
    a.driven = true ↔ ∃ c : Cause, a.causes &&& c.bit ≠ 0 ∧ a.mask &&& c.bit = 0 := by
  have hzero : a.causes &&& ~~~a.mask = 0 ↔ ∀ i, i < 8 → (a.causes &&& ~~~a.mask).getLsbD i = false := by
    constructor
    · intro h i _
      rw [h]
      exact BitVec.getLsbD_zero
    · intro h
      exact BitVec.eq_of_getLsbD_eq fun i hi => (h i hi).trans BitVec.getLsbD_zero.symm
  unfold Alerts.driven
  rw [decide_eq_true_iff, ne_eq, hzero]
  simp only [ne_eq, and_causeBit_eq_zero_iff, Bool.not_eq_false]
  constructor
  · intro h
    simp only [not_forall, Bool.not_eq_false] at h
    obtain ⟨i, hi, hbit⟩ := h
    obtain ⟨c, rfl⟩ := Cause.index_surj hi
    refine ⟨c, ?_⟩
    simpa [hi] using hbit
  · rintro ⟨c, hcause, hmask⟩ h
    have hbit := h c.index c.index_lt
    rw [BitVec.getLsbD_and, BitVec.getLsbD_not, hcause, hmask] at hbit
    simp [c.index_lt] at hbit

/-- The write of a register of one byte is the judging of its setting, and RESULT. -/
theorem State.linkWrite_settled (s : State) {i v : Byte} {judged : State → Option State}
    (h : ∀ s : State, s.stop [(indexOf i, v)] = s.settled (judged s)) :
    s.linkWrite i [v] = (s.linkAt (indexOf i + 1)).settled (judged (s.linkAt (indexOf i + 1))) := by
  rw [State.linkWrite_byte, h]

theorem effect_idleClose (v : Byte) (s : State) :
    effect (.idleClose v) s = (s.linkAt 8).settled ((s.linkAt 8).judgeIdleClose v) :=
  s.linkWrite_settled (i := 0x07) (judged := fun s => s.judgeIdleClose v) fun s => s.stop_idleClose v

theorem effect_drainAge (v : Byte) (s : State) :
    effect (.drainAge v) s = (s.linkAt 9).settled ((s.linkAt 9).judgeDrainAge v) :=
  s.linkWrite_settled (i := 0x08) (judged := fun s => s.judgeDrainAge v) fun s => s.stop_drainAge v

theorem effect_ceThreshold (v : Byte) (s : State) :
    effect (.ceThreshold v) s = (s.linkAt 11).settled ((s.linkAt 11).judgeThreshold v) :=
  s.linkWrite_settled (i := 0x0A) (judged := fun s => s.judgeThreshold v) fun s => s.stop_threshold v

theorem effect_alertMask (v : Byte) (s : State) :
    effect (.alertMask v) s = (s.linkAt 6).settled ((s.linkAt 6).judgeAlertMask v) :=
  s.linkWrite_settled (i := 0x05) (judged := fun s => s.judgeAlertMask v) fun s => s.stop_alertMask v

/-- A setting refused: nothing but the link changes, with RANGE. -/
theorem State.settled_refused (s : State) (i : BitVec 6) {judged : Option State} (h : judged = none) :
    (s.linkAt i).settled judged = s.setLink { s.link with index := i, out := [], result := .range } := by
  rw [h]
  rfl

theorem State.judgeIdleClose_taken (s : State) {v : Byte} (h : v.toNat ≤ 40) :
    s.judgeIdleClose v = some (s.setBankEngine { s.bankEngine with idleClose := v }).expireIdle := if_pos h

theorem State.judgeDrainAge_taken (s : State) {v : Byte} (h : 1 ≤ v.toNat ∧ v.toNat ≤ 127) :
    s.judgeDrainAge v = some (s.setBuffer { s.buffer with drainAge := v }).expireAge.chooseEntry := if_pos h

theorem State.judgeThreshold_taken (s : State) {v : Byte} (h : 1 ≤ v.toNat ∧ v.toNat ≤ 15) :
    s.judgeThreshold v = some (s.setRemap { s.remap with threshold := v.toNat }) := if_pos h

theorem byte_out_of_range {v : Byte} {n : Nat} (h : v = 0 ∨ n < v.toNat) : ¬ (1 ≤ v.toNat ∧ v.toNat ≤ n) := by
  obtain rfl | h := h
  · simp
  · omega

section
variable (v : Byte) (s : State) (hp : s.powered = true)
include hp

theorem idleClose_setting :
    (v.toNat ≤ 40 →
      ∃ t, exec (.idleClose v) s = .next t ∧ SameBut [.bankEngine, .link] s t ∧
        t.link = { s.link with index := 8, out := [], result := .done } ∧ t.bankEngine.idleClose = v ∧
        ∀ b, t.bank b = (s.setBankEngine { s.bankEngine with idleClose := v }).expiredRecord b) ∧
    (40 < v.toNat →
      exec (.idleClose v) s = .next (s.setLink { s.link with index := 8, out := [], result := .range })) := by
  rw [exec_on hp, effect_idleClose]
  refine ⟨fun h => ?_, fun h => congrArg _ (s.settled_refused 8 (if_neg (Nat.not_le.2 h)))⟩
  rw [State.judgeIdleClose_taken _ h]
  let x := (s.linkAt 8).setBankEngine { (s.linkAt 8).bankEngine with idleClose := v }
  have hx : SameBut [.link, .bankEngine] s x := (s.linkAt_same 8).trans (State.setBankEngine_same _ _)
  have hlink : x.expireIdle.link = x.link := x.expireIdle_same.link (by decide)
  obtain ⟨hidle, hbank⟩ := x.expireIdle_bank
  refine ⟨x.expireIdle.setResult .done, rfl,
    ((hx.trans x.expireIdle_same).trans (State.setResult_same _ _)).mono (by decide), ?_, ?_, fun b => ?_⟩
  · unfold State.setResult
    rw [State.setLink_link, hlink]
    rfl
  · rw [(State.setResult_same _ _).bankEngine (by decide), hidle]
    rfl
  · rw [(State.setResult_same _ _).bank b (by decide), hbank b]
    rfl

theorem drainAge_setting :
    (1 ≤ v.toNat → v.toNat ≤ 127 →
      ∃ u, exec (.drainAge v) s = .next (u.chooseEntry.setResult .done) ∧ SameBut [.buffer] (s.linkAt 9) u ∧
        u.buffer =
          { s.buffer with
            drainAge := v
            entries := s.buffer.entries.map fun f =>
              if f.state = .filling ∧ f.born + v.toNat * 500 ≤ s.clock.now then { f with ageDue := true } else f }) ∧
    ((v = 0 ∨ 127 < v.toNat) →
      exec (.drainAge v) s = .next (s.setLink { s.link with index := 9, out := [], result := .range })) := by
  rw [exec_on hp, effect_drainAge]
  refine ⟨fun h1 h2 => ?_, fun h => congrArg _ (s.settled_refused 9 (if_neg (byte_out_of_range h)))⟩
  rw [State.judgeDrainAge_taken _ ⟨h1, h2⟩]
  let x := (s.linkAt 9).setBuffer { s.buffer with drainAge := v }
  exact ⟨x.expireAge, rfl, ((State.setBuffer_same _ _).trans x.expireAge_same).mono (by decide), rfl⟩

theorem ceThreshold_setting :
    (1 ≤ v.toNat → v.toNat ≤ 15 →
      exec (.ceThreshold v) s =
        .next ((s.setRemap { s.remap with threshold := v.toNat }).setLink
          { s.link with index := 11, out := [], result := .done })) ∧
    ((v = 0 ∨ 15 < v.toNat) →
      exec (.ceThreshold v) s = .next (s.setLink { s.link with index := 11, out := [], result := .range })) := by
  rw [exec_on hp, effect_ceThreshold]
  refine ⟨fun h1 h2 => ?_, fun h => congrArg _ (s.settled_refused 11 (if_neg (byte_out_of_range h)))⟩
  rw [State.judgeThreshold_taken _ ⟨h1, h2⟩]
  rfl

theorem alertMask_setting :
    ∃ t, exec (.alertMask v) s = .next t ∧ SameBut [.alerts, .link] s t ∧ t.alerts = { s.alerts with mask := v } ∧
      t.link = { s.link with index := 6, out := [], result := .done } ∧
      (t.alertLow = true ↔ ∃ c : Cause, s.alerts.causes &&& c.bit ≠ 0 ∧ v &&& c.bit = 0) := by
  rw [exec_on hp, effect_alertMask]
  let t := ((s.linkAt 6).setAlerts { s.alerts with mask := v }).setResult .done
  have hlow : t.alertLow = ({ s.alerts with mask := v } : Alerts).driven := by
    unfold State.alertLow
    have hpowered : t.powered = true := hp
    rw [hpowered]
    rfl
  refine ⟨t, rfl,
    (((s.linkAt_same 6).trans (State.setAlerts_same _ _)).trans (State.setResult_same _ _)).mono (by decide), rfl,
    rfl, ?_⟩
  rw [hlow]
  exact Alerts.driven_iff _

end

/-- Settles O50: the four settings one by one. -/
theorem settingsAreTakenInRange : Obligations.SettingsAreTakenInRange := by
  intro v s hp linked
  obtain ⟨htaken, hrefused⟩ := idleClose_setting v s hp
  refine ⟨⟨fun h => ?_, hrefused⟩, drainAge_setting v s hp, ceThreshold_setting v s hp, alertMask_setting v s hp⟩
  obtain ⟨t, hexec, hsame, hlink, hidle, hbank⟩ := htaken h
  refine ⟨t, hexec, hsame, hlink, hidle, fun b hst hu hc => State.idleFrom_runs hst hu hc,
    fun b h => State.idleFrom_stopped h, fun b => (hbank b).trans ?_⟩
  have hfrom : (s.setBankEngine { s.bankEngine with idleClose := v }).idleFrom b = s.idleFrom b := rfl
  unfold State.expiredRecord
  rw [hfrom]
  cases s.idleFrom b with
  | none => rfl
  | some l => rfl

end Sys2Proof.Machine

/-! # The state after power-on reset -/

namespace Sys2Proof.Machine

/-! ## The records of the vectors, one by one -/

theorem State.initial_balanceOf (laddr : BitVec 2) (b : Bank) :
    (State.initial laddr).balanceOf b = RefreshRecord.initial b := by
  simp [State.balanceOf, State.initial]

theorem State.initial_table (laddr : BitVec 2) (b : Bank) (i : Slot) :
    (State.initial laddr).remap.tables[b][i] = none := by
  simp [State.initial]

theorem State.initial_spare (laddr : BitVec 2) (b : Bank) (t : SpareIndex) :
    (State.initial laddr).remap.spare b t = .free := by
  simp [Remap.spare, State.initial]

theorem State.initial_mark (laddr : BitVec 2) (i : Nat) : (State.initial laddr).fillMap.marks.getLsbD i = false :=
  BitVec.getLsbD_zero

/-- The first interval of bank b is (b + 1)/16 of the NORMAL interval (R55). -/
theorem State.initial_remaining (laddr : BitVec 2) (b : Bank) :
    (State.initial laddr).remaining b = (b.val + 1) * (125000 : Time) / 16 := by
  have hnow : (State.initial laddr).clock.now = 0 := rfl
  have hdue : ((State.initial laddr).balanceOf b).due = (b.val + 1) * (15625 / 2) := by
    rw [State.initial_balanceOf]
    rfl
  have hnonneg : (0 : Time) ≤ (b.val + 1) * (15625 / 2) := by positivity
  unfold State.remaining later
  rw [hnow, hdue, sub_zero, if_pos hnonneg]
  ring

/-- LADDR adds to 0x58 without a carry out of the 7 bits of the address (R181). -/
theorem State.initial_address (laddr : BitVec 2) : (State.initial laddr).link.address.toNat = 0x58 + laddr.toNat := by
  have hlt := laddr.isLt
  have haddress : (State.initial laddr).link.address = 0x58#7 + laddr.setWidth 7 := rfl
  rw [haddress, BitVec.toNat_add, BitVec.toNat_setWidth, BitVec.toNat_ofNat]
  omega

theorem powerOnReset_same (laddr : BitVec 2) (s : State) :
    SameBut [.port, .link] (State.reset.setPending s.pending) (effect (.powerOnReset laddr) s) :=
  ⟨rfl, fun k hk => by
    cases k with
    | port => exact absurd (by decide) hk
    | link => exact absurd (by decide) hk
    | _ => rfl⟩

theorem State.reset_tIdle : State.reset.bankEngine.tIdle = 200 := by
  have h : State.reset.bankEngine.tIdle = ((4 : Nat) : Time) * 50 := rfl
  rw [h]
  norm_num

theorem State.reset_age : State.reset.buffer.age = 4000 := by
  have h : State.reset.buffer.age = ((8 : Nat) : Time) * 500 := rfl
  rw [h]
  norm_num

theorem State.reset_alertLow : State.reset.alertLow = false := by decide

/-- Settles O4: `State.initial`, block by block. -/
theorem powerOnResetRestoresEveryBlock : Obligations.PowerOnResetRestoresEveryBlock := by
  refine ⟨fun laddr s => ⟨effect (.powerOnReset laddr) s, rfl, rfl, powerOnReset_same laddr s, rfl, rfl,
    State.initial_address laddr⟩, ?_⟩
  intro s
  have hbank (b : Bank) : s.bank b = .initial := State.initial_bank 0 b
  have hbalance (b : Bank) : s.balanceOf b = RefreshRecord.initial b := State.initial_balanceOf 0 b
  refine ⟨fun b => ?_, rfl, fun b => ?_, rfl, rfl, State.reset_tIdle, rfl, rfl, rfl, rfl, rfl, rfl, rfl,
    State.initial_table 0, State.initial_spare 0, rfl, rfl, rfl, rfl, rfl, fun i => State.initial_mark 0 i.val,
    rfl, rfl, rfl, State.reset_age, rfl, rfl, rfl, rfl, rfl, rfl, rfl, rfl, rfl, rfl, rfl, State.reset_alertLow, rfl, rfl, rfl,
    rfl, rfl, rfl, rfl, rfl, rfl⟩
  · rw [hbank]
    exact ⟨rfl, rfl, rfl, rfl, rfl⟩
  · rw [hbalance]
    exact ⟨rfl, rfl, State.initial_remaining 0 b⟩

/-! ## The invariants -/

theorem State.initial_fillOk (laddr : BitVec 2) : (State.initial laddr).fillOk := by
  refine ⟨fun h => ?_, fun h => ?_⟩
  · cases h
  · have h0 := h 0
    rw [State.initial_mark] at h0
    cases h0

theorem State.reset_balancesOk : State.reset.balancesOk := by
  refine ⟨by decide, by decide, fun b => ?_⟩
  have hbalance : (State.reset.balanceOf b).balance = 0 := by
    rw [State.reset, State.initial_balanceOf]
    rfl
  rw [hbalance]
  exact Int.natCast_nonneg _

theorem State.initial_remapOk (laddr : BitVec 2) : (State.initial laddr).remapOk := by
  have hempty {b : Bank} {i : Slot} {e : RemapEntry} (h : (State.initial laddr).remap.tables[b][i] = some e) :
      False := by
    rw [State.initial_table] at h
    cases h
  refine ⟨⟨fun b i e h => (hempty h).elim, fun b i j e f h => (hempty h).elim, fun b t => ⟨fun h => ?_, ?_⟩⟩,
    fun b i e h => (hempty h).elim, fun b r i c h => ?_⟩
  · rw [State.initial_spare] at h
    cases h
  · rintro ⟨i, e, h, -⟩
    exact (hempty h).elim
  · simp [State.initial] at h

theorem State.initial_queuedOk (laddr : BitVec 2) : (State.initial laddr).remap.queuedOk := by
  simp [Remap.queuedOk, State.initial]

theorem State.reset_settingsOk : State.reset.settingsOk :=
  ⟨by decide, by decide, by decide, by decide, by decide, ⟨fun _ => by decide, fun _ => rfl⟩, by decide, by decide⟩

theorem State.reset_holdOk : State.reset.holdOk := by simp [State.holdOk, State.reset, State.initial]

theorem State.reset_sizesOk : State.reset.sizesOk :=
  ⟨Nat.zero_le _, Nat.zero_le _, Nat.zero_le _, Nat.zero_le _⟩

/-- Settles O60: the lists are empty, the vectors uniform, and the settings in their ranges. -/
theorem resetSatisfiesInvariants : Obligations.ResetSatisfiesInvariants :=
  ⟨State.memoryOk_of_empty rfl, State.reset_sizesOk, List.pairwise_singleton _ _, State.initial_fillOk 0,
    State.reset_balancesOk, State.reset_settingsOk, ⟨.nil, fun _ h => nomatch h⟩, State.reset_holdOk,
    State.initial_banksOk 0, ⟨.nil, .nil, fun _ h => nomatch h⟩, ⟨.nil, fun _ h => nomatch h⟩, State.initial_remapOk 0,
    State.initial_queuedOk 0⟩

end Sys2Proof.Machine

/-! # The completion of a LINE-READ (R151, R152) -/

namespace Sys2Proof.Machine

/-! ## The reports rest on four blocks alone -/

/-- The two states hold the same in the blocks that a report reads and changes. -/
structure SameReports (s t : State) : Prop where
  errors : t.errors = s.errors
  remap : t.remap = s.remap
  alerts : t.alerts = s.alerts
  clock : t.clock = s.clock

theorem SameReports.raise {s t : State} (h : SameReports s t) (c : Cause) : SameReports (s.raise c) (t.raise c) := by
  refine ⟨h.errors, h.remap, ?_, h.clock⟩
  unfold State.raise
  rw [State.setAlerts_alerts, State.setAlerts_alerts, h.alerts]

theorem SameReports.setErrors {s t : State} (h : SameReports s t) (x : ErrorTable) :
    SameReports (s.setErrors x) (t.setErrors x) := ⟨rfl, h.remap, h.alerts, h.clock⟩

theorem SameReports.setRemap {s t : State} (h : SameReports s t) (x : Remap) :
    SameReports (s.setRemap x) (t.setRemap x) := ⟨h.errors, rfl, h.alerts, h.clock⟩

theorem SameReports.report {s t : State} (h : SameReports s t) (e : ErrorReport) :
    SameReports (s.report e) (t.report e) := by
  unfold State.report
  dsimp only
  rw [h.errors, h.clock]
  by_cases hkey : s.errors.records.any e.hasKeyOf = true
  · simp only [if_pos hkey]
    exact h.setErrors _
  · simp only [if_neg hkey]
    by_cases hroom : s.errors.records.length < Config.errorSize
    · simp only [if_pos hroom]
      exact h.setErrors _
    · simp only [if_neg hroom]
      cases oldestCe s.clock.deviceTime s.errors.records with
      | some r => exact h.setErrors _
      | none =>
        by_cases hdrop : e.kind = .ce ∨ s.errors.saturated = true
        · simp only [if_pos hdrop]
          exact h
        · simp only [if_neg hdrop]
          exact (h.setErrors _).raise _

theorem SameReports.reportSuspect {s t : State} (h : SameReports s t) (b : Bank) (r : LogicalRow) (o : DecodeOutcome) :
    SameReports (s.reportSuspect b r o) (t.reportSuspect b r o) := by
  unfold State.reportSuspect
  rw [h.remap, h.clock]
  by_cases hm : s.remap.isMigrating b r = true
  · simp only [if_pos hm]
    exact h
  · simp only [if_neg hm]
    cases o with
    | clean => exact h
    | corrected => exact h.setRemap _
    | poisoned => exact h
    | uncorrectable => exact h.setRemap _

theorem SameReports.reportWord {s t : State} (h : SameReports s t) (source : ErrorSource) (b : Bank) (r : LogicalRow)
    (p : PhysicalRow) (w : WordInRow) (o : DecodeOutcome) :
    SameReports (s.reportWord source b r p w o) (t.reportWord source b r p w o) := by
  cases o with
  | clean => exact h
  | corrected => exact (h.report _).reportSuspect b r .corrected
  | poisoned => exact h
  | uncorrectable => exact ((h.report _).reportSuspect b r .uncorrectable).raise .ue

theorem SameReports.reportRead {s t : State} (h : SameReports s t) (line : Line) (p : PhysicalRow)
    (ds : List (ReadWord × Decoded)) : SameReports (s.reportRead line p ds) (t.reportRead line p ds) := by
  unfold State.reportRead
  induction ds generalizing s t with
  | nil => exact h
  | cons d ds ih => exact ih (h.reportWord _ _ _ _ _ _)

theorem SameBut.sameReports {l : List Block} {s t : State} (h : SameBut l s t) (he : Block.errors ∉ l)
    (hr : Block.remap ∉ l) (ha : Block.alerts ∉ l) (hc : Block.clock ∉ l) : SameReports s t :=
  ⟨h.errors he, h.remap hr, h.alerts ha, h.clock hc⟩

/-! ## The bytes delivered and the bytes lost -/

theorem getLsbD_placedWord (data : BitVec 64) (k : Fin 4) (i : Nat) :
    (BitVec.zeroExtend 256 data <<< (64 * k.val)).getLsbD i = (decide (i / 64 = k.val) && data.getLsbD (i % 64)) := by
  have hk := k.isLt
  rw [BitVec.getLsbD_shiftLeft, BitVec.zeroExtend, BitVec.getLsbD_setWidth]
  by_cases h : i / 64 = k.val
  · have h1 : i < 256 := by omega
    have h2 : ¬ i < 64 * k.val := by omega
    have h3 : i - 64 * k.val = i % 64 := by omega
    have h4 : i % 64 < 256 := by omega
    simp [h, h1, h2, h3, h4]
  · by_cases h2 : i < 64 * k.val
    · simp [h, h2]
    · rw [BitVec.getLsbD_of_ge data _ (by omega)]
      simp [h]

/-- A bit of the delivered line is set where a word read there has it set. -/
theorem getLsbD_deliveredLine (ds : List (ReadWord × Decoded)) (i : Nat) :
    (deliveredLine ds).getLsbD i = ds.any fun x => decide (i / 64 = x.1.word.val) && x.2.data.getLsbD (i % 64) := by
  have key (acc : BitVec 256) :
      (ds.foldl (fun (acc : BitVec 256) x => acc ||| (BitVec.zeroExtend 256 x.2.data <<< (64 * x.1.word.val)))
        acc).getLsbD i =
        (acc.getLsbD i || ds.any fun x => decide (i / 64 = x.1.word.val) && x.2.data.getLsbD (i % 64)) := by
    induction ds generalizing acc with
    | nil => simp
    | cons x ds ih =>
      rw [List.foldl_cons, ih, BitVec.getLsbD_or, getLsbD_placedWord, List.any_cons, Bool.or_assoc]
  exact (key 0).trans (by simp)

/-- A byte of the delivered line is that of its word, where no two words read have one place. -/
theorem byteIn_deliveredLine {ds : List (ReadWord × Decoded)} {d : ReadWord × Decoded} (hd : d ∈ ds)
    (hu : ∀ x ∈ ds, x.1.word = d.1.word → x = d) {i : Nat} (hi : d.1.word.val = i / 8) :
    byteIn (deliveredLine ds) i = byteIn d.2.data (i % 8) := by
  apply byteIn_eq
  intro m hm
  have hword : (8 * i + m) / 64 = d.1.word.val := by omega
  have hbit : (8 * i + m) % 64 = 8 * (i % 8) + m := by omega
  rw [getLsbD_deliveredLine, hword, hbit, Bool.eq_iff_iff, List.any_eq_true]
  constructor
  · rintro ⟨x, hx, h⟩
    rw [Bool.and_eq_true, decide_eq_true_eq] at h
    obtain rfl := hu x hx (Fin.ext h.1.symm)
    exact h.2
  · exact fun h => ⟨d, hd, by simp [h]⟩

theorem getLsbD_wordBytes (k : Fin 4) (i : Nat) : ((0xFF#32) <<< (8 * k.val)).getLsbD i = decide (i / 8 = k.val) := by
  by_cases hi : i < 32
  · fin_cases k <;> interval_cases i <;> rfl
  · rw [BitVec.getLsbD_of_ge _ _ (by omega)]
    symm
    rw [decide_eq_false_iff_not]
    omega

/-- A byte is lost where the word read there has its data lost. -/
theorem getLsbD_lostBytes (ds : List (ReadWord × Decoded)) (i : Nat) :
    (lostBytes ds).getLsbD i = ds.any fun x => x.2.outcome.lost && decide (i / 8 = x.1.word.val) := by
  have key (acc : BitVec 32) :
      (ds.foldl (fun (acc : BitVec 32) x =>
        if x.2.outcome.lost then acc ||| ((0xFF#32) <<< (8 * x.1.word.val)) else acc) acc).getLsbD i =
        (acc.getLsbD i || ds.any fun x => x.2.outcome.lost && decide (i / 8 = x.1.word.val)) := by
    induction ds generalizing acc with
    | nil => simp
    | cons x ds ih =>
      rw [List.foldl_cons, ih, List.any_cons]
      cases x.2.outcome.lost with
      | false => simp
      | true => rw [if_pos rfl, BitVec.getLsbD_or, getLsbD_wordBytes, Bool.true_and, Bool.or_assoc]
  exact (key 0).trans (by simp)

theorem DecodeOutcome.lost_iff (o : DecodeOutcome) : o.lost = true ↔ o = .uncorrectable ∨ o = .poisoned := by
  cases o <;> simp [DecodeOutcome.lost]

/-! ## The beats of the response -/

theorem byteIn_beatData (data : BitVec 256) (q : Nat) {j : Nat} (hj : j < 4) :
    byteIn (beatData data q) j = byteIn data (4 * q + j) := by
  apply byteIn_eq
  intro m hm
  have hlt : 8 * j + m < 32 := by omega
  have hbit : 32 * q + (8 * j + m) = 8 * (4 * q + j) + m := by omega
  simp [beatData, hlt, hbit]

theorem beatValid_ne_zero_iff (valid : BitVec 32) (q : Nat) :
    beatValid valid q ≠ 0 ↔ ∃ j, j < 4 ∧ valid.getLsbD (4 * q + j) = true := by
  constructor
  · intro h
    by_contra hnone
    refine h (BitVec.eq_of_getLsbD_eq fun j hj => ?_)
    have hbit : ¬ valid.getLsbD (4 * q + j) = true := fun g => hnone ⟨j, hj, g⟩
    simp [beatValid, hj, hbit]
  · rintro ⟨j, hj, h⟩ hzero
    have hbit : (beatValid valid q).getLsbD j = true := by simp [beatValid, hj, h]
    rw [hzero] at hbit
    simp at hbit

theorem responseBeats_length (a : BeatAddress) (n : BeatCount) (data : BitVec 256) (lost : BitVec 32) :
    (responseBeats a n data lost).length = n.toNat := by simp [responseBeats]

theorem responseBeats_get {n : BeatCount} {k : Nat} (hk : k < n.toNat) (a : BeatAddress) (data : BitVec 256)
    (lost : BitVec 32) :
    (responseBeats a n data lost)[k]? =
      some { data := beatData data (lineBeat a k), err := decide (beatValid lost (lineBeat a k) ≠ 0) } := by
  simp [responseBeats, hk]

theorem readAnswer_status_iff (a : BeatAddress) (n : BeatCount) (data : BitVec 256) (lost : BitVec 32) :
    (readAnswer a n data lost).status = .dataError ↔ ∃ beat ∈ (readAnswer a n data lost).beats, beat.err = true := by
  unfold readAnswer
  dsimp only
  rw [← List.any_eq_true]
  split <;> simp_all

/-- The response that a LINE-READ's words make of the bytes taken from the buffer (R151). -/
def assembled (a : BeatAddress) (n : BeatCount) (taken : BitVec 32) (bytes : BitVec 256)
    (ds : List (ReadWord × Decoded)) : Response :=
  readAnswer a n (mergeBytes 32 taken bytes (deliveredLine ds)) (neededBytes a n &&& ~~~taken &&& lostBytes ds)

/-- Each byte of a beat is the one taken from the buffer, or else that of its word. -/
theorem assembled_byte {taken : BitVec 32} {bytes : BitVec 256} {ds : List (ReadWord × Decoded)} (q : Nat) {j : Nat}
    (hj : j < 4) :
    (taken.getLsbD (4 * q + j) = true →
      byteIn (beatData (mergeBytes 32 taken bytes (deliveredLine ds)) q) j = byteIn bytes (4 * q + j)) ∧
    ((∀ x ∈ ds, ∀ y ∈ ds, x.1.word = y.1.word → x = y) → ∀ d ∈ ds, taken.getLsbD (4 * q + j) = false →
      d.1.word.val = (4 * q + j) / 8 →
      byteIn (beatData (mergeBytes 32 taken bytes (deliveredLine ds)) q) j = byteIn d.2.data ((4 * q + j) % 8)) := by
  rw [byteIn_beatData _ q hj, byteIn_mergeBytes]
  refine ⟨fun h => if_pos h, fun hu d hd h hw => ?_⟩
  rw [if_neg (by simp [h])]
  exact byteIn_deliveredLine hd (fun x hx hxd => hu x hx d hd hxd) hw

/-- A beat has `err` where it takes a byte from a word whose data is lost. -/
theorem assembled_err {a : BeatAddress} {n : BeatCount} {k : Nat} (hk : k < n.toNat) (taken : BitVec 32)
    (ds : List (ReadWord × Decoded)) :
    beatValid (neededBytes a n &&& ~~~taken &&& lostBytes ds) (lineBeat a k) ≠ 0 ↔
      ∃ j d, j < 4 ∧ d ∈ ds ∧ taken.getLsbD (4 * lineBeat a k + j) = false ∧
        d.1.word.val = (4 * lineBeat a k + j) / 8 ∧ (d.2.outcome = .uncorrectable ∨ d.2.outcome = .poisoned) := by
  have hq := lineBeat_lt a k
  have hbit (j : Nat) (hj : j < 4) :
      (neededBytes a n &&& ~~~taken &&& lostBytes ds).getLsbD (4 * lineBeat a k + j) = true ↔
        taken.getLsbD (4 * lineBeat a k + j) = false ∧
          ∃ d ∈ ds, d.2.outcome.lost = true ∧ (4 * lineBeat a k + j) / 8 = d.1.word.val := by
    have hneeded : (neededBytes a n).getLsbD (4 * lineBeat a k + j) = true :=
      (getLsbD_neededBytes a n _).2 ⟨k, hk, by omega⟩
    have hlt : 4 * lineBeat a k + j < 32 := by omega
    rw [BitVec.getLsbD_and, BitVec.getLsbD_and, BitVec.getLsbD_not, hneeded, getLsbD_lostBytes]
    simp [hlt]
  rw [beatValid_ne_zero_iff]
  constructor
  · rintro ⟨j, hj, h⟩
    obtain ⟨htaken, d, hd, hlost, hw⟩ := (hbit j hj).1 h
    exact ⟨j, d, hj, hd, htaken, hw.symm, (d.2.outcome.lost_iff).1 hlost⟩
  · rintro ⟨j, d, hj, hd, htaken, hw, hlost⟩
    exact ⟨j, hj, (hbit j hj).2 ⟨htaken, d, hd, (d.2.outcome.lost_iff).2 hlost, hw.symm⟩⟩

/-! ## The completion -/

theorem State.finishing_ready {s : State} {op : Operation} {b : Bank} {q : PhysicalRow} (h : s.finishing op b q) :
    s.ready = some (op, b) := by
  obtain ⟨-, hc, hb, hl, hst, hrow⟩ := h
  unfold State.ready
  rw [hc]
  dsimp only
  rw [hb]
  exact if_pos ⟨hst, by simp [hl], by simp [hl, hrow]⟩

/-- What a LINE-READ's completion leaves before the engine takes up its work. -/
def State.readReported (s : State) (b : Bank) (p : PhysicalRow) (line : Line) (ds : List (ReadWord × Decoded))
    (wanted : Bool) : State :=
  (if wanted then (s.release b).answerRead ds else s.release b).reportRead line p ds

theorem State.lineReadEnds_finishing {s : State} {op : Operation} {b : Bank} {p : PhysicalRow} {line : Line}
    {words : List ReadWord} {wanted : Bool} (h : s.finishing op b p) (hw : op.work = .lineRead line words wanted)
    (hr : op.rows = [p]) :
    s.lineReadEnds = (s.readReported b p line (s.readDecodes line p words) wanted).engineRun := by
  unfold State.lineReadEnds
  rw [State.finishing_ready h]
  dsimp only
  rw [hw, hr]
  rfl

theorem State.answered_same (s : State) (b : Bank) (ds : List (ReadWord × Decoded)) (wanted : Bool) :
    SameBut [.port] (s.release b) (if wanted then (s.release b).answerRead ds else s.release b) := by
  split
  · exact State.answerRead_same _ ds
  · exact .refl _ _

theorem State.answerRead_head {s : State} {a : BeatAddress} {n : BeatCount} {rest : List Request} {taken : BitVec 32}
    {bytes : BitVec 256} {ws : List ReadWord} (hq : s.port.queue = .read a n :: rest)
    (hs : s.port.stage = some (.reading taken bytes ws true)) (ds : List (ReadWord × Decoded)) :
    s.answerRead ds = s.respond (assembled a n taken bytes ds) := by
  unfold State.answerRead
  rw [hq, hs]
  rfl

/-- Words read in rising order stand in different places of the line. -/
theorem readDecodes_unique {words : List ReadWord} (hp : words.Pairwise fun x y => x.word < y.word)
    (f : ReadWord → Decoded) {x y : ReadWord × Decoded} (hx : x ∈ words.map fun w => (w, f w))
    (hy : y ∈ words.map fun w => (w, f w)) (h : x.1.word = y.1.word) : x = y := by
  obtain ⟨v, hv, rfl⟩ := List.mem_map.1 hx
  obtain ⟨w, hw, rfl⟩ := List.mem_map.1 hy
  have hnodup : (words.map ReadWord.word).Nodup := List.pairwise_map.2 (hp.imp fun h => ne_of_lt h)
  rw [List.inj_on_of_nodup_map hnodup hv hw h]

/-- Settles O31: the release, the reports from the state as it stood, and the beats byte by byte. -/
theorem lineReadCompleteAnswersHead : Obligations.LineReadCompleteAnswersHead := by
  intro s op b p line words wanted hf hw hr ds
  rw [exec_on hf.1]
  have hanswered := s.answered_same b ds wanted
  have hreported := State.reportRead_same (if wanted then (s.release b).answerRead ds else s.release b) line p ds
  have hreports : SameReports (s.reportRead line p ds) (s.readReported b p line ds wanted) :=
    (((s.release_same b).trans hanswered).sameReports (by decide) (by decide) (by decide)
      (by decide)).reportRead line p ds
  have hport : (s.readReported b p line ds wanted).port =
      (if wanted then (s.release b).answerRead ds else s.release b).port := hreported.port (by decide)
  refine ⟨s.readReported b p line ds wanted, congrArg _ (State.lineReadEnds_finishing hf hw hr),
    State.release_then ((hanswered.trans hreported).mono (by decide)) (by decide) (by decide), hreports.errors,
    hreports.remap, hreports.alerts, fun hn => ?_, fun a n rest taken bytes ws hy hq hs hasc => ?_⟩
  · rw [hport, hn]
    rfl
  · refine ⟨assembled a n taken bytes ds, ?_, rfl, readAnswer_status_iff _ _ _ _, responseBeats_length _ _ _ _,
      fun k hk => ⟨_, responseBeats_get hk _ _ _, fun j hj => ?_, ?_⟩⟩
    · rw [hport, hy, if_pos rfl, State.answerRead_head (s := s.release b) hq hs]
      rfl
    · obtain ⟨htaken, hread⟩ := assembled_byte (taken := taken) (bytes := bytes) (ds := ds) (lineBeat a k) hj
      exact ⟨htaken, hread fun x hx y hy => readDecodes_unique hasc _ hx hy⟩
    · rw [decide_eq_true_iff]
      exact assembled_err hk taken ds

end Sys2Proof.Machine

/-! # The outcomes of a decode (R25, R26) -/

namespace Sys2Proof.Config

/-! ## What sets the columns of a code apart -/

theorem testBit_columnSet {cols : List Byte} {k : Nat} :
    (columnSet cols).testBit k = true ↔ ∃ c ∈ cols, c.toNat = k := by
  suffices h : ∀ m : Nat, (cols.foldl (fun m c => m ||| (1 <<< c.toNat)) m).testBit k = true ↔
      m.testBit k = true ∨ ∃ c ∈ cols, c.toNat = k by
    simpa [columnSet] using h 0
  induction cols with
  | nil => simp
  | cons c rest ih =>
    intro m
    have hbit : (1 <<< c.toNat).testBit k = true ↔ c.toNat = k := by
      simp [Nat.one_shiftLeft, Nat.testBit_two_pow]
    simp only [List.foldl_cons, ih, Nat.testBit_or, Bool.or_eq_true, hbit, or_assoc, List.mem_cons,
      exists_eq_or_imp]

theorem separated_iff {cols : List Byte} {forbidden : Nat} :
    separated cols forbidden = true ↔ cols.Pairwise fun c d => forbidden.testBit (c ^^^ d).toNat = false := by
  induction cols with
  | nil => simp [separated]
  | cons c rest ih => simp [separated, ih]

/-- The differences R26 keeps two columns from: none, a column, and the complement pattern. -/
def Code.Apart (code : Code) (c d : Byte) : Prop := c ^^^ d ≠ 0 ∧ c ^^^ d ∉ code.columns ∧ c ^^^ d ≠ 0xFF

theorem Code.pairwise_apart (code : Code) : code.columns.Pairwise code.Apart := by
  refine (separated_iff.1 code.separate).imp fun {c d} h => ?_
  simp only [Nat.testBit_or, Bool.or_eq_false_iff] at h
  obtain ⟨⟨hcolumn, hzero⟩, hcomplement⟩ := h
  refine ⟨fun h0 => ?_, fun hm => ?_, fun hF => ?_⟩
  · simp [h0] at hzero
  · rw [testBit_columnSet.2 ⟨_, hm, rfl⟩] at hcolumn
    contradiction
  · rw [hF] at hcomplement
    exact absurd hcomplement (by decide)

theorem Code.columns_nodup (code : Code) : code.columns.Nodup :=
  code.pairwise_apart.imp fun {c d} h hcd => h.1 (by rw [hcd]; exact BitVec.xor_self)

theorem Code.zero_not_mem (code : Code) : (0 : Byte) ∉ code.columns := fun h => (code.nonzero 0 h).1 rfl

theorem Code.complement_not_mem (code : Code) : (0xFF : Byte) ∉ code.columns := fun h => (code.nonzero 0xFF h).2 rfl

/-- A poison word with one changed bit is not one bit away from a valid word (R26). -/
theorem Code.complement_xor_not_mem (code : Code) {c : Byte} (hc : c ∈ code.columns) :
    0xFF ^^^ c ∉ code.columns := by
  intro hd
  have hne : c ≠ 0xFF ^^^ c := fun h => by simpa using congrArg (BitVec.getLsbD · 0) h
  have hsymm : Std.Symm code.Apart := ⟨fun c d h => by rwa [Code.Apart, BitVec.xor_comm d c]⟩
  refine (code.pairwise_apart.forall hc hd hne).2.2 ?_
  rw [← BitVec.xor_assoc, BitVec.xor_comm c, BitVec.xor_assoc, BitVec.xor_self, BitVec.xor_zero]

end Sys2Proof.Config

namespace Sys2Proof.Machine

/-! ## The changed bits of a word and their columns -/

/-- The columns of the changed bits of a word, each with its place among the 72 stored bits. -/
def StoredWord.changedColumns (code : Config.Code) (w : StoredWord) : List (Byte × Nat) :=
  code.columns.zipIdx.filter fun x => w.changed.getLsbD x.2

theorem StoredWord.length_changedColumns (code : Config.Code) (w : StoredWord) :
    (w.changedColumns code).length = w.changedBits := by
  have hplaces : code.columns.zipIdx.map Prod.snd = List.range 72 := by
    rw [List.zipIdx_map_snd, code.length_eq, List.range_eq_range']
  rw [changedColumns, ← List.countP_eq_length_filter, changedBits, ← hplaces, List.countP_map]
  rfl

theorem StoredWord.syndrome_eq_foldl (code : Config.Code) (w : StoredWord) :
    w.syndrome code = (w.changedColumns code).foldl (fun syn x => syn ^^^ x.1) (if w.poison then 0xFF else 0) := by
  rw [changedColumns, List.foldl_filter]
  rfl

theorem StoredWord.changed_getLsbD_iff (code : Config.Code) (w : StoredWord) {i : Nat} (hi : i < 72) :
    w.changed.getLsbD i = true ↔ ∃ c, (c, i) ∈ w.changedColumns code := by
  have hcol : (code.columns[i]'(code.length_eq ▸ hi), i) ∈ code.columns.zipIdx :=
    List.mk_mem_zipIdx_iff_getElem?.2 (List.getElem?_eq_getElem _)
  constructor
  · exact fun h => ⟨_, List.mem_filter.2 ⟨hcol, h⟩⟩
  · rintro ⟨c, hc⟩
    exact (List.mem_filter.1 hc).2

theorem StoredWord.changedColumns_sublist (code : Config.Code) (w : StoredWord) :
    ((w.changedColumns code).map Prod.fst).Sublist code.columns := by
  simpa [changedColumns] using (List.filter_sublist (l := code.columns.zipIdx)).map Prod.fst

/-- With no bit changed the syndrome is that of the word as written. -/
theorem StoredWord.of_changedBits_zero (code : Config.Code) {w : StoredWord} (h : w.changedBits = 0) :
    w.changed = 0 ∧ w.syndrome code = if w.poison then 0xFF else 0 := by
  have hnil : w.changedColumns code = [] := List.length_eq_zero_iff.1 ((w.length_changedColumns code).trans h)
  refine ⟨BitVec.eq_of_getLsbD_eq fun i hi => ?_, by rw [w.syndrome_eq_foldl, hnil]; rfl⟩
  simpa [hnil] using w.changed_getLsbD_iff code hi

/-- With one bit changed the syndrome changes by the column of that bit. -/
theorem StoredWord.of_changedBits_one (code : Config.Code) {w : StoredWord} (h : w.changedBits = 1) :
    ∃ (c : Byte) (i : Nat), code.columns[i]? = some c ∧ w.changed = 1#72 <<< i ∧
      w.syndrome code = (if w.poison then 0xFF else 0) ^^^ c := by
  obtain ⟨⟨c, i⟩, hone⟩ := List.length_eq_one_iff.1 ((w.length_changedColumns code).trans h)
  have hmem : (c, i) ∈ w.changedColumns code := by simp [hone]
  refine ⟨c, i, List.mk_mem_zipIdx_iff_getElem?.1 (List.mem_of_mem_filter hmem),
    BitVec.eq_of_getLsbD_eq fun j hj => ?_, by rw [w.syndrome_eq_foldl, hone]; rfl⟩
  have hbit : w.changed.getLsbD j = true ↔ j = i := by simp [w.changed_getLsbD_iff code hj, hone]
  have hshift : (1#72 <<< i).getLsbD j = true ↔ j = i := by
    simp only [BitVec.getLsbD_shiftLeft, BitVec.getLsbD_one, Bool.and_eq_true, decide_eq_true_iff,
      Bool.not_eq_true', decide_eq_false_iff_not]
    omega
  rw [Bool.eq_iff_iff, hbit, hshift]

/-- With two bits changed the syndrome changes by two columns that are apart. -/
theorem StoredWord.of_changedBits_two (code : Config.Code) {w : StoredWord} (h : w.changedBits = 2) :
    ∃ c d, code.Apart c d ∧ w.syndrome code = (if w.poison then 0xFF else 0) ^^^ c ^^^ d := by
  obtain ⟨x, y, htwo⟩ := List.length_eq_two.1 ((w.length_changedColumns code).trans h)
  have hapart := code.pairwise_apart.sublist (w.changedColumns_sublist code)
  rw [htwo] at hapart
  exact ⟨x.1, y.1, List.pairwise_pair.1 hapart, by rw [w.syndrome_eq_foldl, htwo]; rfl⟩

/-! ## The class of the stored bits, by the syndrome -/

theorem StoredWord.classify_clean {code : Config.Code} {w : StoredWord} (h : w.syndrome code = 0) :
    w.classify code = ⟨.clean, w.storedData⟩ := if_pos h

theorem StoredWord.classify_corrected {code : Config.Code} {w : StoredWord} {i : Nat}
    (h : code.columns[i]? = some (w.syndrome code)) :
    w.classify code = ⟨.corrected, w.storedData ^^^ (1#72 <<< i).extractLsb' 0 64⟩ := by
  have hmem : w.syndrome code ∈ code.columns := List.mem_of_getElem? h
  have hne : w.syndrome code ≠ 0 := fun h0 => code.zero_not_mem (h0 ▸ hmem)
  obtain ⟨hi, hget⟩ := List.getElem?_eq_some_iff.1 h
  have hidx : code.columns.idxOf (w.syndrome code) = i := by
    rw [← hget, code.columns_nodup.idxOf_getElem]
  simp only [classify, if_neg hne, if_pos hmem, hidx]

theorem StoredWord.classify_lost {code : Config.Code} {w : StoredWord} (hzero : w.syndrome code ≠ 0)
    (hcol : w.syndrome code ∉ code.columns) :
    w.classify code =
      if w.syndrome code = 0xFF ∨ w.syndrome code ^^^ 0xFF ∈ code.columns then ⟨.poisoned, w.storedData⟩
      else ⟨.uncorrectable, w.storedData⟩ := by
  simp only [classify, if_neg hzero, if_neg hcol]

/-! ## The class by the number of changed bits -/

section
variable (code : Config.Code) {w : StoredWord}

theorem StoredWord.classify_valid_zero (hp : w.poison = false) (h : w.changedBits = 0) :
    w.classify code = ⟨.clean, w.data⟩ := by
  obtain ⟨hchanged, hsyn⟩ := of_changedBits_zero code h
  rw [hp] at hsyn
  rw [classify_clean hsyn, storedData, hchanged]
  simp

theorem StoredWord.classify_valid_one (hp : w.poison = false) (h : w.changedBits = 1) :
    w.classify code = ⟨.corrected, w.data⟩ := by
  obtain ⟨c, i, hcol, hchanged, hsyn⟩ := of_changedBits_one code h
  have hc : w.syndrome code = c := by simpa [hp] using hsyn
  rw [classify_corrected (hc ▸ hcol), storedData, hchanged, BitVec.xor_assoc, BitVec.xor_self, BitVec.xor_zero]

theorem StoredWord.classify_valid_two (hp : w.poison = false) (h : w.changedBits = 2) :
    w.classify code = ⟨.uncorrectable, w.storedData⟩ ∨ w.classify code = ⟨.poisoned, w.storedData⟩ := by
  obtain ⟨c, d, ⟨hzero, hcol, -⟩, hsyn⟩ := of_changedBits_two code h
  have hcd : w.syndrome code = c ^^^ d := by simpa [hp] using hsyn
  rw [classify_lost (hcd ▸ hzero) (hcd ▸ hcol)]
  split
  · exact .inr rfl
  · exact .inl rfl

theorem StoredWord.classify_poison (hp : w.poison = true) (h : w.changedBits ≤ 1) :
    w.classify code = ⟨.poisoned, w.storedData⟩ := by
  obtain hnone | hone : w.changedBits = 0 ∨ w.changedBits = 1 := by omega
  · obtain ⟨-, hsyn⟩ := of_changedBits_zero code hnone
    replace hsyn : w.syndrome code = 0xFF := by simpa [hp] using hsyn
    rw [classify_lost (by simp [hsyn]) (hsyn ▸ code.complement_not_mem), if_pos (.inl hsyn)]
  · obtain ⟨c, i, hcol, -, hsyn⟩ := of_changedBits_one code hone
    have hc : c ∈ code.columns := List.mem_of_getElem? hcol
    replace hsyn : w.syndrome code = 0xFF ^^^ c := by simpa [hp] using hsyn
    have hzero : (0xFF : Byte) ^^^ c ≠ 0 := fun h0 => (code.nonzero c hc).2 (BitVec.xor_eq_zero_iff.1 h0).symm
    have hback : w.syndrome code ^^^ 0xFF ∈ code.columns := by
      rwa [hsyn, BitVec.xor_comm, ← BitVec.xor_assoc, BitVec.xor_self, BitVec.zero_xor]
    rw [classify_lost (hsyn ▸ hzero) (hsyn ▸ code.complement_xor_not_mem hc), if_pos (.inr hback)]

end

/-! ## The decode -/

/-- The decode by the bits changed is the class of the stored bits. -/
theorem StoredWord.decode_eq_classify (w : StoredWord) : w.decode = w.classify Config.code := by
  unfold decode
  split
  next hp =>
    split
    next hle => exact (classify_poison _ hp hle).symm
    next => rfl
  next hp =>
    have hvalid : w.poison = false := Bool.eq_false_iff.2 hp
    split
    next hnone => exact (classify_valid_zero _ hvalid hnone).symm
    next =>
      split
      next hone => exact (classify_valid_one _ hvalid hone).symm
      next => rfl

/-- Settles O37: the decode is the class of the stored bits, and the syndrome gives that class by the bits changed. -/
theorem decodeOutcomesByChangedBits : Obligations.DecodeOutcomesByChangedBits := by
  intro w
  rw [w.decode_eq_classify]
  exact ⟨StoredWord.classify_valid_zero _, StoredWord.classify_valid_one _, StoredWord.classify_valid_two _,
    StoredWord.classify_poison _, rfl⟩

end Sys2Proof.Machine

/-! # What the engine finds: its top, the rows that wait, and the searches of its jobs -/

namespace Sys2Proof.Machine

/-! ## When the engine acts (R40, R48) -/

theorem Work.isStep_iff (w : Work) :
    w.isStep = true ↔ ∃ g, w = .migrateStep g ∨ w = .scrubStep g ∨ w = .fillStep g := by
  cases w <;> simp [Work.isStep]

theorem State.stepInFlight_iff (s : State) :
    s.stepInFlight = true ↔
      ∃ op g, s.channel = some op ∧ (op.work = .migrateStep g ∨ op.work = .scrubStep g ∨ op.work = .fillStep g) := by
  unfold State.stepInFlight
  cases s.channel with
  | none => simp
  | some op => simp [Work.isStep_iff]

/-- The engine may push, resume and claim: in ACTIVE or WAKING, with no step in flight (R40, R41, R48). -/
def State.mayAct (s : State) : Prop :=
  (s.hold.state = .active ∨ s.hold.state = .waking) ∧ s.stepInFlight = false

theorem State.mayAct_iff (s : State) : (s.live && !s.stepInFlight) = true ↔ s.mayAct := by
  simp [State.live, State.mayAct]

/-! ## The rows that no job serves (R36, R43) -/

/-- No MIGRATE job of the stack serves the row. -/
def State.unserved (s : State) (k : Bank × LogicalRow) : Prop :=
  ∀ j ∈ s.engine.stack, ∀ i c, j ≠ .migrate k.1 k.2 i c

theorem Job.serves_iff (j : Job) (b : Bank) (r : LogicalRow) : j.serves b r = true ↔ ∃ i c, j = .migrate b r i c := by
  cases j <;> simp [Job.serves]

theorem State.unserved_iff (s : State) (k : Bank × LogicalRow) :
    s.unserved k ↔ (!s.engine.served k.1 k.2) = true := by
  simp only [State.unserved, Engine.served, Bool.not_eq_true', List.any_eq_false, Job.serves_iff, not_exists]

theorem State.firstUnserved_none {s : State} (h : ∀ k ∈ s.remap.queuedOrder, ¬ s.unserved k) :
    s.firstUnserved = none :=
  List.find?_eq_none.2 fun k hk g => h k hk ((s.unserved_iff k).2 g)

theorem State.firstUnserved_some {s : State} {k : Bank × LogicalRow} {pre post : List (Bank × LogicalRow)}
    (hq : s.remap.queuedOrder = pre ++ k :: post) (hk : s.unserved k) (hpre : ∀ x ∈ pre, ¬ s.unserved x) :
    s.firstUnserved = some k :=
  List.find?_eq_some_iff_append.2
    ⟨(s.unserved_iff k).1 hk, pre, post, hq, fun x hx => by simpa [s.unserved_iff x] using hpre x hx⟩

/-- A change of the stack that keeps its MIGRATE jobs keeps the rows that no job serves. -/
theorem State.firstUnserved_same {s t : State} (hr : t.remap = s.remap)
    (hm : SameMigrations s.engine.stack t.engine.stack) : t.firstUnserved = s.firstUnserved := by
  have hserved (k : Bank × LogicalRow) : t.engine.served k.1 k.2 = s.engine.served k.1 k.2 := by
    rw [Bool.eq_iff_iff]
    simp only [Engine.served, List.any_eq_true, Job.serves_iff]
    constructor
    · rintro ⟨_, hj, i, c, rfl⟩
      exact ⟨_, (hm _ _ _ _).1 hj, i, c, rfl⟩
    · rintro ⟨_, hj, i, c, rfl⟩
      exact ⟨_, (hm _ _ _ _).2 hj, i, c, rfl⟩
  unfold State.firstUnserved
  simp only [hr, hserved]

/-! ## The top of the stack (R41) -/

theorem Engine.topLevel_cons {e : Engine} {j : Job} {rest : List Job} (h : e.stack = j :: rest) :
    e.topLevel = j.level := by
  unfold Engine.topLevel
  rw [h]

theorem Engine.topLevel_above_migrate {e : Engine}
    (h : ∀ j, e.stack.head? = some j → ∀ b r i c, j ≠ .migrate b r i c) : 3 < e.topLevel := by
  unfold Engine.topLevel
  cases hs : e.stack with
  | nil => decide
  | cons j rest =>
    cases j with
    | migrate b r i c => exact absurd rfl (h _ (by rw [hs]; rfl) b r i c)
    | scrub b r g n => exact (by decide : 3 < 5)
    | fill i g => exact (by decide : 3 < 7)

/-- The top is a FILL job, or there is none. -/
def Engine.onFill (e : Engine) : Prop := e.stack = [] ∨ ∃ i g rest, e.stack = .fill i g :: rest

theorem Engine.onFill.topLevel {e : Engine} (h : e.onFill) : 5 < e.topLevel := by
  obtain h | ⟨i, g, rest, h⟩ := h <;> simp [Engine.topLevel, h, Job.level]

/-- A FILL job has no job beneath it (R39). -/
theorem State.nothing_below_fill {s : State} {i : SweepIndex} {g : Nat} {rest : List Job} (hs : s.stackOk)
    (hst : s.engine.stack = .fill i g :: rest) : rest = [] := by
  unfold State.stackOk at hs
  rw [hst] at hs
  refine List.eq_nil_iff_forall_not_mem.2 fun j hj => ?_
  have hlt : 7 < j.level := (List.pairwise_cons.1 hs).1 j hj
  cases j <;> simp [Job.level] at hlt

theorem State.checkTop_none {s : State}
    (h : ∀ i g rest, s.engine.stack = .fill i g :: rest → s.fillMap.marks.getLsbD i.val = false) :
    s.checkTop = none := by
  unfold State.checkTop
  split
  · rename_i i g rest hst
    exact if_neg (Bool.eq_false_iff.1 (h i g rest hst))
  · rfl

theorem State.checkTop_marked {s : State} {i : SweepIndex} {g : Nat} {rest : List Job}
    (hst : s.engine.stack = .fill i g :: rest) (hm : s.fillMap.marks.getLsbD i.val = true) :
    s.checkTop = some (s.fillForward i rest) := by
  unfold State.checkTop
  rw [hst]
  exact if_pos hm

/-! ## The searches of the fill map (R103, R117) -/

theorem firstFrom_eq_some_iff {test : Nat → Bool} :
    ∀ {n i j : Nat}, firstFrom test n i = some j ↔
      i ≤ j ∧ j < i + n ∧ test j = true ∧ ∀ k, i ≤ k → k < j → test k = false
  | 0, i, j => by simp only [firstFrom, reduceCtorEq, false_iff]; omega
  | n + 1, i, j => by
    rw [firstFrom]
    split
    next ht =>
      rw [Option.some.injEq]
      refine ⟨fun h => h ▸ ⟨le_rfl, by omega, ht, fun k _ _ => by omega⟩, fun ⟨hle, _, _, hbefore⟩ => ?_⟩
      by_contra hne
      have := hbefore i le_rfl (by omega)
      simp [ht] at this
    next ht =>
      rw [firstFrom_eq_some_iff]
      constructor
      · rintro ⟨hle, hlt, hj, hbefore⟩
        refine ⟨by omega, by omega, hj, fun k hk hkj => ?_⟩
        obtain rfl | hk := Nat.eq_or_lt_of_le hk
        · simpa using ht
        · exact hbefore k hk hkj
      · rintro ⟨hle, hlt, hj, hbefore⟩
        have hne : i ≠ j := fun h => ht (h ▸ hj)
        exact ⟨by omega, by omega, hj, fun k hk hkj => hbefore k (by omega) hkj⟩

theorem firstFrom_eq_none {test : Nat → Bool} {n i : Nat} (h : ∀ k, i ≤ k → k < i + n → test k = false) :
    firstFrom test n i = none := by
  cases hj : firstFrom test n i with
  | none => rfl
  | some j =>
    obtain ⟨hle, hlt, hj, -⟩ := firstFrom_eq_some_iff.1 hj
    simp [h j hle hlt] at hj

theorem FillMap.nextClear_first {f : FillMap} {i j : SweepIndex} (hij : i < j) (hj : f.marks.getLsbD j.val = false)
    (hbetween : ∀ k : SweepIndex, i < k → k < j → f.marks.getLsbD k.val = true) :
    f.nextClear (i.val + 1) = some j := by
  have hfirst : firstFrom (fun k => !f.marks.getLsbD k) (131072 - (i.val + 1)) (i.val + 1) = some j.val :=
    firstFrom_eq_some_iff.2 ⟨hij, by omega, by simpa using hj,
      fun k hk hkj => by simpa using hbetween ⟨k, hkj.trans j.isLt⟩ hk hkj⟩
  rw [FillMap.nextClear, hfirst, Option.map_some, Fin.ofNat_val_eq_self]

theorem FillMap.nextClear_none {f : FillMap} {i : SweepIndex}
    (h : ∀ j : SweepIndex, i < j → f.marks.getLsbD j.val = true) : f.nextClear (i.val + 1) = none := by
  have hnone : firstFrom (fun k => !f.marks.getLsbD k) (131072 - (i.val + 1)) (i.val + 1) = none :=
    firstFrom_eq_none fun k hk hlt => by simpa using h ⟨k, by omega⟩ hk
  rw [FillMap.nextClear, hnone, Option.map_none]

theorem FillMap.nextMarked_none {f : FillMap} (h : ∀ i : SweepIndex, f.marks.getLsbD i.val = false)
    (cursor : SweepIndex) : f.nextMarked cursor = none := by
  have hzero : f.marks = 0 := BitVec.eq_of_getLsbD_eq fun i hi => (h ⟨i, hi⟩).trans BitVec.getLsbD_zero.symm
  rw [FillMap.nextMarked, if_pos hzero]

theorem FillMap.marks_ne_zero {f : FillMap} {i : SweepIndex} (hi : f.marks.getLsbD i.val = true) : f.marks ≠ 0 :=
  fun h => by simp [h] at hi

theorem FillMap.nextMarked_ahead {f : FillMap} {cursor i : SweepIndex} (hi : f.marks.getLsbD i.val = true)
    (hle : cursor ≤ i) (hbefore : ∀ j, cursor ≤ j → j < i → f.marks.getLsbD j.val = false) :
    f.nextMarked cursor = some (i, false) := by
  have hfirst : firstFrom (fun k => f.marks.getLsbD k) (131072 - cursor.val) cursor.val = some i.val :=
    firstFrom_eq_some_iff.2 ⟨hle, by omega, hi, fun k hk hki => hbefore ⟨k, hki.trans i.isLt⟩ hk hki⟩
  rw [FillMap.nextMarked, if_neg (FillMap.marks_ne_zero hi), hfirst]
  simp only [Fin.ofNat_val_eq_self]

theorem FillMap.nextMarked_wrapped {f : FillMap} {cursor i : SweepIndex} (hi : f.marks.getLsbD i.val = true)
    (hlt : i < cursor) (hahead : ∀ j, cursor ≤ j → f.marks.getLsbD j.val = false)
    (hbefore : ∀ j, j < i → f.marks.getLsbD j.val = false) : f.nextMarked cursor = some (i, true) := by
  have hnone : firstFrom (fun k => f.marks.getLsbD k) (131072 - cursor.val) cursor.val = none :=
    firstFrom_eq_none fun k hk hkn => hahead ⟨k, by omega⟩ hk
  have hfirst : firstFrom (fun k => f.marks.getLsbD k) cursor.val 0 = some i.val :=
    firstFrom_eq_some_iff.2
      ⟨Nat.zero_le _, (Nat.zero_add _).symm ▸ hlt, hi, fun k _ hki => hbefore ⟨k, hki.trans i.isLt⟩ hki⟩
  rw [FillMap.nextMarked, if_neg (FillMap.marks_ne_zero hi), hnone, hfirst]
  simp only [Option.map_some, Fin.ofNat_val_eq_self]

end Sys2Proof.Machine

/-! # The engine's moves (R41, R43, R47) -/

namespace Sys2Proof.Machine

/-! ## Which move is due -/

theorem State.engineMove_held {s : State} (h : ¬ s.mayAct) : s.engineMove = none :=
  if_neg fun g => h (s.mayAct_iff.1 g)

theorem State.engineMove_migrate {s : State} {k : Bank × LogicalRow} (ha : s.mayAct) (hk : s.firstUnserved = some k)
    (ht : 3 < s.engine.topLevel) : s.engineMove = some (s.pushMigrate k.1 k.2) := by
  rw [State.engineMove, if_pos (s.mayAct_iff.2 ha), hk]
  exact if_pos ht

theorem State.engineMove_scrub {s : State} (ha : s.mayAct) (hk : s.firstUnserved = none)
    (hp : s.engine.scrubPending = true) (ht : 5 < s.engine.topLevel) : s.engineMove = some s.pushScrub := by
  rw [State.engineMove, if_pos (s.mayAct_iff.2 ha), hk]
  exact if_pos ⟨hp, ht⟩

theorem State.engineMove_check {s : State} (ha : s.mayAct) (hk : s.firstUnserved = none)
    (hp : s.engine.scrubPending = false) (hf : s.engine.fillPending = false) : s.engineMove = s.checkTop := by
  rw [State.engineMove, if_pos (s.mayAct_iff.2 ha), hk]
  simp [hp, hf]

/-- No class that waits goes above the top, and the top stands where it can go on: no move is due. -/
theorem State.engineMove_none {s : State} (hk : s.firstUnserved = none ∨ s.engine.topLevel ≤ 3)
    (hp : s.engine.scrubPending = false ∨ s.engine.topLevel ≤ 5)
    (hf : s.engine.fillPending = false ∨ s.engine.topLevel ≤ 7) (hc : s.checkTop = none) : s.engineMove = none := by
  have hscrub : ¬ (s.engine.scrubPending = true ∧ 5 < s.engine.topLevel) := fun ⟨h, ht⟩ =>
    hp.elim (fun g => by simp [g] at h) fun g => by omega
  have hfill : ¬ (s.engine.fillPending = true ∧ 7 < s.engine.topLevel) := fun ⟨h, ht⟩ =>
    hf.elim (fun g => by simp [g] at h) fun g => by omega
  simp only [State.engineMove, if_neg hscrub, if_neg hfill, hc]
  split
  · split
    next k hsome => exact if_neg (hk.elim (fun g => by simp [g] at hsome) fun g => by omega)
    next => rfl
  · rfl

/-- Above a MIGRATE job nothing is pushed, and it is not checked. -/
theorem State.engineMove_on_migrate {s : State} {b : Bank} {r : LogicalRow} {i : Slot} {c : Nat} {rest : List Job}
    (hst : s.engine.stack = .migrate b r i c :: rest) : s.engineMove = none := by
  have ht : s.engine.topLevel = 3 := Engine.topLevel_cons hst
  exact State.engineMove_none (.inr (by omega)) (.inr (by omega)) (.inr (by omega))
    (State.checkTop_none fun _ _ _ h => by simp [hst] at h)

/-- Above a SCRUB job only a MIGRATE job is pushed, and it is not checked. -/
theorem State.engineMove_on_scrub {s : State} {b : Bank} {r : LogicalRow} {g n : Nat} {rest : List Job}
    (hst : s.engine.stack = .scrub b r g n :: rest) (hk : s.firstUnserved = none) : s.engineMove = none := by
  have ht : s.engine.topLevel = 5 := Engine.topLevel_cons hst
  exact State.engineMove_none (.inl hk) (.inr (by omega)) (.inr (by omega))
    (State.checkTop_none fun _ _ _ h => by simp [hst] at h)

/-- A move after which none is due is all that the engine does. -/
theorem State.engineRun_once {s t : State} (h : s.engineMove = some t) (ht : t.engineMove = none) :
    s.engineRun = t := by
  change State.engineMoves (298 + 1 + 1) s = t
  simp only [State.engineMoves, h, ht]

/-! ## The start of a migration (R86, R87) -/

theorem Remap.freeSpare_first {u : Remap} {b : Bank} {x : SpareIndex} (hx : u.spare b x = .free)
    (hlow : ∀ y, y < x → u.spare b y ≠ .free) : u.freeSpare b = some x := by
  unfold Remap.freeSpare
  rw [← Fin.find?_eq_find?_finRange, Fin.find?_eq_some_iff]
  exact ⟨decide_eq_true hx, fun y hy => decide_eq_false (hlow y hy)⟩

theorem Remap.freeSpare_none {u : Remap} {b : Bank} (h : ∀ x, u.spare b x ≠ .free) : u.freeSpare b = none :=
  List.find?_eq_none.2 fun x _ => by simpa using h x

theorem Remap.emptySlot_first {u : Remap} {b : Bank} (h : ∃ i : Slot, u.tables[b][i] = none) :
    ∃ i : Slot, u.emptySlot b = some i ∧ u.tables[b][i] = none ∧ ∀ j : Slot, j < i → u.tables[b][j] ≠ none := by
  cases hi : u.emptySlot b with
  | none =>
    obtain ⟨i, hempty⟩ := h
    exact absurd hempty (by simpa using List.find?_eq_none.1 hi i (List.mem_finRange i))
  | some i =>
    refine ⟨i, rfl, Remap.emptySlot_some hi, fun j hj => ?_⟩
    unfold Remap.emptySlot at hi
    rw [← Fin.find?_eq_find?_finRange, Fin.find?_eq_some_iff] at hi
    exact Option.isSome_iff_ne_none.1 (by simpa using hi.2 j hj)

/-- A FREE spare taken, the bank holds one FREE spare less. -/
theorem Remap.countSpares_take {u : Remap} {b : Bank} {x : SpareIndex} (hx : u.spare b x = .free) :
    (u.setSpare b x .inUse).countSpares b .free + 1 = u.countSpares b .free := by
  have hperm := List.perm_cons_erase (List.mem_finRange x)
  have hrest : ∀ y ∈ (List.finRange 16).erase x,
      (decide ((u.setSpare b x .inUse).spare b y = .free) = true ↔ decide (u.spare b y = .free) = true) := by
    intro y hy
    have hne : y ≠ x := ((List.nodup_finRange 16).mem_erase_iff.1 hy).1
    simp [Remap.setSpare_spare, hne]
  unfold Remap.countSpares
  rw [hperm.countP_eq, hperm.countP_eq, List.countP_cons, List.countP_cons, List.countP_congr hrest]
  simp [Remap.setSpare_spare, hx]

theorem Remap.opened_new {u : Remap} {b : Bank} {r : LogicalRow} {i : Slot} (hf : u.find b r = none)
    (hi : u.emptySlot b = some i) (x : SpareIndex) :
    u.opened b r x =
      (i, { logicalRow := r, target := x, state := .migrating, source := some (ordinaryRow r), cursor := 0 }) := by
  unfold Remap.opened
  rw [hf, hi]
  rfl

theorem Remap.opened_again {u : Remap} {b : Bank} {r : LogicalRow} {i : Slot} {e : RemapEntry}
    (hf : u.find b r = some (i, e)) (x : SpareIndex) :
    u.opened b r x =
      (i, { logicalRow := r, target := x, state := .migrating, source := some (spareRow e.target), cursor := 0 }) := by
  unfold Remap.opened
  rw [hf]

theorem State.pushMigrate_opens {s : State} {b : Bank} {x : SpareIndex} (h : s.remap.freeSpare b = some x)
    (r : LogicalRow) :
    s.pushMigrate b r =
      (s.openMigration b r x).setStack (.migrate b r (s.remap.opened b r x).1 0 :: s.engine.stack) := by
  unfold State.pushMigrate
  rw [h]

theorem State.pushMigrate_gives_up {s : State} {b : Bank} (h : s.remap.freeSpare b = none) (r : LogicalRow) :
    s.pushMigrate b r = s.giveUpMigration b r := by
  unfold State.pushMigrate
  rw [h]

theorem State.openMigration_same (s : State) (b : Bank) (r : LogicalRow) (x : SpareIndex) :
    SameBut [.remap, .alerts] s (s.openMigration b r x) := by
  unfold State.openMigration
  dsimp only
  split
  · exact (s.setRemap_same _).trans (State.raise_same _ _)
  · exact (s.setRemap_same _).mono (by decide)

theorem State.openMigration_remap (s : State) (b : Bank) (r : LogicalRow) (x : SpareIndex) :
    (s.openMigration b r x).remap =
      (s.remap.setSpare b x .inUse).setSlot b (s.remap.opened b r x).1 (some (s.remap.opened b r x).2) := by
  unfold State.openMigration
  dsimp only
  split <;> rfl

/-- SPARES_LOW is raised where 3 or fewer spares were FREE before one was taken. -/
theorem State.openMigration_alerts {s : State} {b : Bank} {x : SpareIndex} (hx : s.remap.spare b x = .free)
    (r : LogicalRow) :
    (s.openMigration b r x).alerts =
      if s.remap.countSpares b .free ≤ 3 then { s.alerts with causes := s.alerts.causes ||| 0x02 } else s.alerts := by
  have hcount := Remap.countSpares_take hx
  unfold State.openMigration
  dsimp only
  change (if (s.remap.setSpare b x .inUse).countSpares b .free ≤ 2 then _ else _ : State).alerts = _
  split
  next hle =>
    rw [if_pos (by omega)]
    rfl
  next hgt =>
    rw [if_neg (by omega)]
    rfl

/-! ## A row given up (R86) -/

/-- A report rests on nothing in the Remap Unit. -/
theorem State.setRemap_report (s : State) (u : Remap) (e : ErrorReport) :
    (s.setRemap u).report e = (s.report e).setRemap u := by
  unfold State.report
  dsimp only
  rw [State.setRemap_errors, State.setRemap_clock]
  by_cases hkey : s.errors.records.any e.hasKeyOf = true
  · simp only [if_pos hkey]
    rfl
  · simp only [if_neg hkey]
    by_cases hroom : s.errors.records.length < Config.errorSize
    · simp only [if_pos hroom]
      rfl
    · simp only [if_neg hroom]
      cases oldestCe s.clock.deviceTime s.errors.records with
      | some r => rfl
      | none =>
        by_cases hdrop : e.kind = .ce ∨ s.errors.saturated = true
        · simp only [if_pos hdrop]
        · simp only [if_neg hdrop]
          rfl

theorem State.giveUpMigration_same (s : State) (b : Bank) (r : LogicalRow) :
    SameBut [.remap, .errors, .alerts] s (s.giveUpMigration b r) :=
  (((s.setRemap_same _).trans (State.report_same _ _)).trans (State.raise_same _ _)).mono (by decide)

theorem State.giveUpMigration_reports (s : State) (b : Bank) (r : LogicalRow) :
    s.giveUpMigration b r =
      ((s.report
        { kind := .unrepairable, source := .remap, bank := b, physicalRow := s.remap.readRow b r, word := none }).setRemap
          (s.remap.giveUp b r)).raise .sparesExhausted := by
  rw [← State.setRemap_report]
  rfl

/-! ## The start of a scrub (R103, R107) -/

theorem State.pushScrub_found {s : State} {i : SweepIndex} {w : Bool}
    (h : s.fillMap.nextMarked s.scrubber.cursor = some (i, w)) :
    s.pushScrub =
      ((s.setEngine { s.engine with scrubPending := false }).setScrubber (s.scrubber.moveTo i w)).setStack
        (.scrub (sweepBank i) (sweepRow i) 0 0 :: s.engine.stack) := by
  unfold State.pushScrub
  rw [h]

theorem State.pushScrub_none {s : State} (h : s.fillMap.nextMarked s.scrubber.cursor = none) :
    s.pushScrub = (s.setEngine { s.engine with scrubPending := false }).serveLag := by
  unfold State.pushScrub
  rw [h]

/-- A scrub without a row, `lag` above 0: the next one is pending (R107). -/
theorem State.pushScrub_lag {s : State} (h : s.fillMap.nextMarked s.scrubber.cursor = none)
    (hp : s.engine.scrubPending = true) {n : Nat} (hl : s.scrubber.lag = n + 1) :
    s.pushScrub = s.setScrubber { s.scrubber with lag := n } := by
  have hlag : (s.setEngine { s.engine with scrubPending := false }).scrubber.lag = n + 1 := hl
  have hback : { s.engine with scrubPending := true } = s.engine := by rw [← hp]
  rw [State.pushScrub_none h, State.serveLag, if_pos (by omega), hlag]
  change (s.setScrubber { s.scrubber with lag := n }).setEngine { s.engine with scrubPending := true } = _
  rw [hback]
  rfl

theorem State.pushScrub_last {s : State} (h : s.fillMap.nextMarked s.scrubber.cursor = none) (hl : s.scrubber.lag = 0) :
    s.pushScrub = s.setEngine { s.engine with scrubPending := false } := by
  rw [State.pushScrub_none h]
  exact if_neg (by simp [hl])

/-- SCRUB is the class to push, and the top would stay: only whether a row is filled is open. -/
structure State.scrubDue (s : State) : Prop where
  acts : s.mayAct
  noRow : s.firstUnserved = none
  pending : s.engine.scrubPending = true
  noFill : s.engine.fillPending = false
  top : s.engine.onFill

/-- Where no row is filled, SCRUB and each that `lag` makes pending complete at once (R107). -/
theorem State.engineMoves_scrubs {s : State} (hd : s.scrubDue)
    (hclear : ∀ i : SweepIndex, s.fillMap.marks.getLsbD i.val = false) {n : Nat} (hn : s.scrubber.lag < n) :
    State.engineMoves n s =
      (s.setEngine { s.engine with scrubPending := false }).setScrubber { s.scrubber with lag := 0 } := by
  induction n generalizing s with
  | zero => omega
  | succ n ih =>
    have hmove := State.engineMove_scrub hd.acts hd.noRow hd.pending hd.top.topLevel
    have h := FillMap.nextMarked_none hclear s.scrubber.cursor
    simp only [State.engineMoves, hmove]
    cases hl : s.scrubber.lag with
    | zero =>
      have hrest : s.pushScrub.engineMove = none := by
        rw [State.pushScrub_last h hl]
        exact State.engineMove_none (.inl hd.noRow) (.inl rfl) (.inl hd.noFill)
          (State.checkTop_none fun i _ _ _ => hclear i)
      have hstop : State.engineMoves n s.pushScrub = s.pushScrub := by
        cases n with
        | zero => rfl
        | succ n => rw [State.engineMoves, hrest]
      rw [hstop, State.pushScrub_last h hl, ← hl]
      rfl
    | succ l =>
      rw [State.pushScrub_lag h hd.pending hl]
      exact ih (s := s.setScrubber { s.scrubber with lag := l })
        ⟨hd.acts, hd.noRow, hd.pending, hd.noFill, hd.top⟩ hclear
        (show l < n by omega)

/-- The scrub that finds row `i` is all that the engine does. -/
theorem State.engineRun_scrub {s : State} (hd : s.scrubDue) {i : SweepIndex} {w : Bool}
    (h : s.fillMap.nextMarked s.scrubber.cursor = some (i, w)) :
    s.engineRun =
      ((s.setEngine { s.engine with scrubPending := false }).setScrubber (s.scrubber.moveTo i w)).setStack
        (.scrub (sweepBank i) (sweepRow i) 0 0 :: s.engine.stack) := by
  rw [← State.pushScrub_found h]
  refine State.engineRun_once (State.engineMove_scrub hd.acts hd.noRow hd.pending hd.top.topLevel) ?_
  rw [State.pushScrub_found h]
  refine State.engineMove_on_scrub rfl ((State.firstUnserved_same (s := s) ?_ ?_).trans hd.noRow)
  · rfl
  · exact .push scrub_ne_migrate

end Sys2Proof.Machine

/-! # The engine starts its jobs (R41, R43, R47, R86, R103, R117) -/

namespace Sys2Proof.Machine

/-! ## A row taken up or given up -/

/-- The migration opened on the lowest FREE spare is all that the engine does. -/
theorem State.engineRun_migrate {s : State} {k : Bank × LogicalRow} {x : SpareIndex} (ha : s.mayAct)
    (hk : s.firstUnserved = some k) (ht : 3 < s.engine.topLevel) (hx : s.remap.freeSpare k.1 = some x) {slot : Slot}
    {n : RemapEntry} (ho : s.remap.opened k.1 k.2 x = (slot, n)) :
    s.engineRun = (s.openMigration k.1 k.2 x).setStack (.migrate k.1 k.2 slot 0 :: s.engine.stack) := by
  have hmove := State.engineMove_migrate ha hk ht
  rw [State.pushMigrate_opens hx, ho] at hmove
  exact State.engineRun_once hmove (State.engineMove_on_migrate rfl)

theorem State.openMigration_tables {s : State} {b : Bank} {r : LogicalRow} {x : SpareIndex} {slot : Slot}
    {n : RemapEntry} (ho : s.remap.opened b r x = (slot, n)) (c : Bank) (i : Slot) :
    (s.openMigration b r x).remap.tables[c][i] = if c = b ∧ i = slot then some n else s.remap.tables[c][i] := by
  rw [State.openMigration_remap, ho, Remap.setSlot_tables, Remap.setSpare_tables]

theorem State.openMigration_spare (s : State) (b : Bank) (r : LogicalRow) (x : SpareIndex) (c : Bank) (y : SpareIndex) :
    (s.openMigration b r x).remap.spare c y = if c = b ∧ y = x then .inUse else s.remap.spare c y := by
  rw [State.openMigration_remap, Remap.setSlot_spare, Remap.setSpare_spare]

/-! ## The FILL job that leaves its row -/

/-- No move is due after the FILL job that was the top has left its marked row: it stands on a clear one, or is gone. -/
theorem State.fillForward_rest {s : State} {i : SweepIndex} {g : Nat} {rest : List Job} (hs : s.stackOk)
    (hst : s.engine.stack = .fill i g :: rest) (hk : s.firstUnserved = none) (hp : s.engine.scrubPending = false)
    (hf : s.engine.fillPending = false) : (s.fillForward i rest).engineMove = none := by
  have hempty := State.nothing_below_fill hs hst
  unfold State.fillForward
  split
  · have hmig : SameMigrations s.engine.stack rest := hst ▸ .pop fill_ne_migrate
    refine State.engineMove_none (.inl ((State.firstUnserved_same (s := s) ?_ hmig).trans hk)) (.inl hp) (.inl hf)
      (State.checkTop_none fun _ _ _ h => ?_)
    · rfl
    · exact absurd (hempty.symm.trans h) (by simp)
  · rename_i j hj
    have hmig : SameMigrations s.engine.stack (.fill j 0 :: rest) := hst ▸ .cons fill_ne_migrate fill_ne_migrate
    refine State.engineMove_none (.inl ((State.firstUnserved_same (s := s) ?_ hmig).trans hk)) (.inl hp) (.inl hf)
      (State.checkTop_none fun j' g' rest' h => ?_)
    · rfl
    · have hj' : j = j' := by
        have h' : Job.fill j 0 :: rest = .fill j' g' :: rest' := h
        simp only [List.cons.injEq, Job.fill.injEq] at h'
        exact h'.1.1
      exact hj' ▸ FillMap.nextClear_some hj

theorem State.engineRun_fill {s : State} {i : SweepIndex} {g : Nat} {rest : List Job} (ha : s.mayAct) (hs : s.stackOk)
    (hst : s.engine.stack = .fill i g :: rest) (hm : s.fillMap.marks.getLsbD i.val = true) (hk : s.firstUnserved = none)
    (hp : s.engine.scrubPending = false) (hf : s.engine.fillPending = false) :
    s.engineRun = s.fillForward i rest :=
  State.engineRun_once ((State.engineMove_check ha hk hp hf).trans (State.checkTop_marked hst hm))
    (State.fillForward_rest hs hst hk hp hf)

/-- Settles O41: the engine makes the move that is due, and each clause names that move and what it leads to. -/
theorem engineStartsJobs : Obligations.EngineStartsJobs := by
  intro s mayAct belowMigrate unserved
  refine ⟨s.stepInFlight_iff, fun h => State.engineRun_rest (State.engineMove_held h), ?nothingDue, ?onMigrate, ?onScrub,
    ?onFill, ?migrate, ?scrub, ?scrubWithoutRow, ?leaveRow⟩
  case nothingDue =>
    intro hk hp hf htop
    exact State.engineRun_rest (State.engineMove_none (.inl (State.firstUnserved_none hk)) (.inl hp) (.inl hf)
      (State.checkTop_none htop))
  case onMigrate =>
    intro b r i c rest hst
    exact State.engineRun_rest (State.engineMove_on_migrate hst)
  case onScrub =>
    intro b r g n rest hst hk
    exact State.engineRun_rest (State.engineMove_on_scrub hst (State.firstUnserved_none hk))
  case onFill =>
    intro i g rest hst hk hp hm
    have htop : s.engine.topLevel = 7 := Engine.topLevel_cons hst
    refine State.engineRun_rest (State.engineMove_none (.inl (State.firstUnserved_none hk)) (.inl hp) (.inr htop.le)
      (State.checkTop_none fun j g' rest' h => ?_))
    obtain ⟨⟨rfl, -⟩, -⟩ : (i = j ∧ g = g') ∧ rest = rest' := by simpa using hst.symm.trans h
    exact hm
  case migrate =>
    intro pre k post ha hbelow hq hk hpre
    have hfirst := State.firstUnserved_some hq hk hpre
    have htop := Engine.topLevel_above_migrate hbelow
    refine ⟨fun x hx hlow => ?_, fun hnone => ?_⟩
    · obtain ⟨slot, n, ho⟩ : ∃ slot n, s.remap.opened k.1 k.2 x = (slot, n) := ⟨_, _, rfl⟩
      have hrun := State.engineRun_migrate ha hfirst htop (Remap.freeSpare_first hx hlow) ho
      have hsame := s.openMigration_same k.1 k.2 x
      have hlist := s.openMigration_list k.1 k.2 x
      have htables := State.openMigration_tables ho
      have hself := (htables k.1 slot).trans (if_pos ⟨rfl, rfl⟩)
      refine ⟨_, slot, hrun, (hsame.trans (State.setStack_same _ _)).mono (by decide),
        congrArg (fun e : Engine => { e with stack := .migrate k.1 k.2 slot 0 :: s.engine.stack }) hsame.engine,
        hlist.1, hlist.2, s.openMigration_spare k.1 k.2 x, fun c i hne => ?_, fun hf hempty => ?_, fun i e hf => ?_,
        State.openMigration_alerts hx k.2⟩
      · exact (htables c i).trans (if_neg fun ⟨hc, hi⟩ => hne (by rw [hc, hi]))
      · obtain ⟨i, hi, hclear, hlowest⟩ := Remap.emptySlot_first hempty
        obtain ⟨rfl, rfl⟩ := Prod.mk.inj (ho.symm.trans (Remap.opened_new hf hi x))
        exact ⟨hclear, hlowest, hself⟩
      · obtain ⟨rfl, rfl⟩ := Prod.mk.inj (ho.symm.trans (Remap.opened_again hf x))
        exact ⟨rfl, hself⟩
    · have hmove := State.engineMove_migrate ha hfirst htop
      rw [State.pushMigrate_gives_up (Remap.freeSpare_none hnone)] at hmove
      have hremap := s.giveUpMigration_remap k.1 k.2
      have hsame := s.giveUpMigration_same k.1 k.2
      intro report
      have hreport := s.giveUpMigration_reports k.1 k.2
      refine ⟨s.giveUpMigration k.1 k.2, hmove, fun hsizes hqueued hset hst => ?_, hsame, hsame.engine,
        (congrArg Remap.threshold hremap :), (congrArg Remap.tables hremap :), (congrArg Remap.spares hremap :),
        (congrArg Remap.queuedOrder hremap :), ?_, ?_, ?_⟩
      · obtain ⟨-, -, hsuspects, -⟩ := hsizes
        obtain ⟨-, -, -, -, -, -, hlag, -⟩ := hset
        exact State.engineRun_move hmove hst (hqueued.length_le.trans hsuspects) hlag
      · rw [hremap]
        exact List.map_congr_left fun e _ => by simp only [SuspectEntry.names_iff]
      · rw [hreport]
        rfl
      · rw [hreport]
        rfl
  case scrub =>
    intro i ha hk hp htop hf hm hfirst
    have hd : s.scrubDue := ⟨ha, State.firstUnserved_none hk, hp, hf, htop⟩
    obtain ⟨w, hfound, hw⟩ : ∃ w, s.fillMap.nextMarked s.scrubber.cursor = some (i, w) ∧
        (w = true ↔ i < s.scrubber.cursor) := by
      obtain ⟨hle, hbefore⟩ | ⟨hlt, hahead, hbefore⟩ := hfirst
      · exact ⟨false, FillMap.nextMarked_ahead hm hle hbefore, by simpa using hle⟩
      · exact ⟨true, FillMap.nextMarked_wrapped hm hlt hahead hbefore, by simpa using hlt⟩
    refine ⟨_, State.engineRun_scrub hd hfound, ?_, rfl, ?_⟩
    · exact (((s.setEngine_same _).trans (State.setScrubber_same _ _)).trans (State.setStack_same _ _)).mono (by decide)
    · simp only [← hw]
      rfl
  case scrubWithoutRow =>
    intro ha hk hp htop hf hclear hlag
    exact ⟨_, State.engineMoves_scrubs ⟨ha, State.firstUnserved_none hk, hp, hf, htop⟩ hclear (by omega),
      ((s.setEngine_same _).trans (State.setScrubber_same _ _)).mono (by decide), rfl, rfl⟩
  case leaveRow =>
    intro i g rest ha hk hp hf hs hst hm
    refine ⟨_, State.engineRun_fill ha hs hst hm (State.firstUnserved_none hk) hp hf, s.fillForward_same i rest,
      fun j hij hj hbetween => ?_, fun hfull => ?_⟩
    · unfold State.fillForward
      rw [FillMap.nextClear_first hij hj hbetween]
      rfl
    · unfold State.fillForward
      rw [FillMap.nextClear_none hfull]
      rfl

end Sys2Proof.Machine

/-! # The timers of the thermal poll, the patrol scrub and device time (R34, R100, R173) -/

namespace Sys2Proof.Machine

theorem Engine.scrubInService_iff (e : Engine) :
    e.scrubInService = true ↔ ∃ b r g n, Job.scrub b r g n ∈ e.stack := by
  unfold Engine.scrubInService
  rw [List.any_eq_true]
  constructor
  · rintro ⟨j, hj, h⟩
    cases j with
    | migrate => cases h
    | scrub b r g n => exact ⟨b, r, g, n, hj⟩
    | fill => cases h
  · rintro ⟨b, r, g, n, hj⟩
    exact ⟨_, hj, rfl⟩

/-- SCRUB is pending or in service: the expiry raises `lag` (R100). -/
theorem State.scrubExpiry_busy {s : State}
    (h : s.engine.scrubPending = true ∨ ∃ b r g n, Job.scrub b r g n ∈ s.engine.stack) :
    s.scrubExpiry = s.setScrubber { s.scrubber with lag := min 255 (s.scrubber.lag + 1) } :=
  if_pos (by rwa [Bool.or_eq_true, Engine.scrubInService_iff])

theorem State.scrubExpiry_free {s : State}
    (h : ¬ (s.engine.scrubPending = true ∨ ∃ b r g n, Job.scrub b r g n ∈ s.engine.stack)) :
    s.scrubExpiry = s.setEngine { s.engine with scrubPending := true } :=
  if_neg (by rwa [Bool.or_eq_true, Engine.scrubInService_iff])

/-- `s` at the end of a step interval, the next one begun (R100). -/
def State.nextScrubStep (s : State) (due : Time) : State :=
  (s.moveTo due).setScrubber { s.scrubber with stepDue := some (due + scrubInterval s.scrubber.step) }

theorem State.nextScrubStep_same (s : State) (due : Time) : SameBut [.clock, .scrubber] s (s.nextScrubStep due) :=
  (s.moveTo_same due).trans (State.setScrubber_same _ _)

theorem State.scrubStepEnds_running {s : State} {due : Time} (h : s.scrubber.stepDue = some due) :
    s.scrubStepEnds = (s.nextScrubStep due).scrubExpiry.engineRun := by
  unfold State.scrubStepEnds
  rw [h]
  rfl

theorem State.scrubStepEnds_stopped {s : State} (h : s.scrubber.stepDue = none) : s.scrubStepEnds = s := by
  unfold State.scrubStepEnds
  rw [h]

/-- Settles O30: the poll, the millisecond, and the step timer running or stopped. -/
theorem pollScrubAndDeviceTimers : Obligations.PollScrubAndDeviceTimers := by
  refine ⟨fun s hp => ?poll, fun s hp => ?millisecond, fun s hp => ⟨fun due hdue => ?running, fun hdue => ?stopped⟩⟩
  case poll =>
    exact ⟨_, exec_on hp _, ((s.moveTo_same _).trans (State.setEngine_same _ _)).mono (by decide), rfl, rfl⟩
  case millisecond =>
    refine ⟨_, exec_on hp _, ((s.moveTo_same _).trans (State.setClock_same _ _)).mono (by decide), rfl, rfl, ?_⟩
    exact BitVec.toNat_add s.clock.deviceTime 1
  case running =>
    intro busy
    have hframe := ((s.nextScrubStep_same due).trans (s.nextScrubStep due).scrubExpiry_same).mono
      (m := [.clock, .scrubber, .engine]) (by decide)
    refine ⟨_, (exec_on hp _).trans (congrArg _ (State.scrubStepEnds_running hdue)), hframe,
      (s.nextScrubStep due).scrubExpiry_same.clock, fun hbusy => ?_, fun hfree => ?_⟩
    · rw [State.scrubExpiry_busy (s := s.nextScrubStep due) hbusy]
      exact ⟨rfl, rfl⟩
    · rw [State.scrubExpiry_free (s := s.nextScrubStep due) hfree]
      exact ⟨rfl, rfl⟩
  case stopped =>
    exact (exec_on hp _).trans (congrArg _ (State.scrubStepEnds_stopped hdue))

end Sys2Proof.Machine

/-! # The claims that stand (R15) -/

namespace Sys2Proof.Machine

theorem State.senseClaim_iff (s : State) (c : Claim) :
    s.senseClaim = some c ↔
      s.engine.thermalPollPending = true ∧ c = { level := 1, bank := none, logicalRow := none, work := .sense } := by
  unfold State.senseClaim
  split
  next h => simp [h, eq_comm]
  next h => simp [h]

theorem State.readClaim_iff (s : State) (c : Claim) :
    s.readClaim = some c ↔
      ∃ a n rest taken bytes words, s.port.queue = .read a n :: rest ∧
        s.port.stage = some (.reading taken bytes words false) ∧
        c =
          { level := 2, bank := some (lineBank (beatLine a)), logicalRow := some (lineRow (beatLine a))
            work := .lineRead (beatLine a) words true } := by
  unfold State.readClaim
  constructor
  · intro h
    split at h
    next a n rest taken bytes words hq hs => exact ⟨a, n, rest, taken, bytes, words, hq, hs, (Option.some.inj h).symm⟩
    next => cases h
  · rintro ⟨a, n, rest, taken, bytes, words, hq, hs, rfl⟩
    rw [hq, hs]

/-! ## The DRAINING entry (R121, R122, R131) -/

theorem Work.isDrain_iff (w : Work) :
    w.isDrain = true ↔ ∃ line, w = .lineWrite line ∨ w = .lineMerge line ∨ w = .rowFill line := by
  cases w <;> simp [Work.isDrain]

/-- An entry's drain, or the ROW-FILL before it, holds the channel. -/
theorem State.drainInFlight_iff (s : State) :
    (s.channel.map Operation.work).any Work.isDrain = true ↔
      ∃ op line, s.channel = some op ∧
        (op.work = .lineWrite line ∨ op.work = .lineMerge line ∨ op.work = .rowFill line) := by
  cases s.channel with
  | none => simp
  | some op => simp [Work.isDrain_iff]

theorem BufferEntry.partly_iff (e : BufferEntry) :
    lineWords.any (partlyCovered e.valid) = true ↔
      ∃ k : Fin 4, wordValid e.valid k ≠ 0 ∧ wordValid e.valid k ≠ 0xFF := by
  simp [lineWords, partlyCovered]

theorem BufferEntry.drainWork_merge {e : BufferEntry}
    (h : ∃ k : Fin 4, wordValid e.valid k ≠ 0 ∧ wordValid e.valid k ≠ 0xFF) : e.drainWork = .lineMerge e.line :=
  if_pos (e.partly_iff.2 h)

theorem BufferEntry.drainWork_write {e : BufferEntry}
    (h : ¬ ∃ k : Fin 4, wordValid e.valid k ≠ 0 ∧ wordValid e.valid k ≠ 0xFF) : e.drainWork = .lineWrite e.line :=
  if_neg fun g => h (e.partly_iff.1 g)

theorem State.drainClaim_in_flight {s : State} (h : (s.channel.map Operation.work).any Work.isDrain = true) :
    s.drainClaim = none := by
  unfold State.drainClaim
  split
  · rfl
  · exact if_pos h

theorem State.drainClaim_stands {s : State} {e : BufferEntry} (he : s.buffer.draining = some e)
    (h : ¬ (s.channel.map Operation.work).any Work.isDrain = true) :
    s.drainClaim =
      some
        { level := 2, bank := some (lineBank e.line), logicalRow := some (lineRow e.line)
          work := if s.fillMap.marked (lineBank e.line) (lineRow e.line) then e.drainWork else .rowFill e.line } := by
  unfold State.drainClaim
  rw [he]
  exact if_neg h

theorem State.drainClaim_no_entry {s : State} (h : s.buffer.draining = none) : s.drainClaim = none := by
  unfold State.drainClaim
  rw [h]

/-! ## The step of the top (R40, R46, R48) -/

theorem State.stepClaim_acting {s : State} (h : s.mayAct) : s.stepClaim = s.engine.stack.head?.map Job.claim :=
  if_pos (s.mayAct_iff.2 h)

theorem State.stepClaim_held {s : State} (h : ¬ s.mayAct) : s.stepClaim = none :=
  if_neg fun g => h (s.mayAct_iff.1 g)

/-! ## The pull-in gate (R61) -/

theorem State.gateOpen_iff (s : State) :
    s.gateOpen = true ↔
      s.hold.state ≠ .hold ∧ (∀ b, 0 ≤ (s.balanceOf b).balance) ∧ s.senseClaim = none ∧ s.readClaim = none ∧
        s.drainClaim = none ∧ ∀ c, s.stepClaim = some c → 5 < c.level := by
  have hcaught : s.caughtUp = true ↔ ∀ b, 0 ≤ (s.balanceOf b).balance := by simp [State.caughtUp, allBanks]
  have hstep : (s.stepClaim.any fun c => decide (c.level ≤ 5)) = false ↔ ∀ c, s.stepClaim = some c → 5 < c.level := by
    cases s.stepClaim <;> simp
  simp only [State.gateOpen, State.waiting05, Bool.and_eq_true, Bool.not_eq_true', Bool.or_eq_false_iff,
    decide_eq_true_eq, Bool.not_eq_false', hcaught, hstep, Option.isSome_eq_false_iff, Option.isNone_iff_eq_none]
  tauto

/-- Settles O16: each claim by the lemma that says when it stands. -/
theorem claimsStandByTheirConditions : Obligations.ClaimsStandByTheirConditions := by
  intro s draining stepping mayStep
  have hdrain : (s.channel.map Operation.work).any Work.isDrain = true ↔ draining := s.drainInFlight_iff
  have hstep : s.mayAct ↔ mayStep := by
    simp only [State.mayAct, mayStep, stepping, ← s.stepInFlight_iff, Bool.not_eq_true]
  refine ⟨s.senseClaim_iff, s.readClaim_iff,
    fun e he => ⟨fun h => State.drainClaim_in_flight (hdrain.2 h), fun h => ?drain⟩,
    fun h => State.drainClaim_no_entry (List.find?_eq_none.2 (by simpa using h)), fun h => ?step, fun h => ?noStep,
    s.gateOpen_iff, s.claimFollows_always⟩
  case drain =>
    refine ⟨_, State.drainClaim_stands he (mt hdrain.1 h), fun hm => ?_, fun hm hpart => ?_, fun hm hpart => ?_⟩
    · exact if_neg (Bool.eq_false_iff.1 hm)
    · exact (if_pos hm).trans (BufferEntry.drainWork_merge hpart)
    · exact (if_pos hm).trans (BufferEntry.drainWork_write hpart)
  case step =>
    rw [State.stepClaim_acting (hstep.2 h)]
    refine ⟨fun b r slot cursor rest hst => ?_, fun b r g n rest hst => ?_, fun i g rest hst => ?_⟩
    · rw [hst]
      rfl
    · rw [hst]
      rfl
    · refine ⟨sweepBank i, sweepRow i, rfl, rfl, ?_⟩
      rw [hst]
      rfl
  case noStep =>
    obtain hheld | hempty := h
    · exact State.stepClaim_held (mt hstep.1 hheld)
    · simp [State.stepClaim, hempty]

end Sys2Proof.Machine

/-! # What an operation of the Remap Unit can do to the suspect list (R72 to R79, R86, R93) -/

namespace Sys2Proof.Machine

/-- One change of the Remap Unit, as far as the suspect list, its queued order and CE_THRESHOLD go: a change of tables and
pool alone, or one of the operations of chapter 05 on the list. -/
inductive Remap.Change (u : Remap) : Remap → Prop
  | tables {v : Remap} (hlist : u.SameList v) (hthreshold : v.threshold = u.threshold) : Remap.Change u v
  | threshold (n : Nat) (h1 : 1 ≤ n) (h15 : n ≤ 15) : Remap.Change u { u with threshold := n }
  | tallyCe (b : Bank) (r : LogicalRow) (now : DeviceTime) : Remap.Change u (u.tallyCe b r now)
  | tallyUe (b : Bank) (r : LogicalRow) (now : DeviceTime) : Remap.Change u (u.tallyUe b r now)
  | queue {b : Bank} {r : LogicalRow} {e : SuspectEntry} (now : DeviceTime) (he : u.suspect b r = some e)
      (hq : e.state ≠ .queued) : Remap.Change u (u.queueSuspect b r now id)
  | add {b : Bank} {r : LogicalRow} {v : Remap} (now : DeviceTime) (hn : u.suspect b r = none) (hv : u.room = some v) :
      Remap.Change u (v.addSuspect b r 1 (some now))
  | clear : Remap.Change u u.clearSuspects
  | remove (b : Bank) (r : LogicalRow) : Remap.Change u (u.removeSuspect b r)
  | giveUp (b : Bank) (r : LogicalRow) : Remap.Change u (u.giveUp b r)

/-- Every change keeps one entry a row and the queued order (R36, R72). -/
theorem Remap.Change.listOk {u v : Remap} (h : u.Change v) (hu : u.listOk) : v.listOk := by
  cases h with
  | tables hlist => exact hlist.ok hu
  | threshold => exact hu
  | tallyCe b r now => exact Remap.tallyCe_listOk hu b r now
  | tallyUe b r now => exact Remap.tallyUe_listOk hu b r now
  | queue now he hq => exact Remap.queueSuspect_listOk hu he hq now fun _ => ⟨rfl, rfl⟩
  | add now hn hv =>
    obtain ⟨hok, hsub⟩ := Remap.room_listOk hu hv
    exact Remap.addSuspect_listOk hok 1 _ fun e he => Remap.suspect_none hn e (hsub e he)
  | clear => exact Remap.clearSuspects_listOk hu
  | remove b r => exact Remap.removeSuspect_listOk hu b r
  | giveUp b r => exact Remap.giveUp_listOk hu b r

theorem Remap.room_threshold {u v : Remap} (h : u.room = some v) : v.threshold = u.threshold := by
  unfold Remap.room at h
  split at h
  · cases h
    rfl
  · obtain ⟨e, -, rfl⟩ := Option.map_eq_some_iff.1 h
    rfl

theorem Remap.addSuspect_threshold (u : Remap) (b : Bank) (r : LogicalRow) (n : Nat) (q : Option DeviceTime) :
    (u.addSuspect b r n q).threshold = u.threshold := by cases q <;> rfl

theorem Remap.tallyCe_threshold (u : Remap) (b : Bank) (r : LogicalRow) (now : DeviceTime) :
    (u.tallyCe b r now).threshold = u.threshold := by
  unfold Remap.tallyCe
  split
  · split
    · rfl
    · rename_i v hv
      rw [Remap.addSuspect_threshold, Remap.room_threshold hv]
  · split <;> rfl

theorem Remap.tallyUe_threshold (u : Remap) (b : Bank) (r : LogicalRow) (now : DeviceTime) :
    (u.tallyUe b r now).threshold = u.threshold := by
  unfold Remap.tallyUe
  split
  · split
    · rfl
    · rename_i v hv
      rw [Remap.addSuspect_threshold, Remap.room_threshold hv]
  · split <;> rfl

/-- Every change keeps CE_THRESHOLD in its range (R185). -/
theorem Remap.Change.threshold_range {u v : Remap} (h : u.Change v) (hu : 1 ≤ u.threshold ∧ u.threshold ≤ 15) :
    1 ≤ v.threshold ∧ v.threshold ≤ 15 := by
  cases h with
  | tables _ hthreshold => rwa [hthreshold]
  | threshold n h1 h15 => exact ⟨h1, h15⟩
  | tallyCe b r now => rwa [Remap.tallyCe_threshold]
  | tallyUe b r now => rwa [Remap.tallyUe_threshold]
  | add now _ hv => rwa [Remap.addSuspect_threshold, Remap.room_threshold hv]
  | _ => exact hu

/-! ## The entries of the list (R72) -/

/-- The fields of a suspect entry: `queued_at` exactly in QUEUED, and a tally of 1 to 15 (R72). -/
def SuspectEntry.ok (e : SuspectEntry) : Prop :=
  (e.queuedAt.isSome = true ↔ e.state = .queued) ∧ 1 ≤ e.tally ∧ e.tally ≤ 15

/-- A list of suspect entries, no two of one row, each with the fields of its state (R72). -/
def EntriesOk (l : List SuspectEntry) : Prop :=
  (l.Pairwise fun x y => ¬ (x.bank = y.bank ∧ x.logicalRow = y.logicalRow)) ∧ ∀ e ∈ l, e.ok

theorem State.suspectsOk_iff (s : State) : s.suspectsOk ↔ EntriesOk s.remap.suspects := .rfl

theorem EntriesOk.sublist {l m : List SuspectEntry} (h : EntriesOk l) (hm : m.Sublist l) : EntriesOk m :=
  ⟨h.1.sublist hm, fun e he => h.2 e (hm.subset he)⟩

theorem EntriesOk.append {l : List SuspectEntry} (h : EntriesOk l) {e : SuspectEntry} (he : e.ok)
    (hn : ∀ x ∈ l, ¬ (x.bank = e.bank ∧ x.logicalRow = e.logicalRow)) : EntriesOk (l ++ [e]) := by
  refine ⟨List.pairwise_append.2 ⟨h.1, List.pairwise_singleton _ _, fun x hx y hy => ?_⟩, fun x hx => ?_⟩
  · rw [List.mem_singleton.1 hy]
    exact hn x hx
  · obtain hx | hx := List.mem_append.1 hx
    · exact h.2 x hx
    · rwa [List.mem_singleton.1 hx]

/-- An update of entries that keeps their rows and their fields in order keeps the list so. -/
theorem EntriesOk.map {l : List SuspectEntry} (h : EntriesOk l) {f : SuspectEntry → SuspectEntry}
    (hrow : ∀ e, (f e).bank = e.bank ∧ (f e).logicalRow = e.logicalRow) (hok : ∀ e, e.ok → (f e).ok) :
    EntriesOk (l.map f) := by
  refine ⟨List.pairwise_map.2 (h.1.imp fun {x y} hxy => ?_), fun e he => ?_⟩
  · rwa [(hrow x).1, (hrow x).2, (hrow y).1, (hrow y).2]
  · obtain ⟨x, hx, rfl⟩ := List.mem_map.1 he
    exact hok x (h.2 x hx)

theorem Remap.updateSuspect_entries {u : Remap} (h : EntriesOk u.suspects) (b : Bank) (r : LogicalRow)
    {f : SuspectEntry → SuspectEntry} (hrow : ∀ e, (f e).bank = e.bank ∧ (f e).logicalRow = e.logicalRow)
    (hok : ∀ e, e.ok → (f e).ok) : EntriesOk (u.updateSuspect b r f).suspects := by
  refine h.map (fun e => ?_) fun e he => ?_
  · split
    · exact hrow e
    · exact ⟨rfl, rfl⟩
  · split
    · exact hok e he
    · exact he

theorem Remap.room_sublist {u v : Remap} (h : u.room = some v) : v.suspects.Sublist u.suspects := by
  unfold Remap.room at h
  split at h
  · cases h
    exact .refl _
  · obtain ⟨e, -, rfl⟩ := Option.map_eq_some_iff.1 h
    exact List.erase_sublist

theorem SuspectEntry.tallied_ok {e : SuspectEntry} (h : e.ok) : e.tallied.ok := by
  obtain ⟨hqueued, h1, -⟩ := h
  exact ⟨hqueued, Nat.le_min.2 ⟨by omega, by omega⟩, Nat.min_le_left _ _⟩

theorem SuspectEntry.queue_ok {e : SuspectEntry} (h : e.ok) (now : DeviceTime) : (e.queue now).ok :=
  ⟨by simp [SuspectEntry.queue], h.2⟩

/-- A row that the list does not hold is added, where there is room (R74, R75, R78). -/
theorem Remap.add_entriesOk {u v : Remap} (h : EntriesOk u.suspects) {b : Bank} {r : LogicalRow}
    (hn : u.suspect b r = none) (hv : u.room = some v) {n : Nat} (h1 : 1 ≤ n) (h15 : n ≤ 15) (q : Option DeviceTime) :
    EntriesOk (v.addSuspect b r n q).suspects := by
  have hsub := Remap.room_sublist hv
  have hfree (x : SuspectEntry) (hx : x ∈ v.suspects) := Remap.suspect_none hn x (hsub.subset hx)
  cases q with
  | none => exact (h.sublist hsub).append ⟨by simp, h1, h15⟩ hfree
  | some now => exact (h.sublist hsub).append ⟨by simp, h1, h15⟩ hfree

theorem Remap.tallyCe_entriesOk {u : Remap} (h : EntriesOk u.suspects) (b : Bank) (r : LogicalRow) (now : DeviceTime) :
    EntriesOk (u.tallyCe b r now).suspects := by
  unfold Remap.tallyCe
  split
  · rename_i hs
    split
    · exact h
    · rename_i v hv
      exact Remap.add_entriesOk h hs hv le_rfl (by decide) _
  · split
    · exact Remap.updateSuspect_entries h b r (f := fun e => e.tallied.queue now) (fun _ => ⟨rfl, rfl⟩)
        fun e he => SuspectEntry.queue_ok (SuspectEntry.tallied_ok he) now
    · exact Remap.updateSuspect_entries h b r (fun _ => ⟨rfl, rfl⟩) fun e => SuspectEntry.tallied_ok

/-- The row of an UNCORRECTABLE outcome takes the threshold as its tally (R75), which is therefore a premise. -/
theorem Remap.tallyUe_entriesOk {u : Remap} (hu : 1 ≤ u.threshold ∧ u.threshold ≤ 15) (h : EntriesOk u.suspects)
    (b : Bank) (r : LogicalRow) (now : DeviceTime) : EntriesOk (u.tallyUe b r now).suspects := by
  unfold Remap.tallyUe
  split
  · rename_i hs
    split
    · exact h
    · rename_i v hv
      exact Remap.add_entriesOk h hs hv hu.1 hu.2 _
  · split
    · exact Remap.updateSuspect_entries h b r (f := fun e => SuspectEntry.queue { e with tally := u.threshold } now)
        (fun _ => ⟨rfl, rfl⟩)
        fun e he => SuspectEntry.queue_ok (e := { e with tally := u.threshold }) ⟨he.1, hu⟩ now
    · exact Remap.updateSuspect_entries h b r (fun _ => ⟨rfl, rfl⟩) fun e => SuspectEntry.tallied_ok

/-- Every change keeps the form of the entries, with CE_THRESHOLD in its range (R72). -/
theorem Remap.Change.entriesOk {u v : Remap} (h : u.Change v) (hu : 1 ≤ u.threshold ∧ u.threshold ≤ 15)
    (hl : EntriesOk u.suspects) : EntriesOk v.suspects := by
  cases h with
  | tables hlist => rwa [hlist.1]
  | threshold => exact hl
  | tallyCe b r now => exact Remap.tallyCe_entriesOk hl b r now
  | tallyUe b r now => exact Remap.tallyUe_entriesOk hu hl b r now
  | queue now =>
    exact Remap.updateSuspect_entries hl _ _ (f := fun e => (id e).queue now) (fun _ => ⟨rfl, rfl⟩)
      fun e he => SuspectEntry.queue_ok he now
  | add now hn hv => exact Remap.add_entriesOk hl hn hv le_rfl (by decide) _
  | clear => exact hl.sublist List.filter_sublist
  | remove b r => exact hl.sublist List.filter_sublist
  | giveUp b r => exact Remap.updateSuspect_entries hl b r (fun _ => ⟨rfl, rfl⟩) fun e he => ⟨by simp, he.2⟩

end Sys2Proof.Machine

/-! # What a command can do to balances, settings, suspect list and hold state, as a sequence of single changes -/

namespace Sys2Proof.Machine

/-- `s` in the band `new`, before the closes that the change asks for: every record rebanded (R63, R64). -/
def State.rebanded (s : State) (new : Band) : State :=
  (s.setThermal { s.thermal with band := new }).setRefresh
    { s.refresh with banks := s.refresh.banks.map fun r => r.rebanded s.thermal.band new s.clock.now }

theorem State.setBand_same_band (s : State) : s.setBand s.thermal.band = s := if_pos rfl

theorem State.setBand_new {s : State} {new : Band} (h : new ≠ s.thermal.band) :
    s.setBand new =
      if new = .critical then (s.rebanded new).urgentCloses.raise .overtemp else (s.rebanded new).urgentCloses :=
  if_neg h

/-- The blocks that the invariants of balances, settings, suspect list and hold state do not speak of. -/
abbrev otherBlocks : List Block := [.clock, .channel, .array, .engine, .fillMap, .port, .errors, .alerts]

/-- One change of the state, as far as balances, settings, suspect list and hold state go. Each of the last five is a
setting taken. -/
inductive State.Change (s : State) : State → Prop
  | other {t : State} (h : SameBut otherBlocks s t) : State.Change s t
  | banks {t : State} (h : SameBut [.bankEngine, .channel] s t)
      (hidle : t.bankEngine.idleClose = s.bankEngine.idleClose) : State.Change s t
  | buffer {t : State} (h : SameBut [.buffer, .port] s t) (hage : t.buffer.drainAge = s.buffer.drainAge) :
      State.Change s t
  | scrubber (x : Scrubber) (hstep : x.step = s.scrubber.step)
      (hdue : x.stepDue.isSome = s.scrubber.stepDue.isSome) (hlag : x.lag ≤ max 255 s.scrubber.lag) :
      State.Change s (s.setScrubber x)
  | remap {u : Remap} (h : s.remap.Change u) : State.Change s (s.setRemap u)
  | refreshed (b : Bank) : State.Change s (s.setBalanceOf b ((s.balanceOf b).completed s.leff))
  | intervalEnded (b : Bank) : State.Change s (s.setBalanceOf b ((s.balanceOf b).expired s.thermal.band))
  | reading (x : Thermal) (hband : x.band = s.thermal.band) : State.Change s (s.setThermal x)
  | band (new : Band) : State.Change s (s.rebanded new)
  | hold (x : Hold) (hx : x.wakeEnd.isSome = true ↔ x.state = .waking) : State.Change s (s.setHold x)
  | holdState (x : HoldState) (hs : s.hold.state ≠ .waking) (hx : x ≠ .waking) :
      State.Change s (s.setHold { s.hold with state := x })
  | link (x : Link) (htable : x.selectTable = s.link.selectTable) (hindex : x.selectIndex = s.link.selectIndex) :
      State.Change s (s.setLink x)
  | limit (v : Nat) (h1 : 1 ≤ v) (h12 : v ≤ 12) :
      State.Change s (s.setRefresh (s.refresh.withLimit v s.thermal.band))
  | idleClose (v : Byte) (h40 : v.toNat ≤ 40) : State.Change s (s.setBankEngine { s.bankEngine with idleClose := v })
  | drainAge (v : Byte) (h1 : 1 ≤ v.toNat) (h127 : v.toNat ≤ 127) :
      State.Change s (s.setBuffer { s.buffer with drainAge := v })
  | scrubStep (x : Scrubber) (hx : x.stepDue.isSome = true ↔ x.step ≠ 0) (hlag : x.lag ≤ max 255 s.scrubber.lag) :
      State.Change s (s.setScrubber x)
  | select (x : Link) (hx : x.selectIndex.toNat < tableSize x.selectTable) : State.Change s (s.setLink x)

/-- Changes one after another. -/
def State.Changes : State → State → Prop := Relation.ReflTransGen State.Change

@[refl] theorem State.Changes.refl {s : State} : s.Changes s := Relation.ReflTransGen.refl

theorem State.Changes.one {s t : State} (h : s.Change t) : s.Changes t := Relation.ReflTransGen.single h

theorem State.Changes.trans {s t u : State} (h : s.Changes t) (g : t.Changes u) : s.Changes u :=
  Relation.ReflTransGen.trans h g

/-- What every single change keeps, a sequence of changes keeps. -/
theorem State.Changes.keeps {P : State → Prop} (hP : ∀ {s t : State}, s.Change t → P s → P t) {s t : State}
    (h : s.Changes t) (hs : P s) : P t := by
  induction h with
  | refl => exact hs
  | tail _ hchange ih => exact hP hchange ih

theorem State.Changes.other {l : List Block} {s t : State} (h : SameBut l s t) (hl : l ⊆ otherBlocks) : s.Changes t :=
  .one (.other (h.mono hl))

theorem State.Changes.banks {l : List Block} {s t : State} (h : SameBut l s t) (hl : l ⊆ [.bankEngine, .channel])
    (hidle : t.bankEngine.idleClose = s.bankEngine.idleClose) : s.Changes t :=
  .one (.banks (h.mono hl) hidle)

theorem State.Changes.buffer {l : List Block} {s t : State} (h : SameBut l s t) (hl : l ⊆ [.buffer, .port])
    (hage : t.buffer.drainAge = s.buffer.drainAge) : s.Changes t :=
  .one (.buffer (h.mono hl) hage)

theorem State.Changes.foldl {α : Type} {f : State → α → State} (h : ∀ (s : State) (x : α), s.Changes (f s x)) (xs : List α)
    (s : State) : s.Changes (xs.foldl f s) := by
  induction xs generalizing s with
  | nil => exact .refl
  | cons x xs ih => exact (h s x).trans (ih (f s x))

/-! ## Banks and channel: IDLE_CLOSE stays -/

theorem State.setBank_changes (s : State) (b : Bank) (r : BankRecord) : s.Changes (s.setBank b r) :=
  .banks (s.setBank_same b r) (by decide) rfl

theorem State.closeAll_changes (s : State) : s.Changes s.closeAll :=
  .banks s.closeAll_same (by decide) s.closeAll_bank.1

theorem State.furtherCloseAll_changes (s : State) : s.Changes s.furtherCloseAll := by
  unfold State.furtherCloseAll
  split
  · exact s.closeAll_changes
  · exact .refl

theorem State.urgentClose_changes (s : State) (b : Bank) : s.Changes (s.urgentClose b) :=
  .banks (s.urgentClose_same b) (by decide) (s.urgentClose_banks b).1

theorem State.urgentCloses_changes (s : State) : s.Changes s.urgentCloses :=
  .banks s.urgentCloses_same (by decide) s.urgentCloses_bank.1

theorem State.progress_idleClose (s : State) : s.progress.bankEngine.idleClose = s.bankEngine.idleClose := by
  cases hc : s.channel with
  | none => simp only [State.progress, hc]
  | some op =>
    cases hb : op.bank with
    | none => simp only [State.progress, hc, hb]
    | some b => exact (State.progress_banks hc hb).1

theorem State.progress_changes (s : State) : s.Changes s.progress :=
  .banks s.progress_same (by decide) s.progress_idleClose

theorem State.progressOn_changes (s : State) (b : Bank) : s.Changes (s.progressOn b) :=
  .banks (s.progressOn_same b) (by decide) (s.progressOn_banks b).1

theorem State.release_changes (s : State) (b : Bank) : s.Changes (s.release b) :=
  .banks (s.release_same b) (by decide) (s.release_banks b).1

/-! ## Write buffer and port: DRAIN_AGE stays -/

theorem State.chooseEntry_drainAge (s : State) : s.chooseEntry.buffer.drainAge = s.buffer.drainAge := by
  unfold State.chooseEntry
  split
  · rfl
  · split <;> rfl

theorem State.serveWrite_drainAge (s : State) (a : BeatAddress) (n : BeatCount) (d : List WriteBeat) :
    (s.serveWrite a n d).buffer.drainAge = s.buffer.drainAge := by
  unfold State.serveWrite
  dsimp only
  split
  · rfl
  · split
    · rfl
    · split <;> rfl

theorem State.serveHead_drainAge (s : State) : s.serveHead.buffer.drainAge = s.buffer.drainAge := by
  unfold State.serveHead
  split
  · rfl
  · rw [(s.serveRead_same _ _).buffer (by decide)]
  · exact s.serveWrite_drainAge _ _ _
  · unfold State.serveFlush
    rw [(State.finishFlush_same _).buffer (by decide)]
    rfl

theorem State.chooseEntry_changes (s : State) : s.Changes s.chooseEntry :=
  .buffer s.chooseEntry_same (by decide) s.chooseEntry_drainAge

theorem State.serveHead_changes (s : State) : s.Changes s.serveHead :=
  .buffer s.serveHead_same (by decide) s.serveHead_drainAge

theorem State.serveWaiting_changes (s : State) : s.Changes s.serveWaiting := by
  unfold State.serveWaiting
  split
  · exact s.serveHead_changes
  · exact .refl

theorem State.setPort_changes (s : State) (x : SystemPort) : s.Changes (s.setPort x) :=
  .other (s.setPort_same x) (by decide)

theorem State.setBuffer_changes (s : State) {x : WriteBuffer} (h : x.drainAge = s.buffer.drainAge) :
    s.Changes (s.setBuffer x) :=
  .buffer (s.setBuffer_same x) (by decide) h

theorem State.expireAge_changes (s : State) : s.Changes s.expireAge := .buffer s.expireAge_same (by decide) rfl

theorem State.acceptOffer_changes (s : State) : s.Changes s.acceptOffer := by
  have haccept (r : Request) : s.Changes (s.accept r) := by
    unfold State.accept
    dsimp only
    split
    · exact (s.setPort_changes _).trans (State.serveHead_changes _)
    · exact s.setPort_changes _
  unfold State.acceptOffer
  split
  · exact (haccept _).trans (State.chooseEntry_changes _)
  · exact .refl

theorem State.takeOffered_changes (s : State) : s.Changes s.takeOffered := by
  unfold State.takeOffered
  split
  · exact (((s.setPort_changes _).trans (State.serveHead_changes _)).trans (State.chooseEntry_changes _)).trans
      (State.furtherCloseAll_changes _)
  · exact .refl

/-! ## Reports -/

theorem State.setRemap_changes (s : State) {u : Remap} (h : s.remap.Change u) : s.Changes (s.setRemap u) :=
  .one (.remap h)

theorem State.reportSuspect_changes (s : State) (b : Bank) (r : LogicalRow) (o : DecodeOutcome) :
    s.Changes (s.reportSuspect b r o) := by
  unfold State.reportSuspect
  split
  · exact .refl
  · cases o with
    | corrected => exact s.setRemap_changes (.tallyCe b r _)
    | uncorrectable => exact s.setRemap_changes (.tallyUe b r _)
    | _ => exact .refl

theorem State.report_changes (s : State) (e : ErrorReport) : s.Changes (s.report e) :=
  .other (s.report_same e) (by decide)

theorem State.raise_changes (s : State) (c : Cause) : s.Changes (s.raise c) := .other (s.raise_same c) (by decide)

theorem State.reportWord_changes (s : State) (source : ErrorSource) (b : Bank) (r : LogicalRow) (p : PhysicalRow)
    (w : WordInRow) (o : DecodeOutcome) : s.Changes (s.reportWord source b r p w o) := by
  cases o with
  | corrected => exact .trans (s.report_changes _) (State.reportSuspect_changes _ b r .corrected)
  | uncorrectable =>
    exact .trans (.trans (s.report_changes _) (State.reportSuspect_changes _ b r .uncorrectable))
      (State.raise_changes _ _)
  | _ => exact .refl

theorem State.reportAll_changes (s : State) (source : ErrorSource) (b : Bank) (r : LogicalRow) (p : PhysicalRow)
    (ds : List (WordInRow × Decoded)) : s.Changes (s.reportAll source b r p ds) :=
  .foldl (fun s _ => s.reportWord_changes _ _ _ _ _ _) ds s

theorem State.reportRead_changes (s : State) (line : Line) (p : PhysicalRow) (ds : List (ReadWord × Decoded)) :
    s.Changes (s.reportRead line p ds) :=
  .foldl (fun s _ => s.reportWord_changes _ _ _ _ _ _) ds s

/-! ## The engine and the scrubber -/

theorem State.setEngine_changes (s : State) (x : Engine) : s.Changes (s.setEngine x) :=
  .other (s.setEngine_same x) (by decide)

theorem State.serveLag_changes (s : State) : s.Changes s.serveLag := by
  unfold State.serveLag
  split
  · have hlag : s.scrubber.lag - 1 ≤ max 255 s.scrubber.lag := by omega
    exact .trans (State.Changes.one (.scrubber { s.scrubber with lag := s.scrubber.lag - 1 } rfl rfl hlag))
      (State.setEngine_changes _ _)
  · exact .refl

theorem State.scrubExpiry_changes (s : State) : s.Changes s.scrubExpiry := by
  unfold State.scrubExpiry
  split
  · exact State.Changes.one (.scrubber _ rfl rfl ((Nat.min_le_left _ _).trans (Nat.le_max_left _ _)))
  · exact s.setEngine_changes _

theorem State.setScrubber_changes (s : State) (x : Scrubber) (hstep : x.step = s.scrubber.step)
    (hdue : x.stepDue = s.scrubber.stepDue) (hlag : x.lag = s.scrubber.lag) : s.Changes (s.setScrubber x) :=
  State.Changes.one (.scrubber x hstep (by rw [hdue]) (hlag ▸ Nat.le_max_right _ _))

theorem State.pushScrub_changes (s : State) : s.Changes s.pushScrub := by
  unfold State.pushScrub
  dsimp only
  split
  · exact (s.setEngine_changes _).trans (State.serveLag_changes _)
  · exact .trans (.trans (s.setEngine_changes _) (State.setScrubber_changes _ (s.scrubber.moveTo _ _) rfl rfl rfl))
      (State.setEngine_changes _ _)

theorem State.pushMigrate_changes (s : State) (b : Bank) (r : LogicalRow) : s.Changes (s.pushMigrate b r) := by
  unfold State.pushMigrate
  split
  · exact ((s.setRemap_changes (.giveUp b r)).trans (State.report_changes _ _)).trans (State.raise_changes _ _)
  · unfold State.openMigration
    dsimp only
    refine .trans ?_ (State.setEngine_changes _ _)
    split
    · refine .trans (s.setRemap_changes ?_) (State.raise_changes _ _)
      exact .tables ⟨rfl, rfl⟩ rfl
    · exact s.setRemap_changes (.tables ⟨rfl, rfl⟩ rfl)

theorem State.engineMove_changes {s t : State} (h : s.engineMove = some t) : s.Changes t := by
  have hcheck (h : s.checkTop = some t) : s.Changes t := .other (State.checkTop_same h) (by decide)
  have hlower (h : (if s.engine.scrubPending = true ∧ 5 < s.engine.topLevel then some s.pushScrub
      else if s.engine.fillPending = true ∧ 7 < s.engine.topLevel then some s.pushFill else s.checkTop) = some t) :
      s.Changes t := by
    split at h
    · obtain rfl := Option.some.inj h
      exact s.pushScrub_changes
    · split at h
      · obtain rfl := Option.some.inj h
        exact .other s.pushFill_same (by decide)
      · exact hcheck h
  unfold State.engineMove at h
  split at h
  · split at h
    · split at h
      · obtain rfl := Option.some.inj h
        exact s.pushMigrate_changes _ _
      · exact hlower h
    · exact hlower h
  · cases h

theorem State.engineRun_changes (s : State) : s.Changes s.engineRun := by
  have hmoves (n : Nat) (s : State) : s.Changes (State.engineMoves n s) := by
    induction n generalizing s with
    | zero => exact .refl
    | succ n ih =>
      rw [State.engineMoves]
      split
      · exact .refl
      · rename_i t hmove
        exact (State.engineMove_changes hmove).trans (ih t)
  exact hmoves 300 s

theorem State.scrubRowDone_changes (s : State) (n : Nat) : s.Changes (s.scrubRowDone n) :=
  .trans
    (s.setScrubber_changes
      { s.scrubber.moveTo (nextIndex s.scrubber.cursor).1 (nextIndex s.scrubber.cursor).2 with lastCorrections := n }
      rfl rfl rfl)
    (State.serveLag_changes _)

theorem State.advanceScrub_changes (s : State) (n : Nat) : s.Changes (s.advanceScrub n) := by
  unfold State.advanceScrub
  split
  · split
    · exact s.setEngine_changes _
    · exact (s.setEngine_changes _).trans (State.scrubRowDone_changes _ _)
  · exact .refl

theorem State.advanceMigrate_changes (s : State) : s.Changes s.advanceMigrate := by
  have hadvance (b : Bank) (i : Slot) : s.remap.Change (s.remap.advance b i) := by
    unfold Remap.advance
    split <;> exact .tables ⟨rfl, rfl⟩ rfl
  have hcomplete (u : Remap) (b : Bank) (r : LogicalRow) (i : Slot) :
      (u.removeSuspect b r).Change (u.complete b r i) := by
    refine .tables (u.complete_list b r i) ?_
    unfold Remap.complete
    split
    · dsimp only
      split <;> rfl
    · rfl
  unfold State.advanceMigrate
  split
  · dsimp only
    split
    · exact (s.setRemap_changes (hadvance _ _)).trans (State.setEngine_changes _ _)
    · exact (((s.setRemap_changes (hadvance _ _)).trans (State.setRemap_changes _ (.remove _ _))).trans
        (State.setRemap_changes _ (hcomplete _ _ _ _))).trans (State.setEngine_changes _ _)
  · exact .refl

/-! ## Hold entry, the wake and the port reset -/

theorem State.startWake_changes (s : State) : s.Changes s.startWake :=
  (State.Changes.one (.hold _ ⟨fun _ => rfl, fun _ => rfl⟩)).trans (State.engineRun_changes _)

theorem State.wakeFromHold_changes (s : State) : s.Changes s.wakeFromHold := by
  unfold State.wakeFromHold
  split
  · exact s.startWake_changes
  · exact .refl

theorem State.abandonEntry_changes {s : State} (h : s.hold.state = .entering) : s.Changes s.abandonEntry :=
  (State.Changes.one (.holdState .active (by simp [h]) (by decide))).trans (State.engineRun_changes _)

theorem State.beginEntry_changes {s : State} (h : s.hold.state = .active) : s.Changes s.beginEntry :=
  ((State.Changes.one (.holdState .entering (by simp [h]) (by decide))).trans (State.closeAll_changes _)).trans
    (State.chooseEntry_changes _)

theorem State.portReset_changes (s : State) : s.Changes s.portReset := by
  have hreset : s.Changes s.resetPort := .other s.resetPort_same (by decide)
  have hage : s.buffer.portReset.drainAge = s.resetPort.buffer.drainAge := by
    rw [s.resetPort_same.buffer (by decide)]
    rfl
  exact ((hreset.trans (State.setBuffer_changes _ hage)).trans (State.wakeFromHold_changes _)).trans
    (State.furtherCloseAll_changes _)

theorem State.offer_changes (s : State) (r : Request) : s.Changes (s.offer r) := by
  have hseen (s : State) : s.Changes s.offerSeen := by
    unfold State.offerSeen
    split
    · exact .refl
    · exact State.abandonEntry_changes (by assumption)
    · exact s.startWake_changes
    · exact .refl
  unfold State.offer
  dsimp only
  split
  · exact (s.setPort_changes _).trans (hseen _)
  · exact s.setPort_changes _

end Sys2Proof.Machine

/-! # Every command is a sequence of such changes, or a power event -/

namespace Sys2Proof.Machine

/-! ## The link -/

theorem State.setLink_changes (s : State) (x : Link) (htable : x.selectTable = s.link.selectTable)
    (hindex : x.selectIndex = s.link.selectIndex) : s.Changes (s.setLink x) :=
  .one (.link x htable hindex)

theorem State.setResult_changes (s : State) (r : ResultCode) : s.Changes (s.setResult r) :=
  s.setLink_changes _ rfl rfl

theorem State.setAlerts_changes (s : State) (x : Alerts) : s.Changes (s.setAlerts x) :=
  .other (s.setAlerts_same x) (by decide)

section
variable {s t : State}

theorem State.judgeCommandArg_changes {v : Byte} (h : s.judgeCommandArg v = some t) : s.Changes t := by
  obtain rfl := Option.some.inj h
  exact s.setLink_changes _ rfl rfl

theorem State.judgeAlertMask_changes {v : Byte} (h : s.judgeAlertMask v = some t) : s.Changes t := by
  obtain rfl := Option.some.inj h
  exact s.setAlerts_changes _

theorem State.judgeLimitByte_changes {v : Byte} (h : s.judgeLimitByte v = some t) : s.Changes t := by
  unfold State.judgeLimitByte State.judgeLimit at h
  dsimp only at h
  split at h
  · cases h
  · rename_i hrange
    obtain ⟨h1, h12⟩ := not_not.1 hrange
    split at h
    · obtain rfl := Option.some.inj h
      exact .refl
    · split at h
      · obtain rfl := Option.some.inj h
        exact .one (.limit v.toNat h1 h12)
      · cases h

theorem State.judgeIdleClose_changes {v : Byte} (h : s.judgeIdleClose v = some t) : s.Changes t := by
  unfold State.judgeIdleClose at h
  split at h
  · rename_i h40
    obtain rfl := Option.some.inj h
    exact (State.Changes.one (.idleClose v h40)).trans
      (.banks (State.expireIdle_same _) (by decide) (State.expireIdle_bank _).1)
  · cases h

theorem State.judgeDrainAge_changes {v : Byte} (h : s.judgeDrainAge v = some t) : s.Changes t := by
  unfold State.judgeDrainAge at h
  split at h
  · rename_i hrange
    obtain rfl := Option.some.inj h
    exact ((State.Changes.one (.drainAge v hrange.1 hrange.2)).trans (State.expireAge_changes _)).trans
      (State.chooseEntry_changes _)
  · cases h

theorem State.judgeScrubStep_changes {v : Byte} (h : s.judgeScrubStep v = some t) : s.Changes t := by
  unfold State.judgeScrubStep at h
  split at h
  · obtain rfl := Option.some.inj h
    have hstop : s.Change (s.setScrubber { s.scrubber with step := 0, stepDue := none, lag := 0 }) :=
      .scrubStep _ (by simp) (Nat.zero_le _)
    exact (State.Changes.one hstop).trans (State.setEngine_changes _ _)
  · rename_i hv
    obtain rfl := Option.some.inj h
    exact .one (.scrubStep _ (by simpa using hv) (Nat.le_max_right _ _))

theorem State.judgeThreshold_changes {v : Byte} (h : s.judgeThreshold v = some t) : s.Changes t := by
  unfold State.judgeThreshold at h
  split at h
  · rename_i hrange
    obtain rfl := Option.some.inj h
    exact s.setRemap_changes (.threshold v.toNat hrange.1 hrange.2)
  · cases h

theorem State.judgeRetireBank_changes {v : Byte} (h : s.judgeRetireBank v = some t) : s.Changes t := by
  unfold State.judgeRetireBank at h
  split at h
  · obtain rfl := Option.some.inj h
    exact s.setLink_changes _ rfl rfl
  · cases h

theorem State.judgeRetireRow_changes {v : Byte × Byte} (h : s.judgeRetireRow v = some t) : s.Changes t := by
  unfold State.judgeRetireRow at h
  dsimp only at h
  split at h
  · obtain rfl := Option.some.inj h
    exact s.setLink_changes _ rfl rfl
  · cases h

theorem State.judgeRecordSelect_changes {v : Byte × Byte} (h : s.judgeRecordSelect v = some t) : s.Changes t := by
  unfold State.judgeRecordSelect at h
  split at h
  · rename_i hrange
    obtain rfl := Option.some.inj h
    exact .one (.select _ hrange.2)
  · cases h

end

theorem State.judgeSettings_changes (s : State) (st : Staged) : s.Changes (s.judgeSettings st).state := by
  unfold State.judgeSettings
  exact Judging.judge_keeps (Judging.judge_keeps (Judging.judge_keeps (Judging.judge_keeps (Judging.judge_keeps
    (Judging.judge_keeps (Judging.judge_keeps (Judging.judge_keeps (Judging.judge_keeps (Judging.judge_keeps
    (P := s.Changes) .refl
    fun h hs => hs.trans (State.judgeCommandArg_changes h))
    fun h hs => hs.trans (State.judgeAlertMask_changes h))
    fun h hs => hs.trans (State.judgeLimitByte_changes h))
    fun h hs => hs.trans (State.judgeIdleClose_changes h))
    fun h hs => hs.trans (State.judgeDrainAge_changes h))
    fun h hs => hs.trans (State.judgeScrubStep_changes h))
    fun h hs => hs.trans (State.judgeThreshold_changes h))
    fun h hs => hs.trans (State.judgeRetireBank_changes h))
    fun h hs => hs.trans (State.judgeRetireRow_changes h))
    fun h hs => hs.trans (State.judgeRecordSelect_changes h)

theorem State.commandRetire_changes (s : State) : s.Changes s.commandRetire.2 := by
  unfold State.commandRetire
  dsimp only
  split
  · exact .refl
  · split
    · rename_i e he
      split
      · exact .refl
      · rename_i hq
        exact (s.setRemap_changes (.queue _ he hq)).trans (State.engineRun_changes _)
    · rename_i hn
      split
      · rename_i u hu
        exact (s.setRemap_changes (.add _ hn hu)).trans (State.engineRun_changes _)
      · exact .refl

theorem State.runCommand_changes (s : State) (c : LinkCommand) : s.Changes (s.runCommand c).2 := by
  cases c with
  | hold =>
    change s.Changes s.commandHold.2
    unfold State.commandHold
    split
    · exact State.beginEntry_changes (by assumption)
    all_goals exact .refl
  | wake =>
    change s.Changes s.commandWake.2
    unfold State.commandWake
    split
    · exact .refl
    · exact State.abandonEntry_changes (by assumption)
    · exact s.startWake_changes
    · exact .refl
  | ack => exact s.setAlerts_changes _
  | clearErrors => exact .other s.commandClearErrors_same (by decide)
  | clearSuspects => exact s.setRemap_changes .clear
  | retire => exact s.commandRetire_changes
  | portRestart =>
    change s.Changes s.commandPortRestart.2
    unfold State.commandPortRestart
    dsimp only
    split
    · exact s.portReset_changes
    · exact s.wakeFromHold_changes

theorem Judging.command_changes {s : State} {x : Judging} (hx : s.Changes x.state) (code : Byte) :
    s.Changes (x.command code) := by
  have hnoted := hx.trans (x.state.setLink_changes { x.state.link with command := code } rfl rfl)
  unfold Judging.command
  dsimp only
  split
  · exact hnoted.trans (State.setResult_changes _ _)
  · split
    · exact hnoted.trans (State.setResult_changes _ _)
    · exact (hnoted.trans (State.runCommand_changes _ _)).trans (State.setResult_changes _ _)

theorem State.stop_changes (s : State) (st : Staged) : s.Changes (s.stop st) := by
  have hjudged := s.judgeSettings_changes st
  unfold State.stop
  dsimp only
  split
  · exact Judging.command_changes hjudged _
  · split
    · exact hjudged.trans (State.setResult_changes _ _)
    · exact hjudged

theorem State.transaction_changes (s : State) (segments : List LinkSegment) : s.Changes (s.transaction segments) := by
  refine .trans ?_ (State.stop_changes _ _)
  exact s.setLink_changes _ rfl rfl

theorem State.linkWrite_changes (s : State) (index : Byte) (bytes : List Byte) :
    s.Changes (s.linkWrite index bytes) := s.transaction_changes _

/-! ## Windows and timers -/

theorem State.moveTo_changes (s : State) (t : Time) : s.Changes (s.moveTo t) := .other (s.moveTo_same t) (by decide)

theorem State.setChannel_changes (s : State) (x : Option Operation) : s.Changes (s.setChannel x) :=
  .other (s.setChannel_same x) (by decide)

theorem State.atWindowEnd_changes (s : State) (b : Bank) : s.Changes (s.atWindowEnd b) :=
  .other (s.atWindowEnd_same b) (by decide)

theorem State.grantNext_changes (s : State) (cs : List BitChange) : s.Changes (s.grantNext cs) := by
  have hgrant (s : State) (c : Claim) : s.Changes (s.grant c) := by
    have hprogress := ((s.setChannel_changes (some (s.operation c))).trans
      (.other (State.noteGrant_same _ c.work) (by decide))).trans (State.progress_changes _)
    unfold State.grant
    dsimp only
    split
    · exact hprogress.trans (State.urgentClose_changes _ _)
    · exact hprogress
  unfold State.grantNext
  split
  · exact .trans (.other (s.changeAll_same cs) (by decide)) (hgrant _ _)
  · exact .refl

theorem State.tOpenEnds_changes (s : State) (b : Bank) : s.Changes (s.tOpenEnds b) := by
  unfold State.tOpenEnds
  split
  · exact (((s.atWindowEnd_changes b).trans (State.setBank_changes _ b _)).trans (State.progressOn_changes _ b)).trans
      (State.furtherCloseAll_changes _)
  · exact .refl

theorem State.tMinOpenEnds_changes (s : State) (b : Bank) : s.Changes (s.tMinOpenEnds b) := by
  have hissue (u : State) (hu : s.Changes u) :
      s.Changes (if s.inUse b then u.progress else u.setBank b (.closingFrom u.clock.now)) := by
    split
    · exact hu.trans u.progress_changes
    · exact hu.trans (u.setBank_changes b _)
  unfold State.tMinOpenEnds
  split
  · split
    · exact hissue _ (s.moveTo_changes _)
    · exact hissue s .refl
  · exact .refl

theorem State.tCloseEnds_changes (s : State) (b : Bank) : s.Changes (s.tCloseEnds b) := by
  unfold State.tCloseEnds
  split
  · exact ((((s.atWindowEnd_changes b).trans (State.setBank_changes _ b _)).trans
      (State.progressOn_changes _ b)).trans (State.urgentClose_changes _ b)).trans (State.furtherCloseAll_changes _)
  · exact .refl

theorem State.tIdleEnds_changes (s : State) (b : Bank) : s.Changes (s.tIdleEnds b) := by
  unfold State.tIdleEnds
  split
  · exact (s.moveTo_changes _).trans (State.setBank_changes _ b _)
  · exact .refl

theorem State.tRfEnds_changes (s : State) (b : Bank) : s.Changes (s.tRfEnds b) := by
  unfold State.tRfEnds
  split
  · exact (((s.atWindowEnd_changes b).trans (State.setBank_changes _ b _)).trans (.one (.refreshed b))).trans
      (State.furtherCloseAll_changes _)
  · exact .refl

theorem State.intervalEnds_changes (s : State) (b : Bank) : s.Changes (s.intervalEnds b) :=
  .trans (.trans (s.moveTo_changes _) (.one (.intervalEnded b))) (State.urgentClose_changes _ b)

theorem State.setBand_changes (s : State) (new : Band) : s.Changes (s.setBand new) := by
  by_cases hnew : new = s.thermal.band
  · rw [hnew, s.setBand_same_band]
  · have hcloses := (State.Changes.one (.band (s := s) new)).trans (State.urgentCloses_changes _)
    rw [State.setBand_new hnew]
    split
    · exact hcloses.trans (State.raise_changes _ _)
    · exact hcloses

theorem State.senseEnds_changes (s : State) (reading : Int) (parityGood : Bool) :
    s.Changes (s.senseEnds reading parityGood) := by
  have htake (s : State) : s.Changes (s.takeReading reading parityGood) := by
    unfold State.takeReading
    split
    · refine .trans ?_ (State.setBand_changes _ _)
      exact .one (.reading _ rfl)
    · refine .trans (.trans ?_ (State.raise_changes _ _)) (State.setBand_changes _ _)
      exact .one (.reading _ rfl)
  unfold State.senseEnds
  split
  · split
    · exact ((s.moveTo_changes _).trans (State.setChannel_changes _ _)).trans (htake _)
    · exact .refl
  · exact .refl

theorem State.scrubStepEnds_changes (s : State) : s.Changes s.scrubStepEnds := by
  cases hdue : s.scrubber.stepDue with
  | none => rw [State.scrubStepEnds_stopped hdue]
  | some due =>
    have hnext : s.Changes (s.nextScrubStep due) :=
      .trans (s.moveTo_changes due) (.one (.scrubber { s.scrubber with stepDue := some _ } rfl
        (congrArg Option.isSome hdue).symm (Nat.le_max_right _ _)))
    rw [State.scrubStepEnds_running hdue]
    exact (hnext.trans (State.scrubExpiry_changes _)).trans (State.engineRun_changes _)

theorem State.drainAgeEnds_changes (s : State) (line : Line) : s.Changes (s.drainAgeEnds line) := by
  unfold State.drainAgeEnds
  split
  · split
    · exact .refl
    · exact ((s.moveTo_changes _).trans (State.expireAge_changes _)).trans (State.chooseEntry_changes _)
  · exact .refl

theorem State.enterHold_changes (s : State) : s.Changes s.enterHold := by
  unfold State.enterHold
  split
  · rename_i h
    exact (State.Changes.one (.holdState .hold (by simp [h.1]) (by decide))).trans (State.raise_changes _ _)
  · exact .refl

theorem State.wakeEnds_changes (s : State) : s.Changes s.wakeEnds := by
  unfold State.wakeEnds
  split
  · exact .trans (s.moveTo_changes _) (.one (.hold { state := .active, wakeEnd := none } (by simp)))
  · exact .refl

/-! ## Completions -/

theorem State.completeRead_changes (s : State) (b : Bank) (p : PhysicalRow) (line : Line) (words : List ReadWord)
    (wanted : Bool) : s.Changes (s.completeRead b p line words wanted) := by
  unfold State.completeRead
  dsimp only
  refine .trans (.trans (.trans (s.release_changes b) ?_) (State.reportRead_changes _ _ _ _))
    (State.engineRun_changes _)
  split
  · exact .other (State.answerRead_same _ _) (by decide)
  · exact .refl

theorem State.completeDrain_changes (s : State) (b : Bank) (p : PhysicalRow) (rows : List PhysicalRow)
    (e : BufferEntry) : s.Changes (s.completeDrain b p rows e) := by
  have hwritten := (s.release_changes b).trans
    (.other (State.writeRows_same _ b rows (s.drainWrites e p)) (by decide))
  have hreported := hwritten.trans (State.reportAll_changes _ .drain b (lineRow e.line) p (s.drainReads e p))
  refine .trans (.trans (.trans (.trans (.trans (hreported.trans ?_) (State.serveWaiting_changes _))
    (State.chooseEntry_changes _)) (.other (State.finishFlush_same _) (by decide))) (State.engineRun_changes _))
    (State.furtherCloseAll_changes _)
  exact State.setBuffer_changes _ rfl

theorem State.completeRowFill_changes (s : State) (b : Bank) (p : PhysicalRow) (line : Line) :
    s.Changes (s.completeRowFill b p line) :=
  .trans (.trans (s.release_changes b)
    (.other ((State.writeWords_same _ _ _ _).trans (State.markRow_same _ _)) (by decide)))
    (State.engineRun_changes _)

theorem State.completeFillStep_changes (s : State) (b : Bank) (p : PhysicalRow) (g : Nat) :
    s.Changes (s.completeFillStep b p g) :=
  .trans (.trans (.trans (s.release_changes b)
    (.other ((State.writeWords_same _ _ _ _).trans (State.advanceFill_same _)) (by decide)))
    (State.engineRun_changes _)) (State.furtherCloseAll_changes _)

theorem State.completeScrubStep_changes (s : State) (b : Bank) (r : LogicalRow) (p : PhysicalRow)
    (rows : List PhysicalRow) (g : Nat) : s.Changes (s.completeScrubStep b r p rows g) := by
  have hwritten := (s.release_changes b).trans
    (.other (State.writeRows_same _ b rows (scrubWrites (s.groupDecodes b p g))) (by decide))
  have hreported := hwritten.trans (State.reportAll_changes _ .scrub b r p (s.groupDecodes b p g))
  exact ((hreported.trans (State.advanceScrub_changes _ _)).trans (State.engineRun_changes _)).trans
    (State.furtherCloseAll_changes _)

theorem State.completeMigrateStep_changes (s : State) (b : Bank) (p q : PhysicalRow) (g : Nat) :
    s.Changes (s.completeMigrateStep b p q g) :=
  .trans (.trans (.trans (.trans (s.release_changes b)
    (.other ((State.writeWords_same _ _ _ _).trans (State.reportMigration_same _ _ _ _)) (by decide)))
    (State.advanceMigrate_changes _)) (State.engineRun_changes _)) (State.furtherCloseAll_changes _)

theorem State.lineReadEnds_changes (s : State) : s.Changes s.lineReadEnds := by
  obtain h | ⟨op, b, p, line, words, wanted, -, h⟩ := s.lineReadEnds_cases
  · rw [h]
  · rw [h]
    exact s.completeRead_changes b p line words wanted

theorem State.drainEnds_changes (s : State) : s.Changes s.drainEnds := by
  obtain h | ⟨op, b, p, rows, e, -, h⟩ := s.drainEnds_cases
  · rw [h]
  · rw [h]
    exact s.completeDrain_changes b p rows e

theorem State.rowFillEnds_changes (s : State) : s.Changes s.rowFillEnds := by
  obtain h | ⟨op, b, p, line, -, h⟩ := s.rowFillEnds_cases
  · rw [h]
  · rw [h]
    exact s.completeRowFill_changes b p line

theorem State.fillStepEnds_changes (s : State) : s.Changes s.fillStepEnds := by
  obtain h | ⟨op, b, p, g, -, h⟩ := s.fillStepEnds_cases
  · rw [h]
  · rw [h]
    exact s.completeFillStep_changes b p g

theorem State.scrubGroupEnds_changes (s : State) : s.Changes s.scrubGroupEnds := by
  obtain h | ⟨op, b, r, p, rows, g, -, h⟩ := s.scrubGroupEnds_cases
  · rw [h]
  · rw [h]
    exact s.completeScrubStep_changes b r p rows g

theorem State.migrateStepEnds_changes (s : State) : s.Changes s.migrateStepEnds := by
  obtain h | ⟨op, b, p, q, g, -, h⟩ := s.migrateStepEnds_cases
  · rw [h]
  · rw [h]
    exact s.completeMigrateStep_changes b p q g

/-- The effect of a command, other than the two power events, is a sequence of changes. -/
theorem effect_changes {c : Instr} (h1 : ∀ laddr, c ≠ .powerOnReset laddr) (h2 : c ≠ .powerLoss) (s : State) :
    s.Changes (effect c s) := by
  cases c with
  | powerOnReset laddr => exact absurd rfl (h1 laddr)
  | powerLoss => exact absurd rfl h2
  | resetNFall =>
    simp only [effect]
    split
    · exact (s.setPort_changes _).trans (State.portReset_changes _)
    · exact .refl
  | resetNRise => exact s.setPort_changes _
  | requestOffer r => exact s.offer_changes r
  | requestAccept => exact s.acceptOffer_changes
  | sqLowered => exact s.setPort_changes _
  | responseTaken => exact s.takeOffered_changes
  | channelGrant cs => exact s.grantNext_changes cs
  | tOpenExpiry b => exact s.tOpenEnds_changes b
  | tMinOpenExpiry b => exact s.tMinOpenEnds_changes b
  | tCloseExpiry b => exact s.tCloseEnds_changes b
  | tIdleExpiry b => exact s.tIdleEnds_changes b
  | tRfExpiry b => exact s.tRfEnds_changes b
  | intervalExpiry b => exact s.intervalEnds_changes b
  | pollTimerExpiry => exact .other s.pollEnds_same (by decide)
  | tSenseExpiry reading parityGood => exact s.senseEnds_changes reading parityGood
  | scrubStepTimerExpiry => exact s.scrubStepEnds_changes
  | drainAgeReached line => exact s.drainAgeEnds_changes line
  | lineReadComplete => exact s.lineReadEnds_changes
  | drainComplete => exact s.drainEnds_changes
  | rowFillComplete => exact s.rowFillEnds_changes
  | fillStepComplete => exact s.fillStepEnds_changes
  | scrubGroupStepComplete => exact s.scrubGroupEnds_changes
  | migrateStepComplete => exact s.migrateStepEnds_changes
  | holdEnter => exact s.enterHold_changes
  | tWakeExpiry => exact s.wakeEnds_changes
  | registerWrite segments => exact s.transaction_changes segments
  | deviceTimeTick => exact .other s.millisecondEnds_same (by decide)
  | _ => exact s.linkWrite_changes _ _

end Sys2Proof.Machine

/-! # Balances, settings, suspect list and hold state stay in range -/

namespace Sys2Proof.Machine

/-- A property that every single change keeps, and that holds after the power events, holds after every step. -/
theorem step_keeps_of_changes {P : State → Prop} (hchange : ∀ {s t : State}, s.Change t → P s → P t)
    (hqueue : ∀ (s : State) (rest : List Instr), P s → P (s.setPending rest))
    (hreset : ∀ (laddr : BitVec 2) (s : State), P (effect (.powerOnReset laddr) s))
    (hloss : ∀ s : State, P (effect .powerLoss s)) {s t : State} (h : step s = .next t) (hs : P s) : P t := by
  refine step_keeps (fun hsame => hchange (.other (hsame.mono (by decide)))) hqueue (fun {c s} _ hs => ?_) h hs
  cases c with
  | powerOnReset laddr => exact hreset laddr s
  | powerLoss => exact hloss s
  | _ => exact (effect_changes (by simp) (by simp) s).keeps hchange hs

/-! ## Balances (R53, R57, R63, R64, R67) -/

theorem State.balanceOf_rebanded (s : State) (new : Band) (b : Bank) :
    (s.rebanded new).balanceOf b = (s.balanceOf b).rebanded s.thermal.band new s.clock.now := by
  simp [State.balanceOf, State.rebanded]

theorem effectiveLimit_le_limit {limit : Nat} (h1 : 1 ≤ limit) (band : Band) : effectiveLimit limit band ≤ limit := by
  cases band with
  | cool => exact le_rfl
  | normal => exact le_rfl
  | _ => exact max_le h1 (Nat.div_le_self _ _)

/-- A slower band has no lower limit in force (R54, R62). -/
theorem effectiveLimit_le {old new : Band} (h : old.interval ≤ new.interval) {limit : Nat} (h1 : 1 ≤ limit) :
    effectiveLimit limit old ≤ effectiveLimit limit new := by
  cases new with
  | cool => exact effectiveLimit_le_limit h1 old
  | normal => exact effectiveLimit_le_limit h1 old
  | warm =>
    cases old with
    | cool => norm_num [Band.interval] at h
    | normal => norm_num [Band.interval] at h
    | warm => exact le_rfl
    | _ => exact max_le_max le_rfl (Nat.div_le_div_left (by decide) (by decide))
  | _ =>
    cases old with
    | hot => exact le_rfl
    | critical => exact le_rfl
    | _ => norm_num [Band.interval] at h

/-- No balance is above the limit in force after a band change: on a faster band none is above 0 (R64), and a slower band
has no lower limit. -/
theorem RefreshRecord.rebanded_le {r : RefreshRecord} {limit : Nat} {old : Band} (h1 : 1 ≤ limit)
    (h : r.balance ≤ effectiveLimit limit old) (new : Band) (now : Time) :
    (r.rebanded old new now).balance ≤ effectiveLimit limit new := by
  unfold RefreshRecord.rebanded
  split
  · rename_i hsame
    exact h.trans (Int.ofNat_le.2 (effectiveLimit_le hsame.ge h1))
  · dsimp only
    split
    · exact Int.natCast_nonneg _
    · rename_i hkept
      by_cases hfaster : new.interval < old.interval
      · exact (Int.not_lt.1 fun hpos => hkept ⟨hfaster, hpos⟩).trans (Int.natCast_nonneg _)
      · exact h.trans (Int.ofNat_le.2 (effectiveLimit_le (not_lt.1 hfaster) h1))

theorem RefreshRecord.completed_le {r : RefreshRecord} {leff : Nat} (h : r.balance ≤ leff) :
    (r.completed leff).balance ≤ leff := by
  unfold RefreshRecord.completed
  dsimp only
  split
  · omega
  · exact h

theorem State.setBalanceOf_le {s : State} (hs : ∀ b, (s.balanceOf b).balance ≤ s.leff) (b : Bank) {r : RefreshRecord}
    (hr : r.balance ≤ s.leff) (c : Bank) : ((s.setBalanceOf b r).balanceOf c).balance ≤ s.leff := by
  by_cases hc : c = b
  · rw [hc, State.balanceOf_setBalanceOf_self]
    exact hr
  · rw [State.balanceOf_setBalanceOf_ne _ _ hc]
    exact hs c

theorem State.balanceOf_withLimit (s : State) (v : Nat) (b : Bank) :
    (s.setRefresh (s.refresh.withLimit v s.thermal.band)).balanceOf b =
      { s.balanceOf b with balance := min (s.balanceOf b).balance (effectiveLimit v s.thermal.band) } := by
  simp [State.balanceOf, Refresh.withLimit]

theorem State.balancesOk_of_same {s t : State} (hrefresh : t.refresh = s.refresh)
    (hband : t.thermal.band = s.thermal.band) (hs : s.balancesOk) : t.balancesOk := by
  unfold State.balancesOk State.leff State.balanceOf
  rw [hrefresh, hband]
  exact hs

theorem State.Change.balancesOk {s t : State} (h : s.Change t) (hs : s.balancesOk) : t.balancesOk := by
  have ⟨h1, h12, hle⟩ := hs
  cases h with
  | other h => exact State.balancesOk_of_same (h.refresh (by decide)) (congrArg _ (h.thermal (by decide))) hs
  | banks h => exact State.balancesOk_of_same (h.refresh (by decide)) (congrArg _ (h.thermal (by decide))) hs
  | buffer h => exact State.balancesOk_of_same (h.refresh (by decide)) (congrArg _ (h.thermal (by decide))) hs
  | refreshed b => exact ⟨h1, h12, State.setBalanceOf_le hle b (RefreshRecord.completed_le (hle b))⟩
  | intervalEnded b =>
    have hfalls : ((s.balanceOf b).expired s.thermal.band).balance ≤ (s.balanceOf b).balance :=
      Int.sub_le_self _ (by decide)
    exact ⟨h1, h12, State.setBalanceOf_le hle b (hfalls.trans (hle b))⟩
  | reading x hband => exact State.balancesOk_of_same (s := s) rfl hband hs
  | band new =>
    refine ⟨h1, h12, fun b => ?_⟩
    rw [State.balanceOf_rebanded]
    exact RefreshRecord.rebanded_le h1 (hle b) new _
  | limit v hv1 hv12 =>
    refine ⟨hv1, hv12, fun b => ?_⟩
    rw [State.balanceOf_withLimit]
    exact min_le_right _ _
  | _ => exact hs

/-! ## Settings (R99, R100, R185) -/

theorem State.Change.settingsOk {s t : State} (h : s.Change t) (hs : s.settingsOk) : t.settingsOk := by
  have ⟨hidle, hage1, hage127, hth1, hth15, hdue, hlag, hindex⟩ := hs
  cases h with
  | other h =>
    unfold State.settingsOk
    rw [h.bankEngine (by decide), h.buffer (by decide), h.remap (by decide), h.scrubber (by decide), h.link (by decide)]
    exact hs
  | banks h hsame =>
    unfold State.settingsOk
    rw [hsame, h.buffer (by decide), h.remap (by decide), h.scrubber (by decide), h.link (by decide)]
    exact hs
  | buffer h hsame =>
    unfold State.settingsOk
    rw [h.bankEngine (by decide), hsame, h.remap (by decide), h.scrubber (by decide), h.link (by decide)]
    exact hs
  | scrubber x hstep hrun hx =>
    refine ⟨hidle, hage1, hage127, hth1, hth15, ?_, hx.trans (max_le le_rfl hlag), hindex⟩
    rw [State.setScrubber_scrubber, hstep, hrun]
    exact hdue
  | remap h =>
    obtain ⟨h1, h15⟩ := h.threshold_range ⟨hth1, hth15⟩
    exact ⟨hidle, hage1, hage127, h1, h15, hdue, hlag, hindex⟩
  | link x htable hx =>
    refine ⟨hidle, hage1, hage127, hth1, hth15, hdue, hlag, ?_⟩
    rw [State.setLink_link, htable, hx]
    exact hindex
  | idleClose v h40 => exact ⟨h40, hage1, hage127, hth1, hth15, hdue, hlag, hindex⟩
  | drainAge v h1 h127 => exact ⟨hidle, h1, h127, hth1, hth15, hdue, hlag, hindex⟩
  | scrubStep x hx hxlag => exact ⟨hidle, hage1, hage127, hth1, hth15, hx, hxlag.trans (max_le le_rfl hlag), hindex⟩
  | select x hx => exact ⟨hidle, hage1, hage127, hth1, hth15, hdue, hlag, hx⟩
  | _ => exact hs

/-! ## Suspect list (R36, R72) -/

theorem State.Change.remap_cases {s t : State} (h : s.Change t) : t.remap = s.remap ∨ s.remap.Change t.remap := by
  cases h with
  | other h => exact .inl (h.remap (by decide))
  | banks h => exact .inl (h.remap (by decide))
  | buffer h => exact .inl (h.remap (by decide))
  | remap h => exact .inr h
  | _ => exact .inl rfl

/-- What every change of the Remap Unit keeps, every change of the state keeps. -/
theorem State.Change.keeps_remap {Q : Remap → Prop} (hQ : ∀ {u v : Remap}, u.Change v → Q u → Q v) {s t : State}
    (h : s.Change t) (hs : Q s.remap) : Q t.remap := by
  obtain hsame | hchange := h.remap_cases
  · rwa [hsame]
  · exact hQ hchange hs

/-- CE_THRESHOLD in its range and the suspect list in the form of R72, kept together: the row of an UNCORRECTABLE outcome
takes the threshold as its tally (R75). -/
def Remap.listInRange (u : Remap) : Prop := (1 ≤ u.threshold ∧ u.threshold ≤ 15) ∧ EntriesOk u.suspects

theorem Remap.Change.listInRange {u v : Remap} (h : u.Change v) (hu : u.listInRange) : v.listInRange :=
  ⟨h.threshold_range hu.1, h.entriesOk hu.1 hu.2⟩

theorem State.initial_listInRange (laddr : BitVec 2) : (State.initial laddr).remap.listInRange :=
  ⟨⟨(by decide : 1 ≤ 3), (by decide : 3 ≤ 15)⟩, .nil, fun _ h => nomatch h⟩

theorem State.initial_listOk (laddr : BitVec 2) : (State.initial laddr).remap.listOk :=
  ⟨.nil, State.initial_queuedOk laddr⟩

/-! ## Hold state (R164) -/

theorem State.Change.holdOk {s t : State} (h : s.Change t) (hs : s.holdOk) : t.holdOk := by
  cases h with
  | other h =>
    unfold State.holdOk
    rw [h.hold (by decide)]
    exact hs
  | banks h =>
    unfold State.holdOk
    rw [h.hold (by decide)]
    exact hs
  | buffer h =>
    unfold State.holdOk
    rw [h.hold (by decide)]
    exact hs
  | hold x hx => exact hx
  | holdState x hwas hx => exact ⟨fun hend => absurd (hs.1 hend) hwas, fun hwaking => absurd hwaking hx⟩
  | _ => exact hs

/-- Settles O56: each invariant holds after a power event, and every single change keeps it. -/
theorem settingsAndTablesStayInRange : Obligations.SettingsAndTablesStayInRange := by
  intro s t h
  refine ⟨fun hs => ?balances, fun hs => ?settings, fun hset hs => ?suspects, fun hs hq => ?queued, fun hs => ?hold⟩
  case balances =>
    exact step_keeps_of_changes State.Change.balancesOk (fun _ _ hs => hs)
      (fun _ _ => State.reset_balancesOk) (fun _ => State.reset_balancesOk) h hs
  case settings =>
    exact step_keeps_of_changes State.Change.settingsOk (fun _ _ hs => hs)
      (fun _ _ => State.reset_settingsOk) (fun _ => State.reset_settingsOk) h hs
  case suspects =>
    obtain ⟨-, -, -, hth1, hth15, -⟩ := hset
    have hok : t.remap.listInRange := step_keeps_of_changes (P := fun s => s.remap.listInRange)
      (fun hc => hc.keeps_remap Remap.Change.listInRange) (fun _ _ hs => hs)
      (fun laddr _ => State.initial_listInRange laddr) (fun _ => State.initial_listInRange 0) h
      ⟨⟨hth1, hth15⟩, s.suspectsOk_iff.1 hs⟩
    exact t.suspectsOk_iff.2 hok.2
  case queued =>
    have hok : t.remap.listOk := step_keeps_of_changes (P := fun s => s.remap.listOk)
      (fun hc => hc.keeps_remap Remap.Change.listOk) (fun _ _ hs => hs)
      (fun laddr _ => State.initial_listOk laddr) (fun _ => State.initial_listOk 0) h ⟨hs.1, hq⟩
    exact hok.2
  case hold =>
    exact step_keeps_of_changes State.Change.holdOk (fun _ _ hs => hs)
      (fun _ _ => State.reset_holdOk) (fun _ => State.reset_holdOk) h hs

end Sys2Proof.Machine

/-! # A band change and a write of LIMIT (R63, R64, R65, R67) -/

namespace Sys2Proof.Machine

/-! ## A band change -/

theorem effectiveLimit_pos {limit : Nat} (h1 : 1 ≤ limit) (band : Band) : 1 ≤ effectiveLimit limit band := by
  cases band with
  | cool => exact h1
  | normal => exact h1
  | _ => exact Nat.le_max_left _ _

theorem Band.interval_pos (band : Band) : 0 < band.interval := by cases band <;> norm_num [Band.interval]

/-- The factors of R63's table are the new interval over the old. -/
theorem bandRatio_eq (old new : Band) : bandRatio old new = new.interval / old.interval := by
  cases old <;> cases new <;> norm_num [bandRatio, Band.interval]

theorem bandRatio_nonneg (old new : Band) : 0 ≤ bandRatio old new := by
  rw [bandRatio_eq]
  exact div_nonneg new.interval_nonneg old.interval_nonneg

theorem bandRatio_lt_one_iff (old new : Band) : bandRatio old new < 1 ↔ new.interval < old.interval := by
  rw [bandRatio_eq, div_lt_one old.interval_pos]

theorem bandRatio_same {old new : Band} (h : new.interval = old.interval) : bandRatio old new = 1 := by
  rw [bandRatio_eq, h, div_self old.interval_pos.ne']

theorem later_zero (x : Time) : later 0 x = max 0 x := by
  unfold later
  split
  · rename_i h
    exact (max_eq_right h).symm
  · rename_i h
    exact (max_eq_left (not_le.1 h).le).symm

/-- What remains of a record's interval is multiplied by the factor of R63's table. -/
theorem RefreshRecord.rebanded_remaining (r : RefreshRecord) (old new : Band) (now : Time) :
    later 0 ((r.rebanded old new now).due - now) = later 0 (r.due - now) * bandRatio old new := by
  unfold RefreshRecord.rebanded
  split
  · rename_i hsame
    rw [bandRatio_same hsame, mul_one]
  · dsimp only
    rw [← bandRatio_eq, add_sub_cancel_left]
    have hnonneg : 0 ≤ later 0 (r.due - now) * bandRatio old new :=
      mul_nonneg (later_zero _ ▸ le_max_left _ _) (bandRatio_nonneg old new)
    rw [later_zero (later 0 (r.due - now) * bandRatio old new), max_eq_right hnonneg]

/-- The balance of a record on a faster band is 0 where it was positive; no other balance changes (R64). -/
theorem RefreshRecord.rebanded_balance (r : RefreshRecord) (old new : Band) (now : Time) :
    (r.rebanded old new now).balance =
      if new.interval < old.interval ∧ 0 < r.balance then 0 else r.balance := by
  unfold RefreshRecord.rebanded
  split
  · rename_i hsame
    rw [if_neg fun h => h.1.ne hsame]
  · rfl

theorem RefreshRecord.rebanded_pointer (r : RefreshRecord) (old new : Band) (now : Time) :
    (r.rebanded old new now).pointer = r.pointer := by
  unfold RefreshRecord.rebanded
  split <;> rfl

/-- A refresh completed on a balance of 0 makes it 1, the limit in force being at least 1 (R57, R62). -/
theorem RefreshRecord.completed_from_zero {r : RefreshRecord} {leff : Nat} (h : r.balance = 0) (h1 : 1 ≤ leff) :
    (r.completed leff).balance = 1 := by
  unfold RefreshRecord.completed
  dsimp only
  rw [h, if_pos (by omega)]
  rfl

theorem State.rebanded_same (s : State) (new : Band) : SameBut [.thermal, .refresh] s (s.rebanded new) :=
  (s.setThermal_same _).trans (State.setRefresh_same _ _)

theorem State.setBand_from_closes {s : State} {new : Band} (h : new ≠ s.thermal.band) :
    SameBut [.alerts] (s.rebanded new).urgentCloses (s.setBand new) := by
  rw [State.setBand_new h]
  split
  · exact State.raise_same _ _
  · exact .refl _ _

theorem State.setBand_alerts {s : State} {new : Band} (h : new ≠ s.thermal.band) :
    (s.setBand new).alerts =
      { s.alerts with causes := if new = .critical then s.alerts.causes ||| 0x08 else s.alerts.causes } := by
  have hsame : (s.rebanded new).urgentCloses.alerts = s.alerts := (State.urgentCloses_same _).alerts (by decide)
  rw [State.setBand_new h]
  split
  · unfold State.raise
    rw [State.setAlerts_alerts, hsame]
    rfl
  · exact hsame

/-- Settles O28: each balance record is rebanded, and then each URGENT bank has its close asked for. -/
theorem bandChangeScalesAndDiscards : Obligations.BandChangeScalesAndDiscards := by
  refine ⟨State.setBand_same_band, fun s new hnew h1 => ?_⟩
  intro t
  have hafter : SameBut [.bankEngine, .alerts] (s.rebanded new) t :=
    (State.urgentCloses_same _).trans (State.setBand_from_closes hnew)
  have hraised := State.setBand_from_closes hnew
  obtain ⟨hidle, hclosed⟩ := (s.rebanded new).urgentCloses_bank
  have hbalance (b : Bank) : t.balanceOf b = (s.balanceOf b).rebanded s.thermal.band new s.clock.now :=
    (hafter.balanceOf b (by decide)).trans (s.balanceOf_rebanded new b)
  have hleff : t.leff = (s.rebanded new).leff := hafter.leff (by decide) (by decide)
  refine ⟨s.setBand_same new, hafter.thermal (by decide), ?_, ?_, fun b => ⟨?_, ?_, ?_, ?_, ?_, ?_⟩,
    State.setBand_alerts hnew⟩
  · rw [hafter.refresh (by decide)]
    rfl
  · rw [hraised.bankEngine (by decide), hidle]
    rfl
  · unfold State.remaining
    rw [hbalance, (s.setBand_same new).clock (by decide)]
    exact RefreshRecord.rebanded_remaining _ _ _ _
  · rw [hbalance, RefreshRecord.rebanded_pointer]
  · intro hfaster hpos
    rw [hbalance, RefreshRecord.rebanded_balance, if_pos ⟨(bandRatio_lt_one_iff _ _).1 hfaster, hpos⟩]
  · intro hkept
    rw [hbalance, RefreshRecord.rebanded_balance, if_neg]
    rintro ⟨hfaster, hpos⟩
    obtain hslower | hle := hkept
    · exact absurd ((bandRatio_lt_one_iff _ _).2 hfaster) (not_lt.2 hslower)
    · exact absurd hpos (not_lt.2 hle)
  · intro hzero
    exact RefreshRecord.completed_from_zero hzero (hleff ▸ effectiveLimit_pos h1 new)
  · rw [hraised.bank b (by decide), hclosed b, hafter.balanceOf b (by decide), hleff]
    simp only [State.urgent, decide_eq_true_eq]
    rfl

/-! ## A write of LIMIT -/

theorem effect_limit (v : Byte) (s : State) :
    effect (.limit v) s = (s.linkAt 7).settled ((s.linkAt 7).judgeLimit v.toNat) :=
  s.linkWrite_settled (i := 0x06) (judged := fun s => s.judgeLimit v.toNat) fun s => s.stop_limit v

/-- `s` with a value of LIMIT taken (R67). -/
def State.limited (s : State) (v : Nat) : State := s.setRefresh (s.refresh.withLimit v s.thermal.band)

/-- With every balance above −L_eff′, no claim is URGENT once the value is taken (R59, R67). -/
theorem State.limited_not_urgent {s : State} {v : Nat} (h1 : 1 ≤ v)
    (h : ∀ b, -(effectiveLimit v s.thermal.band : Int) < (s.balanceOf b).balance) (b : Bank) :
    (s.limited v).claimOf b ≠ some .urgent := by
  intro hurgent
  have hle := ((s.limited v).claimFollows_always b).1.1 hurgent
  have hleff : (s.limited v).leff = effectiveLimit v s.thermal.band := rfl
  have hbalance : ((s.limited v).balanceOf b).balance =
      min (s.balanceOf b).balance (effectiveLimit v s.thermal.band) :=
    congrArg RefreshRecord.balance (s.balanceOf_withLimit v b)
  have hpos := effectiveLimit_pos h1 s.thermal.band
  have habove := h b
  rw [hleff, hbalance] at hle
  omega

/-- Settles O48: the branches of `judgeLimit`, each with its RESULT. -/
theorem limitIsJudgedAgainstBalances : Obligations.LimitIsJudgedAgainstBalances := by
  intro v s hp l inRange above answered
  have habove : above ↔ ∀ b, -(effectiveLimit v.toNat s.thermal.band : Int) < (s.balanceOf b).balance := .rfl
  obtain ⟨hout, hheld, hother⟩ := (s.linkAt 7).judgeLimit_cases v.toNat
  rw [exec_on hp, effect_limit]
  refine ⟨fun hin heq => ?held, fun hin hne hab => ?taken, fun h => congrArg _ (s.settled_refused 7 ?refused)⟩
  case held =>
    rw [hheld hin heq]
    rfl
  case taken =>
    rw [(hother hin hne).1 (habove.1 hab)]
    let t := ((s.linkAt 7).limited v.toNat).setResult .done
    have hbalance (b : Bank) : t.balanceOf b = { s.balanceOf b with balance := min (s.balanceOf b).balance l } :=
      s.balanceOf_withLimit v.toNat b
    refine ⟨t, rfl, (((s.linkAt_same 7).trans (State.setRefresh_same _ _)).trans (State.setResult_same _ _)).mono
      (by decide), rfl, rfl, fun b => ⟨?_, ?_, ?_, t.claimFollows_always b, ?_⟩, rfl⟩
    · rw [hbalance]
    · rw [hbalance]
    · rw [hbalance]
    · exact State.limited_not_urgent (s := s.linkAt 7) hin.1 (habove.1 hab) b
  case refused =>
    by_cases hin : inRange
    · obtain ⟨hne, hnot⟩ := h.resolve_left (not_not_intro hin)
      exact (hother hin hne).2 fun g => hnot (habove.2 g)
    · exact hout hin

end Sys2Proof.Machine

/-! # The one that `better` chooses, and the room of the suspect list (R76, R176) -/

namespace Sys2Proof.Machine

theorem foldl_better_mem {α : Type} {before : α → α → Bool} {l : List α} {best : Option α} {x : α}
    (h : l.foldl (better before) best = some x) : x ∈ l ∨ best = some x := by
  induction l generalizing best with
  | nil => exact .inr h
  | cons y l ih =>
    obtain hmem | hy := ih h
    · exact .inl (List.mem_cons_of_mem y hmem)
    · have hxy : x = y ∨ best = some x := by
        unfold better at hy
        grind
      exact hxy.imp (fun heq => by simp [heq]) id

/-- The element ranked before every earlier one, and no later one before it, is chosen. -/
theorem foldl_better_eq {α : Type} {before : α → α → Bool} {pre post : List α} {e : α}
    (hpre : ∀ x ∈ pre, before e x = true) (hpost : ∀ x ∈ post, before x e = false) :
    (pre ++ e :: post).foldl (better before) none = some e := by
  have htaken : better before (pre.foldl (better before) none) e = some e := by
    cases hbest : pre.foldl (better before) none with
    | none => rfl
    | some c =>
      have hc : c ∈ pre := (foldl_better_mem hbest).resolve_right (by simp)
      exact if_pos (hpre c hc)
  rw [List.foldl_append, List.foldl_cons, htaken]
  clear htaken
  induction post with
  | nil => rfl
  | cons y post ih =>
    have hkept : better before (some e) y = some e := if_neg (by simp [hpost y])
    rw [List.foldl_cons, hkept]
    exact ih fun x hx => hpost x (List.mem_cons_of_mem y hx)

/-! ## The CE record that a full error table replaces (R176) -/

theorem oldestCe_eq (now : DeviceTime) (records : List ErrorRecord) :
    oldestCe now records = (records.filter fun r => decide (r.kind = .ce)).foldl
      (better fun r c => decide (c.age now < r.age now)) none := by
  rw [List.foldl_filter]
  refine congrArg (fun f => records.foldl f none) (funext fun best => funext fun r => ?_)
  cases best <;> simp [better]

theorem oldestCe_mem {now : DeviceTime} {records : List ErrorRecord} {r : ErrorRecord}
    (h : oldestCe now records = some r) : r ∈ records := by
  rw [oldestCe_eq] at h
  exact List.mem_of_mem_filter ((foldl_better_mem h).resolve_right (by simp))

/-! ## The NORMAL entry that a full suspect list gives up (R76) -/

theorem lowestNormal_eq (l : List SuspectEntry) :
    lowestNormal l = (l.filter fun e => decide (e.state = .normal)).foldl
      (better fun e c => decide (e.tally < c.tally)) none := by
  rw [List.foldl_filter]
  refine congrArg (fun f => l.foldl f none) (funext fun best => funext fun e => ?_)
  cases best <;> simp [better]

theorem lowestNormal_mem {l : List SuspectEntry} {e : SuspectEntry} (h : lowestNormal l = some e) : e ∈ l := by
  rw [lowestNormal_eq] at h
  exact List.mem_of_mem_filter ((foldl_better_mem h).resolve_right (by simp))

theorem lowestNormal_none {l : List SuspectEntry} (h : ∀ e ∈ l, e.state ≠ .normal) : lowestNormal l = none := by
  rw [lowestNormal_eq, List.filter_eq_nil_iff.2 (by simpa using h)]
  rfl

/-- `e` is the NORMAL entry with the lowest tally, the oldest among equals (R76). -/
theorem lowestNormal_split {pre post : List SuspectEntry} {e : SuspectEntry} (he : e.state = .normal)
    (hpre : ∀ x ∈ pre, x.state = .normal → e.tally < x.tally)
    (hpost : ∀ x ∈ post, x.state = .normal → e.tally ≤ x.tally) : lowestNormal (pre ++ e :: post) = some e := by
  rw [lowestNormal_eq, List.filter_append, List.filter_cons_of_pos (by simpa using he)]
  refine foldl_better_eq (fun x hx => ?_) fun x hx => ?_
  · obtain ⟨hx, hn⟩ := List.mem_filter.1 hx
    simpa using hpre x hx (by simpa using hn)
  · obtain ⟨hx, hn⟩ := List.mem_filter.1 hx
    simpa using hpost x hx (by simpa using hn)

theorem Remap.room_free {u : Remap} (h : u.suspects.length < 8) : u.room = some u := if_pos h

theorem Remap.room_evicts {u : Remap} {pre post : List SuspectEntry} {e : SuspectEntry} (hfull : u.suspects.length = 8)
    (hu : u.suspects = pre ++ e :: post) (he : e.state = .normal)
    (hpre : ∀ x ∈ pre, x.state = .normal → e.tally < x.tally)
    (hpost : ∀ x ∈ post, x.state = .normal → e.tally ≤ x.tally) :
    u.room = some { u with suspects := pre ++ post } := by
  have hnew : e ∉ pre := fun hmem => lt_irrefl _ (hpre e hmem he)
  have hsize : ¬ u.suspects.length < Config.suspectSize := by rw [hfull]; decide
  rw [Remap.room, if_neg hsize, hu, lowestNormal_split he hpre hpost, Option.map_some, List.erase_append_right _ hnew,
    List.erase_cons_head]

theorem Remap.room_none {u : Remap} (hfull : u.suspects.length = 8) (h : ∀ e ∈ u.suspects, e.state ≠ .normal) :
    u.room = none := by
  have hsize : ¬ u.suspects.length < Config.suspectSize := by rw [hfull]; decide
  rw [Remap.room, if_neg hsize, lowestNormal_none h, Option.map_none]

/-- The room made is room for one entry. -/
theorem Remap.room_length {u v : Remap} (h : u.room = some v) (hu : u.suspects.length ≤ 8) : v.suspects.length < 8 := by
  unfold Remap.room at h
  split at h
  next hfree => exact Option.some.inj h ▸ hfree
  next =>
    obtain ⟨e, he, rfl⟩ := Option.map_eq_some_iff.1 h
    have hmem := lowestNormal_mem he
    have hpos := List.length_pos_of_mem hmem
    change (u.suspects.erase e).length < 8
    rw [List.length_erase_of_mem hmem]
    omega

end Sys2Proof.Machine

/-! # What a command can do to the lists, the stack, the remap tables and the fill map, as a sequence of single acts -/

namespace Sys2Proof.Machine

/-- The intake queue, the write buffer and the error table of `t` are no longer than in `s`, or within their sizes (R124,
R148, R174). -/
structure State.Within (s t : State) : Prop where
  queue : t.port.queue.length ≤ max 12 s.port.queue.length
  entries : t.buffer.entries.length ≤ max 8 s.buffer.entries.length
  records : t.errors.records.length ≤ max 16 s.errors.records.length

/-- A frame of blocks without a list. -/
theorem State.Within.frame {l : List Block} {s t : State} (h : SameBut l s t) (hp : Block.port ∉ l)
    (hb : Block.buffer ∉ l) (he : Block.errors ∉ l) : s.Within t := by
  refine ⟨?_, ?_, ?_⟩
  · rw [h.port hp]
    exact le_max_right _ _
  · rw [h.buffer hb]
    exact le_max_right _ _
  · rw [h.errors he]
    exact le_max_right _ _

/-- The blocks that hold no job, no remap table and no fill mark. -/
abbrev plainBlocks : List Block :=
  [.clock, .bankEngine, .channel, .array, .refresh, .scrubber, .buffer, .port, .thermal, .hold, .errors, .alerts, .link]

/-- One act of a command, as far as the sizes of its lists, the engine's jobs, the remap tables and the fill marks go. -/
inductive State.Act (s : State) : State → Prop
  | plain {t : State} (h : SameBut plainBlocks s t) (hw : s.Within t) : State.Act s t
  | engine {t : State} (h : SameBut [.engine] s t) (hstack : t.engine.stack = s.engine.stack) : State.Act s t
  | remap {u : Remap} (h : s.remap.SameTables u) : State.Act s (s.setRemap u)
  | move {t : State} (h : s.engineMove = some t) : State.Act s t
  | mark (i : SweepIndex) : State.Act s (s.markRow i)
  | fill : State.Act s s.advanceFill
  | scrub (n : Nat) : State.Act s (s.advanceScrub n)
  | migrate : State.Act s s.advanceMigrate

/-- Acts one after another. -/
def State.Acts : State → State → Prop := Relation.ReflTransGen State.Act

@[refl] theorem State.Acts.refl {s : State} : s.Acts s := Relation.ReflTransGen.refl

theorem State.Acts.one {s t : State} (h : s.Act t) : s.Acts t := Relation.ReflTransGen.single h

theorem State.Acts.trans {s t u : State} (h : s.Acts t) (g : t.Acts u) : s.Acts u := Relation.ReflTransGen.trans h g

/-- What every single act keeps, a sequence of acts keeps. -/
theorem State.Acts.keeps {P : State → Prop} (hP : ∀ {s t : State}, s.Act t → P s → P t) {s t : State} (h : s.Acts t)
    (hs : P s) : P t := by
  induction h with
  | refl => exact hs
  | tail _ hact ih => exact hP hact ih

theorem State.Acts.foldl {α : Type} {f : State → α → State} (h : ∀ (s : State) (x : α), s.Acts (f s x)) (xs : List α)
    (s : State) : s.Acts (xs.foldl f s) := by
  induction xs generalizing s with
  | nil => exact .refl
  | cons x xs ih => exact (h s x).trans (ih (f s x))

/-- The blocks of the plain ones that hold no list. -/
abbrev listlessBlocks : List Block :=
  [.clock, .bankEngine, .channel, .array, .refresh, .scrubber, .thermal, .hold, .alerts, .link]

/-- A frame of such blocks is one act. -/
theorem State.Acts.frame {l : List Block} {s t : State} (h : SameBut l s t) (hl : l ⊆ listlessBlocks) : s.Acts t :=
  .one (.plain ((h.mono hl).mono (by decide)) (.frame (h.mono hl) (by decide) (by decide) (by decide)))

/-- A change of the port alone that keeps the intake queue within its size. -/
theorem State.Acts.port {s t : State} (h : SameBut [.port] s t)
    (hq : t.port.queue.length ≤ max 12 s.port.queue.length) : s.Acts t := by
  refine .one (.plain (h.mono (by decide)) ⟨hq, ?_, ?_⟩)
  · rw [h.buffer (by decide)]
    exact le_max_right _ _
  · rw [h.errors (by decide)]
    exact le_max_right _ _

theorem State.setPort_acts (s : State) {x : SystemPort} (hq : x.queue = s.port.queue) : s.Acts (s.setPort x) :=
  .port (s.setPort_same x) (hq ▸ le_max_right _ _)

/-- A change of the buffer alone that keeps it within its size. -/
theorem State.setBuffer_acts (s : State) {x : WriteBuffer} (h : x.entries.length ≤ max 8 s.buffer.entries.length) :
    s.Acts (s.setBuffer x) :=
  .one (.plain ((s.setBuffer_same x).mono (by decide)) ⟨le_max_right _ _, h, le_max_right _ _⟩)

theorem State.setEngine_acts (s : State) {x : Engine} (h : x.stack = s.engine.stack) : s.Acts (s.setEngine x) :=
  .one (.engine (s.setEngine_same x) h)

theorem State.setRemap_acts (s : State) {u : Remap} (h : s.remap.SameTables u) : s.Acts (s.setRemap u) :=
  .one (.remap h)

/-! ## Banks, channel and hold state -/

theorem State.furtherCloseAll_acts (s : State) : s.Acts s.furtherCloseAll :=
  .frame s.furtherCloseAll_same (by decide)

theorem State.release_acts (s : State) (b : Bank) : s.Acts (s.release b) := .frame (s.release_same b) (by decide)

theorem State.grantNext_acts (s : State) (cs : List BitChange) : s.Acts (s.grantNext cs) := by
  have hnote (s : State) (work : Work) : s.Acts (s.noteGrant work) := by
    cases work with
    | lineRead line words wanted => exact s.setPort_acts rfl
    | sense => exact s.setEngine_acts rfl
    | _ => exact .refl
  have hgrant (s : State) (c : Claim) : s.Acts (s.grant c) := by
    have hprogress := ((State.Acts.frame (s.setChannel_same (some (s.operation c))) (by decide)).trans
      (hnote _ c.work)).trans (.frame (State.progress_same _) (by decide))
    unfold State.grant
    dsimp only
    split
    · exact hprogress.trans (.frame (State.urgentClose_same _ _) (by decide))
    · exact hprogress
  unfold State.grantNext
  split
  · exact .trans (.frame (s.changeAll_same cs) (by decide)) (hgrant _ _)
  · exact .refl

/-! ## Write buffer and port -/

theorem State.chooseEntry_acts (s : State) : s.Acts s.chooseEntry := by
  unfold State.chooseEntry
  split
  · exact .refl
  · split
    · exact .refl
    · exact s.setBuffer_acts (by simp [WriteBuffer.updateFilling])

theorem State.expireAge_acts (s : State) : s.Acts s.expireAge := s.setBuffer_acts (by simp)

theorem State.setStage_acts (s : State) (x : Option Stage) : s.Acts (s.setStage x) := s.setPort_acts rfl

theorem State.respond_acts (s : State) (r : Response) : s.Acts (s.respond r) := s.setStage_acts _

theorem State.finishFlush_acts (s : State) : s.Acts s.finishFlush := by
  unfold State.finishFlush
  split
  · exact s.respond_acts _
  · exact .refl

/-- A WRITE is allocated an entry only while the buffer has room (R126). -/
theorem State.serveWrite_acts (s : State) (a : BeatAddress) (n : BeatCount) (d : List WriteBeat) :
    s.Acts (s.serveWrite a n d) := by
  unfold State.serveWrite
  dsimp only
  split
  · exact s.respond_acts _
  · split
    · exact (s.setBuffer_acts (by simp [WriteBuffer.merge, WriteBuffer.updateFilling])).trans (State.respond_acts _ _)
    · split
      · rename_i hroom
        have hsize : s.buffer.entries.length < 8 := hroom
        refine .trans (s.setBuffer_acts ?_) (State.respond_acts _ _)
        simp only [WriteBuffer.allocate, List.length_append, List.length_singleton]
        omega
      · exact s.setStage_acts _

theorem State.serveHead_acts (s : State) : s.Acts s.serveHead := by
  unfold State.serveHead
  split
  · exact s.setStage_acts _
  · unfold State.serveRead
    dsimp only
    split
    · exact s.respond_acts _
    · exact s.setStage_acts _
  · exact s.serveWrite_acts _ _ _
  · exact ((s.setBuffer_acts (by simp [WriteBuffer.markAll])).trans (State.setStage_acts _ _)).trans
      (State.finishFlush_acts _)

theorem State.serveWaiting_acts (s : State) : s.Acts s.serveWaiting := by
  unfold State.serveWaiting
  split
  · exact s.serveHead_acts
  · exact .refl

/-- A request is accepted only while the intake queue has room (R146). -/
theorem State.acceptOffer_acts (s : State) : s.Acts s.acceptOffer := by
  have haccept {r : Request} (hroom : s.port.queue.length < 12) : s.Acts (s.accept r) := by
    have hqueued : s.Acts (s.setPort { s.port with offer := none, sa := true, queue := s.port.queue ++ [r] }) := by
      refine .port (s.setPort_same _) ?_
      simp only [State.setPort_port, List.length_append, List.length_singleton]
      omega
    unfold State.accept
    dsimp only
    split
    · exact hqueued.trans (State.serveHead_acts _)
    · exact hqueued
  unfold State.acceptOffer
  split
  · rename_i r hr
    have hroom : s.port.queue.length < 12 := by
      unfold State.canAccept at hr
      split at hr
      next h => exact h.1
      next => cases hr
    exact (haccept hroom).trans (State.chooseEntry_acts _)
  · exact .refl

theorem State.takeOffered_acts (s : State) : s.Acts s.takeOffered := by
  have htaken : s.Acts (s.setPort { s.port with queue := s.port.queue.tail, stage := none }) := by
    refine .port (s.setPort_same _) ?_
    simp only [State.setPort_port, List.length_tail]
    omega
  unfold State.takeOffered
  split
  · exact ((htaken.trans (State.serveHead_acts _)).trans (State.chooseEntry_acts _)).trans
      (State.furtherCloseAll_acts _)
  · exact .refl

theorem State.answerRead_acts (s : State) (ds : List (ReadWord × Decoded)) : s.Acts (s.answerRead ds) := by
  unfold State.answerRead
  split
  · exact s.respond_acts _
  · exact .refl

/-! ## Reports -/

/-- A report makes a record in place of another where the error table is full (R175, R176). -/
theorem State.report_records (s : State) (e : ErrorReport) :
    (s.report e).errors.records.length ≤ max 16 s.errors.records.length := by
  unfold State.report
  dsimp only
  split
  · simp
  · split
    · rename_i hroom
      have hsize : s.errors.records.length < 16 := hroom
      simp only [State.setErrors_errors, ErrorTable.create, List.length_append, List.length_singleton]
      omega
    · split
      · rename_i r hr
        have hmem := oldestCe_mem hr
        have hpos := List.length_pos_of_mem hmem
        simp only [State.setErrors_errors, ErrorTable.create, List.length_append, List.length_singleton,
          List.length_erase_of_mem hmem]
        omega
      · split <;> exact le_max_right _ _

theorem State.report_acts (s : State) (e : ErrorReport) : s.Acts (s.report e) := by
  have hsame := s.report_same e
  refine .one (.plain (hsame.mono (by decide)) ⟨?_, ?_, s.report_records e⟩)
  · rw [hsame.port (by decide)]
    exact le_max_right _ _
  · rw [hsame.buffer (by decide)]
    exact le_max_right _ _

theorem State.raise_acts (s : State) (c : Cause) : s.Acts (s.raise c) := .frame (s.raise_same c) (by decide)

theorem State.reportSuspect_acts (s : State) (b : Bank) (r : LogicalRow) (o : DecodeOutcome) :
    s.Acts (s.reportSuspect b r o) := by
  unfold State.reportSuspect
  split
  · exact .refl
  · cases o with
    | corrected => exact s.setRemap_acts (Remap.tallyCe_same _ _ _ _)
    | uncorrectable => exact s.setRemap_acts (Remap.tallyUe_same _ _ _ _)
    | _ => exact .refl

theorem State.reportWord_acts (s : State) (source : ErrorSource) (b : Bank) (r : LogicalRow) (p : PhysicalRow)
    (w : WordInRow) (o : DecodeOutcome) : s.Acts (s.reportWord source b r p w o) := by
  cases o with
  | corrected => exact .trans (s.report_acts _) (State.reportSuspect_acts _ b r .corrected)
  | uncorrectable =>
    exact .trans (.trans (s.report_acts _) (State.reportSuspect_acts _ b r .uncorrectable)) (State.raise_acts _ _)
  | _ => exact .refl

theorem State.reportAll_acts (s : State) (source : ErrorSource) (b : Bank) (r : LogicalRow) (p : PhysicalRow)
    (ds : List (WordInRow × Decoded)) : s.Acts (s.reportAll source b r p ds) :=
  .foldl (fun s _ => s.reportWord_acts _ _ _ _ _ _) ds s

theorem State.reportRead_acts (s : State) (line : Line) (p : PhysicalRow) (ds : List (ReadWord × Decoded)) :
    s.Acts (s.reportRead line p ds) :=
  .foldl (fun s _ => s.reportWord_acts _ _ _ _ _ _) ds s

theorem State.reportMigration_acts (s : State) (b : Bank) (p : PhysicalRow) (ds : List (WordInRow × Decoded)) :
    s.Acts (s.reportMigration b p ds) := by
  have hword (s : State) (w : WordInRow) (o : DecodeOutcome) : s.Acts (s.reportMigrated b p w o) := by
    cases o with
    | corrected => exact s.report_acts _
    | uncorrectable => exact (s.report_acts _).trans (State.raise_acts _ _)
    | _ => exact .refl
  exact .foldl (fun s _ => hword s _ _) ds s

/-! ## The engine, the wake and the port reset -/

theorem State.engineRun_acts (s : State) : s.Acts s.engineRun := by
  have hmoves (n : Nat) (s : State) : s.Acts (State.engineMoves n s) := by
    induction n generalizing s with
    | zero => exact .refl
    | succ n ih =>
      rw [State.engineMoves]
      split
      · exact .refl
      · rename_i t hmove
        exact (State.Acts.one (.move hmove)).trans (ih t)
  exact hmoves 300 s

theorem State.setHold_run_acts (s : State) (x : Hold) : s.Acts (s.setHold x).engineRun :=
  (State.Acts.frame (s.setHold_same x) (by decide)).trans (State.engineRun_acts _)

theorem State.scrubStepEnds_acts (s : State) : s.Acts s.scrubStepEnds := by
  have hexpiry (s : State) : s.Acts s.scrubExpiry := by
    unfold State.scrubExpiry
    split
    · exact .frame (s.setScrubber_same _) (by decide)
    · exact s.setEngine_acts rfl
  cases hdue : s.scrubber.stepDue with
  | none => rw [State.scrubStepEnds_stopped hdue]
  | some due =>
    rw [State.scrubStepEnds_running hdue]
    exact ((State.Acts.frame (s.nextScrubStep_same due) (by decide)).trans (hexpiry _)).trans
      (State.engineRun_acts _)

theorem State.wakeFromHold_acts (s : State) : s.Acts s.wakeFromHold := by
  unfold State.wakeFromHold
  split
  · exact s.setHold_run_acts _
  · exact .refl

theorem State.portReset_acts (s : State) : s.Acts s.portReset := by
  have hreset : s.Acts s.resetPort := by
    have hemptied : s.Acts (s.setPort { s.port with sa := false, queue := [], stage := none }) :=
      .port (s.setPort_same _) (Nat.zero_le _)
    unfold State.resetPort
    dsimp only
    split
    · split
      · exact hemptied.trans (.frame (State.setChannel_same _ _) (by decide))
      · exact hemptied
    · exact hemptied
  have hkept : s.buffer.portReset.entries.length ≤ max 8 s.resetPort.buffer.entries.length := by
    rw [s.resetPort_same.buffer (by decide)]
    simp only [WriteBuffer.portReset, List.length_map]
    exact (List.length_filter_le _ _).trans (le_max_right _ _)
  exact ((hreset.trans (State.setBuffer_acts _ hkept)).trans (State.wakeFromHold_acts _)).trans
    (State.furtherCloseAll_acts _)

theorem State.offer_acts (s : State) (r : Request) : s.Acts (s.offer r) := by
  have hseen (s : State) : s.Acts s.offerSeen := by
    unfold State.offerSeen
    split
    · exact .refl
    · exact s.setHold_run_acts _
    · exact s.setHold_run_acts _
    · exact .refl
  have hoffered : s.Acts (s.setPort (s.port.offered r)) := s.setPort_acts (by
    unfold SystemPort.offered
    split <;> rfl)
  unfold State.offer
  dsimp only
  split
  · exact hoffered.trans (hseen _)
  · exact hoffered

/-! ## The link -/

theorem State.judgeSettings_acts (s : State) (st : Staged) : s.Acts (s.judgeSettings st).state := by
  unfold State.judgeSettings
  refine Judging.judge_keeps (Judging.judge_keeps (Judging.judge_keeps (Judging.judge_keeps (Judging.judge_keeps
    (Judging.judge_keeps (Judging.judge_keeps (Judging.judge_keeps (Judging.judge_keeps (Judging.judge_keeps
    (P := s.Acts) .refl ?arg) ?mask) ?limit) ?idle) ?age) ?step) ?threshold) ?bank) ?row) ?select
  case arg =>
    intro u t v h hs
    obtain rfl := Option.some.inj h
    exact hs.trans (.frame (u.setLink_same _) (by decide))
  case mask =>
    intro u t v h hs
    obtain rfl := Option.some.inj h
    exact hs.trans (.frame (u.setAlerts_same _) (by decide))
  case limit => exact fun h hs => hs.trans (.frame (State.judgeLimit_same h) (by decide))
  case idle => exact fun h hs => hs.trans (.frame (State.judgeIdleClose_same h) (by decide))
  case age =>
    intro u t v h hs
    unfold State.judgeDrainAge at h
    split at h
    · obtain rfl := Option.some.inj h
      have haged : u.Acts (u.setBuffer { u.buffer with drainAge := v }) := u.setBuffer_acts (le_max_right _ _)
      exact hs.trans ((haged.trans (State.expireAge_acts _)).trans (State.chooseEntry_acts _))
    · cases h
  case step =>
    intro u t v h hs
    unfold State.judgeScrubStep at h
    split at h
    · obtain rfl := Option.some.inj h
      exact hs.trans ((State.Acts.frame (u.setScrubber_same _) (by decide)).trans (State.setEngine_acts _ rfl))
    · obtain rfl := Option.some.inj h
      exact hs.trans (.frame (u.setScrubber_same _) (by decide))
  case threshold =>
    intro u t v h hs
    unfold State.judgeThreshold at h
    split at h
    · obtain rfl := Option.some.inj h
      exact hs.trans (u.setRemap_acts ⟨rfl, rfl⟩)
    · cases h
  case bank => exact fun h hs => hs.trans (.frame (State.judgeRetireBank_same h) (by decide))
  case row => exact fun h hs => hs.trans (.frame (State.judgeRetireRow_same h) (by decide))
  case select => exact fun h hs => hs.trans (.frame (State.judgeRecordSelect_same h) (by decide))

theorem State.commandRetire_acts (s : State) : s.Acts s.commandRetire.2 := by
  unfold State.commandRetire
  dsimp only
  split
  · exact .refl
  · split
    · split
      · exact .refl
      · refine .trans (s.setRemap_acts ?_) (State.engineRun_acts _)
        exact ⟨rfl, rfl⟩
    · split
      · rename_i u hu
        exact (s.setRemap_acts ((Remap.room_same hu).trans (Remap.addSuspect_same _ _ _ _ _))).trans
          (State.engineRun_acts _)
      · exact .refl

theorem State.runCommand_acts (s : State) (c : LinkCommand) : s.Acts (s.runCommand c).2 := by
  cases c with
  | hold =>
    change s.Acts s.commandHold.2
    unfold State.commandHold
    split
    · exact ((State.Acts.frame (s.setHold_same _) (by decide)).trans
        (.frame (State.closeAll_same _) (by decide))).trans (State.chooseEntry_acts _)
    all_goals exact .refl
  | wake =>
    change s.Acts s.commandWake.2
    unfold State.commandWake
    split
    · exact .refl
    · exact s.setHold_run_acts _
    · exact s.setHold_run_acts _
    · exact .refl
  | ack => exact .frame s.commandAck_same (by decide)
  | clearErrors =>
    exact .one (.plain (s.commandClearErrors_same.mono (by decide)) ⟨le_max_right _ _, le_max_right _ _, Nat.zero_le _⟩)
  | clearSuspects => exact s.setRemap_acts ⟨rfl, rfl⟩
  | retire => exact s.commandRetire_acts
  | portRestart =>
    change s.Acts s.commandPortRestart.2
    unfold State.commandPortRestart
    dsimp only
    split
    · exact s.portReset_acts
    · exact s.wakeFromHold_acts

theorem Judging.command_acts {s : State} {x : Judging} (hx : s.Acts x.state) (code : Byte) :
    s.Acts (x.command code) := by
  have hresult (u : State) (r : ResultCode) : u.Acts (u.setResult r) := .frame (u.setResult_same r) (by decide)
  have hnoted := hx.trans
    (.frame (x.state.setLink_same { x.state.link with command := code }) (by decide))
  unfold Judging.command
  dsimp only
  split
  · exact hnoted.trans (hresult _ _)
  · split
    · exact hnoted.trans (hresult _ _)
    · exact (hnoted.trans (State.runCommand_acts _ _)).trans (hresult _ _)

theorem State.stop_acts (s : State) (st : Staged) : s.Acts (s.stop st) := by
  have hjudged := s.judgeSettings_acts st
  unfold State.stop
  dsimp only
  split
  · exact Judging.command_acts hjudged _
  · split
    · exact hjudged.trans (.frame (State.setResult_same _ _) (by decide))
    · exact hjudged

theorem State.transaction_acts (s : State) (segments : List LinkSegment) : s.Acts (s.transaction segments) :=
  .trans (.frame (s.setLink_same _) (by decide)) (State.stop_acts _ _)

/-! ## Completions -/

theorem State.completeRead_acts (s : State) (b : Bank) (p : PhysicalRow) (line : Line) (words : List ReadWord)
    (wanted : Bool) : s.Acts (s.completeRead b p line words wanted) := by
  unfold State.completeRead
  dsimp only
  refine .trans (.trans (.trans (s.release_acts b) ?_) (State.reportRead_acts _ _ _ _)) (State.engineRun_acts _)
  split
  · exact State.answerRead_acts _ _
  · exact .refl

theorem State.completeDrain_acts (s : State) (b : Bank) (p : PhysicalRow) (rows : List PhysicalRow)
    (e : BufferEntry) : s.Acts (s.completeDrain b p rows e) := by
  have hwritten := (s.release_acts b).trans
    (.frame (State.writeRows_same _ b rows (s.drainWrites e p)) (by decide))
  have hreported := hwritten.trans (State.reportAll_acts _ .drain b (lineRow e.line) p (s.drainReads e p))
  refine .trans (.trans (.trans (.trans (.trans (hreported.trans ?_) (State.serveWaiting_acts _))
    (State.chooseEntry_acts _)) (State.finishFlush_acts _)) (State.engineRun_acts _)) (State.furtherCloseAll_acts _)
  exact State.setBuffer_acts _ ((List.length_filter_le _ _).trans (le_max_right _ _))

theorem State.completeRowFill_acts (s : State) (b : Bank) (p : PhysicalRow) (line : Line) :
    s.Acts (s.completeRowFill b p line) :=
  .trans (.trans ((s.release_acts b).trans (.frame (State.writeWords_same _ _ _ _) (by decide)))
    (.one (.mark _))) (State.engineRun_acts _)

theorem State.completeFillStep_acts (s : State) (b : Bank) (p : PhysicalRow) (g : Nat) :
    s.Acts (s.completeFillStep b p g) :=
  .trans (.trans (.trans ((s.release_acts b).trans (.frame (State.writeWords_same _ _ _ _) (by decide)))
    (.one .fill)) (State.engineRun_acts _)) (State.furtherCloseAll_acts _)

theorem State.completeScrubStep_acts (s : State) (b : Bank) (r : LogicalRow) (p : PhysicalRow)
    (rows : List PhysicalRow) (g : Nat) : s.Acts (s.completeScrubStep b r p rows g) := by
  have hwritten := (s.release_acts b).trans
    (.frame (State.writeRows_same _ b rows (scrubWrites (s.groupDecodes b p g))) (by decide))
  have hreported := hwritten.trans (State.reportAll_acts _ .scrub b r p (s.groupDecodes b p g))
  exact ((hreported.trans (.one (.scrub _))).trans (State.engineRun_acts _)).trans (State.furtherCloseAll_acts _)

theorem State.completeMigrateStep_acts (s : State) (b : Bank) (p q : PhysicalRow) (g : Nat) :
    s.Acts (s.completeMigrateStep b p q g) := by
  have hwritten := (s.release_acts b).trans
    (.frame (State.writeWords_same _ b q (migrateWrites (s.groupDecodes b p g))) (by decide))
  have hreported := hwritten.trans (State.reportMigration_acts _ b p (s.groupDecodes b p g))
  exact ((hreported.trans (.one .migrate)).trans (State.engineRun_acts _)).trans (State.furtherCloseAll_acts _)

/-- Each completion: that of the operation in flight, or nothing. -/
theorem State.completions_acts (s : State) :
    s.Acts s.lineReadEnds ∧ s.Acts s.drainEnds ∧ s.Acts s.rowFillEnds ∧ s.Acts s.fillStepEnds ∧
      s.Acts s.scrubGroupEnds ∧ s.Acts s.migrateStepEnds := by
  refine ⟨?_, ?_, ?_, ?_, ?_, ?_⟩
  · obtain h | ⟨op, b, p, line, words, wanted, -, h⟩ := s.lineReadEnds_cases <;> rw [h]
    exact s.completeRead_acts b p line words wanted
  · obtain h | ⟨op, b, p, rows, e, -, h⟩ := s.drainEnds_cases <;> rw [h]
    exact s.completeDrain_acts b p rows e
  · obtain h | ⟨op, b, p, line, -, h⟩ := s.rowFillEnds_cases <;> rw [h]
    exact s.completeRowFill_acts b p line
  · obtain h | ⟨op, b, p, g, -, h⟩ := s.fillStepEnds_cases <;> rw [h]
    exact s.completeFillStep_acts b p g
  · obtain h | ⟨op, b, r, p, rows, g, -, h⟩ := s.scrubGroupEnds_cases <;> rw [h]
    exact s.completeScrubStep_acts b r p rows g
  · obtain h | ⟨op, b, p, q, g, -, h⟩ := s.migrateStepEnds_cases <;> rw [h]
    exact s.completeMigrateStep_acts b p q g

/-! ## Every command -/

theorem State.drainAgeEnds_acts (s : State) (line : Line) : s.Acts (s.drainAgeEnds line) := by
  unfold State.drainAgeEnds
  split
  · split
    · exact .refl
    · exact ((State.Acts.frame (s.moveTo_same _) (by decide)).trans (State.expireAge_acts _)).trans
        (State.chooseEntry_acts _)
  · exact .refl

/-- The effect of a command, other than the two power events, is a sequence of acts. -/
theorem effect_acts {c : Instr} (h1 : ∀ laddr, c ≠ .powerOnReset laddr) (h2 : c ≠ .powerLoss) (s : State) :
    s.Acts (effect c s) := by
  obtain ⟨hread, hdrain, hrowFill, hfill, hscrub, hmigrate⟩ := s.completions_acts
  cases c with
  | powerOnReset laddr => exact absurd rfl (h1 laddr)
  | powerLoss => exact absurd rfl h2
  | resetNFall =>
    simp only [effect]
    split
    · refine .trans (s.setPort_acts ?_) (State.portReset_acts _)
      rfl
    · exact .refl
  | resetNRise => exact s.setPort_acts rfl
  | requestOffer r => exact s.offer_acts r
  | requestAccept => exact s.acceptOffer_acts
  | sqLowered => exact s.setPort_acts rfl
  | responseTaken => exact s.takeOffered_acts
  | channelGrant cs => exact s.grantNext_acts cs
  | tOpenExpiry b => exact .frame (s.tOpenEnds_same b) (by decide)
  | tMinOpenExpiry b => exact .frame (s.tMinOpenEnds_same b) (by decide)
  | tCloseExpiry b => exact .frame (s.tCloseEnds_same b) (by decide)
  | tIdleExpiry b => exact .frame (s.tIdleEnds_same b) (by decide)
  | tRfExpiry b => exact .frame (s.tRfEnds_same b) (by decide)
  | intervalExpiry b => exact .frame (s.intervalEnds_same b) (by decide)
  | pollTimerExpiry => exact .trans (.frame (s.moveTo_same _) (by decide)) (State.setEngine_acts _ rfl)
  | tSenseExpiry reading parityGood => exact .frame (s.senseEnds_same reading parityGood) (by decide)
  | scrubStepTimerExpiry => exact s.scrubStepEnds_acts
  | drainAgeReached line => exact s.drainAgeEnds_acts line
  | lineReadComplete => exact hread
  | drainComplete => exact hdrain
  | rowFillComplete => exact hrowFill
  | fillStepComplete => exact hfill
  | scrubGroupStepComplete => exact hscrub
  | migrateStepComplete => exact hmigrate
  | holdEnter => exact .frame s.enterHold_same (by decide)
  | tWakeExpiry => exact .frame s.wakeEnds_same (by decide)
  | registerWrite segments => exact s.transaction_acts segments
  | deviceTimeTick => exact .frame s.millisecondEnds_same (by decide)
  | _ => exact s.transaction_acts _

/-- A command is a sequence of acts, with power and without it, unless it is a power event. -/
theorem exec_acts {c : Instr} {s t : State} (h1 : ∀ laddr, c ≠ .powerOnReset laddr) (h2 : c ≠ .powerLoss)
    (h : exec c s = .next t) : s.Acts t := by
  cases hp : s.powered with
  | true =>
    rw [exec_on hp] at h
    injection h with h
    exact h ▸ effect_acts h1 h2 s
  | false =>
    cases c with
    | resetNRise =>
      injection h with h
      exact h ▸ s.setPort_acts rfl
    | resetNFall =>
      simp only [exec, execResetNFall, hp] at h
      split at h <;> injection h with h <;> subst h
      · exact s.setPort_acts rfl
      · exact .refl
    | _ =>
      rw [exec_off hp h1 h2 (by simp) (by simp)] at h
      injection h with h
      exact h ▸ .refl

/-- A property that every single act keeps, and that holds after the power events, holds after every step. -/
theorem step_keeps_of_acts {P : State → Prop} (hact : ∀ {s t : State}, s.Act t → P s → P t)
    (hqueue : ∀ (s : State) (rest : List Instr), P s → P (s.setPending rest))
    (hreset : ∀ (laddr : BitVec 2) (s : State), P (effect (.powerOnReset laddr) s))
    (hloss : ∀ s : State, P (effect .powerLoss s)) {s t : State} (h : step s = .next t) (hs : P s) : P t := by
  obtain hclock | ⟨c, rest, -, hexec⟩ := step_cases h
  · exact (State.Acts.frame hclock (by decide)).keeps hact hs
  · have hs := hqueue s rest hs
    cases c with
    | powerOnReset laddr =>
      injection hexec with hexec
      exact hexec ▸ hreset laddr (s.setPending rest)
    | powerLoss =>
      injection hexec with hexec
      exact hexec ▸ hloss (s.setPending rest)
    | _ => exact (exec_acts (by simp) (by simp) hexec).keeps hact hs

end Sys2Proof.Machine

/-! # Lists within their sizes, the order of the stack, fill done, remap tables and migrations: kept by every act -/

namespace Sys2Proof.Machine

/-! ## The sizes of the lists (R72, R124, R148, R174) -/

/-- What a move of the engine can be. -/
theorem State.engineMove_cases {s t : State} (h : s.engineMove = some t) :
    (∃ b r, t = s.pushMigrate b r) ∨ t = s.pushScrub ∨ t = s.pushFill ∨ s.checkTop = some t := by
  have hlower (h : (if s.engine.scrubPending = true ∧ 5 < s.engine.topLevel then some s.pushScrub
      else if s.engine.fillPending = true ∧ 7 < s.engine.topLevel then some s.pushFill else s.checkTop) = some t) :
      t = s.pushScrub ∨ t = s.pushFill ∨ s.checkTop = some t := by
    split at h
    · exact .inl (Option.some.inj h).symm
    · split at h
      · exact .inr (.inl (Option.some.inj h).symm)
      · exact .inr (.inr h)
  unfold State.engineMove at h
  split at h
  · split at h
    · split at h
      · exact .inl ⟨_, _, (Option.some.inj h).symm⟩
      · exact .inr (hlower h)
    · exact .inr (hlower h)
  · cases h

theorem State.pushMigrate_records (s : State) (b : Bank) (r : LogicalRow) :
    (s.pushMigrate b r).errors.records.length ≤ max 16 s.errors.records.length := by
  cases hfree : s.remap.freeSpare b with
  | none =>
    rw [State.pushMigrate_gives_up hfree]
    exact State.report_records (s.setRemap (s.remap.giveUp b r)) _
  | some x =>
    rw [State.pushMigrate_opens hfree]
    exact ((s.openMigration_same b r x).errors (by decide)) ▸ le_max_right _ _

theorem State.engineMove_within {s t : State} (h : s.engineMove = some t) : s.Within t := by
  obtain ⟨b, r, rfl⟩ | rfl | rfl | hcheck := State.engineMove_cases h
  · have hsame := s.pushMigrate_same b r
    refine ⟨?_, ?_, s.pushMigrate_records b r⟩
    · rw [hsame.port (by decide)]
      exact le_max_right _ _
    · rw [hsame.buffer (by decide)]
      exact le_max_right _ _
  · exact .frame s.pushScrub_same (by decide) (by decide) (by decide)
  · exact .frame s.pushFill_same (by decide) (by decide) (by decide)
  · exact .frame (State.checkTop_same hcheck) (by decide) (by decide) (by decide)

theorem State.Act.within {s t : State} (h : s.Act t) : s.Within t := by
  cases h with
  | plain _ hw => exact hw
  | engine h => exact .frame h (by decide) (by decide) (by decide)
  | remap => exact .frame (s.setRemap_same _) (by decide) (by decide) (by decide)
  | move h => exact State.engineMove_within h
  | mark i => exact .frame (s.markRow_same i) (by decide) (by decide) (by decide)
  | fill => exact .frame s.advanceFill_same (by decide) (by decide) (by decide)
  | scrub n => exact .frame (s.advanceScrub_same n) (by decide) (by decide) (by decide)
  | migrate => exact .frame s.advanceMigrate_same (by decide) (by decide) (by decide)

/-- The lists that the acts bound: those of the port, the buffer and the error table. -/
def State.listsOk (s : State) : Prop :=
  s.port.queue.length ≤ 12 ∧ s.buffer.entries.length ≤ 8 ∧ s.errors.records.length ≤ 16

theorem State.Act.listsOk {s t : State} (h : s.Act t) (hs : s.listsOk) : t.listsOk := by
  obtain ⟨hqueue, hentries, hrecords⟩ := hs
  obtain ⟨hq, he, hr⟩ := h.within
  exact ⟨by omega, by omega, by omega⟩

/-- A row joins the suspect list only where there is room (R76, R78). -/
theorem Remap.addSuspect_length {u v : Remap} (h : u.room = some v) (hu : u.suspects.length ≤ 8) (b : Bank)
    (r : LogicalRow) (n : Nat) (q : Option DeviceTime) : (v.addSuspect b r n q).suspects.length ≤ 8 := by
  have hroom := Remap.room_length h hu
  cases q <;> simpa [Remap.addSuspect] using hroom

theorem Remap.updateSuspect_length (u : Remap) (b : Bank) (r : LogicalRow) (f : SuspectEntry → SuspectEntry) :
    (u.updateSuspect b r f).suspects.length = u.suspects.length := List.length_map _

theorem Remap.Change.length_le {u v : Remap} (h : u.Change v) (hu : u.suspects.length ≤ 8) : v.suspects.length ≤ 8 := by
  have hupdate (b : Bank) (r : LogicalRow) (f : SuspectEntry → SuspectEntry) :
      (u.updateSuspect b r f).suspects.length ≤ 8 := by rwa [Remap.updateSuspect_length]
  cases h with
  | tables hlist => rwa [hlist.1]
  | threshold => exact hu
  | tallyCe b r now =>
    unfold Remap.tallyCe
    split
    · split
      · exact hu
      · exact Remap.addSuspect_length (by assumption) hu b r _ _
    · split <;> exact hupdate b r _
  | tallyUe b r now =>
    unfold Remap.tallyUe
    split
    · split
      · exact hu
      · exact Remap.addSuspect_length (by assumption) hu b r _ _
    · split <;> exact hupdate b r _
  | queue => exact hupdate _ _ _
  | add _ _ hv => exact Remap.addSuspect_length hv hu _ _ _ _
  | clear => exact (List.length_filter_le _ _).trans hu
  | remove => exact (List.length_filter_le _ _).trans hu
  | giveUp => exact hupdate _ _ _

/-! ## The order of the stack (R39) -/

/-- The stack `m` is `l`, or `l` with its top, a job of level `n`, gone or in a new context. -/
def TopAdvanced (n : Nat) (l m : List Job) : Prop :=
  m = l ∨ ∃ j rest, l = j :: rest ∧ j.level = n ∧ (m = rest ∨ ∃ k : Job, k.level = n ∧ m = k :: rest)

theorem TopAdvanced.stackOk {n : Nat} {s t : State} (h : TopAdvanced n s.engine.stack t.engine.stack) (hs : s.stackOk) :
    t.stackOk := by
  obtain h | ⟨j, rest, hst, hj, h | ⟨k, hk, h⟩⟩ := h
  · exact stackOk_same hs h
  · exact stackOk_pop hs hst h
  · exact stackOk_replace hs hst (hk.trans hj.symm) h

theorem Job.ne_migrate_of_level {j : Job} (h : j.level ≠ 3) (b : Bank) (r : LogicalRow) (i : Slot) (c : Nat) :
    j ≠ .migrate b r i c := fun g => h (g ▸ rfl)

/-- Above level 3 no MIGRATE job comes or goes. -/
theorem TopAdvanced.migrations {n : Nat} {l m : List Job} (h : TopAdvanced n l m) (hn : n ≠ 3) : SameMigrations l m := by
  obtain rfl | ⟨j, rest, rfl, hj, rfl | ⟨k, hk, rfl⟩⟩ := h
  · exact .refl _
  · exact .pop (Job.ne_migrate_of_level (hj ▸ hn))
  · exact .cons (Job.ne_migrate_of_level (hj ▸ hn)) (Job.ne_migrate_of_level (hk ▸ hn))

theorem State.advanceFill_top (s : State) : TopAdvanced 7 s.engine.stack s.advanceFill.engine.stack := by
  unfold State.advanceFill
  split
  · rename_i i g rest hst
    split
    · exact .inr ⟨_, _, hst, rfl, .inr ⟨_, rfl, rfl⟩⟩
    · obtain ⟨-, h | ⟨j, h⟩⟩ := (s.markRow i).fillForward_stack i rest
      · exact .inr ⟨_, _, hst, rfl, .inl h⟩
      · exact .inr ⟨_, _, hst, rfl, .inr ⟨_, rfl, h⟩⟩
  · exact .inl rfl

theorem State.advanceScrub_top (s : State) (n : Nat) :
    TopAdvanced 5 s.engine.stack (s.advanceScrub n).engine.stack := by
  unfold State.advanceScrub
  split
  · rename_i b r g c rest hst
    split
    · exact .inr ⟨_, _, hst, rfl, .inr ⟨_, rfl, rfl⟩⟩
    · exact .inr ⟨_, _, hst, rfl, .inl (State.serveLag_stack _).1⟩
  · exact .inl rfl

theorem State.advanceMigrate_top (s : State) : TopAdvanced 3 s.engine.stack s.advanceMigrate.engine.stack := by
  unfold State.advanceMigrate
  split
  · rename_i b r i c rest hst
    dsimp only
    split
    · exact .inr ⟨_, _, hst, rfl, .inr ⟨_, rfl, rfl⟩⟩
    · exact .inr ⟨_, _, hst, rfl, .inl rfl⟩
  · exact .inl rfl

theorem State.Act.stackOk {s t : State} (h : s.Act t) (hs : s.stackOk) : t.stackOk := by
  cases h with
  | plain h => exact stackOk_same hs (congrArg Engine.stack (h.engine (by decide)))
  | engine _ hstack => exact stackOk_same hs hstack
  | remap => exact hs
  | move h => exact State.engineMove_stackOk h hs
  | mark i => exact stackOk_same hs (congrArg Engine.stack ((s.markRow_same i).engine (by decide)))
  | fill => exact s.advanceFill_top.stackOk hs
  | scrub n => exact (s.advanceScrub_top n).stackOk hs
  | migrate => exact s.advanceMigrate_top.stackOk hs

/-! ## Fill done (R112, R114) -/

theorem State.fillOk_of_same {s t : State} (h : t.fillMap = s.fillMap) (hs : s.fillOk) : t.fillOk := by
  unfold State.fillOk
  rwa [h]

theorem marks_full_iff (marks : BitVec 131072) :
    marks = BitVec.allOnes 131072 ↔ ∀ i : SweepIndex, marks.getLsbD i.val = true := by
  constructor
  · rintro rfl i
    exact BitVec.getLsbD_allOnes.trans (decide_eq_true i.isLt)
  · intro h
    exact BitVec.eq_of_getLsbD_eq fun i hi =>
      (h ⟨i, hi⟩).trans (BitVec.getLsbD_allOnes.trans (decide_eq_true hi)).symm

/-- Fill done comes with the last mark, and it stood clear while a mark was (R114). -/
theorem State.markRow_fillOk {s : State} (hs : s.fillOk) (i : SweepIndex) : (s.markRow i).fillOk := by
  unfold State.markRow
  split
  · exact hs
  · rename_i hclear
    dsimp only
    split
    · rename_i hfull
      exact ⟨fun _ => (marks_full_iff _).1 hfull, fun _ => rfl⟩
    · rename_i hopen
      have hdone : s.fillMap.done ≠ true := fun h => hclear (hs.1 h i)
      exact ⟨fun h => absurd h hdone, fun h => absurd ((marks_full_iff _).2 h) hopen⟩

theorem State.advanceFill_fillOk {s : State} (hs : s.fillOk) : s.advanceFill.fillOk := by
  unfold State.advanceFill
  split
  · split
    · exact hs
    · exact State.fillOk_of_same ((State.fillForward_same _ _ _).fillMap (by decide)) (State.markRow_fillOk hs _)
  · exact hs

theorem State.Act.fillOk {s t : State} (h : s.Act t) (hs : s.fillOk) : t.fillOk := by
  cases h with
  | plain h => exact State.fillOk_of_same (h.fillMap (by decide)) hs
  | engine h => exact State.fillOk_of_same (h.fillMap (by decide)) hs
  | remap => exact hs
  | move h => exact State.fillOk_of_same ((State.engineMove_same h).fillMap (by decide)) hs
  | mark i => exact State.markRow_fillOk hs i
  | fill => exact State.advanceFill_fillOk hs
  | scrub n => exact State.fillOk_of_same ((s.advanceScrub_same n).fillMap (by decide)) hs
  | migrate => exact State.fillOk_of_same (s.advanceMigrate_same.fillMap (by decide)) hs

/-- Settles O55: the suspect list is bounded through the changes of the Remap Unit, the other lists, the stack and the
fill marks through the acts of the commands. -/
theorem listsStackAndFillStayBounded : Obligations.ListsStackAndFillStayBounded := by
  intro s t h
  refine ⟨fun hs => ?sizes, fun hs => ?stack, fun hs => ?fill⟩
  case sizes =>
    obtain ⟨hqueue, hentries, hsuspects, hrecords⟩ := hs
    have hlists : t.listsOk := step_keeps_of_acts State.Act.listsOk (fun _ _ hs => hs)
      (fun _ _ => ⟨Nat.zero_le _, Nat.zero_le _, Nat.zero_le _⟩)
      (fun _ => ⟨Nat.zero_le _, Nat.zero_le _, Nat.zero_le _⟩) h ⟨hqueue, hentries, hrecords⟩
    have hlist : t.remap.suspects.length ≤ 8 := step_keeps_of_changes (P := fun s => s.remap.suspects.length ≤ 8)
      (fun hc => hc.keeps_remap (Q := fun u => u.suspects.length ≤ 8) Remap.Change.length_le) (fun _ _ hs => hs)
      (fun _ _ => Nat.zero_le _) (fun _ => Nat.zero_le _) h hsuspects
    obtain ⟨hqueue, hentries, hrecords⟩ := hlists
    exact ⟨hqueue, hentries, hlist, hrecords⟩
  case stack =>
    exact step_keeps_of_acts State.Act.stackOk (fun _ _ hs => hs) (fun _ _ => List.pairwise_singleton _ _)
      (fun _ => List.pairwise_singleton _ _) h hs
  case fill =>
    exact step_keeps_of_acts State.Act.fillOk (fun _ _ hs => hs) (fun laddr _ => State.initial_fillOk laddr)
      (fun _ => State.initial_fillOk 0) h hs

/-! ## Remap tables, spare pool and migrations (R81, R82, R85) -/

/-- A frame that leaves the Remap Unit and the MIGRATE jobs as they are. -/
theorem State.remapOk_of_frame {s t : State} (hr : t.remap = s.remap)
    (hm : SameMigrations s.engine.stack t.engine.stack) (hs : s.remapOk) : t.remapOk :=
  State.remapOk_of_same (hr ▸ .refl _) hm hs

/-- The tables, the pool and the migrations stay consistent; that the top of the stack is no MIGRATE job when one is
pushed, and the only one when it advances, rests on the order of the stack. -/
theorem State.Act.remapOk {s t : State} (h : s.Act t) (hst : s.stackOk) (hs : s.remapOk) : t.remapOk := by
  cases h with
  | plain h => exact State.remapOk_of_frame (h.remap (by decide)) (h.engine (by decide) ▸ .refl _) hs
  | engine h hstack => exact State.remapOk_of_frame (h.remap (by decide)) (hstack ▸ .refl _) hs
  | remap h => exact State.remapOk_of_same h (.refl _) hs
  | move h => exact (State.engineMove_ok h hst hs).2
  | mark i =>
    have hsame := s.markRow_same i
    exact State.remapOk_of_frame (hsame.remap (by decide)) (hsame.engine (by decide) ▸ .refl _) hs
  | fill =>
    exact State.remapOk_of_frame (s.advanceFill_same.remap (by decide)) (s.advanceFill_top.migrations (by decide)) hs
  | scrub n =>
    exact State.remapOk_of_frame ((s.advanceScrub_same n).remap (by decide))
      ((s.advanceScrub_top n).migrations (by decide)) hs
  | migrate => exact (State.advanceMigrate_ok hst hs).2

/-- Settles O58: kept by every act together with the order of the stack. -/
theorem remapTablesStayConsistent : Obligations.RemapTablesStayConsistent := by
  intro s t h hst hs
  have hok : t.stackOk ∧ t.remapOk := step_keeps_of_acts (P := fun s => s.stackOk ∧ s.remapOk)
    (fun hact hs => ⟨hact.stackOk hs.1, hact.remapOk hs.1 hs.2⟩) (fun _ _ hs => hs)
    (fun laddr _ => ⟨List.pairwise_singleton _ _, State.initial_remapOk laddr⟩)
    (fun _ => ⟨List.pairwise_singleton _ _, State.initial_remapOk 0⟩) h ⟨hst, hs⟩
  exact hok.2

end Sys2Proof.Machine

/-! # The lookup and the rows an operation visits (R81, R83, R88, R105) -/

namespace Sys2Proof.Machine

theorem Remap.find_iff {u : Remap} (hu : u.ok) (b : Bank) (r : LogicalRow) (slot : Slot) (e : RemapEntry) :
    u.find b r = some (slot, e) ↔ u.tables[b][slot] = some e ∧ e.logicalRow = r := by
  refine ⟨Remap.find_some, fun ⟨he, hr⟩ => ?_⟩
  obtain ⟨-, hdistinct, -⟩ := hu
  cases hf : u.find b r with
  | none => exact absurd hr (Remap.find_none hf he)
  | some k =>
    obtain ⟨j, f⟩ := k
    obtain ⟨hj, hjr⟩ := Remap.find_some hf
    have hslot : j = slot := by
      by_contra hne
      exact (hdistinct b j slot f e hj he hne).1 (hjr.trans hr.symm)
    subst hslot
    rw [Option.some.inj (hj.symm.trans he)]

theorem Remap.find_none_iff (u : Remap) (b : Bank) (r : LogicalRow) :
    u.find b r = none ↔ ∀ (slot : Slot) (e : RemapEntry), u.tables[b][slot] = some e → e.logicalRow ≠ r := by
  refine ⟨fun h _ _ he => Remap.find_none h he, fun h => ?_⟩
  cases hf : u.find b r with
  | none => rfl
  | some k =>
    obtain ⟨he, hr⟩ := Remap.find_some hf
    exact absurd hr (h k.1 k.2 he)

/-! ## The row read and the rows written (R83) -/

section
variable {u : Remap} {b : Bank} {r : LogicalRow} {slot : Slot} {e : RemapEntry} {source : PhysicalRow}

theorem Remap.readRow_ordinary (h : u.find b r = none) : u.readRow b r = ordinaryRow r := by
  simp only [Remap.readRow, h]

theorem Remap.readRow_live (h : u.find b r = some (slot, e)) (hl : e.state = .live) :
    u.readRow b r = spareRow e.target := by
  simp only [Remap.readRow, h, hl]

theorem Remap.readRow_migrating (h : u.find b r = some (slot, e)) (hm : e.state = .migrating)
    (hs : e.source = some source) : u.readRow b r = source := by
  simp only [Remap.readRow, h, hm, hs, Option.getD_some]

theorem Remap.writeRows_ordinary (h : u.find b r = none) (g : Nat) : u.writeRows b r g = [ordinaryRow r] := by
  simp only [Remap.writeRows, h]

theorem Remap.writeRows_live (h : u.find b r = some (slot, e)) (hl : e.state = .live) (g : Nat) :
    u.writeRows b r g = [spareRow e.target] := by
  simp only [Remap.writeRows, h, hl]

theorem Remap.writeRows_migrating (h : u.find b r = some (slot, e)) (hm : e.state = .migrating)
    (hs : e.source = some source) (g : Nat) :
    u.writeRows b r g = if g < e.cursor then [source, spareRow e.target] else [source] := by
  simp only [Remap.writeRows, h, hm, hs, Option.getD_some]

theorem Remap.migrateRows_migrating (h : u.find b r = some (slot, e)) (hs : e.source = some source) :
    u.migrateRows b r = [source, spareRow e.target] := by
  simp only [Remap.migrateRows, h, hs, Option.getD_some]

end

/-! ## The rows of a scrub step (R104, R105) -/

theorem scrubWriteBack_eq_none_iff (d : Decoded) :
    scrubWriteBack d = none ↔ d.outcome = .clean ∨ d.outcome = .poisoned := by
  unfold scrubWriteBack
  cases d.outcome <;> simp

theorem State.scrubWrites_eq_nil_iff (s : State) (b : Bank) (p : PhysicalRow) (g : Nat) :
    scrubWrites (s.groupDecodes b p g) = [] ↔
      ∀ w ∈ groupWords g, (s.word b p w).decode.outcome = .clean ∨ (s.word b p w).decode.outcome = .poisoned := by
  simp [scrubWrites, State.groupDecodes, scrubWriteBack_eq_none_iff]

/-- Nothing to write back: the row read is visited alone. -/
theorem State.scrubRows_read {s : State} {b : Bank} {r : LogicalRow} {g : Nat} {p : PhysicalRow}
    (hp : s.remap.readRow b r = p)
    (h : ∀ w ∈ groupWords g, (s.word b p w).decode.outcome = .clean ∨ (s.word b p w).decode.outcome = .poisoned) :
    s.scrubRows b r g = [p] := by
  unfold State.scrubRows
  dsimp only
  rw [hp, (s.scrubWrites_eq_nil_iff b p g).2 h]
  rfl

/-- Some word to write back: every row that the group is written to is visited. -/
theorem State.scrubRows_written {s : State} {b : Bank} {r : LogicalRow} {g : Nat} {p : PhysicalRow}
    (hp : s.remap.readRow b r = p)
    (h : ∃ w ∈ groupWords g,
      (s.word b p w).decode.outcome = .corrected ∨ (s.word b p w).decode.outcome = .uncorrectable) :
    s.scrubRows b r g = s.remap.writeRows b r g := by
  have hsome : scrubWrites (s.groupDecodes b p g) ≠ [] := fun hnil => by
    obtain ⟨w, hw, ho⟩ := h
    have hkept := (s.scrubWrites_eq_nil_iff b p g).1 hnil w hw
    grind
  unfold State.scrubRows
  dsimp only
  rw [hp]
  exact if_neg (by simpa using hsome)

/-- Where the row read is the only row written, a scrub step visits it, whatever it finds there. -/
theorem State.scrubRows_single {s : State} {b : Bank} {r : LogicalRow} {g : Nat} {p : PhysicalRow}
    (hp : s.remap.readRow b r = p) (hw : s.remap.writeRows b r g = [p]) : s.scrubRows b r g = [p] := by
  unfold State.scrubRows
  dsimp only
  rw [hp, hw, ite_self]

/-- Settles O18: the lookup by its searches, and each kind of operation by the row read and the rows written. -/
theorem rowsVisitedFollowTheLookup : Obligations.RowsVisitedFollowTheLookup := by
  intro s b r line words wanted g
  refine ⟨fun hok slot e => Remap.find_iff hok b r slot e, s.remap.find_none_iff b r, rfl, rfl, rfl, fun h => ?ordinary,
    fun slot e h hl => ?live, fun slot e source h hm hs => ?migrating⟩
  case ordinary =>
    have hread := Remap.readRow_ordinary h
    have hwrite := Remap.writeRows_ordinary h
    exact ⟨congrArg (fun p => [p]) hread, hwrite _, hwrite _, State.scrubRows_single hread (hwrite g)⟩
  case live =>
    have hread := Remap.readRow_live h hl
    have hwrite := Remap.writeRows_live h hl
    exact ⟨congrArg (fun p => [p]) hread, hwrite _, hwrite _, State.scrubRows_single hread (hwrite g)⟩
  case migrating =>
    have hread := Remap.readRow_migrating h hm hs
    have hwrite := Remap.writeRows_migrating h hm hs
    refine ⟨congrArg (fun p => [p]) hread, Remap.migrateRows_migrating h hs, fun hbelow => ?_, fun habove => ?_,
      fun hkept => State.scrubRows_read hread hkept, fun hback => (State.scrubRows_written hread hback).trans (hwrite g)⟩
    · have hrows := (hwrite (lineGroup line)).trans (if_pos hbelow)
      exact ⟨hrows, hrows⟩
    · have hrows := (hwrite (lineGroup line)).trans (if_neg (Nat.not_lt.2 habove))
      exact ⟨hrows, hrows⟩

end Sys2Proof.Machine

/-! # The completion of a migration step (R30, R88, R89, R93) -/

namespace Sys2Proof.Machine

/-! ## The words of a group -/

theorem groupWords_val {g : Nat} (hg : g < 8) : (groupWords g).map Fin.val = (List.range 16).map (16 * g + ·) := by
  unfold groupWords
  rw [List.map_map]
  refine List.map_congr_left fun i hi => ?_
  have hi := List.mem_range.1 hi
  exact Nat.mod_eq_of_lt (by omega)

theorem groupWords_nodup {g : Nat} (hg : g < 8) : (groupWords g).Nodup := by
  refine List.Nodup.of_map Fin.val ?_
  rw [groupWords_val hg]
  exact List.nodup_range.map fun i j (h : 16 * g + i = 16 * g + j) => by omega

theorem mem_groupWords {g : Nat} (hg : g < 8) (w : WordInRow) : w ∈ groupWords g ↔ w.val / 16 = g := by
  have hval : w ∈ groupWords g ↔ w.val ∈ (groupWords g).map Fin.val :=
    (List.mem_map_of_injective Fin.val_injective).symm
  rw [hval, groupWords_val hg]
  simp only [List.mem_map, List.mem_range]
  constructor
  · rintro ⟨i, hi, hw⟩
    omega
  · intro hw
    exact ⟨w.val % 16, by omega, by omega⟩

/-- With no bytes of its own, a writer stores what was delivered, as poison where the data is lost (R30). -/
theorem mergedWord_copy (d : Decoded) :
    mergedWord 0 0 d = if d.outcome.lost then .poisoned d.data else .valid d.data := by
  have hkept : mergeBytes 8 0 0 d.data = d.data := BitVec.eq_of_getLsbD_eq fun i _ => by
    rw [getLsbD_mergeBytes]
    simp
  rw [mergedWord, hkept]

theorem migrateWrites_words (s : State) (b : Bank) (p : PhysicalRow) (g : Nat) :
    (migrateWrites (s.groupDecodes b p g)).map Prod.fst = groupWords g := by
  simp [migrateWrites, State.groupDecodes, Function.comp_def]

theorem mem_migrateWrites (s : State) (b : Bank) (p : PhysicalRow) {g : Nat} {w : WordInRow} (hw : w ∈ groupWords g) :
    (w, mergedWord 0 0 (s.word b p w).decode) ∈ migrateWrites (s.groupDecodes b p g) :=
  List.mem_map.2 ⟨(w, (s.word b p w).decode), List.mem_map_of_mem hw, rfl⟩

/-! ## The job and the remap entry advance -/

theorem State.advanceMigrate_next {s : State} {b : Bank} {r : LogicalRow} {i : Slot} {c : Nat} {rest : List Job}
    (hst : s.engine.stack = .migrate b r i c :: rest) (hc : c + 1 < 8) :
    s.advanceMigrate = (s.setRemap (s.remap.advance b i)).setStack (.migrate b r i (c + 1) :: rest) := by
  unfold State.advanceMigrate
  rw [hst]
  exact if_pos hc

theorem State.advanceMigrate_last {s : State} {b : Bank} {r : LogicalRow} {i : Slot} {c : Nat} {rest : List Job}
    (hst : s.engine.stack = .migrate b r i c :: rest) (hc : ¬ c + 1 < 8) :
    s.advanceMigrate = (s.setRemap ((s.remap.advance b i).complete b r i)).setStack rest := by
  unfold State.advanceMigrate
  rw [hst]
  exact if_neg hc

theorem spareOf_eq_some_iff (p : PhysicalRow) (t : SpareIndex) : spareOf p = some t ↔ p = spareRow t := by
  constructor
  · intro h
    unfold spareOf at h
    split at h
    · rename_i hp
      obtain rfl := Option.some.inj h
      refine Fin.ext ?_
      simp only [spareRow, Fin.ofNat]
      omega
    · cases h
  · rintro rfl
    exact spareOf_spareRow t

theorem RemapEntry.spareSource_iff (e : RemapEntry) (t : SpareIndex) :
    e.source.bind spareOf = some t ↔ e.source = some (spareRow t) := by
  cases e.source <;> simp [spareOf_eq_some_iff]

/-- The Remap Unit after the eighth step of the migration of `e`: the entry LIVE, its source a DEAD spare if it was one,
the served suspect entry gone (R93). -/
structure Remap.Completed (u v : Remap) (b : Bank) (r : LogicalRow) (i : Slot) (e : RemapEntry) : Prop where
  tables : ∀ c j, v.tables[c][j] =
    if c = b ∧ j = i then some { e with cursor := e.cursor + 1, state := .live, source := none } else u.tables[c][j]
  spare : ∀ c t, v.spare c t = if c = b ∧ e.source = some (spareRow t) then .dead else u.spare c t
  suspects : v.suspects = u.suspects.filter fun x => !x.names b r
  queuedOrder : v.queuedOrder = u.queuedOrder.filter fun k => k ≠ (b, r)
  threshold : v.threshold = u.threshold

theorem Remap.complete_advanced {u : Remap} {b : Bank} {i : Slot} {e : RemapEntry} (r : LogicalRow)
    (he : u.tables[b][i] = some e) : u.Completed ((u.advance b i).complete b r i) b r i e := by
  have hadv : (u.advance b i).tables[b][i] = some { e with cursor := e.cursor + 1 } := by
    rw [Remap.advance_of he, Remap.setSlot_tables, if_pos ⟨rfl, rfl⟩]
  have htables (c : Bank) (j : Slot) :
      ((u.advance b i).setSlot b i
        (some { e with cursor := e.cursor + 1, state := .live, source := none })).tables[c][j] =
      if c = b ∧ j = i then some { e with cursor := e.cursor + 1, state := .live, source := none }
      else u.tables[c][j] := by
    rw [Remap.advance_of he, Remap.setSlot_tables, Remap.setSlot_tables]
    split <;> rfl
  have hpool (c : Bank) (t : SpareIndex) : (u.advance b i).spare c t = u.spare c t := by
    rw [Remap.advance_of he, Remap.setSlot_spare]
  have hlist : (u.advance b i).suspects = u.suspects ∧ (u.advance b i).queuedOrder = u.queuedOrder ∧
      (u.advance b i).threshold = u.threshold := by
    rw [Remap.advance_of he]
    exact ⟨rfl, rfl, rfl⟩
  obtain ⟨hsuspects, hqueued, hthreshold⟩ := hlist
  rw [Remap.complete_of r hadv]
  dsimp only
  cases hsource : e.source.bind spareOf with
  | none =>
    refine ⟨htables, fun c t => ?_, congrArg _ hsuspects, congrArg _ hqueued, hthreshold⟩
    have hnot : ¬ (c = b ∧ e.source = some (spareRow t)) := fun ⟨_, h⟩ => by
      rw [(e.spareSource_iff t).2 h] at hsource
      cases hsource
    rw [if_neg hnot]
    exact hpool c t
  | some x =>
    have hx : e.source = some (spareRow x) := (e.spareSource_iff x).1 hsource
    refine ⟨htables, fun c t => ?_, congrArg _ hsuspects, congrArg _ hqueued, hthreshold⟩
    refine (Remap.setSpare_spare _ b c x t .dead).trans ?_
    have hsame : e.source = some (spareRow t) ↔ t = x := by
      rw [hx, Option.some.injEq]
      exact ⟨fun h => (spareRow_inj h).symm, fun h => h ▸ rfl⟩
    simp only [hsame, Remap.setSlot_spare, hpool]

/-! ## The completion -/

theorem SameReports.reportMigration {s t : State} (h : SameReports s t) (b : Bank) (p : PhysicalRow)
    (ds : List (WordInRow × Decoded)) : SameReports (s.reportMigration b p ds) (t.reportMigration b p ds) := by
  have hword {s t : State} (h : SameReports s t) (w : WordInRow) (o : DecodeOutcome) :
      SameReports (s.reportMigrated b p w o) (t.reportMigrated b p w o) := by
    cases o with
    | clean => exact h
    | corrected => exact h.report _
    | poisoned => exact h
    | uncorrectable => exact (h.report _).raise .ue
  unfold State.reportMigration
  induction ds generalizing s t with
  | nil => exact h
  | cons d ds ih => exact ih (hword h _ _)

/-- `s` after a migration step's words have been written and reported, before the job advances. -/
def State.migrateCopied (s : State) (b : Bank) (p q : PhysicalRow) (g : Nat) : State :=
  ((s.release b).writeWords b q (migrateWrites (s.groupDecodes b p g))).reportMigration b p (s.groupDecodes b p g)

theorem State.migrateCopied_same (s : State) (b : Bank) (p q : PhysicalRow) (g : Nat) :
    SameBut [.array, .errors, .alerts] (s.release b) (s.migrateCopied b p q g) :=
  (State.writeWords_same _ _ _ _).trans (State.reportMigration_same _ _ _ _)

theorem State.migrateStepEnds_finishing {s : State} {op : Operation} {b : Bank} {p q : PhysicalRow} {g : Nat}
    (h : s.finishing op b q) (hw : op.work = .migrateStep g) (hr : op.rows = [p, q]) :
    s.migrateStepEnds = (s.migrateCopied b p q g).advanceMigrate.engineRun.furtherCloseAll := by
  unfold State.migrateStepEnds
  rw [State.finishing_ready h]
  dsimp only
  rw [hw, hr]
  rfl

theorem State.word_migrateCopied (s : State) (b : Bank) (p q : PhysicalRow) (g : Nat) (c : Bank) (row : PhysicalRow)
    (w : WordInRow) :
    (s.migrateCopied b p q g).word c row w =
      ((s.release b).writeWords b q (migrateWrites (s.groupDecodes b p g))).word c row w :=
  (State.reportMigration_same _ b p _).word c row w (by decide)

/-- Settles O36: the words and the reports of the copy, and then the advance short of the eighth step and at it. -/
theorem migrateStepCompleteCopiesGroup : Obligations.MigrateStepCompleteCopiesGroup := by
  intro s op b p q g r slot rest entry hmem hf hw hrows hst hg hentry hcursor old ds
  have hcopied := s.migrateCopied_same b p q g
  have hremap : (s.migrateCopied b p q g).remap = s.remap := hcopied.remap (by decide)
  have hengine : (s.migrateCopied b p q g).engine = s.engine := hcopied.engine (by decide)
  have hstack : (s.migrateCopied b p q g).engine.stack = .migrate b r slot g :: rest := hengine ▸ hst
  have hadvance := (s.migrateCopied b p q g).advanceMigrate_same
  have hreports : SameReports (s.reportMigration b p ds) (s.migrateCopied b p q g) :=
    (((s.release_same b).trans (State.writeWords_same _ b q (migrateWrites ds))).sameReports (by decide) (by decide)
      (by decide) (by decide)).reportMigration b p ds
  have hword (c : Bank) (row : PhysicalRow) (w : WordInRow) :=
    (hadvance.word c row w (by decide)).trans (s.word_migrateCopied b p q g c row w)
  refine ⟨(s.migrateCopied b p q g).advanceMigrate,
    (exec_on hf.1 _).trans (congrArg _ (State.migrateStepEnds_finishing hf hw hrows)),
    State.release_then ((hcopied.trans hadvance).mono (by decide)) (by decide) (by decide), fun c row w hout => ?other,
    fun w hin => ?written, (hadvance.errors (by decide)).trans hreports.errors,
    (hadvance.alerts (by decide)).trans hreports.alerts, ?rest⟩
  case other =>
    rw [hword]
    refine (State.word_writeWords_ne _ _ fun ⟨hc, hrow, hmem⟩ => hout ⟨hc, hrow, ?_⟩).trans
      ((s.release_same b).word c row w (by decide))
    rw [migrateWrites_words] at hmem
    exact (mem_groupWords hg w).1 hmem
  case written =>
    rw [hword, ← mergedWord_copy]
    refine State.word_writeWords_mem _ b q _ ?_ (mem_migrateWrites s b p ((mem_groupWords hg w).2 hin))
      (State.release_memoryOk hmem b)
    rw [migrateWrites_words]
    exact groupWords_nodup hg
  case rest =>
    by_cases hlast : g + 1 < 8
    · rw [State.advanceMigrate_next hstack hlast]
      have hu : s.remap.advance b slot = s.remap.setSlot b slot (some { entry with cursor := g + 1 }) := by
        rw [Remap.advance_of hentry, hcursor]
      simp only [State.setStack, State.setEngine_remap, State.setRemap_remap, State.setEngine_engine,
        State.setRemap_engine, hremap, hengine, hu]
      refine ⟨rfl, fun c i hne => ?_, fun _ => ⟨rfl, rfl, rfl, ?_, trivial⟩, fun h7 => by omega⟩
      · exact (Remap.setSlot_tables _ _ _ _ _ _).trans (if_neg fun ⟨hc, hi⟩ => hne (by rw [hc, hi]))
      · exact (Remap.setSlot_tables _ _ _ _ _ _).trans (if_pos ⟨rfl, rfl⟩)
    · have h7 : g = 7 := by omega
      rw [State.advanceMigrate_last hstack hlast]
      simp only [State.setStack, State.setEngine_remap, State.setRemap_remap, State.setEngine_engine,
        State.setRemap_engine, hremap, hengine]
      have hdone := Remap.complete_advanced r hentry
      refine ⟨hdone.threshold, fun c i hne => ?_, fun h => by omega,
        fun _ => ⟨?_, ?_, hdone.queuedOrder, hdone.spare, trivial⟩⟩
      · exact (hdone.tables c i).trans (if_neg fun ⟨hc, hi⟩ => hne (by rw [hc, hi]))
      · rw [hdone.tables, if_pos ⟨rfl, rfl⟩, hcursor, h7]
      · rw [hdone.suspects]
        refine List.filter_congr fun e _ => ?_
        rw [SuspectEntry.names, decide_not]

end Sys2Proof.Machine

/-! # The suspect list: reports, CLEAR_SUSPECTS and RETIRE (R73 to R79) -/

namespace Sys2Proof.Machine

/-! ## The entry of a row in its place -/

/-- No two entries of the list name one row (R72). -/
def OneEntryARow (l : List SuspectEntry) : Prop :=
  l.Pairwise fun x y => ¬ (x.bank = y.bank ∧ x.logicalRow = y.logicalRow)

section
variable {u : Remap} {b : Bank} {r : LogicalRow} {pre post : List SuspectEntry} {e : SuspectEntry}

/-- The entries before and after that of a row name other rows. -/
theorem OneEntryARow.others (h : OneEntryARow (pre ++ e :: post)) (he : e.bank = b ∧ e.logicalRow = r)
    {x : SuspectEntry} (hx : x ∈ pre ∨ x ∈ post) : ¬ x.names b r = true := by
  obtain ⟨-, hafter, hbefore⟩ := List.pairwise_append.1 h
  rw [SuspectEntry.names_iff]
  rintro ⟨hb, hr⟩
  obtain hx | hx := hx
  · exact hbefore x hx e List.mem_cons_self ⟨hb.trans he.1.symm, hr.trans he.2.symm⟩
  · exact (List.pairwise_cons.1 hafter).1 x hx ⟨he.1.trans hb.symm, he.2.trans hr.symm⟩

theorem Remap.suspect_split (h : OneEntryARow u.suspects) (hu : u.suspects = pre ++ e :: post)
    (he : e.bank = b ∧ e.logicalRow = r) : u.suspect b r = some e := by
  rw [hu] at h
  refine List.find?_eq_some_iff_append.2 ⟨SuspectEntry.names_iff.2 he, pre, post, hu, fun x hx => ?_⟩
  simpa using h.others he (.inl hx)

/-- A change of a row's entry changes it in its place and no other. -/
theorem Remap.updateSuspect_split (h : OneEntryARow u.suspects) (hu : u.suspects = pre ++ e :: post)
    (he : e.bank = b ∧ e.logicalRow = r) (f : SuspectEntry → SuspectEntry) :
    (u.updateSuspect b r f).suspects = pre ++ f e :: post := by
  rw [hu] at h
  have hkept {l : List SuspectEntry} (hl : ∀ x ∈ l, ¬ x.names b r = true) :
      l.map (fun x => if x.names b r then f x else x) = l :=
    (List.map_congr_left fun x hx => if_neg (hl x hx)).trans (List.map_id' l)
  simp only [Remap.updateSuspect, hu, List.map_append, List.map_cons, if_pos (SuspectEntry.names_iff.2 he),
    hkept fun x hx => h.others he (.inl hx), hkept fun x hx => h.others he (.inr hx)]

theorem Remap.queueSuspect_split (h : OneEntryARow u.suspects) (hu : u.suspects = pre ++ e :: post)
    (he : e.bank = b ∧ e.logicalRow = r) (now : DeviceTime) (f : SuspectEntry → SuspectEntry) :
    u.queueSuspect b r now f =
      { u with suspects := pre ++ (f e).queue now :: post, queuedOrder := u.queuedOrder ++ [(b, r)] } := by
  rw [← Remap.updateSuspect_split h hu he fun x => (f x).queue now]
  rfl

theorem Remap.suspect_unlisted (h : ∀ e ∈ u.suspects, ¬ (e.bank = b ∧ e.logicalRow = r)) : u.suspect b r = none :=
  List.find?_eq_none.2 fun e he g => h e he (SuspectEntry.names_iff.1 g)

/-- A row added, QUEUED or NORMAL. -/
theorem Remap.addSuspect_if (u : Remap) (b : Bank) (r : LogicalRow) (n : Nat) (now : DeviceTime) (queues : Prop)
    [Decidable queues] :
    u.addSuspect b r n (if queues then some now else none) =
      { u with
        suspects := u.suspects ++
          [{ bank := b, logicalRow := r, tally := n, state := if queues then .queued else .normal
             queuedAt := if queues then some now else none }]
        queuedOrder := if queues then u.queuedOrder ++ [(b, r)] else u.queuedOrder } := by
  by_cases h : queues <;> simp [Remap.addSuspect, h]

end

/-! ## The report of an outcome (R73, R74, R75) -/

section
variable {s : State} {b : Bank} {r : LogicalRow} {o : DecodeOutcome} {e : SuspectEntry} {v : Remap}

theorem State.reportSuspect_quiet (h : o = .clean ∨ o = .poisoned ∨ s.remap.isMigrating b r = true) :
    s.reportSuspect b r o = s := by
  unfold State.reportSuspect
  split
  next => rfl
  next hm =>
    obtain rfl | rfl | h := h
    · rfl
    · rfl
    · exact absurd h hm

theorem State.reportSuspect_corrected (hm : s.remap.isMigrating b r = false) :
    s.reportSuspect b r .corrected = s.setRemap (s.remap.tallyCe b r s.clock.deviceTime) :=
  if_neg (by simp [hm])

theorem State.reportSuspect_uncorrectable (hm : s.remap.isMigrating b r = false) :
    s.reportSuspect b r .uncorrectable = s.setRemap (s.remap.tallyUe b r s.clock.deviceTime) :=
  if_neg (by simp [hm])

theorem State.reportSuspect_threshold (s : State) (b : Bank) (r : LogicalRow) (o : DecodeOutcome) :
    (s.reportSuspect b r o).remap.threshold = s.remap.threshold := by
  unfold State.reportSuspect
  split
  · rfl
  · cases o with
    | corrected => exact Remap.tallyCe_threshold _ _ _ _
    | uncorrectable => exact Remap.tallyUe_threshold _ _ _ _
    | _ => rfl

/-- The tally of a NORMAL entry that an outcome makes QUEUED: raised by a CORRECTED (R74), the threshold after an
UNCORRECTABLE (R75). -/
def SuspectEntry.queuedTally (e : SuspectEntry) (o : DecodeOutcome) (threshold : Nat) : SuspectEntry :=
  { e with tally := if o = .uncorrectable then threshold else min 15 (e.tally + 1) }

/-- A NORMAL entry at or above the threshold, or after an UNCORRECTABLE, is queued. -/
theorem State.reportSuspect_queues (hm : s.remap.isMigrating b r = false) (ho : o = .corrected ∨ o = .uncorrectable)
    (he : s.remap.suspect b r = some e) (hn : e.state = .normal)
    (hq : o = .uncorrectable ∨ s.remap.threshold ≤ min 15 (e.tally + 1)) :
    s.reportSuspect b r o =
      s.setRemap (s.remap.queueSuspect b r s.clock.deviceTime fun x => x.queuedTally o s.remap.threshold) := by
  obtain rfl | rfl := ho
  · have hat : s.remap.threshold ≤ e.tallied.tally := hq.resolve_left (by decide)
    rw [State.reportSuspect_corrected hm, Remap.tallyCe, he]
    exact congrArg _ (if_pos ⟨hn, hat⟩)
  · rw [State.reportSuspect_uncorrectable hm, Remap.tallyUe, he]
    exact congrArg _ (if_pos hn)

/-- The tally of any other entry rises. -/
theorem State.reportSuspect_tallies (hm : s.remap.isMigrating b r = false) (ho : o = .corrected ∨ o = .uncorrectable)
    (he : s.remap.suspect b r = some e)
    (hq : ¬ (e.state = .normal ∧ (o = .uncorrectable ∨ s.remap.threshold ≤ min 15 (e.tally + 1)))) :
    s.reportSuspect b r o = s.setRemap (s.remap.updateSuspect b r SuspectEntry.tallied) := by
  obtain rfl | rfl := ho
  · rw [State.reportSuspect_corrected hm, Remap.tallyCe, he]
    exact congrArg _ (if_neg fun ⟨hn, hat⟩ => hq ⟨hn, .inr hat⟩)
  · rw [State.reportSuspect_uncorrectable hm, Remap.tallyUe, he]
    exact congrArg _ (if_neg fun hn => hq ⟨hn, .inl rfl⟩)

/-- A row that is not listed is added where there is room. -/
theorem State.reportSuspect_adds (hm : s.remap.isMigrating b r = false) (ho : o = .corrected ∨ o = .uncorrectable)
    (hn : s.remap.suspect b r = none) (hv : s.remap.room = some v) :
    s.reportSuspect b r o =
      s.setRemap (v.addSuspect b r (if o = .uncorrectable then s.remap.threshold else 1)
        (if o = .uncorrectable ∨ s.remap.threshold ≤ 1 then some s.clock.deviceTime else none)) := by
  obtain rfl | rfl := ho
  · rw [State.reportSuspect_corrected hm]
    simp [Remap.tallyCe, hn, hv]
  · rw [State.reportSuspect_uncorrectable hm]
    simp [Remap.tallyUe, hn, hv]

theorem State.reportSuspect_full (hm : s.remap.isMigrating b r = false) (ho : o = .corrected ∨ o = .uncorrectable)
    (hn : s.remap.suspect b r = none) (hv : s.remap.room = none) : s.reportSuspect b r o = s := by
  obtain rfl | rfl := ho
  · rw [State.reportSuspect_corrected hm, Remap.tallyCe, hn, hv]
    rfl
  · rw [State.reportSuspect_uncorrectable hm, Remap.tallyUe, hn, hv]
    rfl

end

/-- Settles O39: a row listed, in its place in the list, and a row not listed, by the room there is. -/
theorem suspectListReports : Obligations.SuspectListReports := by
  intro s b r o t now names
  have htables := s.reportSuspect_tables b r o
  refine ⟨s.reportSuspect_same b r o, htables.1, htables.2, s.reportSuspect_threshold b r o,
    State.reportSuspect_quiet, fun hm ho hs => ⟨fun pre e post hsplit he => ?listed, fun hnone => ?unlisted⟩⟩
  case listed =>
    have hfound := Remap.suspect_split hs.1 hsplit he
    intro tally queues
    refine ⟨fun hq => ?_, fun hq => ?_⟩
    · have ht : t.remap = _ := congrArg State.remap (State.reportSuspect_queues hm ho hfound hq.1 hq.2)
      rw [ht, State.setRemap_remap, Remap.queueSuspect_split hs.1 hsplit he]
      exact ⟨rfl, rfl⟩
    · have ht : t.remap = _ := congrArg State.remap (State.reportSuspect_tallies hm ho hfound hq)
      rw [ht, State.setRemap_remap, Remap.updateSuspect_split hs.1 hsplit he]
      exact ⟨rfl, rfl⟩
  case unlisted =>
    have hfound := Remap.suspect_unlisted hnone
    intro queues added order
    have hadd {v : Remap} (hv : s.remap.room = some v) :
        t.remap.suspects = v.suspects ++ [added] ∧
          t.remap.queuedOrder = if queues then v.queuedOrder ++ [(b, r)] else v.queuedOrder := by
      have ht : t.remap = _ := congrArg State.remap (State.reportSuspect_adds hm ho hfound hv)
      rw [ht, State.setRemap_remap, Remap.addSuspect_if]
      exact ⟨rfl, rfl⟩
    refine ⟨fun hroom => hadd (Remap.room_free hroom), fun pre e post hfull hsplit he hpre hpost => ?_,
      fun hfull hnormal => State.reportSuspect_full hm ho hfound (Remap.room_none hfull hnormal)⟩
    exact hadd (Remap.room_evicts hfull hsplit he hpre hpost)

/-! ## CLEAR_SUSPECTS (R79) -/

theorem State.clearSuspects_exec {s : State} (hp : s.powered = true) :
    exec .clearSuspects s =
      .next ((((s.linkAt 3).commandNoted 5).setRemap s.remap.clearSuspects).setResult .done) :=
  (exec_on hp _).trans (congrArg _ (s.linkWrite_command .clearSuspects))

/-- Settles O45: what the filter keeps is what is neither NORMAL nor UNREPAIRABLE. -/
theorem clearSuspectsKeepsQueued : Obligations.ClearSuspectsKeepsQueued := by
  intro s hp
  have hkept (e : SuspectEntry) : e ∈ s.remap.clearSuspects.suspects ↔
      e ∈ s.remap.suspects ∧ e.state ≠ .normal ∧ e.state ≠ .unrepairable := by
    have hqueued : e.state = .queued ↔ e.state ≠ .normal ∧ e.state ≠ .unrepairable := by cases e.state <;> simp
    simp only [Remap.clearSuspects, List.mem_filter, decide_eq_true_eq, hqueued]
  refine ⟨_, State.clearSuspects_exec hp, ?_, rfl, rfl, hkept, rfl⟩
  exact ((((s.linkAt_same 3).trans (State.commandNoted_same _ 5)).trans (State.setRemap_same _ _)).trans
    (State.setResult_same _ _)).mono (by decide)

/-! ## RETIRE (R78) -/

theorem State.retire_exec {s : State} (hp : s.powered = true) :
    exec .retire s =
      .next (((s.linkAt 3).commandNoted 6).commandRetire.2.setResult
        ((s.linkAt 3).commandNoted 6).commandRetire.1) :=
  (exec_on hp _).trans (congrArg _ (s.linkWrite_command .retire))

section
variable {s : State} {e : SuspectEntry} {u : Remap}

theorem State.commandRetire_unfilled (h : s.fillMap.marked s.link.retireBank s.link.retireRow = false) :
    s.commandRetire = (.notFilled, s) := if_pos h

theorem State.commandRetire_already (h : s.fillMap.marked s.link.retireBank s.link.retireRow = true)
    (he : s.remap.suspect s.link.retireBank s.link.retireRow = some e) (hq : e.state = .queued) :
    s.commandRetire = (.already, s) := by
  simp [State.commandRetire, h, he, hq]

theorem State.commandRetire_queues (h : s.fillMap.marked s.link.retireBank s.link.retireRow = true)
    (he : s.remap.suspect s.link.retireBank s.link.retireRow = some e) (hq : e.state ≠ .queued) :
    s.commandRetire =
      (.done, (s.setRemap
        (s.remap.queueSuspect s.link.retireBank s.link.retireRow s.clock.deviceTime id)).engineRun) := by
  simp [State.commandRetire, h, he, hq]

theorem State.commandRetire_adds (h : s.fillMap.marked s.link.retireBank s.link.retireRow = true)
    (hn : s.remap.suspect s.link.retireBank s.link.retireRow = none) (hu : s.remap.room = some u) :
    s.commandRetire =
      (.done, (s.setRemap
        (u.addSuspect s.link.retireBank s.link.retireRow 1 (some s.clock.deviceTime))).engineRun) := by
  simp [State.commandRetire, h, hn, hu]

theorem State.commandRetire_full (h : s.fillMap.marked s.link.retireBank s.link.retireRow = true)
    (hn : s.remap.suspect s.link.retireBank s.link.retireRow = none) (hu : s.remap.room = none) :
    s.commandRetire = (.full, s) := by
  simp [State.commandRetire, h, hn, hu]

end

/-- Settles O46: one clause of R78 after another, each by the judgement it comes to. -/
theorem retireIsJudgedInOrder : Obligations.RetireIsJudgedInOrder := by
  intro s hp hs b r names filled v refused taken added
  have hjudged {result : ResultCode} {t : State} (h : v.commandRetire = (result, t)) :
      exec .retire s = .next (t.setResult result) := by
    rw [State.retire_exec hp]
    change Host.Outcome.next (v.commandRetire.2.setResult v.commandRetire.1) = _
    rw [h]
  refine ⟨fun hf => hjudged (State.commandRetire_unfilled (s := v) hf), fun hf => ⟨fun hqueued => ?already,
    fun pre e post hsplit he hq => ?queues, fun hnone => ?unlisted⟩⟩
  case already =>
    obtain ⟨e, hmem, he, hq⟩ := hqueued
    obtain ⟨pre, post, hsplit⟩ := List.append_of_mem hmem
    exact hjudged (State.commandRetire_already (s := v) hf (Remap.suspect_split hs.1 hsplit he) hq)
  case queues =>
    have hqueue := Remap.queueSuspect_split hs.1 hsplit he s.clock.deviceTime id
    have hretire := hjudged (State.commandRetire_queues (s := v) hf (Remap.suspect_split hs.1 hsplit he) hq)
    exact hretire.trans (congrArg (fun u => Host.Outcome.next ((v.setRemap u).engineRun.setResult .done)) hqueue)
  case unlisted =>
    have hfound : v.remap.suspect b r = none := Remap.suspect_unlisted hnone
    exact ⟨fun hroom => hjudged (State.commandRetire_adds (s := v) hf hfound (Remap.room_free hroom)),
      fun pre e post hfull hsplit he hpre hpost =>
        hjudged (State.commandRetire_adds (s := v) hf hfound (Remap.room_evicts hfull hsplit he hpre hpost)),
      fun hfull hnormal => hjudged (State.commandRetire_full (s := v) hf hfound (Remap.room_none hfull hnormal))⟩

end Sys2Proof.Machine

/-! # The completion of a scrub step (R29, R105, R106, R107) -/

namespace Sys2Proof.Machine

/-! ## The words written back (R29, R105) -/

theorem scrubWriteBack_corrected {d : Decoded} (h : d.outcome = .corrected) :
    scrubWriteBack d = some (.valid d.data) := by
  unfold scrubWriteBack
  rw [h]

theorem scrubWriteBack_uncorrectable {d : Decoded} (h : d.outcome = .uncorrectable) :
    scrubWriteBack d = some (.poisoned d.data) := by
  unfold scrubWriteBack
  rw [h]

theorem outcome_of_scrubWriteBack {d : Decoded} {v : StoredWord} (h : scrubWriteBack d = some v) :
    d.outcome = .corrected ∨ d.outcome = .uncorrectable := by
  unfold scrubWriteBack at h
  cases ho : d.outcome with
  | clean => rw [ho] at h; cases h
  | corrected => exact .inl rfl
  | poisoned => rw [ho] at h; cases h
  | uncorrectable => exact .inr rfl

theorem mem_scrubWrites {s : State} {b : Bank} {p : PhysicalRow} {g : Nat} {w : WordInRow} {v : StoredWord} :
    (w, v) ∈ scrubWrites (s.groupDecodes b p g) ↔
      w ∈ groupWords g ∧ scrubWriteBack (s.word b p w).decode = some v := by
  simp [scrubWrites, State.groupDecodes]

/-- A word is written back only if its decode is CORRECTED or UNCORRECTABLE. -/
theorem outcome_of_mem_scrubWrites {s : State} {b : Bank} {p : PhysicalRow} {g : Nat} {w : WordInRow}
    (h : w ∈ (scrubWrites (s.groupDecodes b p g)).map Prod.fst) :
    w ∈ groupWords g ∧
      ((s.word b p w).decode.outcome = .corrected ∨ (s.word b p w).decode.outcome = .uncorrectable) := by
  obtain ⟨⟨_, v⟩, hmem, rfl⟩ := List.mem_map.1 h
  obtain ⟨hw, hv⟩ := mem_scrubWrites.1 hmem
  exact ⟨hw, outcome_of_scrubWriteBack hv⟩

/-- What is written back keeps the order of the words decoded, some of them left out. -/
theorem scrubWrites_words_sublist (ds : List (WordInRow × Decoded)) :
    ((scrubWrites ds).map Prod.fst).Sublist (ds.map Prod.fst) := by
  induction ds with
  | nil => exact .slnil
  | cons d ds ih =>
    unfold scrubWrites at ih ⊢
    cases hd : scrubWriteBack d.2 with
    | none => simpa [hd] using ih.cons d.1
    | some v => simpa [hd] using ih

theorem scrubWrites_words_nodup (s : State) (b : Bank) (p : PhysicalRow) {g : Nat} (hg : g < 8) :
    ((scrubWrites (s.groupDecodes b p g)).map Prod.fst).Nodup := by
  have hwords : (s.groupDecodes b p g).map Prod.fst = groupWords g := by
    simp [State.groupDecodes, Function.comp_def]
  exact (hwords ▸ groupWords_nodup hg).sublist (scrubWrites_words_sublist _)

theorem countCorrected_groupDecodes (s : State) (b : Bank) (p : PhysicalRow) (g : Nat) :
    countCorrected (s.groupDecodes b p g) =
      (groupWords g).countP fun w => decide ((s.word b p w).decode.outcome = .corrected) :=
  List.countP_map

/-! ## The job advances (R106, R107) -/

section
variable {s : State} {b : Bank} {r : LogicalRow} {g c : Nat} {rest : List Job}

theorem State.advanceScrub_next (hst : s.engine.stack = .scrub b r g c :: rest) (hg : g + 1 < 8) (n : Nat) :
    s.advanceScrub n = s.setStack (.scrub b r (g + 1) (c + n) :: rest) := by
  unfold State.advanceScrub
  rw [hst]
  exact if_pos hg

theorem State.advanceScrub_last (hst : s.engine.stack = .scrub b r g c :: rest) (hg : ¬ g + 1 < 8) (n : Nat) :
    s.advanceScrub n = (s.setStack rest).scrubRowDone (c + n) := by
  unfold State.advanceScrub
  rw [hst]
  exact if_neg hg

end

theorem State.serveLag_scrubber (s : State) :
    s.serveLag.scrubber = { s.scrubber with lag := s.scrubber.lag - 1 } := by
  unfold State.serveLag
  split
  next => rfl
  next h =>
    have hlag : s.scrubber.lag - 1 = s.scrubber.lag := by omega
    rw [hlag]

theorem State.serveLag_engine (s : State) :
    s.serveLag.engine =
      { s.engine with scrubPending := if 0 < s.scrubber.lag then true else s.engine.scrubPending } := by
  unfold State.serveLag
  split <;> rfl

theorem State.scrubRowDone_scrubber (s : State) (n : Nat) :
    (s.scrubRowDone n).scrubber =
      { s.scrubber with
        cursor := s.scrubber.cursor + 1
        passCount := if s.scrubber.cursor.val = 131071 then s.scrubber.passCount + 1 else s.scrubber.passCount
        lastCorrections := n, lag := s.scrubber.lag - 1 } := by
  unfold State.scrubRowDone
  rw [State.serveLag_scrubber]
  simp [nextIndex, Scrubber.moveTo]

theorem State.scrubRowDone_engine (s : State) (n : Nat) :
    (s.scrubRowDone n).engine =
      { s.engine with scrubPending := if 0 < s.scrubber.lag then true else s.engine.scrubPending } :=
  State.serveLag_engine _

/-! ## The completion -/

theorem SameReports.reportAll {s t : State} (h : SameReports s t) (source : ErrorSource) (b : Bank) (r : LogicalRow)
    (p : PhysicalRow) (ds : List (WordInRow × Decoded)) :
    SameReports (s.reportAll source b r p ds) (t.reportAll source b r p ds) := by
  unfold State.reportAll
  induction ds generalizing s t with
  | nil => exact h
  | cons d ds ih => exact ih (h.reportWord _ _ _ _ _ _)

/-- `s` after a scrub step's words have been written back and its outcomes reported, before the job advances. -/
def State.scrubReported (s : State) (b : Bank) (r : LogicalRow) (p : PhysicalRow) (rows : List PhysicalRow)
    (g : Nat) : State :=
  ((s.release b).writeRows b rows (scrubWrites (s.groupDecodes b p g))).reportAll .scrub b r p (s.groupDecodes b p g)

section
variable (s : State) (b : Bank) (r : LogicalRow) (p : PhysicalRow) (rows : List PhysicalRow) (g : Nat)

theorem State.scrubReported_same :
    SameBut [.array, .remap, .errors, .alerts] (s.release b) (s.scrubReported b r p rows g) :=
  (State.writeRows_same _ _ _ _).trans (State.reportAll_same _ _ _ _ _ _)

/-- The reports read nothing that the release and the writing back have changed. -/
theorem State.scrubReported_reports :
    SameReports (s.reportAll .scrub b r p (s.groupDecodes b p g)) (s.scrubReported b r p rows g) :=
  (((s.release_same b).trans (State.writeRows_same _ b rows _)).sameReports (by decide) (by decide) (by decide)
    (by decide)).reportAll _ _ _ _ _

theorem State.word_scrubReported (c : Bank) (row : PhysicalRow) (w : WordInRow) :
    (s.scrubReported b r p rows g).word c row w =
      ((s.release b).writeRows b rows (scrubWrites (s.groupDecodes b p g))).word c row w :=
  (State.reportAll_same _ _ _ _ _ _).word c row w (by decide)

end

section
variable {s : State} {b : Bank} {p : PhysicalRow} {rows : List PhysicalRow} {g : Nat}

theorem State.word_scrubReported_kept (r : LogicalRow) (hg : g < 8) {c : Bank} {row : PhysicalRow} {w : WordInRow}
    (h : ¬ (c = b ∧ row ∈ rows ∧ w.val / 16 = g ∧
      ((s.word b p w).decode.outcome = .corrected ∨ (s.word b p w).decode.outcome = .uncorrectable))) :
    (s.scrubReported b r p rows g).word c row w = s.word c row w := by
  rw [State.word_scrubReported]
  refine (State.word_writeRows_ne _ _ _ fun ⟨hc, hrow, hmem⟩ => h ?_).trans
    ((s.release_same b).word c row w (by decide))
  obtain ⟨hw, ho⟩ := outcome_of_mem_scrubWrites hmem
  exact ⟨hc, hrow, (mem_groupWords hg w).1 hw, ho⟩

theorem State.word_scrubReported_written (r : LogicalRow) (hmem : s.memoryOk) (hg : g < 8) {row : PhysicalRow}
    (hrow : row ∈ rows) {w : WordInRow} (hw : w.val / 16 = g) {v : StoredWord}
    (hv : scrubWriteBack (s.word b p w).decode = some v) : (s.scrubReported b r p rows g).word b row w = v := by
  rw [State.word_scrubReported]
  exact State.word_writeRows_mem _ b rows _ (scrubWrites_words_nodup s b p hg)
    (mem_scrubWrites.2 ⟨(mem_groupWords hg w).2 hw, hv⟩) hrow (State.release_memoryOk hmem b)

end

theorem State.scrubGroupEnds_finishing {s : State} {op : Operation} {b : Bank} {r : LogicalRow} {p q : PhysicalRow}
    {more : List PhysicalRow} {g : Nat} (h : s.finishing op b q) (hw : op.work = .scrubStep g)
    (hl : op.logicalRow = some r) (hr : op.rows = p :: more) :
    s.scrubGroupEnds =
      ((s.scrubReported b r p op.rows g).advanceScrub
        (countCorrected (s.groupDecodes b p g))).engineRun.furtherCloseAll := by
  unfold State.scrubGroupEnds
  rw [State.finishing_ready h]
  dsimp only
  rw [hw, hl, hr]
  rfl

/-- Settles O35: the words written back and the reports, and then the advance short of the eighth step and at it. -/
theorem scrubStepCompleteWritesBack : Obligations.ScrubStepCompleteWritesBack := by
  intro s op b r p q more g n jb jr rest hmem hf hw hl hrows hst hg old ds found
  have hreported := s.scrubReported_same b r p op.rows g
  have hreports := s.scrubReported_reports b r p op.rows g
  have hscrubber : (s.scrubReported b r p op.rows g).scrubber = s.scrubber := hreported.scrubber (by decide)
  have hengine : (s.scrubReported b r p op.rows g).engine = s.engine := hreported.engine (by decide)
  have hstack : (s.scrubReported b r p op.rows g).engine.stack = .scrub jb jr g n :: rest := hengine ▸ hst
  have hadvance := (s.scrubReported b r p op.rows g).advanceScrub_same found
  have hwritten {row : PhysicalRow} {w : WordInRow} {v : StoredWord} (hrow : row ∈ op.rows) (hin : w.val / 16 = g)
      (hv : scrubWriteBack (old w) = some v) :
      ((s.scrubReported b r p op.rows g).advanceScrub found).word b row w = v :=
    (hadvance.word b row w (by decide)).trans (State.word_scrubReported_written r hmem hg hrow hin hv)
  have hends := State.scrubGroupEnds_finishing hf hw hl hrows
  rw [countCorrected_groupDecodes] at hends
  refine ⟨(s.scrubReported b r p op.rows g).advanceScrub found, (exec_on hf.1 _).trans (congrArg _ hends),
    State.release_then ((hreported.trans hadvance).mono (by decide)) (by decide) (by decide),
    fun c row w hout => (hadvance.word c row w (by decide)).trans (State.word_scrubReported_kept r hg hout),
    fun row hrow w hin => ⟨fun ho => hwritten hrow hin (scrubWriteBack_corrected ho),
      fun ho => hwritten hrow hin (scrubWriteBack_uncorrectable ho)⟩,
    (hadvance.errors (by decide)).trans hreports.errors, (hadvance.remap (by decide)).trans hreports.remap,
    (hadvance.alerts (by decide)).trans hreports.alerts, fun hnext => ?next, fun hlast => ?last⟩
  case next =>
    rw [State.advanceScrub_next hstack (by omega)]
    simp only [State.setStack, State.setEngine_scrubber, State.setEngine_engine, hscrubber, hengine, and_self]
  case last =>
    rw [State.advanceScrub_last hstack (by omega), State.scrubRowDone_scrubber, State.scrubRowDone_engine]
    simp only [State.setStack, State.setEngine_scrubber, State.setEngine_engine, hscrubber, hengine]
    exact ⟨trivial, Fin.val_add s.scrubber.cursor 1, trivial, trivial⟩

end Sys2Proof.Machine

/-! # What one decoded word reports (R89, R106, R134, R152) -/

namespace Sys2Proof.Machine

/-! ## The words of an operation, one after another -/

section
variable (s : State) (source : ErrorSource) (b : Bank) (r : LogicalRow) (p : PhysicalRow) (line : Line)

theorem State.reportAll_cons (w : WordInRow) (d : Decoded) (rest : List (WordInRow × Decoded)) :
    s.reportAll source b r p ((w, d) :: rest) =
      (s.reportWord source b r p w d.outcome).reportAll source b r p rest := rfl

theorem State.reportMigration_cons (w : WordInRow) (d : Decoded) (rest : List (WordInRow × Decoded)) :
    s.reportMigration b p ((w, d) :: rest) = (s.reportMigrated b p w d.outcome).reportMigration b p rest := rfl

theorem State.reportRead_cons (x : ReadWord) (d : Decoded) (rest : List (ReadWord × Decoded)) :
    s.reportRead line p ((x, d) :: rest) =
      (s.reportWord (if x.merged then .readMerge else .read) (lineBank line) (lineRow line) p (lineWord line x.word)
        d.outcome).reportRead line p rest := rfl

/-! ## One word that reports nothing -/

theorem State.reportWord_quiet (w : WordInRow) {o : DecodeOutcome} (h : o = .clean ∨ o = .poisoned) :
    s.reportWord source b r p w o = s := by
  obtain rfl | rfl := h <;> rfl

theorem State.reportMigrated_quiet (w : WordInRow) {o : DecodeOutcome} (h : o = .clean ∨ o = .poisoned) :
    s.reportMigrated b p w o = s := by
  obtain rfl | rfl := h <;> rfl

end

/-- Settles O40: the words of each operation in their order, and then one word outcome by outcome. -/
theorem wordOutcomeReports : Obligations.WordOutcomeReports := by
  refine ⟨fun s source b r p line => ⟨rfl, rfl, rfl, fun w d rest => ?words, fun x d rest => ?read⟩,
    fun s source b r p w => ⟨fun o ho => ?quiet, ⟨_, rfl, rfl⟩, ⟨_, rfl, ?uncorrectable⟩, rfl, ⟨_, rfl, ?migrated⟩⟩⟩
  case words => exact ⟨s.reportAll_cons source b r p w d rest, s.reportMigration_cons b p w d rest⟩
  case read =>
    intro reported
    refine ⟨fun hm => ?_, fun hm => ?_⟩
    · rw [State.reportRead_cons, hm]
      rfl
    · rw [State.reportRead_cons, hm]
      rfl
  case quiet => exact ⟨s.reportWord_quiet source b r p w ho, s.reportMigrated_quiet b p w ho⟩
  case uncorrectable =>
    let t := s.report { kind := .ue, source, bank := b, physicalRow := p, word := some w }
    have hsuspect := t.reportSuspect_same b r .uncorrectable
    have hraise := (t.reportSuspect b r .uncorrectable).raise_same .ue
    refine ⟨_, rfl, hraise.remap, (hraise.errors (by decide)).trans (hsuspect.errors (by decide)), ?_,
      s.reportWord_same source b r p w .uncorrectable⟩
    have halerts : (t.reportSuspect b r .uncorrectable).alerts = t.alerts := hsuspect.alerts (by decide)
    change ((t.reportSuspect b r .uncorrectable).raise .ue).alerts = _
    unfold State.raise
    rw [State.setAlerts_alerts, halerts]
    rfl
  case migrated => exact ⟨State.raise_same _ .ue, rfl⟩

end Sys2Proof.Machine

/-! # A write of SCRUB_STEP (R101) -/

namespace Sys2Proof.Machine

theorem effect_scrubStep (v : Byte) (s : State) :
    effect (.scrubStep v) s = (s.linkAt 10).settled ((s.linkAt 10).judgeScrubStep v) :=
  s.linkWrite_settled (i := 0x09) (judged := fun s => s.judgeScrubStep v) fun s => s.stop_scrubStep v

/-- `s` with the step timer stopped: no further expiry, no lag, SCRUB not pending. -/
def State.scrubStopped (s : State) : State :=
  (s.setScrubber { s.scrubber with step := 0, stepDue := none, lag := 0 }).setEngine
    { s.engine with scrubPending := false }

/-- `s` with the step timer started again at the new interval. -/
def State.scrubRestarted (s : State) (v : Byte) : State :=
  s.setScrubber { s.scrubber with step := v, stepDue := some (s.clock.now + scrubInterval v) }

theorem State.judgeScrubStep_zero (s : State) : s.judgeScrubStep 0 = some s.scrubStopped := rfl

theorem State.judgeScrubStep_pos (s : State) {v : Byte} (h : v ≠ 0) :
    s.judgeScrubStep v = some (s.scrubRestarted v) := if_neg h

/-- Settles O49: the timer stopped by 0, and started again by any other value. -/
theorem scrubStepStopsOrRestarts : Obligations.ScrubStepStopsOrRestarts := by
  intro v s hp
  rw [exec_on hp, effect_scrubStep]
  have hframe {t : State} (h : (s.linkAt 10).judgeScrubStep v = some t) :
      SameBut [.scrubber, .engine, .link] s (t.setResult .done) :=
    (((s.linkAt_same 10).trans (State.judgeScrubStep_same h)).trans (State.setResult_same _ _)).mono (by decide)
  by_cases hv : v = 0
  · subst hv
    have hjudged := (s.linkAt 10).judgeScrubStep_zero
    rw [hjudged]
    exact ⟨_, rfl, hframe hjudged, rfl, rfl, fun _ => ⟨rfl, rfl⟩, fun h => absurd rfl h⟩
  · have hjudged := (s.linkAt 10).judgeScrubStep_pos hv
    rw [hjudged]
    exact ⟨_, rfl, hframe hjudged, rfl, rfl, fun h => absurd h hv, fun _ => ⟨rfl, rfl⟩⟩

end Sys2Proof.Machine

/-! # Words zeroed, and the fill mark of a row (R113, R114, R116, R121) -/

namespace Sys2Proof.Machine

/-! ## The words zeroed -/

theorem zeroWords_words (ws : List WordInRow) : (zeroWords ws).map Prod.fst = ws := by
  simp [zeroWords, Function.comp_def]

theorem mem_zeroWords {ws : List WordInRow} {w : WordInRow} (h : w ∈ ws) : (w, StoredWord.valid 0) ∈ zeroWords ws :=
  List.mem_map_of_mem h

/-- `s` after a fill's words have been zeroed, before the row is marked or the job advances. -/
def State.zeroed (s : State) (b : Bank) (p : PhysicalRow) (ws : List WordInRow) : State :=
  (s.release b).writeWords b p (zeroWords ws)

theorem State.zeroed_same (s : State) (b : Bank) (p : PhysicalRow) (ws : List WordInRow) :
    SameBut [.array] (s.release b) (s.zeroed b p ws) := State.writeWords_same _ b p _

theorem State.word_zeroed_kept (s : State) {b c : Bank} {p row : PhysicalRow} {ws : List WordInRow} {w : WordInRow}
    (h : ¬ (c = b ∧ row = p ∧ w ∈ ws)) : (s.zeroed b p ws).word c row w = s.word c row w := by
  rw [← zeroWords_words ws] at h
  exact (State.word_writeWords_ne _ _ h).trans ((s.release_same b).word c row w (by decide))

theorem State.word_zeroed {s : State} (hs : s.memoryOk) (b : Bank) (p : PhysicalRow) {ws : List WordInRow}
    (hd : ws.Nodup) {w : WordInRow} (hw : w ∈ ws) : (s.zeroed b p ws).word b p w = .valid 0 :=
  State.word_writeWords_mem _ b p _ ((zeroWords_words ws).symm ▸ hd) (mem_zeroWords hw) (State.release_memoryOk hs b)

/-! ## The mark of a row -/

theorem getLsbD_withMark (marks : BitVec 131072) (i j : SweepIndex) :
    (marks ||| BitVec.twoPow 131072 i.val).getLsbD j.val = (decide (j = i) || marks.getLsbD j.val) := by
  have hbit : (BitVec.twoPow 131072 i.val).getLsbD j.val = decide (j = i) := by
    simp [Fin.ext_iff, eq_comm]
  rw [BitVec.getLsbD_or, hbit, Bool.or_comm]

section
variable {s : State} {i : SweepIndex}

theorem State.markRow_marked (h : s.fillMap.marks.getLsbD i.val = true) : s.markRow i = s := if_pos h

/-- The last clear mark set: fill done, with its alert (R114). -/
theorem State.markRow_last (hi : s.fillMap.marks.getLsbD i.val = false)
    (h : ∀ j : SweepIndex, j ≠ i → s.fillMap.marks.getLsbD j.val = true) :
    s.markRow i =
      (s.setFillMap { marks := s.fillMap.marks ||| BitVec.twoPow 131072 i.val, done := true }).raise .fillDone := by
  have hfull : s.fillMap.marks ||| BitVec.twoPow 131072 i.val = BitVec.allOnes 131072 :=
    (marks_full_iff _).2 fun j => by
      rw [getLsbD_withMark, Bool.or_eq_true, decide_eq_true_iff]
      exact or_iff_not_imp_left.2 (h j)
  exact (if_neg (Bool.eq_false_iff.1 hi)).trans (if_pos hfull)

/-- A mark set while another stays clear. -/
theorem State.markRow_open (hi : s.fillMap.marks.getLsbD i.val = false) {j : SweepIndex} (hne : j ≠ i)
    (hj : s.fillMap.marks.getLsbD j.val = false) :
    s.markRow i = s.setFillMap { s.fillMap with marks := s.fillMap.marks ||| BitVec.twoPow 131072 i.val } := by
  have hopen : ¬ s.fillMap.marks ||| BitVec.twoPow 131072 i.val = BitVec.allOnes 131072 := fun hfull => by
    have hset := (marks_full_iff _).1 hfull j
    rw [getLsbD_withMark, hj, Bool.or_false, decide_eq_true_iff] at hset
    exact hne hset
  exact (if_neg (Bool.eq_false_iff.1 hi)).trans (if_neg hopen)

/-- The mark of the row joins those that were set, and no mark is ever cleared (R113). -/
theorem State.markRow_marks (s : State) (i j : SweepIndex) :
    (s.markRow i).fillMap.marks.getLsbD j.val = (decide (j = i) || s.fillMap.marks.getLsbD j.val) := by
  cases hi : s.fillMap.marks.getLsbD i.val with
  | true =>
    rw [State.markRow_marked hi]
    by_cases hj : j = i
    · simp [hj, hi]
    · simp [hj]
  | false =>
    by_cases h : ∀ k : SweepIndex, k ≠ i → s.fillMap.marks.getLsbD k.val = true
    · rw [State.markRow_last hi h]
      exact getLsbD_withMark _ i j
    · push Not at h
      obtain ⟨k, hne, hk⟩ := h
      rw [State.markRow_open hi hne (Bool.eq_false_iff.2 hk)]
      exact getLsbD_withMark _ i j

/-- The marking of a row rests on the marks and the alerts alone. -/
theorem State.markRow_congr {t : State} (hf : t.fillMap = s.fillMap) (ha : t.alerts = s.alerts) (i : SweepIndex) :
    (t.markRow i).fillMap = (s.markRow i).fillMap ∧ (t.markRow i).alerts = (s.markRow i).alerts := by
  unfold State.markRow
  rw [hf]
  dsimp only
  split
  · exact ⟨hf, ha⟩
  · split
    · exact ⟨rfl, congrArg (fun a : Alerts => { a with causes := a.causes ||| Cause.fillDone.bit }) ha⟩
    · exact ⟨rfl, ha⟩

end

/-! ## ROW_FILL_COMPLETE -/

theorem mem_rowWords (w : WordInRow) : w ∈ rowWords := List.mem_finRange w

theorem rowWords_nodup : rowWords.Nodup := List.nodup_finRange 128

theorem State.rowFillEnds_finishing {s : State} {op : Operation} {b : Bank} {p : PhysicalRow} {line : Line}
    (h : s.finishing op b p) (hw : op.work = .rowFill line) (hr : op.rows = [p]) :
    s.rowFillEnds = ((s.zeroed b p rowWords).markRow (sweepIndex (lineBank line) (lineRow line))).engineRun := by
  unfold State.rowFillEnds
  rw [State.finishing_ready h]
  dsimp only
  rw [hw, hr]
  rfl

/-- Settles O33: the row zeroed, and then its mark, set before, the last clear one, or one of several. -/
theorem rowFillCompleteMarksRow : Obligations.RowFillCompleteMarksRow := by
  intro s op b p line hmem hf hw hrows i
  have hzeroed := s.zeroed_same b p rowWords
  have hmark := (s.zeroed b p rowWords).markRow_same i
  obtain ⟨hfill, halerts⟩ := State.markRow_congr (s := s) (hzeroed.fillMap (by decide)) (hzeroed.alerts (by decide)) i
  refine ⟨(s.zeroed b p rowWords).markRow i,
    (exec_on hf.1 _).trans (congrArg _ (State.rowFillEnds_finishing hf hw hrows)),
    State.release_then ((hzeroed.trans hmark).mono (by decide)) (by decide) (by decide), fun c row w hout => ?_,
    fun w => ?_, ?_⟩
  · exact (hmark.word c row w (by decide)).trans (s.word_zeroed_kept fun ⟨hc, hrow, _⟩ => hout ⟨hc, hrow⟩)
  · exact (hmark.word b p w (by decide)).trans (State.word_zeroed hmem b p rowWords_nodup (mem_rowWords w))
  · rw [hfill, halerts]
    refine ⟨s.markRow_marks i, fun hset => ?_, fun hclear => ⟨fun hlast => ?_, fun ⟨j, hne, hj⟩ => ?_⟩⟩
    · rw [State.markRow_marked hset]
      exact ⟨rfl, rfl⟩
    · rw [State.markRow_last hclear hlast]
      exact ⟨rfl, rfl⟩
    · rw [State.markRow_open hclear hne hj]
      exact ⟨rfl, rfl⟩

/-! ## FILL_STEP_COMPLETE -/

section
variable {s : State} {i : SweepIndex} {g : Nat} {rest : List Job}

theorem State.fillForward_next {j : SweepIndex} (hij : i < j) (hj : s.fillMap.marks.getLsbD j.val = false)
    (hbetween : ∀ k : SweepIndex, i < k → k < j → s.fillMap.marks.getLsbD k.val = true) :
    s.fillForward i rest = s.setStack (.fill j 0 :: rest) := by
  unfold State.fillForward
  rw [FillMap.nextClear_first hij hj hbetween]

theorem State.fillForward_done (h : ∀ j : SweepIndex, i < j → s.fillMap.marks.getLsbD j.val = true) :
    s.fillForward i rest = s.setStack rest := by
  unfold State.fillForward
  rw [FillMap.nextClear_none h]

theorem State.advanceFill_next (hst : s.engine.stack = .fill i g :: rest) (hg : g + 1 < 8) :
    s.advanceFill = s.setStack (.fill i (g + 1) :: rest) := by
  unfold State.advanceFill
  rw [hst]
  exact if_pos hg

theorem State.advanceFill_last (hst : s.engine.stack = .fill i g :: rest) (hg : ¬ g + 1 < 8) :
    s.advanceFill = (s.markRow i).fillForward i rest := by
  unfold State.advanceFill
  rw [hst]
  exact if_neg hg

/-- The marks ahead of the row marked are as they were. -/
theorem State.markRow_ahead {j : SweepIndex} (hij : i < j) :
    (s.markRow i).fillMap.marks.getLsbD j.val = s.fillMap.marks.getLsbD j.val := by
  rw [s.markRow_marks, decide_eq_false (ne_of_gt hij), Bool.false_or]

end

theorem State.fillStepEnds_finishing {s : State} {op : Operation} {b : Bank} {p : PhysicalRow} {g : Nat}
    (h : s.finishing op b p) (hw : op.work = .fillStep g) (hr : op.rows = [p]) :
    s.fillStepEnds = (s.zeroed b p (groupWords g)).advanceFill.engineRun.furtherCloseAll := by
  unfold State.fillStepEnds
  rw [State.finishing_ready h]
  dsimp only
  rw [hw, hr]
  rfl

/-- Settles O34: the group zeroed, and then the job's advance before the eighth group and at it. -/
theorem fillStepCompleteAdvances : Obligations.FillStepCompleteAdvances := by
  intro s op b p i g rest hmem hf hw hrows hst hg
  have hzeroed := s.zeroed_same b p (groupWords g)
  have hengine : (s.zeroed b p (groupWords g)).engine = s.engine := hzeroed.engine (by decide)
  have hmarks : (s.zeroed b p (groupWords g)).fillMap = s.fillMap := hzeroed.fillMap (by decide)
  have hcauses : (s.zeroed b p (groupWords g)).alerts = s.alerts := hzeroed.alerts (by decide)
  have hstack : (s.zeroed b p (groupWords g)).engine.stack = .fill i g :: rest :=
    (congrArg Engine.stack hengine).trans hst
  have hadvance := (s.zeroed b p (groupWords g)).advanceFill_same
  refine ⟨(s.zeroed b p (groupWords g)).advanceFill,
    (exec_on hf.1 _).trans (congrArg _ (State.fillStepEnds_finishing hf hw hrows)),
    State.release_then ((hzeroed.trans hadvance).mono (by decide)) (by decide) (by decide), fun c row w hout => ?other,
    fun w hin => ?zero, fun hnext => ?next, fun hlast => ?last⟩
  case other =>
    exact (hadvance.word c row w (by decide)).trans
      (s.word_zeroed_kept fun ⟨hc, hrow, hin⟩ => hout ⟨hc, hrow, (mem_groupWords hg w).1 hin⟩)
  case zero =>
    exact (hadvance.word b p w (by decide)).trans
      (State.word_zeroed hmem b p (groupWords_nodup hg) ((mem_groupWords hg w).2 hin))
  case next =>
    rw [State.advanceFill_next hstack (by omega)]
    simp only [State.setStack, State.setEngine_fillMap, State.setEngine_alerts, State.setEngine_engine, hmarks,
      hcauses, hengine, and_self]
  case last =>
    have hmark : ((s.zeroed b p (groupWords g)).markRow i).engine = s.engine :=
      ((State.markRow_same _ i).engine (by decide)).trans hengine
    have hforward := ((s.zeroed b p (groupWords g)).markRow i).fillForward_same i rest
    obtain ⟨hfill, halerts⟩ := State.markRow_congr hmarks hcauses i
    rw [State.advanceFill_last hstack (by omega), hforward.fillMap (by decide), hforward.alerts (by decide)]
    refine ⟨hfill, halerts, fun j => ?_, fun j hij hj hbetween => ?_, fun hfull => ?_⟩
    · rw [hfill]
      exact s.markRow_marks i j
    · rw [State.fillForward_next hij, State.setStack, State.setEngine_engine, hmark]
      · rw [hfill, State.markRow_ahead hij, hj]
      · intro k hik hkj
        rw [hfill, State.markRow_ahead hik, hbetween k hik hkj]
    · rw [State.fillForward_done, State.setStack, State.setEngine_engine, hmark]
      intro j hij
      rw [hfill, State.markRow_ahead hij, hfull j hij]

end Sys2Proof.Machine

/-! # The service of a head READ (R120, R150) -/

namespace Sys2Proof.Machine

/-! ## The words to read -/

theorem wordValid_ne_zero_iff (valid : BitVec 32) (k : Fin 4) :
    wordValid valid k ≠ 0 ↔ ∃ i, i / 8 = k.val ∧ valid.getLsbD i = true := by
  constructor
  · intro h
    by_contra hnone
    refine h (BitVec.eq_of_getLsbD_eq fun j hj => ?_)
    have hbit : ¬ valid.getLsbD (8 * k.val + j) = true := fun g => hnone ⟨8 * k.val + j, by omega, g⟩
    simp [wordValid, hj, hbit]
  · rintro ⟨i, hi, h⟩ hzero
    have hplace : 8 * k.val + i % 8 = i := by omega
    have hbit : (wordValid valid k).getLsbD (i % 8) = true := by
      simp [wordValid, hplace, h, Nat.mod_lt]
    rw [hzero] at hbit
    simp at hbit

theorem mem_wordsToRead {missing taken : BitVec 32} {x : ReadWord} :
    x ∈ wordsToRead missing taken ↔
      wordValid missing x.word ≠ 0 ∧ x.merged = decide (wordValid taken x.word ≠ 0) := by
  simp only [wordsToRead, List.mem_filterMap]
  constructor
  · rintro ⟨k, -, hk⟩
    split at hk
    · cases hk
    next hmissing =>
      obtain rfl := Option.some.inj hk
      exact ⟨hmissing, rfl⟩
  · rintro ⟨hmissing, hmerged⟩
    exact ⟨x.word, List.mem_finRange _, by rw [if_neg hmissing, ← hmerged]⟩

theorem exists_mem_wordsToRead {missing taken : BitVec 32} {k : Fin 4} :
    (∃ x ∈ wordsToRead missing taken, x.word = k) ↔ wordValid missing k ≠ 0 := by
  constructor
  · rintro ⟨x, hx, rfl⟩
    exact (mem_wordsToRead.1 hx).1
  · exact fun h => ⟨⟨k, decide (wordValid taken k ≠ 0)⟩, mem_wordsToRead.2 ⟨h, rfl⟩, rfl⟩

theorem wordsToRead_ascending (missing taken : BitVec 32) :
    (wordsToRead missing taken).Pairwise fun x y => x.word < y.word := by
  refine (List.pairwise_lt_finRange 4).filterMap _ fun k l hkl x hx y hy => ?_
  split at hx
  · cases hx
  · split at hy
    · cases hy
    · obtain rfl := Option.some.inj hx
      obtain rfl := Option.some.inj hy
      exact hkl

/-! ## The bytes taken and the bytes missing -/

theorem getLsbD_taken (a : BeatAddress) (n : BeatCount) (valid : BitVec 32) (i : Nat) :
    (neededBytes a n &&& valid).getLsbD i = true ↔ needsByte a n i ∧ valid.getLsbD i = true := by
  rw [BitVec.getLsbD_and, Bool.and_eq_true, getLsbD_neededBytes]

theorem needsByte_lt {a : BeatAddress} {n : BeatCount} {i : Nat} (h : needsByte a n i) : i < 32 :=
  BitVec.lt_of_getLsbD ((getLsbD_neededBytes a n i).2 h)

theorem getLsbD_missing (a : BeatAddress) (n : BeatCount) (valid : BitVec 32) (i : Nat) :
    (neededBytes a n &&& ~~~valid).getLsbD i = true ↔ needsByte a n i ∧ valid.getLsbD i = false := by
  rw [getLsbD_taken]
  refine and_congr_right fun h => ?_
  simp [needsByte_lt h]

theorem missing_eq_zero_iff (a : BeatAddress) (n : BeatCount) (valid : BitVec 32) :
    neededBytes a n &&& ~~~valid = 0 ↔ ∀ i, needsByte a n i → valid.getLsbD i = true := by
  constructor
  · intro hzero i hneeded
    by_contra hclear
    have hbit := (getLsbD_missing a n valid i).2 ⟨hneeded, Bool.eq_false_iff.2 hclear⟩
    rw [hzero] at hbit
    simp at hbit
  · intro hall
    refine BitVec.eq_of_getLsbD_eq fun i _ => (Bool.eq_false_iff.2 fun hbit => ?_).trans BitVec.getLsbD_zero.symm
    obtain ⟨hneeded, hclear⟩ := (getLsbD_missing a n valid i).1 hbit
    exact Bool.eq_false_iff.1 hclear (hall i hneeded)

/-- Bytes that a mask of whole bytes keeps; the others are zero. -/
theorem byteIn_masked (data : BitVec 256) (valid : BitVec 32) (i : Nat) :
    byteIn (data &&& spread 32 valid) i = if valid.getLsbD i then byteIn data i else 0 := by
  have hbit (m : Nat) (hm : m < 8) :
      (data &&& spread 32 valid).getLsbD (8 * i + m) = (data.getLsbD (8 * i + m) && valid.getLsbD i) := by
    have hbyte : (8 * i + m) / 8 = i := by omega
    rw [BitVec.getLsbD_and, getLsbD_spread, hbyte]
  split
  next h => exact byteIn_eq fun m hm => by rw [hbit m hm, h, Bool.and_true]
  next h => exact byteIn_zero fun m hm => by rw [hbit m hm, Bool.eq_false_iff.2 h, Bool.and_false]

/-! ## The service -/

/-- The bytes a READ needs that the buffer offers for its line (R150). -/
def State.takenFor (s : State) (a : BeatAddress) (n : BeatCount) : BitVec 32 :=
  neededBytes a n &&& (s.buffer.offered (beatLine a)).valid

/-- The bytes a READ needs that the buffer does not offer (R150). -/
def State.missingFor (s : State) (a : BeatAddress) (n : BeatCount) : BitVec 32 :=
  neededBytes a n &&& ~~~(s.buffer.offered (beatLine a)).valid

/-- The bytes taken from the buffer, each in its place in the line, and zero elsewhere (R120, R150). -/
def State.bytesFor (s : State) (a : BeatAddress) (n : BeatCount) : BitVec 256 :=
  (s.buffer.offered (beatLine a)).data &&& spread 32 (s.takenFor a n)

section
variable {s : State} {a : BeatAddress} {n : BeatCount} {rest : List Request}

theorem State.serveHead_read (hq : s.port.queue = .read a n :: rest) : s.serveHead = s.serveRead a n := by
  unfold State.serveHead
  rw [hq]

theorem State.serveRead_answers
    (h : s.missingFor a n = 0 ∨ s.fillMap.marked (lineBank (beatLine a)) (lineRow (beatLine a)) = false) :
    s.serveRead a n = s.respond (readAnswer a n (s.bytesFor a n) 0) := if_pos h

theorem State.serveRead_reads
    (h : ¬ (s.missingFor a n = 0 ∨ s.fillMap.marked (lineBank (beatLine a)) (lineRow (beatLine a)) = false)) :
    s.serveRead a n =
      s.setStage (some (.reading (s.takenFor a n) (s.bytesFor a n) (wordsToRead (s.missingFor a n) (s.takenFor a n))
        false)) := if_neg h

end

theorem readAnswer_ok (a : BeatAddress) (n : BeatCount) (data : BitVec 256) :
    (readAnswer a n data 0).status = .ok := by
  simp [readAnswer, responseBeats, beatValid]

/-- A byte of a beat answered at once is the buffer's where the buffer offers it, or zero. -/
theorem State.byteIn_answered {n : BeatCount} {k : Nat} (hk : k < n.toNat) (s : State) (a : BeatAddress) {j : Nat}
    (hj : j < 4) :
    byteIn (beatData (s.bytesFor a n) (lineBeat a k)) j =
      if (s.buffer.offered (beatLine a)).valid.getLsbD (4 * lineBeat a k + j) then
        byteIn (s.buffer.offered (beatLine a)).data (4 * lineBeat a k + j) else 0 := by
  have hneeded : needsByte a n (4 * lineBeat a k + j) := ⟨k, hk, by omega⟩
  rw [byteIn_beatData _ _ hj, State.bytesFor, byteIn_masked]
  simp only [State.takenFor, getLsbD_taken, hneeded, true_and]

/-- Settles O9: the READ answered at once, beat by beat, or what its READING stage holds. -/
theorem headReadService : Obligations.HeadReadService := by
  intro s a n rest hq line offered atOnce
  have hserve := State.serveHead_read hq
  have honce : atOnce ↔
      s.missingFor a n = 0 ∨ s.fillMap.marked (lineBank (beatLine a)) (lineRow (beatLine a)) = false :=
    or_congr_left (missing_eq_zero_iff a n offered.valid).symm
  refine ⟨fun h => ⟨_, hserve.trans (State.serveRead_answers (honce.1 h)), rfl, readAnswer_ok a n _,
    responseBeats_length a n _ _, fun k hk => ⟨_, responseBeats_get hk a _ _, ?err, fun j hj => ?byte⟩⟩,
    fun h => ⟨_, _, _, hserve.trans (State.serveRead_reads fun g => h (honce.2 g)), getLsbD_taken a n offered.valid,
      fun i hi => ?taken, wordsToRead_ascending _ _, fun k => ?words, fun x hx => ?merged⟩⟩
  case err => simp [beatValid]
  case byte => exact s.byteIn_answered hk a hj
  case taken => exact (byteIn_masked _ _ i).trans (if_pos hi)
  case words =>
    rw [exists_mem_wordsToRead, wordValid_ne_zero_iff]
    simp only [State.missingFor, getLsbD_missing]
    exact Iff.rfl
  case merged =>
    rw [(mem_wordsToRead.1 hx).2, decide_eq_true_iff, wordValid_ne_zero_iff]

end Sys2Proof.Machine

/-! # What keeps a property of a state through the engine's run and through a link transaction -/

namespace Sys2Proof.Machine

/-- What every move of the engine keeps, its run keeps. -/
theorem State.engineRun_keeps {P : State → Prop} (hmove : ∀ {s t : State}, s.engineMove = some t → P s → P t)
    {s : State} (hs : P s) : P s.engineRun := by
  have hmoves (n : Nat) : ∀ {s : State}, P s → P (State.engineMoves n s) := by
    induction n with
    | zero => exact fun hs => hs
    | succ n ih =>
      intro s hs
      rw [State.engineMoves]
      split
      · exact hs
      · rename_i t ht
        exact ih (hmove ht hs)
  exact hmoves 300 hs

/-- The blocks that the settings change, DRAIN_AGE apart. -/
abbrev settingBlocks : List Block := [.link, .alerts, .refresh, .bankEngine, .scrubber, .engine, .remap]

section
variable {P : State → Prop} (hframe : ∀ {s t : State}, SameBut settingBlocks s t → P s → P t)
  (hage : ∀ {s t : State} {v : Byte}, s.judgeDrainAge v = some t → P s → P t)
  (hcommand : ∀ {s : State} (c : LinkCommand), P s → P (s.runCommand c).2)
include hframe

include hage in
theorem State.judgeSettings_keeps {s : State} (hs : P s) (st : Staged) : P (s.judgeSettings st).state := by
  unfold State.judgeSettings
  refine Judging.judge_keeps (Judging.judge_keeps (Judging.judge_keeps (Judging.judge_keeps (Judging.judge_keeps
    (Judging.judge_keeps (Judging.judge_keeps (Judging.judge_keeps (Judging.judge_keeps (Judging.judge_keeps
    hs ?arg) ?mask) ?limit) ?idle) hage) ?step) ?threshold) ?bank) ?row) ?select
  case arg =>
    intro s t v h
    obtain rfl := Option.some.inj h
    exact hframe ((s.setLink_same _).mono (by decide))
  case mask =>
    intro s t v h
    obtain rfl := Option.some.inj h
    exact hframe ((s.setAlerts_same _).mono (by decide))
  case limit => exact fun h => hframe ((State.judgeLimit_same h).mono (by decide))
  case idle => exact fun h => hframe ((State.judgeIdleClose_same h).mono (by decide))
  case step => exact fun h => hframe ((State.judgeScrubStep_same h).mono (by decide))
  case threshold => exact fun h => hframe ((State.judgeThreshold_same h).mono (by decide))
  case bank => exact fun h => hframe ((State.judgeRetireBank_same h).mono (by decide))
  case row => exact fun h => hframe ((State.judgeRetireRow_same h).mono (by decide))
  case select => exact fun h => hframe ((State.judgeRecordSelect_same h).mono (by decide))

include hcommand

theorem Judging.command_keeps {x : Judging} (hx : P x.state) (code : Byte) : P (x.command code) := by
  have hnoted : P (x.state.setLink { x.state.link with command := code }) :=
    hframe ((State.setLink_same _ _).mono (by decide)) hx
  have hresult {s : State} (hs : P s) (r : ResultCode) : P (s.setResult r) :=
    hframe ((s.setResult_same r).mono (by decide)) hs
  unfold Judging.command
  dsimp only
  split
  · exact hresult hnoted _
  · split
    · exact hresult hnoted _
    · exact hresult (hcommand _ hnoted) _

include hage in
theorem State.stop_keeps {s : State} (hs : P s) (st : Staged) : P (s.stop st) := by
  have hjudged := State.judgeSettings_keeps hframe hage hs st
  unfold State.stop
  dsimp only
  split
  · exact Judging.command_keeps hframe hcommand hjudged _
  · split
    · exact hframe ((State.setResult_same _ _).mono (by decide)) hjudged
    · exact hjudged

include hage in
/-- What frames of the settings' blocks, a write of DRAIN_AGE and every command keep, a transaction keeps. -/
theorem State.transaction_keeps {s : State} (hs : P s) (segments : List LinkSegment) :
    P (s.transaction segments) :=
  State.stop_keeps hframe hage hcommand (hframe ((s.setLink_same _).mono (by decide)) hs) _

end

end Sys2Proof.Machine

/-! # The completion of a drain, step by step (R135) -/

namespace Sys2Proof.Machine

section
variable (s : State) (b : Bank) (p : PhysicalRow) (rows : List PhysicalRow) (e : BufferEntry)

/-- `s` with the channel released and the drain's words written (R131 to R133). -/
def State.drainWritten : State := (s.release b).writeRows b rows (s.drainWrites e p)

/-- `s` when the drain's words have been written and reported (R134). -/
def State.drainReported : State :=
  (s.drainWritten b p rows e).reportAll .drain b (lineRow e.line) p (s.drainReads e p)

/-- `s` when the drained entry has left the buffer, before a waiting write is served (R135, R139). -/
def State.drainLeft : State :=
  (s.drainReported b p rows e).setBuffer ((s.drainReported b p rows e).buffer.drained e (anyPoison (s.drainWrites e p))
    (decide ((s.drainReported b p rows e).port.queue.head? = some .flush)))

theorem State.completeDrain_eq :
    s.completeDrain b p rows e =
      (s.drainLeft b p rows e).serveWaiting.chooseEntry.finishFlush.engineRun.furtherCloseAll := rfl

theorem State.drainWritten_same : SameBut [.bankEngine, .channel, .array] s (s.drainWritten b p rows e) :=
  ((s.release_same b).trans (State.writeRows_same _ b rows _)).mono (by decide)

theorem State.drainReported_same :
    SameBut [.remap, .errors, .alerts] (s.drainWritten b p rows e) (s.drainReported b p rows e) :=
  State.reportAll_same _ _ _ _ _ _

theorem State.drainLeft_same : SameBut [.buffer] (s.drainReported b p rows e) (s.drainLeft b p rows e) :=
  State.setBuffer_same _ _

/-- The release, the writing and the reports leave buffer and port, so the entry leaves the buffer of `s` (R135). -/
theorem State.drainLeft_buffer :
    (s.drainLeft b p rows e).buffer =
      s.buffer.drained e (anyPoison (s.drainWrites e p)) (decide (s.port.queue.head? = some .flush)) := by
  have hsame := (s.drainWritten_same b p rows e).trans (s.drainReported_same b p rows e)
  rw [State.drainLeft, State.setBuffer_buffer, hsame.buffer (by decide), hsame.port (by decide)]

end

end Sys2Proof.Machine

/-! # The error table: one record a key, with a count of 1 to 255 (R174) -/

namespace Sys2Proof.Machine

/-! ## The records -/

/-- The two records hold one key (R174). -/
def ErrorRecord.sameKey (x y : ErrorRecord) : Prop :=
  x.kind = y.kind ∧ x.bank = y.bank ∧ x.physicalRow = y.physicalRow ∧ x.word = y.word

/-- No two of the records hold one key, and every count is 1 to 255 (R174). -/
def RecordsOk (l : List ErrorRecord) : Prop :=
  (l.Pairwise fun x y => ¬ x.sameKey y) ∧ ∀ r ∈ l, 1 ≤ r.count ∧ r.count ≤ 255

theorem State.errorsOk_iff (s : State) : s.errorsOk ↔ RecordsOk s.errors.records := Iff.rfl

theorem RecordsOk.nil : RecordsOk [] := ⟨.nil, fun _ h => nomatch h⟩

theorem RecordsOk.sublist {l m : List ErrorRecord} (h : RecordsOk l) (hsub : m.Sublist l) : RecordsOk m :=
  ⟨h.1.sublist hsub, fun r hr => h.2 r (hsub.subset hr)⟩

/-- A repeat changes the key of no record (R175). -/
theorem RecordsOk.repeated {l : List ErrorRecord} (h : RecordsOk l) (e : ErrorReport) (now : DeviceTime) :
    RecordsOk (l.map fun r => if e.hasKeyOf r then r.repeated now else r) := by
  obtain ⟨hkeys, hcounts⟩ := h
  refine ⟨List.pairwise_map.2 (hkeys.imp fun {x y} hxy => ?_), fun r hr => ?_⟩
  · split <;> split <;> exact hxy
  · obtain ⟨x, hx, rfl⟩ := List.mem_map.1 hr
    have hcount := hcounts x hx
    split
    · exact ⟨le_min (by decide) (by omega), min_le_left _ _⟩
    · exact hcount

/-- A new record joins those that do not hold its key (R175). -/
theorem RecordsOk.create {t : ErrorTable} (h : RecordsOk t.records) {e : ErrorReport}
    (hnew : ∀ r ∈ t.records, e.hasKeyOf r = false) (now : DeviceTime) : RecordsOk (t.create e now).records := by
  obtain ⟨hkeys, hcounts⟩ := h
  unfold ErrorTable.create
  refine ⟨List.pairwise_append.2 ⟨hkeys, List.pairwise_singleton _ _, fun x hx y hy => ?_⟩, fun r hr => ?_⟩
  · obtain rfl := List.mem_singleton.1 hy
    exact fun hkey => Bool.eq_false_iff.1 (hnew x hx) (decide_eq_true hkey)
  · obtain hr | hr := List.mem_append.1 hr
    · exact hcounts r hr
    · obtain rfl := List.mem_singleton.1 hr
      exact ⟨le_refl 1, (by decide : 1 ≤ 255)⟩

/-! ## The reports -/

theorem SameBut.errorsOk {l : List Block} {s t : State} (h : SameBut l s t) (hl : Block.errors ∉ l)
    (hs : s.errorsOk) : t.errorsOk := by
  rw [State.errorsOk_iff, h.errors hl]
  exact hs

/-- A report is counted, makes a record of a new key, in a full table in place of another, or is dropped (R175,
R176). -/
theorem State.report_errorsOk {s : State} (hs : s.errorsOk) (e : ErrorReport) : (s.report e).errorsOk := by
  unfold State.report
  dsimp only
  split
  · exact RecordsOk.repeated hs e _
  · rename_i hany
    have hnew : ∀ r ∈ s.errors.records, e.hasKeyOf r = false := by simpa using hany
    split
    · exact RecordsOk.create hs hnew _
    · split
      · rename_i r _
        exact RecordsOk.create (t := { s.errors with records := s.errors.records.erase r })
          (RecordsOk.sublist hs List.erase_sublist) (fun x hx => hnew x (List.mem_of_mem_erase hx)) _
      · split <;> exact hs

theorem State.reportWord_errorsOk {s : State} (hs : s.errorsOk) (source : ErrorSource) (b : Bank) (r : LogicalRow)
    (p : PhysicalRow) (w : WordInRow) (o : DecodeOutcome) : (s.reportWord source b r p w o).errorsOk := by
  cases o with
  | clean => exact hs
  | corrected =>
    exact (State.reportSuspect_same _ b r .corrected).errorsOk (by decide) (State.report_errorsOk hs _)
  | poisoned => exact hs
  | uncorrectable =>
    exact ((State.reportSuspect_same _ b r .uncorrectable).trans (State.raise_same _ .ue)).errorsOk (by decide)
      (State.report_errorsOk hs _)

theorem State.reportMigrated_errorsOk {s : State} (hs : s.errorsOk) (b : Bank) (p : PhysicalRow) (w : WordInRow)
    (o : DecodeOutcome) : (s.reportMigrated b p w o).errorsOk := by
  cases o with
  | clean => exact hs
  | corrected => exact State.report_errorsOk hs _
  | poisoned => exact hs
  | uncorrectable => exact (State.raise_same _ .ue).errorsOk (by decide) (State.report_errorsOk hs _)

theorem State.reportAll_errorsOk {s : State} (hs : s.errorsOk) (source : ErrorSource) (b : Bank) (r : LogicalRow)
    (p : PhysicalRow) (ds : List (WordInRow × Decoded)) : (s.reportAll source b r p ds).errorsOk :=
  List.foldlRecOn ds _ hs fun _ hs _ _ => State.reportWord_errorsOk hs _ _ _ _ _ _

theorem State.reportRead_errorsOk {s : State} (hs : s.errorsOk) (line : Line) (p : PhysicalRow)
    (ds : List (ReadWord × Decoded)) : (s.reportRead line p ds).errorsOk :=
  List.foldlRecOn ds _ hs fun _ hs _ _ => State.reportWord_errorsOk hs _ _ _ _ _ _

theorem State.reportMigration_errorsOk {s : State} (hs : s.errorsOk) (b : Bank) (p : PhysicalRow)
    (ds : List (WordInRow × Decoded)) : (s.reportMigration b p ds).errorsOk :=
  List.foldlRecOn ds _ hs fun _ hs _ _ => State.reportMigrated_errorsOk hs _ _ _ _

/-! ## The engine, the hold state and the port reset -/

/-- Of the engine's moves, one that gives a row up alone makes a record (R86). -/
theorem State.engineMove_errorsOk {s t : State} (h : s.engineMove = some t) (hs : s.errorsOk) : t.errorsOk := by
  obtain ⟨b, r, rfl⟩ | rfl | rfl | hcheck := State.engineMove_cases h
  · cases hfree : s.remap.freeSpare b with
    | none =>
      rw [State.pushMigrate_gives_up hfree]
      exact (State.raise_same _ _).errorsOk (by decide)
        (State.report_errorsOk ((s.setRemap_same _).errorsOk (by decide) hs) _)
    | some x =>
      rw [State.pushMigrate_opens hfree]
      exact ((s.openMigration_same b r x).trans (State.setStack_same _ _)).errorsOk (by decide) hs
  · exact s.pushScrub_same.errorsOk (by decide) hs
  · exact s.pushFill_same.errorsOk (by decide) hs
  · exact (State.checkTop_same hcheck).errorsOk (by decide) hs

theorem State.engineRun_errorsOk {s : State} (hs : s.errorsOk) : s.engineRun.errorsOk :=
  State.engineRun_keeps State.engineMove_errorsOk hs

/-- A frame without the error table, and then the engine. -/
theorem SameBut.run_errorsOk {l : List Block} {s t : State} (h : SameBut l s t) (hl : Block.errors ∉ l)
    (hs : s.errorsOk) : t.engineRun.errorsOk := State.engineRun_errorsOk (h.errorsOk hl hs)

theorem State.wakeFromHold_errorsOk {s : State} (hs : s.errorsOk) : s.wakeFromHold.errorsOk := by
  unfold State.wakeFromHold
  split
  · exact (s.setHold_same _).run_errorsOk (by decide) hs
  · exact hs

theorem State.portReset_errorsOk {s : State} (hs : s.errorsOk) : s.portReset.errorsOk :=
  (State.furtherCloseAll_same _).errorsOk (by decide)
    (State.wakeFromHold_errorsOk ((s.resetPort_same.trans (State.setBuffer_same _ _)).errorsOk (by decide) hs))

theorem State.offer_errorsOk {s : State} (hs : s.errorsOk) (r : Request) : (s.offer r).errorsOk := by
  have hoffered : (s.setPort (s.port.offered r)).errorsOk := hs
  unfold State.offer State.offerSeen
  dsimp only
  split
  · split
    · exact hoffered
    · exact (State.setHold_same _ _).run_errorsOk (by decide) hoffered
    · exact (State.setHold_same _ _).run_errorsOk (by decide) hoffered
    · exact hoffered
  · exact hoffered

theorem State.scrubStepEnds_errorsOk {s : State} (hs : s.errorsOk) : s.scrubStepEnds.errorsOk := by
  unfold State.scrubStepEnds
  split
  · exact (((s.moveTo_same _).trans (State.setScrubber_same _ _)).trans (State.scrubExpiry_same _)).run_errorsOk
      (by decide) hs
  · exact hs

/-! ## The link -/

theorem State.commandRetire_errorsOk {s : State} (hs : s.errorsOk) : s.commandRetire.2.errorsOk := by
  unfold State.commandRetire
  dsimp only
  split
  · exact hs
  · split
    · split
      · exact hs
      · exact (s.setRemap_same _).run_errorsOk (by decide) hs
    · split
      · exact (s.setRemap_same _).run_errorsOk (by decide) hs
      · exact hs

theorem State.commandWake_errorsOk {s : State} (hs : s.errorsOk) : s.commandWake.2.errorsOk := by
  unfold State.commandWake
  split
  · exact hs
  · exact (s.setHold_same _).run_errorsOk (by decide) hs
  · exact (s.setHold_same _).run_errorsOk (by decide) hs
  · exact hs

theorem State.runCommand_errorsOk {s : State} (c : LinkCommand) (hs : s.errorsOk) :
    (s.runCommand c).2.errorsOk := by
  cases c with
  | hold => exact s.commandHold_same.errorsOk (by decide) hs
  | wake => exact State.commandWake_errorsOk hs
  | ack => exact s.commandAck_same.errorsOk (by decide) hs
  | clearErrors => exact RecordsOk.nil
  | clearSuspects => exact s.commandClearSuspects_same.errorsOk (by decide) hs
  | retire => exact State.commandRetire_errorsOk hs
  | portRestart =>
    change s.commandPortRestart.2.errorsOk
    unfold State.commandPortRestart
    dsimp only
    split
    · exact State.portReset_errorsOk hs
    · exact State.wakeFromHold_errorsOk hs

theorem State.transaction_errorsOk {s : State} (hs : s.errorsOk) (segments : List LinkSegment) :
    (s.transaction segments).errorsOk :=
  State.transaction_keeps (fun h => h.errorsOk (by decide))
    (fun h => (State.judgeDrainAge_same h).errorsOk (by decide)) State.runCommand_errorsOk hs segments

/-! ## Completions -/

section
variable {s : State} (hs : s.errorsOk)
include hs

theorem State.lineReadEnds_errorsOk : s.lineReadEnds.errorsOk := by
  obtain h | ⟨op, b, p, line, words, wanted, -, h⟩ := s.lineReadEnds_cases
  · rwa [h]
  · have hanswered := ((s.release_same b).trans
      (s.answered_same b (s.readDecodes line p words) wanted)).errorsOk (by decide) hs
    exact h ▸ State.engineRun_errorsOk (State.reportRead_errorsOk hanswered line p _)

theorem State.drainEnds_errorsOk : s.drainEnds.errorsOk := by
  obtain h | ⟨op, b, p, rows, e, -, h⟩ := s.drainEnds_cases
  · rwa [h]
  · have hreported : (s.drainReported b p rows e).errorsOk :=
      State.reportAll_errorsOk ((s.drainWritten_same b p rows e).errorsOk (by decide) hs) _ _ _ _ _
    have hleft : (s.drainLeft b p rows e).errorsOk := hreported
    have hserved := (((State.serveWaiting_same _).trans (State.chooseEntry_same _)).trans
      (State.finishFlush_same _)).run_errorsOk (by decide) hleft
    rw [h, State.completeDrain_eq]
    exact (State.furtherCloseAll_same _).errorsOk (by decide) hserved

theorem State.rowFillEnds_errorsOk : s.rowFillEnds.errorsOk := by
  obtain h | ⟨op, b, p, line, -, h⟩ := s.rowFillEnds_cases
  · rwa [h]
  · exact h ▸ (((s.release_same b).trans (State.writeWords_same _ _ _ _)).trans
      (State.markRow_same _ _)).run_errorsOk (by decide) hs

theorem State.fillStepEnds_errorsOk : s.fillStepEnds.errorsOk := by
  obtain h | ⟨op, b, p, g, -, h⟩ := s.fillStepEnds_cases
  · rwa [h]
  · exact h ▸ (State.furtherCloseAll_same _).errorsOk (by decide)
      ((((s.release_same b).trans (State.writeWords_same _ _ _ _)).trans
        (State.advanceFill_same _)).run_errorsOk (by decide) hs)

theorem State.scrubGroupEnds_errorsOk : s.scrubGroupEnds.errorsOk := by
  obtain h | ⟨op, b, r, p, rows, g, -, h⟩ := s.scrubGroupEnds_cases
  · rwa [h]
  · have hwritten := ((s.release_same b).trans
      (State.writeRows_same _ b rows (scrubWrites (s.groupDecodes b p g)))).errorsOk (by decide) hs
    have hreported := State.reportAll_errorsOk hwritten .scrub b r p (s.groupDecodes b p g)
    exact h ▸ (State.furtherCloseAll_same _).errorsOk (by decide)
      ((State.advanceScrub_same _ _).run_errorsOk (by decide) hreported)

theorem State.migrateStepEnds_errorsOk : s.migrateStepEnds.errorsOk := by
  obtain h | ⟨op, b, p, q, g, -, h⟩ := s.migrateStepEnds_cases
  · rwa [h]
  · have hwritten := ((s.release_same b).trans
      (State.writeWords_same _ b q (migrateWrites (s.groupDecodes b p g)))).errorsOk (by decide) hs
    have hreported := State.reportMigration_errorsOk hwritten b p (s.groupDecodes b p g)
    exact h ▸ (State.furtherCloseAll_same _).errorsOk (by decide)
      ((State.advanceMigrate_same _).run_errorsOk (by decide) hreported)

end

/-- Every command changes the error table by reports, by CLEAR_ERRORS, or not at all. -/
theorem effect_errorsOk {c : Instr} {s : State} (h : exec c s = .next (effect c s)) (hs : s.errorsOk) :
    (effect c s).errorsOk := by
  by_cases hc : Block.errors ∈ touched c
  · cases c with
    | powerOnReset _ => exact RecordsOk.nil
    | powerLoss => exact RecordsOk.nil
    | resetNFall =>
      simp only [effect]
      split
      · exact State.portReset_errorsOk ((s.setPort_same _).errorsOk (by decide) hs)
      · exact hs
    | requestOffer r => exact State.offer_errorsOk hs r
    | scrubStepTimerExpiry => exact State.scrubStepEnds_errorsOk hs
    | lineReadComplete => exact State.lineReadEnds_errorsOk hs
    | drainComplete => exact State.drainEnds_errorsOk hs
    | rowFillComplete => exact State.rowFillEnds_errorsOk hs
    | fillStepComplete => exact State.fillStepEnds_errorsOk hs
    | scrubGroupStepComplete => exact State.scrubGroupEnds_errorsOk hs
    | migrateStepComplete => exact State.migrateStepEnds_errorsOk hs
    | wake => exact State.transaction_errorsOk hs _
    | clearErrors => exact State.transaction_errorsOk hs _
    | retire => exact State.transaction_errorsOk hs _
    | portRestart => exact State.transaction_errorsOk hs _
    | registerWrite segments => exact State.transaction_errorsOk hs segments
    | _ => exact absurd hc (by simp [touched])
  · exact (exec_same h).errorsOk hc hs

end Sys2Proof.Machine

/-! # The write buffer: one DRAINING entry, one FILLING entry a line, a valid byte in each (R124) -/

namespace Sys2Proof.Machine

/-! ## The entries -/

/-- At most one of the entries is DRAINING, at most one is FILLING for a line, and each has a valid byte (R124). -/
structure BufferedOk (l : List BufferEntry) : Prop where
  draining : l.Pairwise fun x y => ¬ (x.state = .draining ∧ y.state = .draining)
  filling : l.Pairwise fun x y => ¬ (x.state = .filling ∧ y.state = .filling ∧ x.line = y.line)
  valid : ∀ e ∈ l, e.valid ≠ 0

theorem State.bufferOk_iff (s : State) : s.bufferOk ↔ BufferedOk s.buffer.entries :=
  ⟨fun ⟨hd, hf, hv⟩ => ⟨hd, hf, hv⟩, fun ⟨hd, hf, hv⟩ => ⟨hd, hf, hv⟩⟩

theorem BufferedOk.nil : BufferedOk [] := ⟨.nil, .nil, fun _ h => nomatch h⟩

theorem BufferedOk.sublist {l m : List BufferEntry} (h : BufferedOk l) (hsub : m.Sublist l) : BufferedOk m :=
  ⟨h.draining.sublist hsub, h.filling.sublist hsub, fun e he => h.valid e (hsub.subset he)⟩

/-- A change of the entries that keeps the state and the line of each, and leaves each a valid byte. -/
theorem BufferedOk.map {l : List BufferEntry} {f : BufferEntry → BufferEntry} (h : BufferedOk l)
    (hstate : ∀ e, (f e).state = e.state) (hline : ∀ e, (f e).line = e.line)
    (hvalid : ∀ e, e.valid ≠ 0 → (f e).valid ≠ 0) : BufferedOk (l.map f) := by
  refine ⟨List.pairwise_map.2 (h.draining.imp fun {x y} hxy => ?_),
    List.pairwise_map.2 (h.filling.imp fun {x y} hxy => ?_), fun e he => ?_⟩
  · rwa [hstate, hstate]
  · rwa [hstate, hstate, hline, hline]
  · obtain ⟨x, hx, rfl⟩ := List.mem_map.1 he
    exact hvalid x (h.valid x hx)

/-- A FILLING entry joins those of which none is FILLING for its line (R126). -/
theorem BufferedOk.append {l : List BufferEntry} {e : BufferEntry} (h : BufferedOk l) (hstate : e.state = .filling)
    (hvalid : e.valid ≠ 0) (hnew : ∀ x ∈ l, ¬ (x.state = .filling ∧ x.line = e.line)) : BufferedOk (l ++ [e]) := by
  refine ⟨List.pairwise_append.2 ⟨h.draining, List.pairwise_singleton _ _, fun x _ y hy => ?_⟩,
    List.pairwise_append.2 ⟨h.filling, List.pairwise_singleton _ _, fun x hx y hy => ?_⟩, fun x hx => ?_⟩
  · obtain rfl := List.mem_singleton.1 hy
    simp [hstate]
  · obtain rfl := List.mem_singleton.1 hy
    exact fun ⟨hfilling, _, hline⟩ => hnew x hx ⟨hfilling, hline⟩
  · obtain hx | hx := List.mem_append.1 hx
    · exact h.valid x hx
    · obtain rfl := List.mem_singleton.1 hx
      exact hvalid

theorem BufferEntry.fills_iff (e : BufferEntry) (n : Line) : e.fills n = true ↔ e.state = .filling ∧ e.line = n :=
  decide_eq_true_iff

/-- Where no entry is DRAINING, the FILLING entry of a line can become so: there is one at most (R130). -/
theorem BufferedOk.choose {l : List BufferEntry} (h : BufferedOk l) (hnone : ∀ e ∈ l, e.state = .filling) (n : Line) :
    BufferedOk (l.map fun e => if e.fills n then { e with state := .draining } else e) := by
  refine ⟨List.pairwise_map.2 (h.filling.imp_of_mem fun {x y} hx hy hxy => ?_),
    List.pairwise_map.2 (h.filling.imp fun {x y} hxy => ?_), fun e he => ?_⟩
  · rintro ⟨hdx, hdy⟩
    have hline {e : BufferEntry} (he : e ∈ l)
        (hd : (if e.fills n then { e with state := .draining } else e).state = .draining) : e.line = n := by
      split at hd
      · exact ((e.fills_iff n).1 (by assumption)).2
      · rw [hnone e he] at hd
        cases hd
    exact hxy ⟨hnone x hx, hnone y hy, (hline hx hdx).trans (hline hy hdy).symm⟩
  · have hkept {e : BufferEntry}
        (hf : (if e.fills n then { e with state := .draining } else e).state = .filling) :
        (if e.fills n then { e with state := .draining } else e) = e := by
      split at hf
      · cases hf
      · exact if_neg (by assumption)
    rintro ⟨hfx, hfy, hline⟩
    have hx := hkept hfx
    have hy := hkept hfy
    rw [hx] at hfx hline
    rw [hy] at hfy hline
    exact hxy ⟨hfx, hfy, hline⟩
  · obtain ⟨x, hx, rfl⟩ := List.mem_map.1 he
    have hvalid := h.valid x hx
    split <;> exact hvalid

theorem WriteBuffer.filling_none {w : WriteBuffer} {n : Line} :
    w.filling n = none ↔ ∀ e ∈ w.entries, ¬ (e.state = .filling ∧ e.line = n) := by
  simp [WriteBuffer.filling, BufferEntry.fills]

theorem WriteBuffer.filling_some {w : WriteBuffer} {n : Line} {e : BufferEntry} (h : w.filling n = some e) :
    e ∈ w.entries ∧ e.state = .filling ∧ e.line = n := by
  have hfills : e.fills n = true := List.find?_some (p := fun e => BufferEntry.fills e n) h
  exact ⟨List.mem_of_find?_eq_some h, (e.fills_iff n).1 hfills⟩

theorem le_later (a b : Time) : b ≤ later a b := by
  unfold later
  split
  · exact le_refl b
  · exact le_of_not_ge (by assumption)

theorem WriteBuffer.filling_isSome {w : WriteBuffer} {n : Line} :
    (w.filling n).isSome = true ↔ ∃ e ∈ w.entries, e.state = .filling ∧ e.line = n := by
  rw [Option.isSome_iff_ne_none, Ne, WriteBuffer.filling_none]
  push Not
  rfl

theorem WriteBuffer.draining_none {w : WriteBuffer} : w.draining = none ↔ ∀ e ∈ w.entries, e.state = .filling := by
  have hstate (e : BufferEntry) : ¬ e.state = .draining ↔ e.state = .filling := by
    cases e.state <;> simp
  simp [WriteBuffer.draining, hstate]

/-! ## The operations on the buffer -/

theorem SameBut.bufferOk {l : List Block} {s t : State} (h : SameBut l s t) (hl : Block.buffer ∉ l)
    (hs : s.bufferOk) : t.bufferOk := by
  rw [State.bufferOk_iff, h.buffer hl]
  exact s.bufferOk_iff.1 hs

section
variable {s : State} (hs : s.bufferOk)
include hs

theorem State.setBuffer_bufferOk_map {w : WriteBuffer} (f : BufferEntry → BufferEntry)
    (hw : w.entries = s.buffer.entries.map f) (hstate : ∀ e, (f e).state = e.state) (hline : ∀ e, (f e).line = e.line)
    (hvalid : ∀ e, e.valid ≠ 0 → (f e).valid ≠ 0) : (s.setBuffer w).bufferOk := by
  rw [State.bufferOk_iff, State.setBuffer_buffer, hw]
  exact (s.bufferOk_iff.1 hs).map hstate hline hvalid

theorem State.setBuffer_bufferOk_sublist {w : WriteBuffer} (hw : w.entries.Sublist s.buffer.entries) :
    (s.setBuffer w).bufferOk :=
  (State.bufferOk_iff _).2 ((s.bufferOk_iff.1 hs).sublist hw)

theorem State.chooseEntry_bufferOk : s.chooseEntry.bufferOk := by
  unfold State.chooseEntry
  split
  · exact hs
  · rename_i hnone
    split
    · exact hs
    · exact (State.bufferOk_iff _).2 ((s.bufferOk_iff.1 hs).choose (WriteBuffer.draining_none.1 hnone) _)

theorem State.expireAge_bufferOk : s.expireAge.bufferOk := by
  refine State.setBuffer_bufferOk_map hs _ rfl (fun e => ?_) (fun e => ?_) fun e he => ?_
  · split <;> rfl
  · split <;> rfl
  · split <;> exact he

/-- Bytes merged into an entry leave it those it has (R125). -/
theorem State.merge_bufferOk (n : Line) (x : LineBytes) : (s.setBuffer (s.buffer.merge n x)).bufferOk := by
  refine State.setBuffer_bufferOk_map hs _ rfl (fun e => ?_) (fun e => ?_) fun e he => ?_
  · split <;> rfl
  · split <;> rfl
  · split
    · exact fun hzero => he (BitVec.or_eq_zero_iff.1 hzero).2
    · exact he

/-- A new entry has a byte, and no other fills its line (R126, R127). -/
theorem State.allocate_bufferOk {n : Line} {x : LineBytes} (hx : x.valid ≠ 0) (hnone : s.buffer.filling n = none)
    (now : Time) : (s.setBuffer (s.buffer.allocate n x now)).bufferOk :=
  (State.bufferOk_iff _).2
    ((s.bufferOk_iff.1 hs).append rfl hx (WriteBuffer.filling_none.1 hnone))

theorem State.serveWrite_bufferOk (a : BeatAddress) (n : BeatCount) (d : List WriteBeat) :
    (s.serveWrite a n d).bufferOk := by
  unfold State.serveWrite
  dsimp only
  split
  · exact (s.respond_same _).bufferOk (by decide) hs
  · rename_i hx
    split
    · exact (State.respond_same _ _).bufferOk (by decide) (State.merge_bufferOk hs _ _)
    · rename_i hnone
      split
      · exact (State.respond_same _ _).bufferOk (by decide)
          (State.allocate_bufferOk hs hx (Option.not_isSome_iff_eq_none.1 hnone) _)
      · exact (s.setStage_same _).bufferOk (by decide) hs

theorem State.serveFlush_bufferOk : s.serveFlush.bufferOk :=
  ((State.setStage_same _ _).trans (State.finishFlush_same _)).bufferOk (by decide)
    (State.setBuffer_bufferOk_map hs (w := s.buffer.markAll) _ rfl (fun _ => rfl) (fun _ => rfl) fun _ he => he)

theorem State.serveHead_bufferOk : s.serveHead.bufferOk := by
  unfold State.serveHead
  split
  · exact (s.setStage_same _).bufferOk (by decide) hs
  · exact (s.serveRead_same _ _).bufferOk (by decide) hs
  · exact State.serveWrite_bufferOk hs _ _ _
  · exact State.serveFlush_bufferOk hs

theorem State.serveWaiting_bufferOk : s.serveWaiting.bufferOk := by
  unfold State.serveWaiting
  split
  · exact State.serveHead_bufferOk hs
  · exact hs

theorem State.acceptOffer_bufferOk : s.acceptOffer.bufferOk := by
  unfold State.acceptOffer
  split
  · refine State.chooseEntry_bufferOk ?_
    have hqueued (x : SystemPort) : (s.setPort x).bufferOk := hs
    unfold State.accept
    dsimp only
    split
    · exact State.serveHead_bufferOk (hqueued _)
    · exact hqueued _
  · exact hs

theorem State.takeOffered_bufferOk : s.takeOffered.bufferOk := by
  unfold State.takeOffered
  split
  · have htaken : (s.setPort { s.port with queue := s.port.queue.tail, stage := none }).bufferOk := hs
    exact (State.furtherCloseAll_same _).bufferOk (by decide)
      (State.chooseEntry_bufferOk (State.serveHead_bufferOk htaken))
  · exact hs

theorem State.drainAgeEnds_bufferOk (line : Line) : (s.drainAgeEnds line).bufferOk := by
  unfold State.drainAgeEnds
  split
  · split
    · exact hs
    · exact State.chooseEntry_bufferOk (State.expireAge_bufferOk ((s.moveTo_same _).bufferOk (by decide) hs))
  · exact hs

theorem State.drainEnds_bufferOk : s.drainEnds.bufferOk := by
  obtain h | ⟨op, b, p, rows, e, -, h⟩ := s.drainEnds_cases
  · rwa [h]
  · have hreported : (s.drainReported b p rows e).bufferOk :=
      ((s.drainWritten_same b p rows e).trans (s.drainReported_same b p rows e)).bufferOk (by decide) hs
    have hleft : (s.drainLeft b p rows e).bufferOk :=
      State.setBuffer_bufferOk_sublist hreported List.filter_sublist
    rw [h, State.completeDrain_eq]
    exact (((State.finishFlush_same _).trans (State.engineRun_same _)).trans
      (State.furtherCloseAll_same _)).bufferOk (by decide)
      (State.chooseEntry_bufferOk (State.serveWaiting_bufferOk hleft))

/-- A port reset keeps the DRAINING entry alone (R142). -/
theorem State.portReset_bufferOk : s.portReset.bufferOk := by
  have hkept : (s.resetPort.setBuffer s.buffer.portReset).bufferOk := by
    rw [State.bufferOk_iff]
    exact ((s.bufferOk_iff.1 hs).sublist List.filter_sublist).map (fun _ => rfl) (fun _ => rfl) fun _ he => he
  exact ((State.wakeFromHold_same _).trans (State.furtherCloseAll_same _)).bufferOk (by decide) hkept

theorem State.beginEntry_bufferOk : s.beginEntry.bufferOk :=
  State.chooseEntry_bufferOk (((s.setHold_same _).trans (State.closeAll_same _)).bufferOk (by decide) hs)

theorem State.commandHold_bufferOk : s.commandHold.2.bufferOk := by
  unfold State.commandHold
  split
  · exact State.beginEntry_bufferOk hs
  all_goals exact hs

theorem State.commandPortRestart_bufferOk : s.commandPortRestart.2.bufferOk := by
  unfold State.commandPortRestart
  dsimp only
  split
  · exact State.portReset_bufferOk hs
  · exact s.wakeFromHold_same.bufferOk (by decide) hs

end

theorem State.judgeDrainAge_bufferOk {s t : State} {v : Byte} (h : s.judgeDrainAge v = some t) (hs : s.bufferOk) :
    t.bufferOk := by
  unfold State.judgeDrainAge at h
  split at h
  · obtain rfl := Option.some.inj h
    have hset : (s.setBuffer { s.buffer with drainAge := v }).bufferOk := hs
    exact State.chooseEntry_bufferOk (State.expireAge_bufferOk hset)
  · cases h

theorem State.runCommand_bufferOk {s : State} (c : LinkCommand) (hs : s.bufferOk) : (s.runCommand c).2.bufferOk := by
  cases c with
  | hold => exact State.commandHold_bufferOk hs
  | wake => exact s.commandWake_same.bufferOk (by decide) hs
  | ack => exact s.commandAck_same.bufferOk (by decide) hs
  | clearErrors => exact s.commandClearErrors_same.bufferOk (by decide) hs
  | clearSuspects => exact s.commandClearSuspects_same.bufferOk (by decide) hs
  | retire => exact s.commandRetire_same.bufferOk (by decide) hs
  | portRestart => exact State.commandPortRestart_bufferOk hs

theorem State.transaction_bufferOk {s : State} (hs : s.bufferOk) (segments : List LinkSegment) :
    (s.transaction segments).bufferOk :=
  State.transaction_keeps (fun h => h.bufferOk (by decide)) State.judgeDrainAge_bufferOk State.runCommand_bufferOk hs
    segments

/-- Every command that touches the buffer keeps it well formed, or empties it. -/
theorem effect_bufferOk {c : Instr} {s : State} (h : exec c s = .next (effect c s)) (hs : s.bufferOk) :
    (effect c s).bufferOk := by
  by_cases hc : Block.buffer ∈ touched c
  · cases c with
    | powerOnReset _ => exact (State.bufferOk_iff _).2 BufferedOk.nil
    | powerLoss => exact (State.bufferOk_iff _).2 BufferedOk.nil
    | resetNFall =>
      simp only [effect]
      split
      · exact State.portReset_bufferOk ((s.setPort_same _).bufferOk (by decide) hs)
      · exact hs
    | requestAccept => exact State.acceptOffer_bufferOk hs
    | responseTaken => exact State.takeOffered_bufferOk hs
    | drainAgeReached line => exact State.drainAgeEnds_bufferOk hs line
    | drainComplete => exact State.drainEnds_bufferOk hs
    | hold => exact State.transaction_bufferOk hs _
    | portRestart => exact State.transaction_bufferOk hs _
    | drainAge v => exact State.transaction_bufferOk hs _
    | registerWrite segments => exact State.transaction_bufferOk hs segments
    | _ => exact absurd hc (by simp [touched])
  · exact (exec_same h).bufferOk hc hs

/-- Settles O59: every command keeps the buffer through its few changes of the entries, and the error table through the
reports. -/
theorem bufferAndErrorTableStayWellFormed : Obligations.BufferAndErrorTableStayWellFormed := fun _ _ h =>
  ⟨step_keeps (fun hf => hf.bufferOk (by decide)) (fun _ _ hs => hs) effect_bufferOk h,
    step_keeps (fun hf => hf.errorsOk (by decide)) (fun _ _ hs => hs) effect_errorsOk h⟩

end Sys2Proof.Machine

/-! # Port resets: RESET_N_FALL and PORT_RESTART (R142, R156, R170, R171) -/

namespace Sys2Proof.Machine

/-- Settles O5: the port reset at the fall, outside HOLD and in it. -/
theorem resetNFallAndRise : Obligations.ResetNFallAndRise := by
  refine ⟨fun s hp => ⟨fun hhigh => ?fall, fun hlow => ?low⟩, fun s => ⟨_, rfl, s.setPort_same _, rfl⟩⟩
  case fall =>
    have hfall : exec .resetNFall s = .next (s.setPort { s.port with resetN := false }).portReset :=
      (exec_on hp _).trans (congrArg _ (if_pos hhigh))
    refine ⟨_, State.resetPort_leaves (port := { s.port with resetN := false }) rfl rfl, State.resetPort_resetN _,
      fun hactive => ?_, fun hhold => ?_⟩
    · exact hfall.trans (congrArg _ (State.portReset_not_hold hactive))
    · exact hfall.trans (congrArg _ (State.portReset_hold hhold))
  case low => exact (exec_on hp _).trans (congrArg _ (if_neg (by simp [hlow])))

theorem State.wakeFromHold_hold {s : State} (h : s.hold.state = .hold) :
    s.wakeFromHold = (s.setHold { state := .waking, wakeEnd := some (s.clock.now + 2000) }).engineRun := if_pos h

theorem State.wakeFromHold_not_hold {s : State} (h : s.hold.state ≠ .hold) : s.wakeFromHold = s := if_neg h

theorem effect_portRestart (s : State) :
    effect .portRestart s = ((s.linkAt 3).commandNoted 7).commandPortRestart.2.setResult .done :=
  s.linkWrite_command .portRestart

theorem State.commandPortRestart_high {s : State} (h : s.port.resetN = true) :
    s.commandPortRestart.2 = s.portReset := if_pos h

theorem State.commandPortRestart_low {s : State} (h : s.port.resetN = false) :
    s.commandPortRestart.2 = s.wakeFromHold := if_neg (by simp [h])

/-- Settles O47: a port reset at the STOP with RESET_N high, and the wake alone with RESET_N low. -/
theorem portRestartActsAsPortReset : Obligations.PortRestartActsAsPortReset := by
  intro s hp v
  rw [exec_on hp, effect_portRestart]
  refine ⟨fun hhigh => ?high, fun hlow => ?low⟩
  case high =>
    refine ⟨_, State.resetPort_leaves (s := v) (port := v.port) rfl rfl, (State.resetPort_resetN _).trans hhigh,
      fun hactive => ?_, fun hhold => ?_⟩
    · rw [State.commandPortRestart_high (s := v) hhigh, State.portReset_not_hold (s := v) hactive]
      rfl
    · rw [State.commandPortRestart_high (s := v) hhigh, State.portReset_hold (s := v) hhold]
      rfl
  case low =>
    rw [State.commandPortRestart_low (s := v) hlow]
    refine ⟨fun hactive => ?_, fun hhold => ?_⟩
    · rw [State.wakeFromHold_not_hold (s := v) hactive]
    · rw [State.wakeFromHold_hold (s := v) hhold]
      rfl

end Sys2Proof.Machine

/-! # The head of the intake queue: responses taken, WRITE and FLUSH served (R125 to R127, R138, R140, R149, R154) -/

namespace Sys2Proof.Machine

theorem State.takeOffered_responding {s : State} {r : Response} (h : s.port.stage = some (.responding r)) :
    s.takeOffered = s.takeResponse.chooseEntry.furtherCloseAll := if_pos (s.port.sr_iff.2 ⟨r, h⟩)

theorem State.takeOffered_quiet {s : State} (h : ∀ r, s.port.stage ≠ some (.responding r)) : s.takeOffered = s :=
  if_neg fun hsr => (s.port.sr_iff.1 hsr).elim h

/-- Settles O8: the head answered makes room for the next, and without a response nothing is taken. -/
theorem responseTakenRemovesHead : Obligations.ResponseTakenRemovesHead := by
  intro s hp
  rw [exec_on hp]
  refine ⟨fun r hr => ⟨_, s.setPort_same _, rfl, ?_⟩, fun hquiet => congrArg _ (State.takeOffered_quiet hquiet)⟩
  exact congrArg _ (State.takeOffered_responding hr)

/-! ## WRITE -/

section
variable {s : State} {a : BeatAddress} {n : BeatCount} {d : List WriteBeat} {rest : List Request}

theorem State.serveHead_write (hq : s.port.queue = .write a n d :: rest) : s.serveHead = s.serveWrite a n d := by
  unfold State.serveHead
  rw [hq]

theorem State.serveWrite_empty (h : (writtenBytes a n d).valid = 0) : s.serveWrite a n d = s.respond writeOk :=
  if_pos h

theorem State.serveWrite_merges (hx : (writtenBytes a n d).valid ≠ 0)
    (h : ∃ e ∈ s.buffer.entries, e.state = .filling ∧ e.line = beatLine a) :
    s.serveWrite a n d =
      (s.setBuffer (s.buffer.merge (beatLine a) (writtenBytes a n d))).respond writeOk :=
  (if_neg hx).trans (if_pos (WriteBuffer.filling_isSome.2 h))

theorem State.serveWrite_no_filling (hx : (writtenBytes a n d).valid ≠ 0)
    (h : ∀ e ∈ s.buffer.entries, ¬ (e.state = .filling ∧ e.line = beatLine a)) :
    s.serveWrite a n d =
      if s.buffer.entries.length < 8 then
        (s.setBuffer (s.buffer.allocate (beatLine a) (writtenBytes a n d) s.clock.now)).respond writeOk
      else s.setStage (some .waitingEntry) :=
  (if_neg hx).trans (if_neg fun g => (WriteBuffer.filling_isSome.1 g).elim fun e ⟨he, hf⟩ => h e he hf)

end

/-- An entry that fills the line takes the bytes of the merge, byte by byte; any other entry stays (R125). -/
theorem WriteBuffer.merge_entry {w : WriteBuffer} {k : Nat} {e : BufferEntry} (he : w.entries[k]? = some e) (n : Line)
    (x : LineBytes) :
    ∃ f, (w.merge n x).entries[k]? = some f ∧ (¬ (e.state = .filling ∧ e.line = n) → f = e) ∧
      (e.state = .filling ∧ e.line = n →
        f = { e with valid := f.valid, data := f.data } ∧
        (∀ i, f.valid.getLsbD i = (x.valid.getLsbD i || e.valid.getLsbD i)) ∧
        ∀ i, i < 32 → byteIn f.data i = if x.valid.getLsbD i then byteIn x.data i else byteIn e.data i) := by
  have hmerged : (w.merge n x).entries[k]? = some
      (if e.fills n then { e with valid := (x.over e.bytes).valid, data := (x.over e.bytes).data } else e) := by
    simp [WriteBuffer.merge, WriteBuffer.updateFilling, he]
  refine ⟨_, hmerged, fun hother => if_neg fun h => hother ((e.fills_iff n).1 h), fun hfills => ?_⟩
  rw [if_pos ((e.fills_iff n).2 hfills)]
  exact ⟨rfl, fun i => BitVec.getLsbD_or, fun i _ => byteIn_mergeBytes 32 x.valid x.data e.data i⟩

/-- Settles O10: the bytes written, and then a head WRITE merged, allocated or waiting. -/
theorem headWriteService : Obligations.HeadWriteService := by
  refine ⟨fun a n data hlen => ⟨writtenBytes_valid hlen, fun i k beat => writtenBytes_data hlen⟩, ?_⟩
  intro s a n data rest hq line x hx
  have hserve := State.serveHead_write hq
  refine ⟨fun hfilling => ?_, fun hnone => ?_⟩
  · exact ⟨s.setBuffer (s.buffer.merge line x), hserve.trans (State.serveWrite_merges hx hfilling), s.setBuffer_same _,
      rfl, rfl, List.length_map _, fun k e he => WriteBuffer.merge_entry he line x⟩
  · have hplaced := hserve.trans (State.serveWrite_no_filling hx hnone)
    exact ⟨fun hroom => ⟨s.setBuffer (s.buffer.allocate line x s.clock.now), hplaced.trans (if_pos hroom),
      s.setBuffer_same _, rfl⟩, fun hfull => hplaced.trans (if_neg (Nat.not_lt.2 hfull))⟩

/-- Some enable set in the beats is a byte written. -/
theorem writtenBytes_ne_zero {a : BeatAddress} {n : BeatCount} {data : List WriteBeat} (hlen : data.length = n.toNat)
    (h : ∃ beat ∈ data, beat.enables ≠ 0) : (writtenBytes a n data).valid ≠ 0 := by
  obtain ⟨beat, hbeat, hne⟩ := h
  obtain ⟨k, hk⟩ := List.mem_iff_getElem?.1 hbeat
  obtain ⟨m, hm, hbit⟩ : ∃ m < 4, beat.enables.getLsbD m = true := by
    by_contra hnone
    push Not at hnone
    exact hne (BitVec.eq_of_getLsbD_eq fun m hm => by simpa using hnone m hm)
  have hwritten : (writtenBytes a n data).valid.getLsbD (4 * lineBeat a k + m) = true :=
    (writtenBytes_valid hlen _).2 ⟨k, beat, hk, by omega, by rwa [show (4 * lineBeat a k + m) % 4 = m by omega]⟩
  intro hzero
  rw [hzero] at hwritten
  simp at hwritten

theorem writtenBytes_eq_zero {a : BeatAddress} {n : BeatCount} {data : List WriteBeat} (hlen : data.length = n.toNat)
    (h : ∀ beat ∈ data, beat.enables = 0) : (writtenBytes a n data).valid = 0 := by
  refine BitVec.eq_of_getLsbD_eq fun i _ => (Bool.eq_false_iff.2 fun hbit => ?_).trans BitVec.getLsbD_zero.symm
  obtain ⟨k, beat, hk, -, henabled⟩ := (writtenBytes_valid hlen i).1 hbit
  rw [h beat (List.mem_of_getElem? hk)] at henabled
  simp at henabled

/-- Settles O11: no enable, no byte written and the answer at once; some enable, and its byte is written. -/
theorem emptyWriteIsAnsweredAtOnce : Obligations.EmptyWriteIsAnsweredAtOnce := by
  intro s a n data rest hq hlen
  refine ⟨fun hempty => ⟨s.respond writeOk, ?_, s.respond_same _, rfl⟩, fun hsome =>
    ⟨writtenBytes_ne_zero hlen hsome, writtenBytes_valid hlen, fun i k beat => writtenBytes_data hlen⟩⟩
  rw [State.serveHead_write hq, State.serveWrite_empty (writtenBytes_eq_zero hlen hempty)]

/-! ## FLUSH -/

theorem State.serveHead_flush {s : State} {rest : List Request} (hq : s.port.queue = .flush :: rest) :
    s.serveHead = ((s.setBuffer s.buffer.markAll).setStage (some .flushing)).finishFlush := by
  unfold State.serveHead
  rw [hq]
  rfl

section
variable {s : State}

theorem State.finishFlush_answers (hstage : s.port.stage = some .flushing)
    (h : ∀ e ∈ s.buffer.entries, e.flushMark = false) :
    s.finishFlush = s.respond (flushAnswer s.buffer.flushPoison) :=
  if_pos ⟨hstage, by simpa using h⟩

theorem State.finishFlush_waits (h : s.port.stage ≠ some .flushing ∨ ∃ e ∈ s.buffer.entries, e.flushMark = true) :
    s.finishFlush = s := by
  refine if_neg fun ⟨hstage, hclear⟩ => ?_
  obtain hother | ⟨e, he, hmark⟩ := h
  · exact hother hstage
  · exact Bool.eq_false_iff.1 hclear (List.any_eq_true.2 ⟨e, he, hmark⟩)

end

/-- Settles O12: the marks at the service keep the FLUSH waiting where there is an entry to mark. -/
theorem headFlushServiceAndAnswer : Obligations.HeadFlushServiceAndAnswer := by
  refine ⟨fun s rest hq => ⟨s.setBuffer s.buffer.markAll, s.setBuffer_same _, rfl, rfl, rfl, fun hsome => ?_,
    fun hempty => ?_⟩, fun s => ⟨State.finishFlush_answers, State.finishFlush_waits⟩⟩
  · obtain ⟨e, he⟩ := List.exists_mem_of_ne_nil _ hsome
    rw [State.serveHead_flush hq]
    exact State.finishFlush_waits (.inr ⟨_, List.mem_map_of_mem he, rfl⟩)
  · have hnone : s.buffer.markAll.entries = [] := List.map_eq_nil_iff.2 hempty
    rw [State.serveHead_flush hq, State.finishFlush_answers rfl fun e he => ?_]
    · rfl
    · change e ∈ s.buffer.markAll.entries at he
      rw [hnone] at he
      cases he

end Sys2Proof.Machine

/-! # What the buffer offers, and the choice of an entry to drain (R129, R130, R136) -/

namespace Sys2Proof.Machine

/-- Settles O13: the entries of the line laid over one another in their order, the newest last. -/
theorem bufferOffersNewestByte : Obligations.BufferOffersNewestByte := by
  intro w n
  rw [WriteBuffer.offered_eq]
  obtain ⟨hvalid, hdata⟩ := overlay ((w.entries.filter fun e => e.line = n).map BufferEntry.bytes)
  refine ⟨fun i => (hvalid i).trans ?_, fun pre post e i hw hline hbit hnewest => ?_⟩
  · simp [BufferEntry.bytes, and_assoc]
  · refine hdata ((pre.filter fun e => e.line = n).map BufferEntry.bytes) e.bytes
      ((post.filter fun e => e.line = n).map BufferEntry.bytes) i (by simp [hw, hline]) hbit fun y hy => ?_
    obtain ⟨f, hf, rfl⟩ := List.mem_map.1 hy
    obtain ⟨hpost, hfline⟩ := List.mem_filter.1 hf
    exact Bool.eq_false_iff.2 fun hfbit => hnewest f hpost ⟨of_decide_eq_true hfline, hfbit⟩

/-! ## The triggers (R129) -/

/-- One of the five triggers holds for a FILLING entry: full, age, flush, hold, pressure (R129). -/
def State.Due (s : State) (e : BufferEntry) : Prop :=
  e.state = .filling ∧
    (e.valid = BitVec.allOnes 32 ∨ e.ageDue = true ∨ e.flushMark = true ∨ s.hold.state = .entering ∨
      (s.port.stage = some .waitingEntry ∧ s.buffer.entries.find? (fun f => f.state = .filling) = some e))

theorem State.isDue_iff (s : State) (e : BufferEntry) : s.isDue e = true ↔ s.Due e := by
  have holdest : s.buffer.entries.find? (fun f => f.state = .filling) = s.buffer.oldestFilling := rfl
  simp only [State.isDue, State.Due, State.waitingWrite, holdest, Bool.and_eq_true, Bool.or_eq_true, decide_eq_true_eq]
  tauto

section
variable {s : State}

theorem State.chooseEntry_busy (h : s.buffer.draining ≠ none) : s.chooseEntry = s := by
  obtain ⟨e, he⟩ := Option.ne_none_iff_exists'.1 h
  unfold State.chooseEntry
  rw [he]

theorem State.chooseEntry_rests (h : ∀ f ∈ s.buffer.entries, ¬ s.Due f) : s.chooseEntry = s := by
  have hnone : s.buffer.entries.find? s.isDue = none :=
    List.find?_eq_none.2 fun f hf hdue => h f hf ((s.isDue_iff f).1 hdue)
  unfold State.chooseEntry
  rw [hnone]
  split <;> rfl

theorem State.chooseEntry_takes {e : BufferEntry} (hfree : s.buffer.draining = none)
    (he : s.buffer.entries.find? s.isDue = some e) :
    s.chooseEntry = s.setBuffer (s.buffer.updateFilling e.line fun e => { e with state := .draining }) := by
  unfold State.chooseEntry
  rw [hfree, he]

end

/-- The entry that fills a line is the only one changed (R124). -/
theorem WriteBuffer.updateFilling_split {w : WriteBuffer} (h : BufferedOk w.entries) {pre post : List BufferEntry}
    {e : BufferEntry} (hw : w.entries = pre ++ e :: post) (he : e.state = .filling)
    (f : BufferEntry → BufferEntry) :
    w.updateFilling e.line f = { w with entries := pre ++ f e :: post } := by
  have hfilling := h.filling
  rw [hw, List.pairwise_append, List.pairwise_cons] at hfilling
  obtain ⟨-, ⟨hpost, -⟩, hpre⟩ := hfilling
  have hkept {l : List BufferEntry} (hother : ∀ x ∈ l, ¬ (x.state = .filling ∧ x.line = e.line)) :
      l.map (fun x => if x.fills e.line then f x else x) = l :=
    (List.map_congr_left fun x hx => if_neg fun g => hother x hx ((x.fills_iff _).1 g)).trans (List.map_id' l)
  have hbefore := hkept fun x hx ⟨hf, hline⟩ => hpre x hx e List.mem_cons_self ⟨hf, he, hline⟩
  have hafter := hkept fun x hx ⟨hf, hline⟩ => hpost x hx ⟨he, hf, hline.symm⟩
  rw [WriteBuffer.updateFilling, hw, List.map_append, List.map_cons, hbefore, hafter,
    if_pos ((e.fills_iff _).2 ⟨he, rfl⟩)]

/-! ## The drain age (R129, R130) -/

section
variable {s : State} {line : Line}

theorem State.drainAgeEnds_reached {e : BufferEntry} (he : s.buffer.filling line = some e) (h : e.ageDue = false) :
    s.drainAgeEnds line = ((s.moveTo (e.born + s.buffer.age)).expireAge).chooseEntry := by
  unfold State.drainAgeEnds
  rw [he]
  exact if_neg (by simp [h])

theorem State.drainAgeEnds_rests
    (h : ∀ e ∈ s.buffer.entries, e.state = .filling → e.line = line → e.ageDue = true) : s.drainAgeEnds line = s := by
  unfold State.drainAgeEnds
  split
  · rename_i e he
    obtain ⟨hmem, hstate, hline⟩ := WriteBuffer.filling_some he
    exact if_pos (h e hmem hstate hline)
  · rfl

end

/-- Settles O14: the first entry that is due is the one that changes; at its drain age the entry of the line is due. -/
theorem entriesFallDueAndOldestIsChosen : Obligations.EntriesFallDueAndOldestIsChosen := by
  refine ⟨?choice, fun line s hp => ⟨?reached, fun h => ?rests⟩⟩
  case choice =>
    intro s hok due
    refine ⟨fun pre e post hw hfilling hdue hpre => ?_, fun h => ?_⟩
    · have hfirst : s.buffer.entries.find? s.isDue = some e := by
        rw [hw, List.find?_append, List.find?_eq_none.2 fun f hf g => hpre f hf ((s.isDue_iff f).1 g),
          List.find?_cons_of_pos ((s.isDue_iff e).2 hdue)]
        rfl
      rw [State.chooseEntry_takes (WriteBuffer.draining_none.2 hfilling) hfirst,
        WriteBuffer.updateFilling_split (s.bufferOk_iff.1 hok) hw hdue.1]
    · obtain ⟨f, hf, hdraining⟩ | hnone := h
      · refine State.chooseEntry_busy fun hfree => ?_
        have hfilling := WriteBuffer.draining_none.1 hfree f hf
        rw [hdraining] at hfilling
        cases hfilling
      · exact State.chooseEntry_rests hnone
  case reached =>
    intro e he hage now
    obtain ⟨hmem, hstate, -⟩ := WriteBuffer.filling_some he
    exact ⟨_, (exec_on hp _).trans (congrArg _ (State.drainAgeEnds_reached he hage)),
      (s.moveTo_same _).trans (State.expireAge_same _), rfl, rfl,
      List.mem_map.2 ⟨e, hmem, if_pos ⟨hstate, le_later _ _⟩⟩, (State.isDue_iff _ _).2 ⟨hstate, .inr (.inl rfl)⟩⟩
  case rests => exact (exec_on hp _).trans (congrArg _ (State.drainAgeEnds_rests h))

end Sys2Proof.Machine

/-! # DRAIN_COMPLETE (R131 to R135, R139) -/

namespace Sys2Proof.Machine

/-! ## The words a drain writes (R131, R132) -/

/-- The word a drain of entry `e` stores for word `k` of its line: the entry's own bytes where it covers the whole word,
and otherwise these over the word decoded in row `p`. -/
def State.drainWord (s : State) (e : BufferEntry) (p : PhysicalRow) (k : Fin 4) : StoredWord :=
  if wordValid e.valid k = 0xFF then .valid (wordData e.data k)
  else mergedWord (wordValid e.valid k) (wordData e.data k) (s.word (lineBank e.line) p (lineWord e.line k)).decode

/-- The words of a line of which the entry holds a byte. -/
def BufferEntry.coveredWords (e : BufferEntry) : List (Fin 4) :=
  lineWords.filter fun k => decide (wordValid e.valid k ≠ 0)

theorem BufferEntry.mem_coveredWords {e : BufferEntry} {k : Fin 4} :
    k ∈ e.coveredWords ↔ wordValid e.valid k ≠ 0 := by
  simp [BufferEntry.coveredWords, lineWords]

theorem State.drainWrites_eq (s : State) (e : BufferEntry) (p : PhysicalRow) :
    s.drainWrites e p = e.coveredWords.map fun k => (lineWord e.line k, s.drainWord e p k) := by
  rw [State.drainWrites, BufferEntry.coveredWords, ← List.filterMap_eq_filter, List.map_filterMap]
  refine List.filterMap_congr fun k _ => ?_
  dsimp only
  by_cases hzero : wordValid e.valid k = 0
  · rw [if_pos hzero, Option.guard, if_neg (by simp [hzero])]
    rfl
  · rw [if_neg hzero, Option.guard, if_pos (decide_eq_true hzero), Option.map_some, State.drainWord]
    split <;> rfl

theorem lineWord_injective (n : Line) : Function.Injective (lineWord n) := fun j k h => by
  have hval : 4 * (n.toNat % 32) + j.val = 4 * (n.toNat % 32) + k.val := congrArg Fin.val h
  exact Fin.ext (by omega)

theorem State.drainWrites_words (s : State) (e : BufferEntry) (p : PhysicalRow) :
    (s.drainWrites e p).map Prod.fst = e.coveredWords.map (lineWord e.line) := by
  rw [State.drainWrites_eq, List.map_map]
  rfl

theorem State.drainWrites_nodup (s : State) (e : BufferEntry) (p : PhysicalRow) :
    ((s.drainWrites e p).map Prod.fst).Nodup := by
  rw [State.drainWrites_words]
  exact ((List.nodup_finRange 4).filter _).map (lineWord_injective e.line)

theorem mergedWord_poison (valid : Byte) (new : BitVec 64) (old : Decoded) :
    (mergedWord valid new old).poison = old.outcome.lost := by
  unfold mergedWord
  cases old.outcome.lost <;> rfl

section
variable {s : State} {e : BufferEntry} {p : PhysicalRow} {k : Fin 4}

theorem State.drainWord_full (h : wordValid e.valid k = 0xFF) :
    s.drainWord e p k = .valid (wordData e.data k) := if_pos h

theorem State.drainWord_partly (h : wordValid e.valid k ≠ 0xFF) :
    s.drainWord e p k =
      mergedWord (wordValid e.valid k) (wordData e.data k)
        (s.word (lineBank e.line) p (lineWord e.line k)).decode := if_neg h

/-- A word is written as poison where it is covered in part and its data is lost (R132). -/
theorem State.drainWord_poison :
    (s.drainWord e p k).poison = true ↔
      wordValid e.valid k ≠ 0xFF ∧ (s.word (lineBank e.line) p (lineWord e.line k)).decode.outcome.lost = true := by
  by_cases hfull : wordValid e.valid k = 0xFF
  · rw [State.drainWord_full hfull]
    exact ⟨fun h => Bool.noConfusion h, fun h => absurd hfull h.1⟩
  · rw [State.drainWord_partly hfull, mergedWord_poison]
    exact ⟨fun h => ⟨hfull, h⟩, fun h => h.2⟩

end

theorem anyPoison_drainWrites (s : State) (e : BufferEntry) (p : PhysicalRow) :
    anyPoison (s.drainWrites e p) = true ↔
      ∃ k : Fin 4, (wordValid e.valid k ≠ 0 ∧ wordValid e.valid k ≠ 0xFF) ∧
        ((s.word (lineBank e.line) p (lineWord e.line k)).decode.outcome = .uncorrectable ∨
          (s.word (lineBank e.line) p (lineWord e.line k)).decode.outcome = .poisoned) := by
  simp only [anyPoison, State.drainWrites_eq, List.any_map, List.any_eq_true, Function.comp_apply,
    BufferEntry.mem_coveredWords, State.drainWord_poison, DecodeOutcome.lost_iff, and_assoc]

/-! ## The array after the drain (R133) -/

section
variable {s : State} {p : PhysicalRow} {rows : List PhysicalRow} {e : BufferEntry}

theorem State.word_drainLeft (s : State) (b : Bank) (p : PhysicalRow) (rows : List PhysicalRow) (e : BufferEntry)
    (c : Bank) (row : PhysicalRow) (w : WordInRow) :
    (s.drainLeft b p rows e).word c row w = (s.drainWritten b p rows e).word c row w :=
  ((s.drainReported_same b p rows e).trans (s.drainLeft_same b p rows e)).word c row w (by decide)

theorem State.word_drainLeft_kept {b c : Bank} {row : PhysicalRow} {w : WordInRow}
    (h : ¬ (c = b ∧ row ∈ rows ∧ ∃ k : Fin 4, w = lineWord e.line k ∧ wordValid e.valid k ≠ 0)) :
    (s.drainLeft b p rows e).word c row w = s.word c row w := by
  rw [State.word_drainLeft]
  refine (State.word_writeRows_ne _ _ _ fun ⟨hc, hrow, hmem⟩ => h ⟨hc, hrow, ?_⟩).trans
    ((s.release_same b).word c row w (by decide))
  rw [State.drainWrites_words] at hmem
  obtain ⟨k, hk, rfl⟩ := List.mem_map.1 hmem
  exact ⟨k, rfl, BufferEntry.mem_coveredWords.1 hk⟩

theorem State.word_drainLeft_written (hs : s.memoryOk) (b : Bank) {row : PhysicalRow} (hrow : row ∈ rows) {k : Fin 4}
    (hk : wordValid e.valid k ≠ 0) :
    (s.drainLeft b p rows e).word b row (lineWord e.line k) = s.drainWord e p k := by
  have hmem : (lineWord e.line k, s.drainWord e p k) ∈ s.drainWrites e p := by
    rw [State.drainWrites_eq]
    exact List.mem_map.2 ⟨k, BufferEntry.mem_coveredWords.2 hk, rfl⟩
  rw [State.word_drainLeft]
  exact State.word_writeRows_mem _ b rows _ (s.drainWrites_nodup e p) hmem hrow (State.release_memoryOk hs b)

end

/-! ## The completion -/

/-- The reports read nothing that the release and the writing have changed. -/
theorem State.drainLeft_reports (s : State) (b : Bank) (p : PhysicalRow) (rows : List PhysicalRow) (e : BufferEntry) :
    SameReports (s.reportAll .drain b (lineRow e.line) p (s.drainReads e p)) (s.drainLeft b p rows e) := by
  have hreports := ((s.drainWritten_same b p rows e).sameReports (by decide) (by decide) (by decide)
    (by decide)).reportAll .drain b (lineRow e.line) p (s.drainReads e p)
  exact ⟨hreports.errors, hreports.remap, hreports.alerts, hreports.clock⟩

/-- The head waits for an entry, and is served again, or nothing is (R126). -/
theorem State.serveWaiting_cases (s : State) :
    (s.port.stage = some .waitingEntry → s.serveWaiting = s.serveHead) ∧
      (s.port.stage ≠ some .waitingEntry → s.serveWaiting = s) :=
  ⟨fun h => if_pos (decide_eq_true h), fun h => if_neg fun g => h (of_decide_eq_true g)⟩

theorem State.drainEnds_finishing {s : State} {op : Operation} {b : Bank} {p q : PhysicalRow}
    {more : List PhysicalRow} {e : BufferEntry} (h : s.finishing op b q)
    (hw : op.work = .lineWrite e.line ∨ op.work = .lineMerge e.line) (hr : op.rows = p :: more)
    (he : s.buffer.draining = some e) :
    s.drainEnds =
      (s.drainLeft b p op.rows e).serveWaiting.chooseEntry.finishFlush.engineRun.furtherCloseAll := by
  have hdrain : op.work.isLineDrain = true := by
    obtain hw | hw := hw <;> rw [hw] <;> rfl
  rw [← State.completeDrain_eq]
  unfold State.drainEnds
  rw [State.finishing_ready h]
  dsimp only
  rw [hr, he]
  exact if_pos hdrain

/-- Settles O32: what the drain leaves, word by word, report by report and in the buffer, before the rest of its
moment. -/
theorem drainCompleteWritesLine : Obligations.DrainCompleteWritesLine := by
  refine ⟨State.serveWaiting_cases, ?_⟩
  intro s op p q more e hmem hf hw hrows he b old partly poison
  have hbuffer := s.drainLeft_buffer b p op.rows e
  have hreports := s.drainLeft_reports b p op.rows e
  refine ⟨s.drainLeft b p op.rows e,
    (exec_on hf.1 _).trans (congrArg _ (State.drainEnds_finishing hf hw hrows he)),
    State.release_then (((State.writeRows_same _ b op.rows _).trans
      ((s.drainReported_same b p op.rows e).trans (s.drainLeft_same b p op.rows e))).mono (by decide)) (by decide)
      (by decide),
    fun c row w hout => State.word_drainLeft_kept hout, fun row hrow k => ⟨fun hfull => ?full, fun hpart => ?part⟩,
    ⟨hreports.errors, hreports.remap, hreports.alerts⟩, ?entries, ?age, ?flush⟩
  case full =>
    rw [State.word_drainLeft_written hmem b hrow (by rw [hfull]; decide), State.drainWord_full hfull]
  case part =>
    rw [State.word_drainLeft_written hmem b hrow hpart.1, State.drainWord_partly hpart.2]
    exact ⟨mergeBytes 8 (wordValid e.valid k) (wordData e.data k) (old k).data, rfl,
      fun i _ => byteIn_mergeBytes 8 _ _ _ i⟩
  case entries => rw [hbuffer]; rfl
  case age => rw [hbuffer]; rfl
  case flush =>
    have hpoison : anyPoison (s.drainWrites e p) = true ↔ poison := anyPoison_drainWrites s e p
    rw [hbuffer, WriteBuffer.drained]
    simp only [Bool.or_eq_true, Bool.and_eq_true, decide_eq_true_eq, hpoison, and_assoc]

end Sys2Proof.Machine

/-! # REQUEST_OFFER, SQ_LOWERED and REQUEST_ACCEPT (R146, R147, R148, R168, R170) -/

namespace Sys2Proof.Machine

/-! ## The offer seen, by hold state (R147) -/

section
variable {s : State}

theorem State.offerSeen_awake (h : s.hold.state = .active ∨ s.hold.state = .waking) : s.offerSeen = s := by
  unfold State.offerSeen
  obtain h | h := h <;> rw [h]

theorem State.offerSeen_entering (h : s.hold.state = .entering) :
    s.offerSeen = (s.setHold { s.hold with state := .active }).engineRun := by
  unfold State.offerSeen
  rw [h]
  rfl

theorem State.offerSeen_hold (h : s.hold.state = .hold) :
    s.offerSeen = (s.setHold { state := .waking, wakeEnd := some (s.clock.now + 2000) }).engineRun := by
  unfold State.offerSeen
  rw [h]
  rfl

end

/-! ## The offer at the pins (R146) -/

theorem SystemPort.offered_resetN (p : SystemPort) (r : Request) : (p.offered r).resetN = p.resetN := by
  unfold SystemPort.offered
  split <;> rfl

theorem State.offer_seen {s : State} {r : Request} (hhigh : s.port.resetN = true)
    (hoffer : (s.port.offered r).offer.isSome = true) :
    s.offer r = (s.setPort (s.port.offered r)).offerSeen :=
  if_pos ⟨(s.port.offered_resetN r).trans hhigh, hoffer⟩

theorem State.offer_unseen {s : State} {r : Request}
    (h : s.port.resetN = false ∨ (s.port.offered r).offer = none) :
    s.offer r = s.setPort (s.port.offered r) := by
  refine if_neg fun ⟨hhigh, hoffer⟩ => ?_
  obtain hlow | hnone := h
  · exact absurd ((s.port.offered_resetN r).symm.trans hhigh) (by simp [hlow])
  · exact absurd hoffer (by simp [hnone])

/-- Settles O6: the offer seen or not, and seen in one hold state after another; `SQ_LOWERED` acts on the port alone. -/
theorem requestOfferedOrWithdrawn : Obligations.RequestOfferedOrWithdrawn := by
  refine ⟨fun r s hp => ?offered, fun s hp => ⟨s.lowerSq, exec_on hp _, s.lowerSq_same, rfl⟩⟩
  case offered =>
    rw [exec_on hp]
    refine ⟨fun hunseen => congrArg _ (State.offer_unseen hunseen), fun hhigh hoffer => ?_⟩
    have hseen : effect (.requestOffer r) s = (s.setPort (s.port.offered r)).offerSeen :=
      State.offer_seen hhigh hoffer
    rw [hseen]
    exact ⟨fun hawake => congrArg _ (State.offerSeen_awake hawake),
      fun hentering => congrArg _ (State.offerSeen_entering hentering),
      fun hhold => congrArg _ (State.offerSeen_hold hhold)⟩

/-! ## Acceptance (R146, R148) -/

theorem State.acceptOffer_some {s : State} {r : Request} (h : s.canAccept = some r) :
    s.acceptOffer = (s.accept r).chooseEntry := by
  unfold State.acceptOffer
  rw [h]

theorem State.acceptOffer_none {s : State} (h : s.canAccept = none) : s.acceptOffer = s := by
  unfold State.acceptOffer
  rw [h]

/-- Settles O7: with the three conditions the offer is what can be accepted, and without one of them nothing is. -/
theorem requestAcceptNeedsThreeConditions : Obligations.RequestAcceptNeedsThreeConditions := by
  intro s hp
  rw [exec_on hp]
  refine ⟨fun r hoffer hroom hhigh hactive => ⟨_, s.setPort_same _, rfl, ?_⟩, fun hwithout => ?_⟩
  · have hcan : s.canAccept = some r := (State.canAccept_some hroom hhigh hactive).trans hoffer
    exact congrArg _ (State.acceptOffer_some hcan)
  · exact congrArg _ (State.acceptOffer_none (State.canAccept_none hwithout))

end Sys2Proof.Machine

/-! # The hold state: HOLD_ENTER, T_WAKE_EXPIRY, HOLD and WAKE (R165, R166, R168, R170) -/

namespace Sys2Proof.Machine

/-! ## HOLD_ENTER (R166) -/

/-- The last of the five entry conditions, opened. -/
theorem State.rowsClosed_iff (s : State) :
    s.rowsClosed = true ↔ ∀ b, (s.bank b).state = .closed ∨ (s.bank b).state = .refreshing := by
  simp [State.rowsClosed, mem_allBanks]

/-- The guard of HOLD_ENTER, opened: ENTERING and the five entry conditions. -/
theorem State.mayEnterHold_iff (s : State) :
    (s.hold.state = .entering ∧ s.entryReady = true ∧ s.rowsClosed = true) ↔
      s.hold.state = .entering ∧ s.port.queue = [] ∧ s.buffer.entries = [] ∧ s.stepInFlight = false ∧
        (∀ b, 0 ≤ (s.balanceOf b).balance) ∧ ∀ b, (s.bank b).state = .closed ∨ (s.bank b).state = .refreshing := by
  rw [State.entryReady_iff, State.rowsClosed_iff]
  simp only [and_assoc]

/-! ## T_WAKE_EXPIRY (R170) -/

theorem State.wakeEnds_waking {s : State} {w : Time} (h : s.hold = { state := .waking, wakeEnd := some w }) :
    s.wakeEnds = (s.moveTo w).setHold { state := .active, wakeEnd := none } := by
  unfold State.wakeEnds
  rw [h]

theorem State.wakeEnds_not_waking {s : State} (h : s.hold.state ≠ .waking) : s.wakeEnds = s := by
  unfold State.wakeEnds
  split
  case h_1 hwaking _ => exact absurd hwaking h
  case h_2 => rfl

/-- Settles O42: the guard of HOLD_ENTER holds or not, and the window of T_WAKE runs or not. -/
theorem holdEnterAndWakeEnd : Obligations.HoldEnterAndWakeEnd := by
  refine ⟨fun s hp => ?enter, fun s w hp => ?wake⟩
  case enter =>
    rw [exec_on hp]
    refine ⟨fun hall => ⟨s.enterHold, rfl, s.enterHold_same, ?_⟩, fun hnot => ?_⟩
    · have hentered : s.enterHold = (s.setHold { s.hold with state := .hold }).raise .holdEntered :=
        if_pos (s.mayEnterHold_iff.2 hall)
      rw [hentered]
      exact ⟨rfl, rfl⟩
    · exact congrArg _ (if_neg fun hmay => hnot (s.mayEnterHold_iff.1 hmay))
  case wake =>
    rw [exec_on hp]
    refine ⟨fun hwaking => ⟨s.wakeEnds, rfl, s.wakeEnds_same, ?_⟩, fun hother => ?_⟩
    · rw [State.wakeEnds_waking hwaking]
      exact ⟨rfl, rfl⟩
    · exact congrArg _ (State.wakeEnds_not_waking hother)

/-! ## The commands HOLD and WAKE by the hold state (R165) -/

theorem effect_hold (s : State) :
    effect .hold s =
      ((s.linkAt 3).commandNoted 1).commandHold.2.setResult ((s.linkAt 3).commandNoted 1).commandHold.1 :=
  s.linkWrite_command .hold

theorem effect_wake (s : State) :
    effect .wake s =
      ((s.linkAt 3).commandNoted 2).commandWake.2.setResult ((s.linkAt 3).commandNoted 2).commandWake.1 :=
  s.linkWrite_command .wake

section
variable {s : State}

theorem State.commandHold_active (h : s.hold.state = .active) : s.commandHold = (.done, s.beginEntry) := by
  unfold State.commandHold
  rw [h]

theorem State.commandHold_not_active (h : s.hold.state ≠ .active) : s.commandHold = (.busy, s) := by
  unfold State.commandHold
  split
  case h_1 hactive => exact absurd hactive h
  all_goals rfl

theorem State.commandWake_entering (h : s.hold.state = .entering) :
    s.commandWake = (.done, (s.setHold { s.hold with state := .active }).engineRun) := by
  unfold State.commandWake
  rw [h]
  rfl

theorem State.commandWake_hold (h : s.hold.state = .hold) :
    s.commandWake = (.done, (s.setHold { state := .waking, wakeEnd := some (s.clock.now + 2000) }).engineRun) := by
  unfold State.commandWake
  rw [h]
  rfl

theorem State.commandWake_awake (h : s.hold.state = .active ∨ s.hold.state = .waking) :
    s.commandWake = (.busy, s) := by
  unfold State.commandWake
  obtain h | h := h <;> rw [h]

end

/-- Settles O43: HOLD begins the entry in ACTIVE alone, and WAKE acts in ENTERING and in HOLD alone. -/
theorem holdAndWakeByHoldState : Obligations.HoldAndWakeByHoldState := by
  intro s hp noted
  rw [exec_on hp, exec_on hp, effect_hold, effect_wake]
  refine ⟨fun hactive => ?begins, fun hother => ?refused, fun hentering => ?abandons, fun hhold => ?wakes,
    fun hawake => ?awake⟩
  case begins =>
    let entering := (noted 1).setHold { s.hold with state := .entering }
    have hclosed : SameBut [.bankEngine] entering entering.closeAll := entering.closeAll_same
    obtain ⟨hidle, hbanks⟩ := entering.closeAll_bank
    refine ⟨entering.closeAll, ?_, (((noted 1).setHold_same _).trans hclosed).mono (by decide), hclosed.hold, hidle,
      hbanks⟩
    rw [State.commandHold_active (s := noted 1) hactive]
    rfl
  case refused => rw [State.commandHold_not_active (s := noted 1) hother]
  case abandons =>
    rw [State.commandWake_entering (s := noted 2) hentering]
    rfl
  case wakes =>
    rw [State.commandWake_hold (s := noted 2) hhold]
    rfl
  case awake => rw [State.commandWake_awake (s := noted 2) hawake]

end Sys2Proof.Machine

/-! # POWER_LOSS, and the part without power (R182) -/

namespace Sys2Proof.Machine

theorem State.setPort_resetN_self {s : State} {level : Bool} (h : s.port.resetN = level) :
    s.setPort { s.port with resetN := level } = s := by
  subst h
  rfl

/-- Without power RESET_N_FALL sets the level of RESET_N, and no port reset begins (log 11). -/
theorem State.resetNFall_off {s : State} (hoff : s.powered = false) :
    exec .resetNFall s = .next (s.setPort { s.port with resetN := false }) := by
  simp only [exec, execResetNFall]
  cases hlevel : s.port.resetN with
  | true => simp [hoff]
  | false => simp [State.setPort_resetN_self hlevel]

/-- Settles O3: the initial state without power, and without power the two edges of RESET_N apart from every other
command. -/
theorem powerLossAndPoweredDown : Obligations.PowerLossAndPoweredDown := by
  refine ⟨fun s => ⟨effect .powerLoss s, rfl, rfl, rfl, rfl, rfl, rfl, rfl, rfl⟩, fun c s hoff hreset hloss => ?_⟩
  obtain rfl | hfall := eq_or_ne c .resetNFall
  · exact ⟨_, State.resetNFall_off hoff, s.setPort_same _, rfl⟩
  obtain rfl | hrise := eq_or_ne c .resetNRise
  · exact ⟨_, rfl, s.setPort_same _, rfl⟩
  exact ⟨s, exec_off hoff hreset hloss hfall hrise, .refl _ s, rfl⟩

end Sys2Proof.Machine

/-! # ACK (R180) -/

namespace Sys2Proof.Machine

theorem State.ack_exec {s : State} (hp : s.powered = true) :
    exec .ack s =
      .next ((((s.linkAt 3).commandNoted 3).setAlerts
        { s.alerts with causes := s.alerts.causes &&& ~~~s.link.commandArg }).setResult .done) :=
  (exec_on hp _).trans (congrArg _ (s.linkWrite_command .ack))

/-- A mask taken out of a byte, bit by bit: beyond the byte both sides are clear. -/
theorem getLsbD_and_not (x y : Byte) (i : Nat) : (x &&& ~~~y).getLsbD i = (x.getLsbD i && !y.getLsbD i) := by
  by_cases hi : i < 8
  · simp [hi]
  · simp [BitVec.getLsbD_of_ge _ i (Nat.le_of_not_lt hi)]

/-- A cause named in the argument is not among the causes left. -/
theorem and_not_and_causeBit {x arg : Byte} {c : Cause} (h : arg &&& c.bit ≠ 0) : (x &&& ~~~arg) &&& c.bit = 0 := by
  have hnamed : arg.getLsbD c.index = true := Bool.of_not_eq_false (mt (and_causeBit_eq_zero_iff arg c).2 h)
  rw [and_causeBit_eq_zero_iff, getLsbD_and_not, hnamed, Bool.not_true, Bool.and_false]

theorem State.raise_pending (s : State) (c : Cause) : (s.raise c).alerts.causes &&& c.bit = c.bit := by
  change (s.alerts.causes ||| c.bit) &&& c.bit = c.bit
  ext i
  rw [BitVec.getElem_and, BitVec.getElem_or]
  cases c.bit[i] <;> simp

/-- Settles O44: the alert unit of `State.ack_exec`, before and after a cause is raised. -/
theorem ackClearsNamedCauses : Obligations.AckClearsNamedCauses := by
  refine ⟨fun s hp => ⟨_, State.ack_exec hp, ?_, rfl, getLsbD_and_not _ _, rfl⟩, fun s c hp hnamed => ⟨?before, ?after⟩⟩
  · exact ((((s.linkAt_same 3).trans (State.commandNoted_same _ 3)).trans (State.setAlerts_same _ _)).trans
      (State.setResult_same _ _)).mono (by decide)
  case before => exact ⟨_, State.ack_exec (s := s.raise c) hp, and_not_and_causeBit hnamed⟩
  case after => exact ⟨_, State.ack_exec hp, and_not_and_causeBit hnamed, State.raise_pending _ c⟩

end Sys2Proof.Machine

/-! # Reports to the error table, and CLEAR_ERRORS (R175, R176, R177) -/

namespace Sys2Proof.Machine

/-! ## The creation number (R175) -/

/-- `n` steps from the counter stands the first creation number that no record holds. -/
def FirstFree (records : List ErrorRecord) (counter : BitVec 16) (n : Nat) : Prop :=
  (∀ j, j < n → ∃ r ∈ records, r.seq = counter + BitVec.ofNat 16 j) ∧
  ∀ r ∈ records, r.seq ≠ counter + BitVec.ofNat 16 n

theorem add_one_add_ofNat {w : Nat} (x : BitVec w) (n : Nat) :
    x + 1 + BitVec.ofNat w n = x + BitVec.ofNat w (n + 1) := by
  rw [BitVec.add_assoc, BitVec.ofNat_add, BitVec.add_comm 1]
  rfl

/-- With the counter's own number held, the search goes on from the next one. -/
theorem FirstFree.next {records : List ErrorRecord} {counter : BitVec 16} {n : Nat}
    (h : FirstFree records counter (n + 1)) : FirstFree records (counter + 1) n := by
  refine ⟨fun j hj => ?_, fun r hr => ?_⟩
  · rw [add_one_add_ofNat]
    exact h.1 (j + 1) (Nat.succ_lt_succ hj)
  · rw [add_one_add_ofNat]
    exact h.2 r hr

theorem freeSeq_eq {records : List ErrorRecord} :
    ∀ {tries n : Nat} {counter : BitVec 16}, FirstFree records counter n → n ≤ tries →
      freeSeq records tries counter = counter + BitVec.ofNat 16 n
  | 0, 0, counter, _, _ => (BitVec.add_zero counter).symm
  | tries + 1, 0, counter, h, _ => by
    have hfree : ¬ (records.any fun r => decide (r.seq = counter)) = true := by simpa using h.2
    rw [freeSeq, if_neg hfree]
    exact (BitVec.add_zero counter).symm
  | tries + 1, n + 1, counter, h, hn => by
    have hheld : (records.any fun r => decide (r.seq = counter)) = true := by simpa using h.1 0 n.succ_pos
    rw [freeSeq, if_pos hheld, freeSeq_eq h.next (Nat.le_of_succ_le_succ hn), add_one_add_ofNat]

/-- The numbers from the counter on are distinct, and one more of them than there are records cannot all be held. -/
theorem exists_seq_free {records : List ErrorRecord} (hlen : records.length < 2 ^ 16) (counter : BitVec 16) :
    ∃ n ≤ records.length, ∀ r ∈ records, r.seq ≠ counter + BitVec.ofNat 16 n := by
  by_contra hall
  push Not at hall
  let tried := (List.range (records.length + 1)).map fun n => counter + BitVec.ofNat 16 n
  have hnodup : tried.Nodup := by
    refine List.Nodup.map_on (fun i hi j hj hij => ?_) List.nodup_range
    have hi := List.mem_range.1 hi
    have hj := List.mem_range.1 hj
    have hmod := congrArg BitVec.toNat ((BitVec.add_right_inj counter).1 hij)
    simp only [BitVec.toNat_ofNat] at hmod
    omega
  have hheld : tried ⊆ records.map ErrorRecord.seq := by
    intro x hx
    obtain ⟨n, hn, rfl⟩ := List.mem_map.1 hx
    obtain ⟨r, hr, hseq⟩ := hall n (Nat.le_of_lt_succ (List.mem_range.1 hn))
    exact List.mem_map.2 ⟨r, hr, hseq⟩
  have hcount := (List.subperm_of_subset hnodup hheld).length_le
  simp only [tried, List.length_map, List.length_range] at hcount
  omega

theorem exists_firstFree {records : List ErrorRecord} (hlen : records.length < 2 ^ 16) (counter : BitVec 16) :
    ∃ n ≤ records.length, FirstFree records counter n := by
  obtain ⟨m, hm, hfree⟩ := exists_seq_free hlen counter
  have hex : ∃ n, ∀ r ∈ records, r.seq ≠ counter + BitVec.ofNat 16 n := ⟨m, hfree⟩
  classical
  refine ⟨Nat.find hex, (Nat.find_min' hex hfree).trans hm, fun j hj => ?_, Nat.find_spec hex⟩
  simpa using Nat.find_min hex hj

/-- A new record: at the end, with the first number that no record holds, from which the counter goes on. -/
theorem ErrorTable.create_eq (t : ErrorTable) (hlen : t.records.length ≤ 16) (e : ErrorReport) (now : DeviceTime) :
    ∃ n : Nat, FirstFree t.records t.counter n ∧
      t.create e now =
        { records := t.records ++
            [{ seq := t.counter + BitVec.ofNat 16 n, kind := e.kind, source := e.source, bank := e.bank
               physicalRow := e.physicalRow, word := e.word, count := 1, firstMs := now, lastMs := now }]
          counter := t.counter + BitVec.ofNat 16 n + 1, saturated := t.saturated } := by
  obtain ⟨n, hn, hfirst⟩ := exists_firstFree (hlen.trans_lt (by decide)) t.counter
  refine ⟨n, hfirst, ?_⟩
  unfold ErrorTable.create
  rw [freeSeq_eq hfirst (Nat.le_succ_of_le hn)]

/-! ## The CE record that a full table replaces (R176) -/

/-- `r` is the CE record with the oldest `last_ms`, the first created among equals. -/
theorem oldestCe_split {now : DeviceTime} {pre post : List ErrorRecord} {r : ErrorRecord} (hr : r.kind = .ce)
    (hpre : ∀ x ∈ pre, x.kind = .ce → x.age now < r.age now)
    (hpost : ∀ x ∈ post, x.kind = .ce → x.age now ≤ r.age now) : oldestCe now (pre ++ r :: post) = some r := by
  rw [oldestCe_eq, List.filter_append, List.filter_cons_of_pos (by simpa using hr)]
  refine foldl_better_eq (fun x hx => ?_) fun x hx => ?_
  · obtain ⟨hx, hce⟩ := List.mem_filter.1 hx
    simpa using hpre x hx (by simpa using hce)
  · obtain ⟨hx, hce⟩ := List.mem_filter.1 hx
    simpa using hpost x hx (by simpa using hce)

theorem oldestCe_none {now : DeviceTime} {records : List ErrorRecord} (h : ∀ r ∈ records, r.kind ≠ .ce) :
    oldestCe now records = none := by
  rw [oldestCe_eq, List.filter_eq_nil_iff.2 (by simpa using h)]
  rfl

/-! ## A report, case by case -/

section
variable {s : State} {e : ErrorReport}

theorem ErrorReport.hasKeyOf_iff (e : ErrorReport) (r : ErrorRecord) : e.hasKeyOf r = true ↔
    r.kind = e.kind ∧ r.bank = e.bank ∧ r.physicalRow = e.physicalRow ∧ r.word = e.word := decide_eq_true_iff

theorem State.report_repeat (h : ∃ r ∈ s.errors.records, e.hasKeyOf r = true) :
    s.report e = s.setErrors
      { s.errors with
        records := s.errors.records.map fun r => if e.hasKeyOf r then r.repeated s.clock.deviceTime else r } :=
  if_pos (List.any_eq_true.2 h)

theorem State.report_room (hnew : ∀ r ∈ s.errors.records, e.hasKeyOf r = false) (h : s.errors.records.length < 16) :
    s.report e = s.setErrors (s.errors.create e s.clock.deviceTime) :=
  (if_neg (by simpa using hnew)).trans (if_pos h)

theorem State.report_replaces {r : ErrorRecord} (hnew : ∀ r ∈ s.errors.records, e.hasKeyOf r = false)
    (hfull : s.errors.records.length = 16) (hr : oldestCe s.clock.deviceTime s.errors.records = some r) :
    s.report e = s.setErrors
      (ErrorTable.create { s.errors with records := s.errors.records.erase r } e s.clock.deviceTime) := by
  have hroom : ¬ s.errors.records.length < Config.errorSize := hfull.not_lt
  unfold State.report
  dsimp only
  rw [if_neg (by simpa using hnew), if_neg hroom, hr]

theorem State.report_drops (hnew : ∀ r ∈ s.errors.records, e.hasKeyOf r = false)
    (hfull : s.errors.records.length = 16) (hr : oldestCe s.clock.deviceTime s.errors.records = none) :
    s.report e =
      if e.kind = .ce ∨ s.errors.saturated = true then s
      else (s.setErrors { s.errors with saturated := true }).raise .tableSaturated := by
  have hroom : ¬ s.errors.records.length < Config.errorSize := hfull.not_lt
  unfold State.report
  dsimp only
  rw [if_neg (by simpa using hnew), if_neg hroom, hr]

/-- A UE or UNREPAIRABLE dropped sets `saturated`, and raises TABLE_SATURATED when it was clear. -/
theorem State.report_saturates (hnew : ∀ r ∈ s.errors.records, e.hasKeyOf r = false)
    (hfull : s.errors.records.length = 16) (hr : oldestCe s.clock.deviceTime s.errors.records = none)
    (hkind : e.kind ≠ .ce) :
    (s.report e).errors = { s.errors with saturated := true } ∧
      (s.report e).alerts =
        if s.errors.saturated then s.alerts else { s.alerts with causes := s.alerts.causes ||| 0x40 } := by
  rw [State.report_drops hnew hfull hr]
  cases hsat : s.errors.saturated with
  | true =>
    rw [if_pos (Or.inr rfl)]
    exact ⟨hsat ▸ rfl, rfl⟩
  | false =>
    rw [if_neg (by simpa using hkind)]
    exact ⟨rfl, rfl⟩

end

/-! ## CLEAR_ERRORS (R177) -/

theorem State.clearErrors_exec {s : State} (hp : s.powered = true) :
    exec .clearErrors s =
      .next ((((s.linkAt 3).commandNoted 4).setErrors s.errors.cleared).setResult .done) :=
  (exec_on hp _).trans (congrArg _ (s.linkWrite_command .clearErrors))

/-- Settles O38: a repeat in its place, a new key by the room there is, and the table emptied. -/
theorem errorTableReports : Obligations.ErrorTableReports := by
  refine ⟨fun s e hlen => ?_, fun s hp => ⟨_, State.clearErrors_exec hp, ?_, rfl, rfl⟩⟩
  · intro t now keyed made
    have hkey (r : ErrorRecord) : e.hasKeyOf r = true ↔ keyed r := e.hasKeyOf_iff r
    refine ⟨s.report_same e, fun ⟨r, hr, hk⟩ => ?repeated, fun hnone => ?new⟩
    case repeated =>
      have ht : t = _ := State.report_repeat ⟨r, hr, (hkey r).2 hk⟩
      rw [ht]
      refine ⟨rfl, rfl, rfl, List.length_map .., fun k x hx => ?_⟩
      rw [State.setErrors_errors, List.getElem?_map, hx, Option.map_some]
      exact ⟨fun hother => congrArg some (if_neg (mt (hkey x).1 hother)),
        fun hsame => congrArg some (if_pos ((hkey x).2 hsame))⟩
    case new =>
      have hnew : ∀ r ∈ s.errors.records, e.hasKeyOf r = false := fun r hr =>
        Bool.eq_false_iff.2 (mt (hkey r).1 (hnone r hr))
      have hmade {old : List ErrorRecord} (hold : old.length ≤ 16)
          (ht : t = s.setErrors (ErrorTable.create { s.errors with records := old } e now)) :
          t.alerts = s.alerts ∧ made old := by
        obtain ⟨n, ⟨hheld, hfree⟩, hcreate⟩ := ErrorTable.create_eq { s.errors with records := old } hold e now
        have hmade := ht.trans (congrArg s.setErrors hcreate)
        exact ⟨(congrArg State.alerts hmade).trans rfl, n, hheld, hfree, congrArg State.errors hmade⟩
      refine ⟨fun hroom => hmade hlen (State.report_room hnew hroom), fun pre r post hfull hsplit hce hpre hpost => ?_,
        fun hfull hother => ?_⟩
      · have hfirst : r ∉ pre := fun hmem => lt_irrefl _ (hpre r hmem hce)
        have hchosen : oldestCe now s.errors.records = some r := hsplit ▸ oldestCe_split hce hpre hpost
        have herase : s.errors.records.erase r = pre ++ post := by
          rw [hsplit, List.erase_append_right _ hfirst, List.erase_cons_head]
        have hrest : (pre ++ post).length ≤ 16 := herase ▸ (List.length_erase_le).trans hlen
        exact hmade hrest (herase ▸ State.report_replaces hnew hfull hchosen)
      · have hchosen := oldestCe_none (now := now) hother
        exact ⟨fun hkind => (State.report_drops hnew hfull hchosen).trans (if_pos (Or.inl hkind)),
          State.report_saturates hnew hfull hchosen⟩
  · exact ((((s.linkAt_same 3).trans (State.commandNoted_same _ 4)).trans (State.setErrors_same _ _)).trans
      (State.setResult_same _ _)).mono (by decide)

end Sys2Proof.Machine

/-! # The record windows (R187, R188) -/

namespace Sys2Proof.Machine

/-! ## Numbers in bytes, the least significant first (R188) -/

/-- The number in the `n` bytes of a window from byte `i` on. -/
def fieldOf (window : List Byte) (i n : Nat) : Nat := numberOf ((window.drop i).take n)

theorem byteOf_toNat (n k : Nat) : (byteOf n k).toNat = n / 256 ^ k % 256 := BitVec.toNat_ofNat ..

theorem byteOf_succ (n k : Nat) : byteOf n (k + 1) = byteOf (n / 256) k := by
  unfold byteOf
  rw [Nat.div_div_eq_div_mul, pow_succ']

theorem numberOf_byteOf (m : Nat) : ∀ n : Nat, numberOf ((List.range m).map (byteOf n)) = n % 256 ^ m := by
  induction m with
  | zero => exact fun n => (Nat.mod_one n).symm
  | succ m ih =>
    intro n
    have hrest : (List.range m).map (byteOf n ∘ Nat.succ) = (List.range m).map (byteOf (n / 256)) :=
      List.map_congr_left fun k _ => byteOf_succ n k
    rw [List.range_succ_eq_map, List.map_cons, List.map_map, hrest, pow_succ', Nat.mod_mul, ← ih]
    change (byteOf n 0).toNat + 256 * numberOf _ = _
    rw [byteOf_toNat, pow_zero, Nat.div_one]

theorem numberOf_byteOf_lt {n m : Nat} (h : n < 256 ^ m) : numberOf ((List.range m).map (byteOf n)) = n :=
  (numberOf_byteOf m n).trans (Nat.mod_eq_of_lt h)

theorem numberOf_singleton (x : Byte) : numberOf [x] = x.toNat := rfl

theorem numberOf_ofNat {n : Nat} (h : n < 256) : numberOf [BitVec.ofNat 8 n] = n := Nat.mod_eq_of_lt h

theorem bit_le (b : Bool) : bit b ≤ 1 := by cases b <;> decide

theorem ErrorKind.code_le (k : ErrorKind) : k.code ≤ 2 := by cases k <;> decide

theorem ErrorSource.code_le (x : ErrorSource) : x.code ≤ 5 := by cases x <;> decide

theorem SuspectState.code_le (x : SuspectState) : x.code ≤ 2 := by cases x <;> decide

theorem RemapState.code_le (x : RemapState) : x.code ≤ 1 := by cases x <;> decide

/-! ## The window by the table selected (R187) -/

section
variable {s : State}

theorem State.recordWindow_errors (h : s.link.selectTable = 0) :
    s.recordWindow = (s.errors.records[s.link.selectIndex.toNat]?).elim emptyWindow ErrorRecord.window := by
  unfold State.recordWindow
  rw [h]

theorem State.recordWindow_suspects (h : s.link.selectTable = 1) :
    s.recordWindow = (s.remap.suspects[s.link.selectIndex.toNat]?).elim emptyWindow
      fun e => e.window (s.engine.served e.bank e.logicalRow) := by
  unfold State.recordWindow
  rw [h]

theorem State.recordWindow_remap {b : Bank} {i : Slot} (h : s.link.selectTable = 2)
    (hi : s.link.selectIndex.toNat = b.val * 16 + i.val) :
    s.recordWindow = (s.remap.tables[b][i]).elim emptyWindow RemapEntry.window := by
  have hbank : Fin.ofNat 16 (s.link.selectIndex.toNat / 16) = b := Fin.ext (by simp only [Fin.val_ofNat]; omega)
  have hslot : Fin.ofNat 16 s.link.selectIndex.toNat = i := Fin.ext (by simp only [Fin.val_ofNat]; omega)
  unfold State.recordWindow
  rw [h]
  simp only [hbank, hslot]

theorem State.recordWindow_bank {b : Bank} (h : s.link.selectTable = 3) (hi : s.link.selectIndex.toNat = b.val) :
    s.recordWindow = s.bankView b := by
  have hbank : Fin.ofNat 16 s.link.selectIndex.toNat = b := Fin.ext (by simp only [Fin.val_ofNat]; omega)
  unfold State.recordWindow
  rw [h]
  dsimp only
  rw [hbank]

end

theorem window_elim_length {α : Type} {o : Option α} {empty : List Byte} {window : α → List Byte} {n : Nat}
    (hempty : empty.length = n) (hwindow : ∀ x, (window x).length = n) : (o.elim empty window).length = n := by
  cases o with
  | none => exact hempty
  | some x => exact hwindow x

theorem State.recordWindow_length (s : State) : s.recordWindow.length = 16 := by
  unfold State.recordWindow
  dsimp only
  split
  · exact window_elim_length rfl fun _ => rfl
  · exact window_elim_length rfl fun _ => rfl
  · exact window_elim_length rfl fun _ => rfl
  · rfl

/-! ## The layouts of the four windows (R188) -/

theorem ErrorRecord.window_layout (r : ErrorRecord) :
    fieldOf r.window 0 1 % 2 = 1 ∧ fieldOf r.window 0 1 / 2 % 4 = r.kind.code ∧
    fieldOf r.window 0 1 / 8 % 8 = r.source.code ∧ fieldOf r.window 0 1 / 64 = bit r.word.isSome ∧
    fieldOf r.window 1 2 = r.seq.toNat ∧ fieldOf r.window 3 1 = r.bank.val ∧
    fieldOf r.window 4 2 = r.physicalRow.val ∧ fieldOf r.window 6 1 = r.word.elim 0 Fin.val ∧
    fieldOf r.window 7 1 = r.count % 256 ∧ fieldOf r.window 8 4 = r.firstMs.toNat ∧
    fieldOf r.window 12 4 = r.lastMs.toNat := by
  have hkind := r.kind.code_le
  have hsource := r.source.code_le
  have hpresent := bit_le r.word.isSome
  have hhead : fieldOf r.window 0 1 = 1 + 2 * r.kind.code + 8 * r.source.code + 64 * bit r.word.isSome :=
    numberOf_ofNat (by omega)
  have hword : r.word.elim 0 Fin.val < 256 ^ 1 := by
    cases r.word with
    | none => exact Nat.zero_lt_succ _
    | some w => exact w.isLt.trans (by decide)
  exact ⟨by omega, by omega, by omega, by omega, numberOf_byteOf_lt (m := 2) r.seq.isLt,
    numberOf_byteOf_lt (m := 1) (r.bank.isLt.trans (by decide)),
    numberOf_byteOf_lt (m := 2) (r.physicalRow.isLt.trans (by decide)), numberOf_byteOf_lt hword,
    numberOf_byteOf 1 _, numberOf_byteOf_lt (m := 4) r.firstMs.isLt, numberOf_byteOf_lt (m := 4) r.lastMs.isLt⟩

theorem SuspectEntry.window_layout (e : SuspectEntry) (served : Bool) :
    fieldOf (e.window served) 0 1 % 2 = 1 ∧ fieldOf (e.window served) 0 1 / 2 % 4 = e.state.code ∧
    fieldOf (e.window served) 0 1 / 8 % 2 = bit served ∧
    fieldOf (e.window served) 0 1 / 16 = bit e.queuedAt.isSome ∧
    fieldOf (e.window served) 1 1 = e.bank.val ∧ fieldOf (e.window served) 2 2 = e.logicalRow.val ∧
    fieldOf (e.window served) 4 1 = e.tally % 256 ∧
    fieldOf (e.window served) 5 4 = e.queuedAt.elim 0 BitVec.toNat ∧ fieldOf (e.window served) 9 7 = 0 := by
  have hstate := e.state.code_le
  have hserved := bit_le served
  have hpresent := bit_le e.queuedAt.isSome
  have hhead : fieldOf (e.window served) 0 1 =
      1 + 2 * e.state.code + 8 * bit served + 16 * bit e.queuedAt.isSome := numberOf_ofNat (by omega)
  have hqueued : e.queuedAt.elim 0 BitVec.toNat < 256 ^ 4 := by
    cases e.queuedAt with
    | none => exact Nat.zero_lt_succ _
    | some m => exact m.isLt
  exact ⟨by omega, by omega, by omega, by omega,
    numberOf_byteOf_lt (m := 1) (e.bank.isLt.trans (by decide)),
    numberOf_byteOf_lt (m := 2) (e.logicalRow.isLt.trans (by decide)), numberOf_byteOf 1 _,
    numberOf_byteOf_lt hqueued, rfl⟩

theorem RemapEntry.window_layout (e : RemapEntry) :
    fieldOf e.window 0 1 % 2 = 1 ∧ fieldOf e.window 0 1 / 2 % 2 = e.state.code ∧
    fieldOf e.window 0 1 / 4 = bit e.source.isSome ∧
    fieldOf e.window 1 1 = e.target.val ∧ fieldOf e.window 2 2 = e.logicalRow.val ∧
    fieldOf e.window 4 2 = e.source.elim 0 Fin.val ∧ fieldOf e.window 6 1 = e.cursor % 256 ∧
    fieldOf e.window 7 9 = 0 := by
  have hstate := e.state.code_le
  have hpresent := bit_le e.source.isSome
  have hhead : fieldOf e.window 0 1 = 1 + 2 * e.state.code + 4 * bit e.source.isSome := numberOf_ofNat (by omega)
  have hsource : e.source.elim 0 Fin.val < 256 ^ 2 := by
    cases e.source with
    | none => exact Nat.zero_lt_succ _
    | some p => exact p.isLt.trans (by decide)
  exact ⟨by omega, by omega, by omega, numberOf_byteOf_lt (m := 1) (e.target.isLt.trans (by decide)),
    numberOf_byteOf_lt (m := 2) (e.logicalRow.isLt.trans (by decide)), numberOf_byteOf_lt hsource,
    numberOf_byteOf 1 _, rfl⟩

theorem Remap.countSpares_le (u : Remap) (b : Bank) (x : SpareState) : u.countSpares b x ≤ 16 :=
  List.countP_le_length.trans_eq List.length_finRange

theorem State.bankView_layout (s : State) (b : Bank) :
    (fieldOf (s.bankView b) 0 1 : Int) = (s.balanceOf b).balance % 256 ∧
    fieldOf (s.bankView b) 1 2 = (s.balanceOf b).pointer.val ∧
    fieldOf (s.bankView b) 3 1 = s.remap.countSpares b .free ∧
    fieldOf (s.bankView b) 4 1 = s.remap.countSpares b .inUse ∧
    fieldOf (s.bankView b) 5 1 = s.remap.countSpares b .dead ∧ fieldOf (s.bankView b) 6 10 = 0 := by
  have hbalance : fieldOf (s.bankView b) 0 1 = ((s.balanceOf b).balance % 256).toNat :=
    (numberOf_singleton _).trans (BitVec.toNat_ofInt ..)
  have hcount (x : SpareState) : s.remap.countSpares b x < 256 ^ 1 :=
    (s.remap.countSpares_le b x).trans_lt (by decide)
  refine ⟨?_, numberOf_byteOf_lt (m := 2) ((s.balanceOf b).pointer.isLt.trans (by decide)),
    numberOf_byteOf_lt (hcount _), numberOf_byteOf_lt (hcount _), numberOf_byteOf_lt (hcount _), rfl⟩
  rw [hbalance, Int.toNat_of_nonneg (Int.emod_nonneg _ (by decide))]

/-! ## RECORD_SELECT (R187) -/

/-- Tables 0 to 3, with an index within the 16, 8, 256 or 16 places of the table. -/
theorem selectable_iff (table : Nat) (index : Byte) :
    (table ≤ 3 ∧ index.toNat < tableSize (Fin.ofNat 4 table)) ↔
      table = 0 ∧ index.toNat < 16 ∨ table = 1 ∧ index.toNat < 8 ∨ table = 2 ∨ table = 3 ∧ index.toNat < 16 := by
  have hindex : index.toNat < 256 := index.isLt
  by_cases htable : table ≤ 3
  · interval_cases table <;> simp [tableSize, hindex]
  · omega

theorem State.judgeRecordSelect_taken (s : State) {table index : Byte}
    (h : table.toNat ≤ 3 ∧ index.toNat < tableSize (Fin.ofNat 4 table.toNat)) :
    s.judgeRecordSelect (table, index) =
      some (s.setLink { s.link with selectTable := Fin.ofNat 4 table.toNat, selectIndex := index }) := if_pos h

theorem effect_recordSelect (table index : Byte) (s : State) :
    effect (.recordSelect table index) s =
      (s.linkAt 25).settled ((s.linkAt 25).judgeRecordSelect (table, index)) := by
  change s.linkWrite 0x17 [table, index] = _
  rw [State.linkWrite_pair]
  exact State.stop_recordSelect _ table index

/-- Settles O51: the selection judged by `selectable_iff`, and the window of a place without a record. -/
theorem recordSelectIsJudged : Obligations.RecordSelectIsJudged := by
  refine ⟨fun table index s hp => ?judged, fun s => ⟨fun h hlen => ?errors, fun h hlen => ?suspects,
    fun b i h hi hnone => ?remap⟩⟩
  case judged =>
    intro allowed
    have hallowed := selectable_iff table.toNat index
    rw [exec_on hp, effect_recordSelect]
    refine ⟨fun h => ?taken, fun h => ?refused⟩
    case taken =>
      have htable : table.toNat < 4 := Nat.lt_succ_of_le (hallowed.2 h).1
      rw [State.judgeRecordSelect_taken (s.linkAt 25) (hallowed.2 h)]
      refine ⟨_, rfl, ?_, rfl, Nat.mod_eq_of_lt htable⟩
      exact (((s.linkAt_same 25).trans (State.setLink_same _ _)).trans (State.setResult_same _ _)).mono (by decide)
    case refused =>
      exact ⟨_, congrArg _ (s.settled_refused 25 (if_neg (mt hallowed.1 h))), s.setLink_same _, rfl⟩
  case errors =>
    rw [State.recordWindow_errors h, List.getElem?_eq_none hlen]
    rfl
  case suspects =>
    rw [State.recordWindow_suspects h, List.getElem?_eq_none hlen]
    rfl
  case remap =>
    rw [State.recordWindow_remap h hi, hnone]
    rfl

end Sys2Proof.Machine

/-! # The registers (R184, R185, R186, R188) -/

namespace Sys2Proof.Machine

/-! ## The registers of one byte and of more -/

theorem HoldState.code_le (x : HoldState) : x.code ≤ 3 := by cases x <;> decide

theorem Band.rank_le (x : Band) : x.rank ≤ 4 := by cases x <;> decide

theorem ResultCode.code_le (x : ResultCode) : x.code ≤ 5 := by cases x <;> decide

/-- STATE is the sum of its fields (R188). -/
theorem State.stateByte_toNat (s : State) :
    s.stateByte.toNat =
      s.hold.state.code + 4 * bit s.fillMap.done + 8 * s.thermal.band.rank + 64 * bit s.thermal.fault +
        128 * bit s.errors.saturated := by
  have := s.hold.state.code_le
  have := bit_le s.fillMap.done
  have := s.thermal.band.rank_le
  have := bit_le s.thermal.fault
  have := bit_le s.errors.saturated
  exact Nat.mod_eq_of_lt (by omega)

theorem getLsbD_eq_of_bit {x : Byte} {i : Nat} {b : Bool} (h : x.toNat / 2 ^ i % 2 = bit b) : x.getLsbD i = b := by
  rw [BitVec.getLsbD, Nat.testBit_eq_decide_div_mod_eq, h]
  cases b <;> rfl

/-- The fields of STATE, each at its bits (R188). -/
theorem State.stateByte_fields (s : State) :
    s.stateByte.toNat % 4 = s.hold.state.code ∧ s.stateByte.getLsbD 2 = s.fillMap.done ∧
    s.stateByte.toNat / 8 % 8 = s.thermal.band.rank ∧ s.stateByte.getLsbD 6 = s.thermal.fault ∧
    s.stateByte.getLsbD 7 = s.errors.saturated := by
  have hsum := s.stateByte_toNat
  have := s.hold.state.code_le
  have := bit_le s.fillMap.done
  have := s.thermal.band.rank_le
  have := bit_le s.thermal.fault
  have := bit_le s.errors.saturated
  exact ⟨by omega, getLsbD_eq_of_bit (by omega), by omega, getLsbD_eq_of_bit (by omega), getLsbD_eq_of_bit (by omega)⟩

theorem byteOf_toNat_of_lt {n : Nat} (h : n < 256) : (byteOf n 0).toNat = n := by
  rw [byteOf_toNat, pow_zero, Nat.div_one, Nat.mod_eq_of_lt h]

theorem byteOf_pair {n : Nat} (h : n < 256 ^ 2) : (byteOf n 0).toNat + 256 * (byteOf n 1).toNat = n :=
  numberOf_byteOf_lt (m := 2) h

theorem byteOf_quad {n : Nat} (h : n < 256 ^ 4) :
    (byteOf n 0).toNat + 256 * ((byteOf n 1).toNat + 256 * ((byteOf n 2).toNat + 256 * (byteOf n 3).toNat)) = n :=
  numberOf_byteOf_lt (m := 4) h

theorem toInt_ofInt_byte {x : Int} (hlow : -128 ≤ x) (hhigh : x ≤ 127) : (BitVec.ofInt 8 x).toInt = x := by
  rw [BitVec.toInt_ofInt]
  exact Int.bmod_eq_of_le (by omega) (by omega)

/-! ## The indexes above the registers -/

/-- From 0x19 on, what is read lies in the record window or is zero (R181, R188). -/
theorem State.readRegister_high (s : State) {i : BitVec 6} (h : 0x19 ≤ i.toNat) :
    s.readRegister i = if 0x20 ≤ i.toNat ∧ i.toNat ≤ 0x2F then s.recordWindow.getD (i.toNat - 0x20) 0 else 0 := by
  unfold State.readRegister
  split
  case h_26 => rfl
  all_goals omega

theorem State.readRegister_zero (s : State) {i : Nat} (hlow : 0x19 ≤ i) (hhigh : i < 0x40) (h : i < 0x20 ∨ 0x30 ≤ i) :
    s.readRegister (BitVec.ofNat 6 i) = 0 := by
  have hi : (BitVec.ofNat 6 i).toNat = i := Nat.mod_eq_of_lt hhigh
  rw [s.readRegister_high (hi.symm ▸ hlow), if_neg (by omega)]

theorem State.readRegister_window (s : State) {i : Nat} (h : i < 16) :
    s.recordWindow[i]? = some (s.readRegister (BitVec.ofNat 6 (0x20 + i))) := by
  have hi : (BitVec.ofNat 6 (0x20 + i)).toNat = 0x20 + i := Nat.mod_eq_of_lt (by omega)
  have hlen : i < s.recordWindow.length := s.recordWindow_length.symm ▸ h
  rw [s.readRegister_high (by omega), if_pos (by omega), hi, Nat.add_sub_cancel_left, List.getD_eq_getElem _ _ hlen]
  exact List.getElem?_eq_getElem hlen

/-! ## The records in their windows (R188) -/

theorem Engine.served_iff (e : Engine) (b : Bank) (r : LogicalRow) :
    e.served b r = true ↔ ∃ slot cursor, Job.migrate b r slot cursor ∈ e.stack := by
  simp only [Engine.served, List.any_eq_true, Job.serves_iff]
  constructor
  · rintro ⟨_, hmem, slot, cursor, rfl⟩
    exact ⟨slot, cursor, hmem⟩
  · rintro ⟨slot, cursor, hmem⟩
    exact ⟨_, hmem, slot, cursor, rfl⟩

theorem bit_eq_one_iff (b : Bool) : bit b = 1 ↔ b = true := by cases b <;> decide

theorem RemapState.code_eq_one_iff (x : RemapState) : x.code = 1 ↔ x = .live := by cases x <;> decide

/-- Settles O52: each register by its arm of `State.readRegister`, and each record by the layout of its window. -/
theorem registersAndRecordsReadByTheirLayout : Obligations.RegistersAndRecordsReadByTheirLayout := by
  intro s at' value field
  obtain ⟨hhold, hdone, hband, hfault, hsaturated⟩ := s.stateByte_fields
  have hresult : value 1 = s.link.result.code := byteOf_toNat_of_lt (s.link.result.code_le.trans_lt (by decide))
  have hbyte (n : Nat) : (byteOf n 0).toNat = n % 256 := by rw [byteOf_toNat, pow_zero, Nat.div_one]
  refine ⟨hhold.trans ?_, hdone, hband.trans ?_, hfault, hsaturated, hresult.trans ?_, rfl, rfl, rfl, rfl, hbyte _, rfl,
    rfl, rfl, hbyte _, toInt_ofInt_byte, byteOf_pair s.scrubber.passCount.isLt, hbyte _, hbyte _,
    byteOf_toNat_of_lt (s.link.retireBank.isLt.trans (by decide)),
    byteOf_pair (s.link.retireRow.isLt.trans (by decide)), byteOf_quad s.clock.deviceTime.isLt,
    byteOf_toNat_of_lt (s.link.selectTable.isLt.trans (by decide)), rfl,
    fun i hlow hhigh h => s.readRegister_zero hlow hhigh h, s.recordWindow_length,
    fun i hi => s.readRegister_window hi, fun r hsel hr => ?errors, fun e hsel he => ?suspects,
    fun b i e hsel hi he => ?remap, fun b hsel hi => ?bank⟩
  · cases s.hold.state <;> rfl
  · cases s.thermal.band <;> rfl
  · cases s.link.result <;> rfl
  case errors =>
    have hwindow : s.recordWindow = r.window := by
      rw [State.recordWindow_errors hsel, hr]
      rfl
    have hlayout := r.window_layout
    rw [← hwindow] at hlayout
    obtain ⟨hheld, hkind, hsource, hpresent, hseq, hbank, hrow, hword, hcount, hfirst, hlast⟩ := hlayout
    refine ⟨hheld, hkind.trans ?_, hsource.trans ?_, hpresent, hseq, hbank, hrow, hword.trans ?_, hcount, hfirst,
      hlast⟩
    · cases r.kind <;> rfl
    · cases r.source <;> rfl
    · cases r.word <;> rfl
  case suspects =>
    have hwindow : s.recordWindow = e.window (s.engine.served e.bank e.logicalRow) := by
      rw [State.recordWindow_suspects hsel, he]
      rfl
    have hlayout := e.window_layout (s.engine.served e.bank e.logicalRow)
    rw [← hwindow] at hlayout
    obtain ⟨hheld, hstate, hserved, hpresent, hbank, hrow, htally, hqueued, hrest⟩ := hlayout
    have hjob := s.engine.served_iff e.bank e.logicalRow
    rw [← bit_eq_one_iff, ← hserved] at hjob
    refine ⟨hheld, hstate.trans ?_, hjob, hpresent, hbank, hrow, htally, hqueued.trans ?_, hrest⟩
    · cases e.state <;> rfl
    · cases e.queuedAt <;> rfl
  case remap =>
    have hwindow : s.recordWindow = e.window := by
      rw [State.recordWindow_remap hsel hi, he]
      rfl
    have hlayout := e.window_layout
    rw [← hwindow] at hlayout
    obtain ⟨hheld, hstate, hpresent, htarget, hrow, hsource, hcursor, hrest⟩ := hlayout
    have hlive : fieldOf s.recordWindow 0 1 / 2 % 2 = 1 ↔ e.state = .live := by
      rw [hstate, RemapState.code_eq_one_iff]
    refine ⟨hheld, hlive, hpresent, htarget, hrow, hsource.trans ?_, hcursor, hrest⟩
    cases e.source <;> rfl
  case bank =>
    have hlayout := s.bankView_layout b
    rw [← State.recordWindow_bank hsel hi] at hlayout
    exact hlayout

end Sys2Proof.Machine

/-! # A transaction of the maintenance link, from its bytes to its STOP (R181, R183, R184) -/

namespace Sys2Proof.Machine

/-! ## The bytes staged (R181) -/

/-- What bytes written from register index `i` on stage, the first first. -/
def stagedFrom : BitVec 6 → List Byte → Staged
  | _, [] => []
  | i, v :: bytes => (i, v) :: stagedFrom (i + 1) bytes

theorem stagedFrom_append (i : BitVec 6) (xs ys : List Byte) :
    stagedFrom i (xs ++ ys) = stagedFrom i xs ++ stagedFrom (i + BitVec.ofNat 6 xs.length) ys := by
  induction xs generalizing i with
  | nil => simp [stagedFrom]
  | cons x xs ih =>
    simp only [List.cons_append, stagedFrom, ih, List.length_cons, add_one_add_ofNat]

/-- Once the index byte has come, each byte written is staged, the last staged in front. -/
theorem Transfer.writeByte_foldl (bytes : List Byte) (i : BitVec 6) (st : Staged) (out : List Byte) :
    bytes.foldl Transfer.writeByte { index := i, named := true, staged := st, out } =
      { index := i + BitVec.ofNat 6 bytes.length, named := true, staged := (stagedFrom i bytes).reverse ++ st, out } := by
  induction bytes generalizing i st with
  | nil => simp [stagedFrom]
  | cons v bytes ih =>
    rw [List.foldl_cons]
    change bytes.foldl Transfer.writeByte { index := i + 1, named := true, staged := (i, v) :: st, out } = _
    rw [ih, add_one_add_ofNat, stagedFrom, List.reverse_cons, List.append_assoc]
    rfl

/-- A write transaction stages its bytes from its index on, and leaves the index behind the last. -/
theorem State.linkWrite_eq (s : State) (i : Byte) (bytes : List Byte) :
    s.linkWrite i bytes =
      (s.linkAt (indexOf i + BitVec.ofNat 6 bytes.length)).stop (stagedFrom (indexOf i) bytes).reverse := by
  have hbytes := Transfer.writeByte_foldl bytes (indexOf i) [] []
  rw [List.append_nil] at hbytes
  simp only [State.linkWrite, State.transaction, decide_true, List.filter_cons_of_pos, List.filter_nil,
    List.foldl_cons, List.foldl_nil, Transfer.segment, Transfer.writeByte, Bool.false_eq_true, if_false, hbytes]
  rfl

theorem Staged.byteAt_append (xs ys : Staged) (j : BitVec 6) :
    Staged.byteAt (xs ++ ys) j = (xs.byteAt j).or (ys.byteAt j) := by
  unfold Staged.byteAt
  rw [List.find?_append, Option.map_or]

/-- A STOP sees of each index the byte staged last, and nothing else of the bytes written (R184). -/
theorem State.stop_congr {st tt : Staged} (h : ∀ j, st.byteAt j = tt.byteAt j) (s : State) :
    s.stop st = s.stop tt := by
  have hpair (i : BitVec 6) (low high : Byte) : st.pairAt i low high = tt.pairAt i low high := by
    simp only [Staged.pairAt, h]
  have hjudged : s.judgeSettings st = s.judgeSettings tt := by simp only [State.judgeSettings, hpair, h]
  unfold State.stop
  rw [hjudged, h]

/-- Of 65 bytes the last falls on the index of the first, and lies over it. -/
theorem stagedFrom_wrapped (i : BitVec 6) (first last : Byte) {between : List Byte} (hlen : between.length = 63) :
    (stagedFrom i (first :: between ++ [last])).reverse =
      (i, last) :: ((stagedFrom (i + 1) between).reverse ++ [(i, first)]) := by
  have hback : i + 1 + 63 = i := by
    rw [BitVec.add_assoc]
    exact BitVec.add_zero i
  rw [List.cons_append, stagedFrom, stagedFrom_append, hlen, List.reverse_cons, List.reverse_append]
  change [(i + 1 + 63, last)].reverse ++ _ ++ _ = _
  rw [hback]
  rfl

theorem byteAt_wrapped (i : BitVec 6) (first last : Byte) {between : List Byte} (hlen : between.length = 63)
    (j : BitVec 6) :
    Staged.byteAt (stagedFrom i (first :: between ++ [last])).reverse j =
      if i = j then some last else Staged.byteAt (stagedFrom (i + 1) between).reverse j := by
  rw [stagedFrom_wrapped i first last hlen, Staged.byteAt_cons]
  by_cases hj : i = j
  · rw [if_pos hj, if_pos hj]
  · rw [if_neg hj, if_neg hj, Staged.byteAt_append, Staged.byteAt_cons, if_neg hj, Staged.byteAt_nil, Option.or_none]

/-- Of a byte staged twice the last counts: the first leaves nothing behind. -/
theorem State.linkWrite_wrapped (s : State) (i first other last : Byte) {between : List Byte}
    (hlen : between.length = 63) :
    s.linkWrite i (first :: between ++ [last]) = s.linkWrite i (other :: between ++ [last]) := by
  rw [State.linkWrite_eq, State.linkWrite_eq]
  exact State.stop_congr (fun j => by rw [byteAt_wrapped _ _ _ hlen, byteAt_wrapped _ _ _ hlen]) _

/-! ## What a read returns (R183) -/

theorem indexOf_toNat {i : Byte} (h : i.toNat < 64) : (indexOf i).toNat = i.toNat := by
  rw [indexOf, if_pos h]
  exact Nat.mod_eq_of_lt h

theorem indexOf_add {i : Byte} (h : i.toNat < 64) (k : Nat) :
    indexOf i + BitVec.ofNat 6 k = BitVec.ofNat 6 (i.toNat + k) := by
  rw [BitVec.ofNat_add, ← indexOf_toNat h, BitVec.ofNat_toNat, BitVec.setWidth_eq]

/-- Nothing staged, nothing judged (R184). -/
theorem State.stop_nil (s : State) : s.stop [] = s := rfl

/-- A transaction that sets the index and reads `n` registers from it on. -/
theorem State.transaction_read (s : State) (i : Byte) (n : Nat) :
    s.transaction
        [{ address := s.link.address, body := .write [i] }, { address := s.link.address, body := .read n }] =
      s.setLink
        { s.link with
          index := indexOf i + BitVec.ofNat 6 n
          out := (List.range n).map fun k => s.readRegister (indexOf i + BitVec.ofNat 6 k) } := by
  simp [State.transaction, Transfer.segment, Transfer.writeByte, State.stop_nil]

/-- What is addressed to another target is ignored (R181). -/
theorem State.transaction_other (s : State) {a : BitVec 7} (body : LinkBody) (h : a ≠ s.link.address) :
    s.transaction [{ address := a, body }] = s.setLink { s.link with out := [] } := by
  simp [State.transaction, h, State.stop_nil]

end Sys2Proof.Machine

/-! # REGISTER_WRITE: the settings judged at the STOP, and the command after them (R184, R185, R186, R187) -/

namespace Sys2Proof.Machine

/-! ## RETIRE_BANK, RETIRE_ROW and RECORD_SELECT, taken or refused (R185, R187) -/

theorem Judging.judge_refused {α : Type} {x : Judging} {v : α} {rule : State → α → Option State}
    (h : rule x.state v = none) : x.judge (some v) rule = { state := x.state, written := true, refused := true } := by
  unfold Judging.judge
  simp only [h]

theorem Judging.judge_taken {α : Type} {x : Judging} {v : α} {rule : State → α → Option State} {t : State}
    (h : rule x.state v = some t) : x.judge (some v) rule = { state := t, written := true, refused := x.refused } := by
  unfold Judging.judge
  simp only [h]

theorem Judging.judge_retireBank (x : Judging) (v : Byte) :
    x.judge (some v) State.judgeRetireBank =
      { state := x.state.setLink
          { x.state.link with
            retireBank := if v.toNat ≤ 15 then Fin.ofNat 16 v.toNat else x.state.link.retireBank }
        written := true, refused := x.refused || decide (¬ v.toNat ≤ 15) } := by
  by_cases h : v.toNat ≤ 15
  · simp [Judging.judge_taken (rule := State.judgeRetireBank) (if_pos h), h]
  · simp [Judging.judge_refused (rule := State.judgeRetireBank) (if_neg h), h]
    rfl

theorem State.judgeRetireRow_taken (s : State) {low high : Byte} (h : low.toNat + 256 * high.toNat ≤ 8191) :
    s.judgeRetireRow (low, high) =
      some (s.setLink { s.link with retireRow := Fin.ofNat 8192 (low.toNat + 256 * high.toNat) }) := if_pos h

theorem State.judgeRetireRow_refused (s : State) {low high : Byte} (h : ¬ low.toNat + 256 * high.toNat ≤ 8191) :
    s.judgeRetireRow (low, high) = none := if_neg h

theorem Judging.judge_retireRow (x : Judging) (low high : Byte) :
    x.judge (some (low, high)) State.judgeRetireRow =
      { state := x.state.setLink
          { x.state.link with
            retireRow :=
              if low.toNat + 256 * high.toNat ≤ 8191 then Fin.ofNat 8192 (low.toNat + 256 * high.toNat)
              else x.state.link.retireRow }
        written := true, refused := x.refused || decide (¬ low.toNat + 256 * high.toNat ≤ 8191) } := by
  by_cases h : low.toNat + 256 * high.toNat ≤ 8191
  · simp [Judging.judge_taken (State.judgeRetireRow_taken _ h), h]
  · simp [Judging.judge_refused (State.judgeRetireRow_refused _ h), h]
    rfl

theorem State.settled_retireRow (s : State) (low high : Byte) :
    s.settled (s.judgeRetireRow (low, high)) =
      s.setLink
        { s.link with
          retireRow :=
            if low.toNat + 256 * high.toNat ≤ 8191 then Fin.ofNat 8192 (low.toNat + 256 * high.toNat)
            else s.link.retireRow
          result := if low.toNat + 256 * high.toNat ≤ 8191 then .done else .range } := by
  by_cases h : low.toNat + 256 * high.toNat ≤ 8191
  · rw [State.judgeRetireRow_taken s h, if_pos h, if_pos h]
    rfl
  · rw [State.judgeRetireRow_refused s h, if_neg h, if_neg h]
    rfl

theorem State.settled_recordSelect (s : State) (table index : Byte) {allowed : Prop} [Decidable allowed]
    (h : (table.toNat ≤ 3 ∧ index.toNat < tableSize (Fin.ofNat 4 table.toNat)) ↔ allowed) :
    s.settled (s.judgeRecordSelect (table, index)) =
      s.setLink
        { s.link with
          selectTable := if allowed then Fin.ofNat 4 table.toNat else s.link.selectTable
          selectIndex := if allowed then index else s.link.selectIndex
          result := if allowed then .done else .range } := by
  by_cases ha : allowed
  · rw [State.judgeRecordSelect_taken s (h.2 ha)]
    simp only [ha, if_true]
    rfl
  · have hrefused : s.judgeRecordSelect (table, index) = none := if_neg (mt h.1 ha)
    rw [hrefused]
    simp only [ha, if_false]
    rfl

/-! ## The STOP of one byte of a register of two, with the other at its current value (R184) -/

theorem Staged.byteAt_other {i j : BitVec 6} (h : j ≠ i) (v : Byte) : Staged.byteAt [(i, v)] j = none := by
  rw [Staged.byteAt_cons, if_neg h.symm, Staged.byteAt_nil]

theorem Staged.pairAt_none {st : Staged} {i : BitVec 6} (hlow : st.byteAt i = none) (hhigh : st.byteAt (i + 1) = none)
    (low high : Byte) : st.pairAt i low high = none := by
  rw [Staged.pairAt, hlow, hhigh]
  rfl

/-- Where RETIRE_ROW alone was written, it alone is judged. -/
theorem State.stop_retireRow (s : State) {st : Staged} {v : Byte × Byte}
    (hother : ∀ j, j ≠ 0x11 → j ≠ 0x12 → st.byteAt j = none)
    (hv : st.pairAt 0x11 (byteOf s.link.retireRow.val 0) (byteOf s.link.retireRow.val 1) = some v) :
    s.stop st = s.settled (s.judgeRetireRow v) := by
  have hselect := Staged.pairAt_none (hother 0x17 (by decide) (by decide)) (hother 0x18 (by decide) (by decide))
  simp (disch := decide) only [State.stop, State.judgeSettings, hother, hv, hselect, Judging.judge_none,
    Judging.judge_start]
  exact Judging.settle_one s _

/-- Where RECORD_SELECT alone was written, it alone is judged. -/
theorem State.stop_select (s : State) {st : Staged} {v : Byte × Byte}
    (hother : ∀ j, j ≠ 0x17 → j ≠ 0x18 → st.byteAt j = none)
    (hv : st.pairAt 0x17 (byteOf s.link.selectTable.val 0) s.link.selectIndex = some v) :
    s.stop st = s.settled (s.judgeRecordSelect v) := by
  have hrow := Staged.pairAt_none (hother 0x11 (by decide) (by decide)) (hother 0x12 (by decide) (by decide))
  simp (disch := decide) only [State.stop, State.judgeSettings, hother, hv, hrow, Judging.judge_none,
    Judging.judge_start]
  exact Judging.settle_one s _

theorem retireRow_bytes (row : LogicalRow) :
    (byteOf row.val 0).toNat = row.val % 256 ∧ (byteOf row.val 1).toNat = row.val / 256 := by
  rw [byteOf_toNat, byteOf_toNat, pow_zero, Nat.div_one, pow_one]
  omega

/-- The low byte alone: with the high byte as it stands the row is in range. -/
theorem State.stop_retireRow_low (s : State) (low : Byte) :
    s.stop [(0x11, low)] =
      s.setLink
        { s.link with
          retireRow := Fin.ofNat 8192 (low.toNat + 256 * (s.link.retireRow.val / 256)), result := .done } := by
  have hrow : low.toNat + 256 * (s.link.retireRow.val / 256) ≤ 8191 := by omega
  have hjudged : s.stop [(0x11, low)] = s.settled (s.judgeRetireRow (low, byteOf s.link.retireRow.val 1)) :=
    s.stop_retireRow (fun j hj _ => Staged.byteAt_other hj low) rfl
  rw [hjudged, State.settled_retireRow, (retireRow_bytes _).2, if_pos hrow, if_pos hrow]

/-- The high byte alone: the row is in range where the byte is, whatever the low byte. -/
theorem State.stop_retireRow_high (s : State) (high : Byte) :
    s.stop [(0x12, high)] =
      s.setLink
        { s.link with
          retireRow :=
            if high.toNat ≤ 31 then Fin.ofNat 8192 (s.link.retireRow.val % 256 + 256 * high.toNat)
            else s.link.retireRow
          result := if high.toNat ≤ 31 then .done else .range } := by
  have hrange : s.link.retireRow.val % 256 + 256 * high.toNat ≤ 8191 ↔ high.toNat ≤ 31 := by omega
  have hjudged : s.stop [(0x12, high)] = s.settled (s.judgeRetireRow (byteOf s.link.retireRow.val 0, high)) :=
    s.stop_retireRow (fun j _ hj => Staged.byteAt_other hj high) rfl
  rw [hjudged, State.settled_retireRow, (retireRow_bytes _).1]
  simp only [hrange]

/-- The table alone, judged with the index as it stands. -/
theorem State.stop_selectTable (s : State) (table : Byte) {allowed : Prop} [Decidable allowed]
    (h : (table.toNat ≤ 3 ∧ s.link.selectIndex.toNat < tableSize (Fin.ofNat 4 table.toNat)) ↔ allowed) :
    s.stop [(0x17, table)] =
      s.setLink
        { s.link with
          selectTable := if allowed then Fin.ofNat 4 table.toNat else s.link.selectTable
          result := if allowed then .done else .range } := by
  have hjudged : s.stop [(0x17, table)] = s.settled (s.judgeRecordSelect (table, s.link.selectIndex)) :=
    s.stop_select (fun j hj _ => Staged.byteAt_other hj table) rfl
  rw [hjudged, State.settled_recordSelect s _ _ h, ite_self]

/-- The index alone, judged within the table as it stands. -/
theorem State.stop_selectIndex (s : State) (index : Byte) {allowed : Prop} [Decidable allowed]
    (h : (s.link.selectTable.val ≤ 3 ∧ index.toNat < tableSize (Fin.ofNat 4 s.link.selectTable.val)) ↔ allowed) :
    s.stop [(0x18, index)] =
      s.setLink
        { s.link with
          selectIndex := if allowed then index else s.link.selectIndex
          result := if allowed then .done else .range } := by
  have htable : (byteOf s.link.selectTable.val 0).toNat = s.link.selectTable.val :=
    byteOf_toNat_of_lt (s.link.selectTable.isLt.trans (by decide))
  have hsame : Fin.ofNat 4 s.link.selectTable.val = s.link.selectTable := Fin.ext (Nat.mod_eq_of_lt (Fin.isLt _))
  have hjudged : s.stop [(0x18, index)] =
      s.settled (s.judgeRecordSelect (byteOf s.link.selectTable.val 0, index)) :=
    s.stop_select (fun j _ hj => Staged.byteAt_other hj index) rfl
  rw [hjudged, State.settled_recordSelect s _ _ (htable.symm ▸ h), htable, hsame, ite_self]

/-- The STOP of RETIRE_BANK and RETIRE_ROW together: each taken or refused by its own range. -/
theorem State.stop_retire (s : State) (bank low high : Byte) :
    s.stop [(0x12, high), (0x11, low), (0x10, bank)] =
      s.setLink
        { s.link with
          retireBank := if bank.toNat ≤ 15 then Fin.ofNat 16 bank.toNat else s.link.retireBank
          retireRow :=
            if low.toNat + 256 * high.toNat ≤ 8191 then Fin.ofNat 8192 (low.toNat + 256 * high.toNat)
            else s.link.retireRow
          result := if bank.toNat ≤ 15 ∧ low.toNat + 256 * high.toNat ≤ 8191 then .done else .range } := by
  have hresult : (if (false || decide (¬ bank.toNat ≤ 15) || decide (¬ low.toNat + 256 * high.toNat ≤ 8191)) = true
      then ResultCode.range else .done) =
        if bank.toNat ≤ 15 ∧ low.toNat + 256 * high.toNat ≤ 8191 then .done else .range := by
    by_cases hbank : bank.toNat ≤ 15 <;> by_cases hrow : low.toNat + 256 * high.toNat ≤ 8191 <;> simp [hbank, hrow]
  simp only [State.stop, State.judgeSettings, Staged.byteAt_cons, Staged.byteAt_nil, Staged.pairAt, Judging.judge_none,
    BitVec.reduceEq, BitVec.reduceAdd, if_true, if_false, Option.isNone_none, Option.isNone_some, Bool.false_eq_true,
    and_self, Option.getD_some, Judging.judge_retireBank, Judging.judge_retireRow, hresult]
  rfl

/-! ## The command after the settings (R184, R186) -/

theorem LinkCommand.code_range (c : LinkCommand) : 1 ≤ c.code.toNat ∧ c.code.toNat ≤ 7 := by cases c <;> decide

theorem commandOf_none {code : Byte} (h : code = 0 ∨ 7 < code.toNat) : commandOf code = none := by
  refine List.find?_eq_none.2 fun c _ hc => ?_
  obtain rfl := of_decide_eq_true hc
  exact byte_out_of_range h c.code_range

/-- In a transaction with a refused setting the command is not carried out. -/
theorem State.stop_command_refused (s : State) {code arg skipped mask limit : Byte}
    (h : limit = 0 ∨ 12 < limit.toNat) :
    s.stop [(0x06, limit), (0x05, mask), (0x04, skipped), (0x03, arg), (0x02, code)] =
      (s.setAlerts { s.alerts with mask }).setLink
        { s.link with command := code, commandArg := arg, result := .range } := by
  have hlimit (t : State) : t.judgeLimitByte limit = none := (t.judgeLimit_cases _).1 (byte_out_of_range h)
  simp only [State.stop, State.judgeSettings, Staged.byteAt_cons, Staged.byteAt_nil, Staged.pairAt, Judging.judge_none,
    BitVec.reduceEq, BitVec.reduceAdd, if_true, if_false, Option.isNone_none, and_self,
    Judging.judge_refused (rule := State.judgeLimitByte) (hlimit _)]
  rfl

/-- ACK is carried out with the COMMAND_ARG of its own transaction. -/
theorem State.stop_ack_arg (s : State) (arg : Byte) :
    s.stop [(0x03, arg), (0x02, 0x03)] =
      (s.setAlerts { s.alerts with causes := s.alerts.causes &&& ~~~arg }).setLink
        { s.link with command := 0x03, commandArg := arg, result := .done } := by
  simp only [State.stop, State.judgeSettings, Staged.byteAt_cons, Staged.byteAt_nil, Staged.pairAt, Judging.judge_none,
    BitVec.reduceEq, BitVec.reduceAdd, if_true, if_false, Option.isNone_none, and_self]
  rfl

theorem State.stop_command_unknown (s : State) {code : Byte} (h : code = 0 ∨ 7 < code.toNat) :
    s.stop [(0x02, code)] = s.setLink { s.link with command := code, result := .range } := by
  rw [State.stop_command]
  unfold Judging.command
  rw [commandOf_none h]
  rfl

/-! ## COMMAND_ARG at the STOP of any transaction -/

theorem State.runCommand_link (s : State) (c : LinkCommand) : (s.runCommand c).2.link = s.link := by
  cases c with
  | hold => exact s.commandHold_same.link
  | wake => exact s.commandWake_same.link
  | ack => exact s.commandAck_same.link
  | clearErrors => exact s.commandClearErrors_same.link
  | clearSuspects => exact s.commandClearSuspects_same.link
  | retire => exact s.commandRetire_same.link
  | portRestart => exact s.commandPortRestart_same.link

/-- The state holds `arg` in COMMAND_ARG. -/
def State.holdsArg (arg : Byte) (s : State) : Prop := s.link.commandArg = arg

theorem State.holdsArg_of_link {arg : Byte} {s t : State} (h : t.link = s.link) (hs : s.holdsArg arg) :
    t.holdsArg arg := (congrArg Link.commandArg h).trans hs

/-- COMMAND_ARG is taken with any value, and the settings after it leave it. -/
theorem State.judgeSettings_arg {st : Staged} {arg : Byte} (h : st.byteAt 0x03 = some arg) (s : State) :
    (s.judgeSettings st).state.holdsArg arg := by
  unfold State.judgeSettings
  rw [h]
  refine Judging.judge_keeps (Judging.judge_keeps (Judging.judge_keeps (Judging.judge_keeps (Judging.judge_keeps
    (Judging.judge_keeps (Judging.judge_keeps (Judging.judge_keeps (Judging.judge_keeps rfl
    ?mask) ?limit) ?idle) ?age) ?step) ?threshold) ?bank) ?row) ?select
  case mask =>
    intro s t v ht
    obtain rfl := Option.some.inj ht
    exact State.holdsArg_of_link rfl
  case limit => exact fun ht => State.holdsArg_of_link (State.judgeLimit_same ht).link
  case idle => exact fun ht => State.holdsArg_of_link (State.judgeIdleClose_same ht).link
  case age => exact fun ht => State.holdsArg_of_link (State.judgeDrainAge_same ht).link
  case step => exact fun ht => State.holdsArg_of_link (State.judgeScrubStep_same ht).link
  case threshold => exact fun ht => State.holdsArg_of_link (State.judgeThreshold_same ht).link
  case bank =>
    intro s t v ht hs
    obtain ⟨_, ht⟩ := Option.ite_none_right_eq_some.1 ht
    exact Option.some.inj ht ▸ hs
  case row =>
    intro s t v ht hs
    obtain ⟨_, ht⟩ := Option.ite_none_right_eq_some.1 ht
    exact Option.some.inj ht ▸ hs
  case select =>
    intro s t v ht hs
    obtain ⟨_, ht⟩ := Option.ite_none_right_eq_some.1 ht
    exact Option.some.inj ht ▸ hs

theorem State.setResult_arg {arg : Byte} {s : State} (hs : s.holdsArg arg) (r : ResultCode) :
    (s.setResult r).holdsArg arg := hs

theorem Judging.command_arg {arg : Byte} {x : Judging} (hx : x.state.holdsArg arg) (code : Byte) :
    (x.command code).holdsArg arg := by
  have hnoted : (x.state.setLink { x.state.link with command := code }).holdsArg arg := hx
  unfold Judging.command
  dsimp only
  split
  · exact State.setResult_arg hnoted _
  · split
    · exact State.setResult_arg hnoted _
    · exact State.setResult_arg (State.holdsArg_of_link (State.runCommand_link _ _) hnoted) _

theorem State.stop_arg {st : Staged} {arg : Byte} (h : st.byteAt 0x03 = some arg) (s : State) :
    (s.stop st).link.commandArg = arg := by
  have hjudged := State.judgeSettings_arg h s
  unfold State.stop
  dsimp only
  split
  · exact Judging.command_arg hjudged _
  · split <;> exact hjudged

/-! ## REGISTER_WRITE -/

theorem registerWrite_exec {s : State} (hp : s.powered = true) (i : Byte) (bytes : List Byte) :
    exec (.registerWrite [{ address := s.link.address, body := .write (i :: bytes) }]) s =
      .next (s.linkWrite i bytes) := exec_on hp _

/-- Settles O53: each transaction by its bytes, and then by its STOP. -/
theorem registerWriteTakesEffectAtStop : Obligations.RegisterWriteTakesEffectAtStop := by
  intro s hp
  have hwrite (i v : Byte) : exec (.registerWrite [{ address := s.link.address, body := .write [i, v] }]) s =
      .next ((s.linkAt (indexOf i + 1)).stop [(indexOf i, v)]) :=
    (registerWrite_exec hp i [v]).trans (congrArg _ (s.linkWrite_byte i v))
  have hbytes (i : Byte) (bytes : List Byte) :
      exec (.registerWrite [{ address := s.link.address, body := .write (i :: bytes) }]) s =
        .next ((s.linkAt (indexOf i + BitVec.ofNat 6 bytes.length)).stop (stagedFrom (indexOf i) bytes).reverse) :=
    (registerWrite_exec hp i bytes).trans (congrArg _ (s.linkWrite_eq i bytes))
  refine ⟨fun a body ha => ?other, fun arg => ?arg, fun bank low high => ?retire,
    fun code arg skipped mask limit h => ?refused, fun low => ?low, fun high => ?high, fun table => ?table,
    fun index => ?index, fun i first other last between hlen => ?wrapped, fun first last between hlen => ?last,
    fun arg => ?ack, fun code h => ?unknown, fun i n hi => ?read⟩
  case other => exact (exec_on hp _).trans (congrArg _ (s.transaction_other body ha))
  case arg => exact (hwrite 0x03 arg).trans (congrArg _ (State.stop_commandArg _ arg))
  case retire =>
    intro bankOk rowOk
    refine ⟨_, (hbytes 0x10 [bank, low, high]).trans (congrArg _ (State.stop_retire _ bank low high)),
      s.setLink_same _, rfl, fun h => ?_, fun h => if_neg h, fun h => ?_, fun h => if_neg h⟩
    · exact (congrArg Fin.val (if_pos h)).trans (Nat.mod_eq_of_lt (Nat.lt_succ_of_le h))
    · exact (congrArg Fin.val (if_pos h)).trans (Nat.mod_eq_of_lt (Nat.lt_succ_of_le h))
  case refused =>
    exact (hbytes 0x02 [code, arg, skipped, mask, limit]).trans (congrArg _ (State.stop_command_refused _ h))
  case low =>
    exact ⟨_, (hwrite 0x11 low).trans (congrArg _ (State.stop_retireRow_low _ low)), s.setLink_same _, rfl,
      Nat.mod_eq_of_lt (by omega)⟩
  case high =>
    refine ⟨_, (hwrite 0x12 high).trans (congrArg _ (State.stop_retireRow_high _ high)), s.setLink_same _, rfl,
      fun h => ?_, fun h => if_neg (Nat.not_le.2 h)⟩
    exact (congrArg Fin.val (if_pos h)).trans (Nat.mod_eq_of_lt (by omega))
  case table =>
    intro allowed
    have hallowed := selectable_iff table.toNat s.link.selectIndex
    refine ⟨_, (hwrite 0x17 table).trans (congrArg _ (State.stop_selectTable _ table hallowed)), s.setLink_same _, rfl,
      fun h => ?_, fun h => if_neg h⟩
    exact (congrArg Fin.val (if_pos h)).trans (Nat.mod_eq_of_lt (Nat.lt_succ_of_le (hallowed.2 h).1))
  case index =>
    intro allowed
    have hallowed : _ ↔ allowed := (selectable_iff s.link.selectTable.val index).trans (by
      simp only [allowed, Fin.ext_iff]
      rfl)
    exact (hwrite 0x18 index).trans (congrArg _ (State.stop_selectIndex _ index hallowed))
  case wrapped =>
    exact (registerWrite_exec hp i _).trans ((congrArg _ (s.linkWrite_wrapped i first other last hlen)).trans
      (registerWrite_exec hp i _).symm)
  case last =>
    have harg := byteAt_wrapped (indexOf 0x03) first last hlen 0x03
    exact ⟨_, hbytes 0x03 (first :: between ++ [last]), State.stop_arg harg _⟩
  case ack => exact (hbytes 0x02 [0x03, arg]).trans (congrArg _ (State.stop_ack_arg _ arg))
  case unknown => exact (hwrite 0x02 code).trans (congrArg _ (State.stop_command_unknown _ h))
  case read =>
    refine ⟨_, (exec_on hp _).trans (congrArg _ (s.transaction_read i n)), s.setLink_same _, rfl, ?_, ?_, fun k hk => ?_⟩
    · exact (congrArg BitVec.toNat (indexOf_add hi n)).trans (BitVec.toNat_ofNat ..)
    · exact (List.length_map _).trans List.length_range
    · rw [← indexOf_add hi k]
      exact (List.getElem?_map ..).trans (congrArg _ (List.getElem?_range hk))

end Sys2Proof.Machine

/-! # The step and the queue of commands (logs 1, 2, 20 and 21) -/

namespace Sys2Proof.Machine

theorem step_front {c : Instr} {rest : List Instr} {s : State} (h : s.pending = c :: rest) :
    step s = exec c (s.setPending rest) := by
  simp only [step, h]

theorem step_empty {s : State} (h : s.pending = []) : step s = .next (if s.powered then s.idle else s) := by
  simp only [step, h]

/-- Settles O1: the step by what stands in the queue, and on an empty queue by PWRGOOD. -/
theorem stepTakesFrontCommand : Obligations.StepTakesFrontCommand := by
  refine ⟨fun c rest s hfront => step_front hfront, fun s hempty hpower => ?on, fun s hempty hpower => ?off⟩
  case on => exact ⟨s.idle, (step_empty hempty).trans (by rw [if_pos hpower]), s.idle_same, rfl⟩
  case off => exact (step_empty hempty).trans (by simp [hpower])

/-- Settles O2: a next state is answered, and the frame of the command holds the queue. -/
theorem everyCommandAnswersNext : Obligations.EveryCommandAnswersNext := by
  intro c s
  obtain ⟨t, hnext⟩ := exec_next c s
  exact ⟨t, hnext, (exec_same hnext).pending⟩

end Sys2Proof.Machine
